-- ==== Sys2Proof/Word.lean ====
section
/-! DEFINITION. The word types of the device: 32-bit words at byte addresses (section 6.1), the byte, the field number,
and the 39-bit image of a stored word (32 data bits and a 7-bit check code, R154). -/

namespace Sys2Proof

/-- A 32-bit word of a request, of DRAM or of the control page. -/
abbrev Word := BitVec 32

/-- One byte of DRAM. -/
abbrev Byte := BitVec 8

/-- The byte enables of one word of a write (R134): bit i is byte i. -/
abbrev Enables := BitVec 4

/-- A field number or frame number (section 6.4): 32 bits, 0 meaning none. -/
abbrev FieldNo := BitVec 32

/-- The flips of a stored word against the word the port wrote: bits 0-31 data, bits 32-38 check code (R154). -/
abbrev Flips := BitVec 39

/-- A natural number as a word, its low 32 bits. -/
abbrev word (n : Nat) : Word := BitVec.ofNat 32 n

end Sys2Proof
end

