-- ==== Sys2Proof/Syntax.lean ====
section
/-! DEFINITION. The commands: one constructor of Instr for each row of spec/opcode_table.json, with its operands, and the requests the
two upstream masters present (R134). -/

namespace Sys2Proof

/-- The two upstream ports (section 2 of the scope file). -/
inductive Port where
  | capture
  | system
deriving DecidableEq, Repr

/-- One word of a write request with its byte enables (R134). -/
structure WriteWord where
  data : Word
  enables : Enables
deriving DecidableEq, Repr

/-- The kind of a request with what goes with it (R134): a read carries its word count, a write its words. -/
inductive RequestBody where
  | read (count : Nat)
  | write (words : List WriteWord)
deriving DecidableEq, Repr

/-- A request on either upstream port (R134). -/
structure Request where
  addr : Word
  body : RequestBody
  tag : BitVec 4
deriving DecidableEq, Repr

/-- A disturbance of one stored DRAM word from outside the device: the word at byte address 4 * index has the bits of flips inverted
(log entry 4). -/
structure Upset where
  index : Nat
  flips : Flips
deriving DecidableEq, Repr

/-- The two moments of a read burst of FILL, PROBE or the reload (R149): its grant, at which DRAM is read, and its return to the
requester. The table has one row for the two (log entry 5). The upsets are what befell DRAM before the grant. -/
inductive BurstPart where
  | grant (upsets : List Upset)
  | ret
deriving DecidableEq, Repr

/-- The two moments of a REPORT burst (R177): the point at which it is chosen, and its grant (log entry 6). -/
inductive ReportPart where
  | choose
  | grant
deriving DecidableEq, Repr

/-- The commands. Each constructor is one row of spec/opcode_table.json. -/
inductive Instr where
  /-- POWER_ON (R171), with the strap levels sampled (R159). -/
  | powerOn (dsize : BitVec 2) (cpage : BitVec 3)
  /-- WARM_RESET_ASSERT (R141). -/
  | warmResetAssert
  /-- RESET_RELEASE (R172), with the strap levels sampled (R159). -/
  | resetRelease (dsize : BitVec 2) (cpage : BitVec 3)
  /-- RELOAD_BURST_RETURN (R172). -/
  | reloadBurstReturn (part : BurstPart)
  /-- CAPTURE_ARRIVAL (R135). -/
  | captureArrival (request : Request)
  /-- CAPTURE_REQUEST_TAKE (R136). -/
  | captureRequestTake
  /-- STALL_TIMER_EXPIRY (R18). -/
  | stallTimerExpiry
  /-- SYSTEM_ARRIVAL (R135). -/
  | systemArrival (request : Request)
  /-- SYSTEM_REQUEST_TAKE (R137). -/
  | systemRequestTake
  /-- OUTPUT_READ_TAKE (R124). -/
  | outputReadTake
  /-- CONTROL_PAGE_WRITE (R161). -/
  | controlPageWrite
  /-- HOLD_WORD_WRITE (R164). -/
  | holdWordWrite
  /-- CLEAR_OCCURRED_BITS (R175). -/
  | clearOccurredBits
  /-- CLEAR_FIRST_FAULT_RECORD (R156). -/
  | clearFirstFaultRecord
  /-- REPORT_READ_INDEX_WRITE (R176). -/
  | reportReadIndexWrite
  /-- REPORT_MASK_WRITE (R175). -/
  | reportMaskWrite
  /-- WITHDRAWAL (R140), with the tag the host signals. -/
  | withdrawal (tag : BitVec 4)
  /-- OUTPUT_READ_DATA (R130): the next count words of the response return. -/
  | outputReadData (count : Nat)
  /-- PASS_THROUGH_READ_RESPONSE (R139): the next count words of the response return on a port. -/
  | passThroughReadResponse (port : Port) (count : Nat)
  /-- REFUSED_READ_RESPONSE (R139), on a port. -/
  | refusedReadResponse (port : Port)
  /-- CAPTURE_BURST_GRANT (R149), with the upsets that befell DRAM before it. -/
  | captureBurstGrant (upsets : List Upset)
  /-- SYSTEM_BURST_GRANT (R149), with the upsets that befell DRAM before it. -/
  | systemBurstGrant (upsets : List Upset)
  /-- FILL_BURST_RETURN (R125). -/
  | fillBurstReturn (part : BurstPart)
  /-- PROBE_BURST_RETURN (R45). -/
  | probeBurstReturn (part : BurstPart)
  /-- REFRESH_GRANT (R157). -/
  | refreshGrant
  /-- RECORD_BURST_GRANT (R177). -/
  | recordBurstGrant (part : ReportPart)
  /-- STATUS_BLOCK_GRANT (R178). -/
  | statusBlockGrant (part : ReportPart)
  /-- REFRESH_INTERVAL_EXPIRY (R158). -/
  | refreshIntervalExpiry
  /-- REFRESH_REQ_EDGE (R158). -/
  | refreshReqEdge
deriving DecidableEq, Repr

end Sys2Proof
end

