-- ==== Sys2Proof/Decode.lean ====
section
/-! DEFINITION. The command a word spells by the bits of spec/opcode_table.json. No row of this hardware's table gives bits
(its rows are events and port operations, their "fields" empty), so no word spells a command (log entry 2). -/

namespace Sys2Proof

/-- The command that w spells in nbits bits: the table gives no row bits, so none. -/
def decodeTableWord (_nbits _w : Nat) : Option Instr := none

end Sys2Proof
end

