-- ==== Sys2Proof/Config.lean ====
section
/-! DEFINITION. What is fixed for the device (queue depths, counts, defaults, each with its rule), and the free values: constants
without a body for what the spec leaves open. -/

namespace Sys2Proof.Config

/-- R135: positions of the capture queue. -/
def captureDepth : Nat := 16
/-- R135: positions of the system queue. -/
def systemDepth : Nat := 8
/-- R129: output reads counted at a time. -/
def outputLimit : Nat := 4
/-- R118: line-store entries. -/
def storeEntries : Nat := 64
/-- R149: words of the longest burst. -/
def burstWords : Nat := 32
/-- R173: records the report queue holds. -/
def recordDepth : Nat := 8
/-- R150: the greatest occupancy of the capture queue at which the PROBE gate is open. -/
def probeGate : Nat := 4
/-- R40: probe lines pending at a time. -/
def pendingProbes : Nat := 2
/-- R153: the starvation count at which a requester is starved. -/
def starved : Nat := 64
/-- R157: the pending refresh count at which a refresh is urgent. -/
def refreshUrgent : Nat := 8
/-- R17: the stall limit named as default. -/
def defaultStallLimit : Nat := 21
/-- R158, R171: the interval named as default, in REFCLK ticks. -/
def defaultInterval : Nat := 210
/-- R102, R104: the luma fill value where no output group is working. -/
def defaultFillY : Nat := 64
/-- R102, R104: the chroma fill value where no output group is working. -/
def defaultFillC : Nat := 512
/-- R1: the greatest line count. -/
def maxLines : Nat := 320
/-- R21: measured fields after which acquisition gives up. -/
def maxMeasured : Nat := 8

/-- R162: the words of the control page. -/
def pageWords : Nat := 1024

/-- FREE VALUE (log entry 1, DESIGN CHOICE). SETTING_REFUSED carries 'the offending value' and its address (R168, section 11.6), and a
check over several settings does not say which of them that is. The choice is this function of the group, the check number and the
values of the settings the failing test reads: nothing is known of it. -/
opaque offender (group check : Nat) (values : List Word) : Nat

end Sys2Proof.Config
end

