-- ==== Sys2Proof/Machine/State.lean ====
section
/-! DEFINITION. The state of the device, block by block as section 3 of the scope file lists them, every piece of it plain data, and
its values after power-on and after warm RESET. -/

namespace Sys2Proof.Machine

/-! ### Reasons to stop -/

/-- The reasons a command stops with a fault. -/
inductive Fault where
  /-- Raised by the take of an output read (R123) when a line missing from the store finds neither an EMPTY entry nor an entry in the
  LRU order. The rule says every miss finds one, so no run from reset comes here (log entry 3). Safe: the model stops. -/
  | noAllocatableEntry
deriving DecidableEq, Repr

/-- The reasons a command is refused. -/
inductive Refusal where
  /-- Raised by exec's arm of a command without a meaning, by its mnemonic. No arm of this model raises it. Safe: the model stops. -/
  | notModelled (mnemonic : String)
deriving DecidableEq, Repr

/-! ### DRAM (chapter 9) -/

/-- The frame DRAM: the stored bytes, sparse with 0 unlisted, and for each word index the flips of its stored image against the word
and check code the port wrote, sparse with none unlisted (R154, R155, log entries 4, 7, 8). -/
structure Memory where
  bytes : List Host.Cell
  flips : List (Nat × Flips)
deriving DecidableEq, Repr

/-! ### Field history (chapter 2) -/

/-- Field parity (section 6.3). -/
inductive Parity where
  | top
  | bottom
deriving DecidableEq, Repr

/-- The state of a field record (R27). -/
inductive FieldState where
  | filling
  | complete
  | cut
deriving DecidableEq, Repr

/-- The final state of a line (R14). -/
inductive LineState where
  | missing
  | slipped
  | dropout
  | short
  | held
  | overlong
  | good
deriving DecidableEq, Repr

/-- One entry of a line map (R28). -/
structure LineEntry where
  extent : Nat
  overlong : Bool
  tagWritten : Bool
  tag : Word
  final : Option LineState
deriving DecidableEq, Repr

/-- The continuity set of a record (R7); CONTINUOUS is the empty set. -/
structure Continuity where
  first : Bool
  gap : Bool
  parityRepeat : Bool
  afterCut : Bool
deriving DecidableEq, Repr

/-- The metrics part of a record (R29), each metric optional on its own. -/
structure Metrics where
  repeatMetric : Option Nat
  combMetric : Option Nat
deriving DecidableEq, Repr

/-- The kind and position of a cadence label (R29): LEAD or TRAIL for 2:2, 0..4 for 3:2. -/
inductive Position32 where
  | lead
  | trail
  | film (p : Nat)
deriving DecidableEq, Repr

/-- A cadence label (R29). -/
structure CadenceLabel where
  episode : Nat
  position : Position32
deriving DecidableEq, Repr

/-- A set of plan roles (R31). -/
structure Roles where
  anchor : Bool
  partner : Bool
  anchor2 : Bool
  partner2 : Bool
deriving DecidableEq, Repr

/-- A field record (R27). While FILLING its line map is the one the ingest monitor keeps (R28). -/
structure FieldRecord where
  number : FieldNo
  slot : Nat
  captureCount : Word
  parity : Parity
  tagsPresent : Bool
  state : FieldState
  stalled : Bool
  continuity : Continuity
  lines : List LineEntry
  metrics : Option Metrics
  label : Option CadenceLabel
  referenced : Roles
deriving DecidableEq, Repr

/-- The field history (R24): records oldest first, and the next field number. -/
structure History where
  records : List FieldRecord
  next : FieldNo
deriving DecidableEq, Repr

/-! ### Ingest monitor (chapter 1) -/

/-- The last-admission note (R7); field is the number of the record it describes. -/
structure AdmissionNote where
  field : FieldNo
  captureCount : Word
  parity : Parity
  closedCut : Bool
deriving DecidableEq, Repr

/-- The acquisition state (R3). -/
inductive Acquisition where
  | off
  | acquiring
  | acquired
  | failed
deriving DecidableEq, Repr

/-- A measurement in progress (R3, R20). -/
structure Measurement where
  slot : Nat
  captureCount : Word
  extents : List Nat
deriving DecidableEq, Repr

/-- The ingest monitor's own state (R3). The filling field, its header and its line map stand in the FILLING record of the history;
activity is computed (log entry 9). -/
structure Monitor where
  note : Option AdmissionNote
  timerRunning : Bool
  timerCount : Nat
  acquisition : Acquisition
  measurement : Option Measurement
  measuredFields : Nat
  previousCount : Option Nat
  acquiredL : Nat
deriving DecidableEq, Repr

/-! ### Probe unit (chapter 3) -/

/-- Why a probe line is INVALID (R40). -/
inductive InvalidReason where
  | skipped
  | checkFailed
  | referenceLost
  | openAtClose
deriving DecidableEq, Repr

/-- The status of a probe line (R40). -/
inductive ProbeStatus where
  | waiting
  | notRun
  | pending
  | done
  | invalid (reason : InvalidReason)
deriving DecidableEq, Repr

/-- A probe-table entry (R40). -/
structure ProbeEntry where
  line : Nat
  status : ProbeStatus
  repeatSum : Nat
  combSum : Nat
deriving DecidableEq, Repr

/-- Which line a probe fetch reads (R44); combBoth where both comb indices clamp to one line. -/
inductive ProbeRole where
  | own
  | repeatRef
  | combUpper
  | combLower
  | combBoth
deriving DecidableEq, Repr

/-- The fetch of one line for a probe line (R44): its base address and width, the extent when the reference line is HELD, the words
granted, and the words returned so far. -/
structure ProbeFetch where
  role : ProbeRole
  line : Nat
  base : Nat
  width : Nat
  held : Option Nat
  granted : Nat
  words : List Word
deriving DecidableEq, Repr

/-- A line of the pending-probe list with its fetches (R43, R44). -/
structure PendingProbe where
  line : Nat
  fetches : List ProbeFetch
deriving DecidableEq, Repr

/-- A granted probe burst whose data has not returned yet. -/
structure ProbeReturn where
  line : Nat
  role : ProbeRole
  words : List Word
  failed : Bool
deriving DecidableEq, Repr

/-- The probe field (R40). -/
structure ProbeField where
  number : FieldNo
  slot : Nat
  parity : Parity
deriving DecidableEq, Repr

/-- The probe unit (R40); inFlight holds granted bursts not yet returned. -/
structure ProbeUnit where
  field : Option ProbeField
  combRef : Option FieldNo
  repeatRef : Option FieldNo
  combLost : Bool
  repeatLost : Bool
  table : List ProbeEntry
  pending : List PendingProbe
  inFlight : List ProbeReturn
deriving DecidableEq, Repr

/-! ### Cadence detector (chapter 3) -/

/-- The cadence mode (R50). -/
inductive CadenceMode where
  | video
  | locked22
  | locked32
deriving DecidableEq, Repr

/-- The cadence detector (R50). -/
structure Cadence where
  mode : CadenceMode
  episode : Nat
  c22 : Nat
  ph22 : Nat
  repeats : List FieldNo
  nextPosition : Nat
deriving DecidableEq, Repr

/-! ### Frame planner (chapter 4) -/

/-- One coefficient row (R111), in units of 1/256. -/
structure CoefRow where
  c0 : Int
  c1 : Int
  c2 : Int
  c3 : Int
deriving DecidableEq, Repr

/-- The geometry snapshot (R74). -/
structure Snapshot where
  width : Nat
  rows : Nat
  wo : Nat
  ho : Nat
  pitch : Nat
  x0 : Nat
  y0 : Nat
  wi : Nat
  hi : Nat
  fillY : Nat
  fillC : Nat
  tLo : Nat
  tHi : Nat
  coefs : List CoefRow
  vStep : Int
  vOffset : Int
  hStep : Int
  lumaOffset : Int
  chromaOffset : Int
deriving DecidableEq, Repr

/-- How the missing rows of a frame are made (R63). -/
inductive Method where
  | weave
  | blend
  | spatial
  | fill
deriving DecidableEq, Repr

/-- The anchor role (R63). -/
structure AnchorRole where
  field : FieldNo
  slot : Nat
  parity : Parity
deriving DecidableEq, Repr

/-- The partner role (R63); after says the offset is +1, else -1. -/
structure PartnerRole where
  field : FieldNo
  after : Bool
deriving DecidableEq, Repr

/-- The record of an OPEN plan (R63). -/
structure Plan where
  method : Method
  repeated : Bool
  anchor : Option AnchorRole
  partner : Option PartnerRole
  anchor2 : Option FieldNo
  partner2 : Option FieldNo
  anchorLost : Bool
  partnerLost : Bool
  motionLost : Bool
  snapshot : Snapshot
deriving DecidableEq, Repr

/-- The frame planner (R62); a plan of none is NONE. -/
structure Planner where
  plan : Option Plan
  frame : FieldNo
  laterRow : Bool
  previousAnchor : FieldNo
deriving DecidableEq, Repr

/-! ### Line store (chapter 7) -/

/-- The state of a line-store entry (R118). -/
inductive EntryState where
  | empty
  | filling
  | valid
  | poisoned
  | void
deriving DecidableEq, Repr

/-- The tag of a line-store entry (R118). -/
structure LineTag where
  slot : Nat
  field : FieldNo
  line : Nat
deriving DecidableEq, Repr

/-- The fill in flight for an entry (R125): where its line begins, its width, and how many of its words have been granted. -/
structure Fill where
  base : Nat
  width : Nat
  granted : Nat
deriving DecidableEq, Repr

/-- A line-store entry (R118). -/
structure StoreEntry where
  tag : Option LineTag
  state : EntryState
  useCount : Nat
  data : List Word
  fill : Option Fill
deriving DecidableEq, Repr

/-- A granted fill burst whose data has not returned yet. -/
structure FillReturn where
  entry : Nat
  words : List Word
  failed : Bool
deriving DecidableEq, Repr

/-- The line store and fetch engine (R118): the entries, the LRU order oldest first, the outstanding fills in order of issue, the
granted bursts not yet returned, and for each withdrawn read still counted the entries whose fills it waits for (R129). -/
structure LineStore where
  entries : List StoreEntry
  lru : List Nat
  fillQueue : List Nat
  inFlight : List FillReturn
  withdrawn : List (List Nat)
deriving DecidableEq, Repr

/-! ### Ports (chapter 8) -/

/-- The status of a response (R139). -/
inductive Status where
  | ok
  | accessError
  | addressError
  | dataError
deriving DecidableEq, Repr

/-- The role under which a read draws on a line (R84). -/
inductive SourceRole where
  | anchor
  | partner
  | partner2
  | anchor2
deriving DecidableEq, Repr

/-- One line of a read's need set with the entry that holds it and, for a HELD line, its extent (R121, R122). -/
structure NeedLine where
  role : SourceRole
  line : Nat
  entry : Nat
  held : Option Nat
deriving DecidableEq, Repr

/-- A taken output read: its class, its plan copy (R75), the offset of its first word in the OUTPUT window at its take, the fill values
for a copy that is NONE (R104), its need set, its computed words, and how many have returned. -/
structure OutputRead where
  deferred : Bool
  plan : Option Plan
  offset : Nat
  fillY : Nat
  fillC : Nat
  need : List NeedLine
  words : Option (List Word)
  returned : Nat
deriving DecidableEq, Repr

/-- Where a queued request stands. The order is its place in take order over both ports (R137, R152). -/
inductive Progress where
  | untaken
  | held
  | writeTaken (order : Nat) (words : List WriteWord)
  | readTaken (order : Nat)
  | readGranted (order : Nat) (words : List Word) (failed : Bool) (returned : Nat)
  | readRefused (order : Nat) (status : Status)
  | outputTaken (order : Nat) (read : OutputRead)
deriving DecidableEq, Repr

/-- A queue position (R135). -/
structure QueuePosition where
  request : Request
  progress : Progress
deriving DecidableEq, Repr

/-- A take acknowledgement (R138): a write's status, or a read's class. -/
inductive AckBody where
  | writeStatus (status : Status)
  | readClass (deferred : Bool)
deriving DecidableEq, Repr

/-- A take acknowledgement with its tag (R138). -/
structure Ack where
  tag : BitVec 4
  body : AckBody
deriving DecidableEq, Repr

/-- A response, or a part of one, that has left a port (R139); last says that its last word is in it. -/
structure Response where
  tag : BitVec 4
  status : Status
  words : List Word
  last : Bool
deriving DecidableEq, Repr

/-- An upstream port: its queue, oldest first (R135), and what has left it (log entry 10). -/
structure PortState where
  queue : List QueuePosition
  acks : List Ack
  responses : List Response
deriving DecidableEq, Repr

/-! ### Request router (chapter 8) -/

/-- The kind of a window (R142). -/
inductive WindowKind where
  | off
  | fieldRing
  | output
  | status
  | guard
deriving DecidableEq, Repr

/-- One entry of the window table (R142). -/
structure WindowEntry where
  base : Nat
  size : Nat
  kind : WindowKind
deriving DecidableEq, Repr

/-! ### Memory port (chapter 9) -/

/-- The six requesters (R149). -/
inductive Requester where
  | refresh
  | capture
  | fill
  | system
  | probe
  | report
deriving DecidableEq, Repr

/-- The transfers of a check condition (R155). -/
inductive Transfer where
  | read
  | merge
  | reload
deriving DecidableEq, Repr

/-- The starvation counts (R153). -/
structure Starvation where
  fill : Nat
  system : Nat
  probe : Nat
  refresh : Nat
  report : Nat
deriving DecidableEq, Repr

/-- The first-fault record when valid (R156). -/
structure FirstFault where
  addr : Word
  requester : Requester
  transfer : Transfer
  multi : Bool
deriving DecidableEq, Repr

/-- The memory port's own state (R153, R156, R157, R158). -/
structure MemPort where
  starvation : Starvation
  firstFault : Option FirstFault
  refreshPending : Nat
  intervalCount : Nat
deriving DecidableEq, Repr

/-! ### Settings unit (chapter 10) -/

/-- The memory group (R158). -/
structure MemoryGroup where
  coupled : Bool
  interval : Nat
deriving DecidableEq, Repr

/-- The ingest group as loaded (R168); l is 0 for AUTO. -/
structure IngestGroup where
  w : Nat
  l : Nat
  k : Nat
  slotPitch : Nat
  linePitch : Nat
  stallLimit : Nat
  e22 : Nat
  allow22 : Bool
  allow32 : Bool
  floorF : Nat
  thresholdR : Nat
deriving DecidableEq, Repr

/-- The method override (R70). -/
inductive Override where
  | auto
  | noWeave
  | spatialOnly
deriving DecidableEq, Repr

/-- The output group as loaded (R169). -/
structure OutputGroup where
  wo : Nat
  ho : Nat
  pitch : Nat
  x0 : Nat
  y0 : Nat
  wi : Nat
  hi : Nat
  fillY : Nat
  fillC : Nat
  tLo : Nat
  tHi : Nat
  override : Override
  custom : Bool
deriving DecidableEq, Repr

/-- The settings unit (R161, R171): the pending copy by word index, sparse with 0 unlisted, the pending flags and the working groups
but the window table. -/
structure Settings where
  copy : List (Nat × Word)
  memoryPending : Bool
  windowPending : Bool
  ingestPending : Bool
  outputPending : Bool
  memory : MemoryGroup
  ingest : Option IngestGroup
  output : Option OutputGroup
  customRows : List CoefRow
deriving DecidableEq, Repr

/-! ### Condition unit (chapter 11) -/

/-- What the REPORT requester has chosen to present (R177). -/
inductive ReportChoice where
  | record
  | status
deriving DecidableEq, Repr

/-- The condition unit (R173), with the burst REPORT has chosen and not yet been granted (R177). -/
structure ConditionUnit where
  occurred : BitVec 20
  mask : BitVec 20
  readIndex : BitVec 6
  writeIndex : BitVec 6
  queue : List (List Word)
  statusPending : Bool
  blockNumber : Word
  chosen : Option ReportChoice
deriving DecidableEq, Repr

/-! ### The whole -/

/-- The straps as last sampled (R159). -/
structure Straps where
  dsize : BitVec 2
  cpage : BitVec 3
deriving DecidableEq, Repr

/-- The reload of the control page (R172): bursts granted, bursts returned, and the words of granted bursts not yet returned. -/
structure Reload where
  granted : Nat
  returned : Nat
  inFlight : List (List Word)
deriving DecidableEq, Repr

/-- Where the device stands with RESET (R141): running, RESET asserted, or reloading after its release. -/
inductive Phase where
  | running
  | asserted
  | reloading (r : Reload)
deriving DecidableEq, Repr

/-- The state of the device, and the queue of commands waiting to be executed. -/
structure State where
  pending : List Instr
  phase : Phase
  straps : Straps
  capture : PortState
  system : PortState
  takes : Nat
  windows : List WindowEntry
  monitor : Monitor
  history : History
  probe : ProbeUnit
  cadence : Cadence
  planner : Planner
  store : LineStore
  memPort : MemPort
  settings : Settings
  cond : ConditionUnit
  dram : Memory
deriving DecidableEq, Repr

/-! ### Reset values -/

/-- R3: the monitor after either reset. -/
def Monitor.reset : Monitor :=
  { note := none, timerRunning := false, timerCount := 0, acquisition := .off, measurement := none, measuredFields := 0,
    previousCount := none, acquiredL := 0 }

/-- R24, R36: the history after either reset. -/
def History.reset : History := { records := [], next := 1 }

/-- R40: the probe unit after either reset. -/
def ProbeUnit.reset : ProbeUnit :=
  { field := none, combRef := none, repeatRef := none, combLost := false, repeatLost := false, table := [], pending := [],
    inFlight := [] }

/-- R50: the detector after either reset. -/
def Cadence.reset : Cadence := { mode := .video, episode := 0, c22 := 0, ph22 := 0, repeats := [], nextPosition := 0 }

/-- R62: the planner after either reset. -/
def Planner.reset : Planner := { plan := none, frame := 0, laterRow := false, previousAnchor := 0 }

/-- R118: an EMPTY entry. -/
def StoreEntry.empty : StoreEntry := { tag := none, state := .empty, useCount := 0, data := [], fill := none }

/-- R118: the line store after either reset. -/
def LineStore.reset : LineStore :=
  { entries := List.replicate Config.storeEntries StoreEntry.empty, lru := [], fillQueue := [], inFlight := [], withdrawn := [] }

/-- R142: a window table with every entry OFF. The spec gives the kind alone: base 0 and size 0 are the model's choice (log entry 38). -/
def windowsOff : List WindowEntry := List.replicate 8 { base := 0, size := 0, kind := .off }

/-- R111: the DEFAULT row of phase p. -/
def CoefRow.default (p : Nat) : CoefRow := { c0 := 0, c1 := 256 - 16 * p, c2 := 16 * p, c3 := 0 }

/-- R111: the sixteen DEFAULT rows. -/
def defaultRows : List CoefRow := (List.range 16).map CoefRow.default

/-- R173: the condition unit after either reset. -/
def ConditionUnit.reset : ConditionUnit :=
  { occurred := 0, mask := 0, readIndex := 0, writeIndex := 0, queue := [], statusPending := false, blockNumber := 0,
    chosen := none }

/-- R171: the settings unit after power-on. -/
def Settings.powerOn : Settings :=
  { copy := [], memoryPending := false, windowPending := false, ingestPending := false, outputPending := false,
    memory := { coupled := false, interval := Config.defaultInterval }, ingest := none, output := none,
    customRows := defaultRows }

/-- R160: the memory port after power-on. -/
def MemPort.powerOn : MemPort :=
  { starvation := { fill := 0, system := 0, probe := 0, refresh := 0, report := 0 }, firstFault := none, refreshPending := 0,
    intervalCount := 0 }

/-- A port with an empty queue from which nothing has left. -/
def PortState.empty : PortState := { queue := [], acks := [], responses := [] }

/-- R171: the device after power-on with the straps sampled. DRAM lists nothing (log entry 7). -/
def State.powerOn (dsize : BitVec 2) (cpage : BitVec 3) : State :=
  { pending := [], phase := .running, straps := { dsize := dsize, cpage := cpage }, capture := PortState.empty,
    system := PortState.empty, takes := 0, windows := windowsOff, monitor := Monitor.reset, history := History.reset,
    probe := ProbeUnit.reset, cadence := Cadence.reset, planner := Planner.reset, store := LineStore.reset,
    memPort := MemPort.powerOn, settings := Settings.powerOn, cond := ConditionUnit.reset,
    dram := { bytes := [], flips := [] } }

/-- The device right after power-on with both strap groups at 0 (log entry 11). -/
def State.reset : State := State.powerOn 0 0

end Sys2Proof.Machine
end

