-- ==== Sys2Proof/Machine/Ops.lean ====
section
/-! DEFINITION. The shared operations: bit fields and arithmetic (section 6.7), field numbers (section 6.4, R24), the sparse lists, and
DRAM with its check code (R154, R155). -/

namespace Sys2Proof.Machine

/-! ### Bit fields and arithmetic -/

/-- The n bits of w from bit lo up, as a number. -/
def bits (w : Word) (lo n : Nat) : Nat := w.toNat / 2 ^ lo % 2 ^ n

/-- Section 6.7: x limited to lo..hi. -/
def clampNat (x lo hi : Nat) : Nat := max lo (min x hi)

/-- Section 6.7: x limited to lo..hi. -/
def clampInt (x lo hi : Int) : Int := max lo (min x hi)

/-- |a - b|. -/
def absDiff (a b : Nat) : Nat := (a - b) + (b - a)

/-- The signed value of a 16-bit field (R112). -/
def signed16 (n : Nat) : Int := (BitVec.ofNat 16 n).toInt

/-- A number as a 16-bit field (R180). -/
def field16 (x : Int) : Nat := (BitVec.ofInt 16 x).toNat

/-- Two 16-bit counts packed in a word, the first in bits 0-15 (section 11.6). -/
def pack16 (a b : Nat) : Word := word (a % 65536 + b % 65536 * 65536)

/-- The byte address of the first word of an address: bits 0 and 1 are ignored (R134). -/
def wordBase (a : Word) : Nat := a.toNat / 4 * 4

/-- 1 for yes, 0 for no. -/
def flag (b : Bool) : Nat := if b then 1 else 0

/-! ### Field numbers -/

/-- R24: the number after n, from 2^32-1 to 1. -/
def FieldNo.succ (n : FieldNo) : FieldNo := if n = 4294967295#32 then 1#32 else n + 1#32

/-- R26: the number before n, from 1 to 2^32-1. -/
def FieldNo.pred (n : FieldNo) : FieldNo := if n = 1#32 then 4294967295#32 else n - 1#32

/-- The other parity (R82). -/
def Parity.other : Parity → Parity
  | .top => .bottom
  | .bottom => .top

/-- Section 6.3: TOP is 0, BOTTOM is 1. -/
def Parity.toNat : Parity → Nat
  | .top => 0
  | .bottom => 1

/-- R7: CONTINUOUS is the empty set. -/
def Continuity.continuous (c : Continuity) : Bool := !c.first && !c.gap && !c.parityRepeat && !c.afterCut

/-- R14: the usable final states. -/
def LineState.usable : LineState → Bool
  | .held => true
  | .overlong => true
  | .good => true
  | .missing => false
  | .slipped => false
  | .dropout => false
  | .short => false

/-- R28: a line is usable when it has a final state and that is usable. -/
def LineEntry.usable (e : LineEntry) : Bool :=
  match e.final with
  | some f => f.usable
  | none => false

/-- R15: the extent of a HELD line, at which its tail rule starts. -/
def LineEntry.heldExtent (e : LineEntry) : Option Nat := if e.final = some .held then some e.extent else none

/-- R30: a record that is COMPLETE or CUT. -/
def FieldRecord.closed (r : FieldRecord) : Bool := r.state ≠ .filling

/-- R27: a record is CONTINUOUS when its continuity set is empty. -/
def FieldRecord.continuous (r : FieldRecord) : Bool := r.continuity.continuous

/-- No role. -/
def Roles.empty : Roles := { anchor := false, partner := false, anchor2 := false, partner2 := false }

/-! ### Lists -/

/-- The first element that meets p, with what stands before and after it. -/
def pickFirst {α : Type} (p : α → Bool) : List α → Option (List α × α × List α)
  | [] => none
  | x :: rest =>
    if p x then some ([], x, rest)
    else match pickFirst p rest with
      | some (before, y, after) => some (x :: before, y, after)
      | none => none

/-- The list with f applied to its element at index i. -/
def modifyAt {α : Type} (f : α → α) : List α → Nat → List α
  | [], _ => []
  | x :: rest, 0 => f x :: rest
  | x :: rest, n + 1 => x :: modifyAt f rest n

/-- The element of least key among those that have one, the first on a tie. -/
def leastBy {α : Type} (key : α → Option Nat) : List α → Option α
  | [] => none
  | x :: rest =>
    match key x, leastBy key rest with
    | none, best => best
    | some _, none => some x
    | some k, some y => if k ≤ (key y).getD 0 then some x else some y

/-! ### Sparse lists -/

/-- What a sparse list holds at key a, dflt where it lists nothing. -/
def sparseGet {α : Type} (dflt : α) : List (Nat × α) → Nat → α
  | [], _ => dflt
  | (k, v) :: rest, a => if a = k then v else sparseGet dflt rest a

/-- A sparse list with v at key a, in canonical form. -/
def sparseSet {α : Type} [DecidableEq α] (dflt : α) : List (Nat × α) → Nat → α → List (Nat × α)
  | [], a, v => if v = dflt then [] else [(a, v)]
  | (k, w) :: rest, a, v =>
    if a < k then (if v = dflt then (k, w) :: rest else (a, v) :: (k, w) :: rest)
    else if a = k then (if v = dflt then rest else (a, v) :: rest)
    else (k, w) :: sparseSet dflt rest a v

/-- The canonical form: keys strictly rising, no entry equal to what an unlisted key holds. -/
abbrev sparseWf {α : Type} [DecidableEq α] (dflt : α) (l : List (Nat × α)) : Prop :=
  l.Pairwise (fun p q => p.1 < q.1) ∧ ∀ p ∈ l, p.2 ≠ dflt

/-! ### DRAM -/

/-- What an unlisted DRAM byte reads as (log entry 7). -/
def unlistedByte : Byte := 0

/-- The stored byte at an address. -/
def Memory.readByte (m : Memory) (a : Nat) : Byte := sparseGet unlistedByte m.bytes a

/-- DRAM in canonical form. -/
abbrev Memory.wf (m : Memory) : Prop := sparseWf unlistedByte m.bytes ∧ sparseWf (0 : Flips) m.flips

/-- The stored word at a word index, byte i at address 4 * index + i (log entry 8). -/
def Memory.readRaw (m : Memory) (index : Nat) : Word :=
  m.readByte (4 * index + 3) ++ m.readByte (4 * index + 2) ++ m.readByte (4 * index + 1) ++ m.readByte (4 * index)

/-- DRAM with a word stored at a word index; its check code is not touched. -/
def Memory.writeRaw (m : Memory) (index : Nat) (w : Word) : Memory :=
  { m with
    bytes :=
      sparseSet unlistedByte
        (sparseSet unlistedByte
          (sparseSet unlistedByte
            (sparseSet unlistedByte m.bytes (4 * index) (w.extractLsb' 0 8))
            (4 * index + 1) (w.extractLsb' 8 8))
          (4 * index + 2) (w.extractLsb' 16 8))
        (4 * index + 3) (w.extractLsb' 24 8) }

/-- The flips of the stored image of a word. -/
def Memory.flipsAt (m : Memory) (index : Nat) : Flips := sparseGet 0 m.flips index

/-- How many bits of a stored image are in error. -/
def flipCount (f : Flips) : Nat := (List.range 39).countP (fun i => f.getLsbD i)

/-- R155: what the check says of a word read. -/
inductive CheckResult where
  | clean
  | corrected
  | failed
deriving DecidableEq, Repr

/-- R155: a word read from DRAM, corrected where one bit is in error, as stored where more are. -/
def Memory.readChecked (m : Memory) (index : Nat) : Word × CheckResult :=
  let f := m.flipsAt index
  if f = 0 then (m.readRaw index, .clean)
  else if flipCount f = 1 then (m.readRaw index ^^^ f.extractLsb' 0 32, .corrected)
  else (m.readRaw index, .failed)

/-- R154: a word written with a new check code. -/
def Memory.writeCoded (m : Memory) (index : Nat) (w : Word) : Memory :=
  { (m.writeRaw index w) with flips := sparseSet 0 m.flips index 0 }

/-- Replaces the enabled bytes of old by those of w (R154, R161). -/
def mergeBytes (old w : Word) (e : Enables) : Word :=
  let byte (i : Nat) : Byte := if e.getLsbD i then w.extractLsb' (8 * i) 8 else old.extractLsb' (8 * i) 8
  byte 3 ++ byte 2 ++ byte 1 ++ byte 0

/-- R154: a word of a write burst, by its enables: written, left, or merged into the checked stored word. -/
def Memory.writeWord (m : Memory) (index : Nat) (w : WriteWord) : Memory × CheckResult :=
  if w.enables = 15#4 then (m.writeCoded index w.data, .clean)
  else if w.enables = 0#4 then (m, .clean)
  else
    match m.readChecked index with
    | (_, .failed) => (m, .failed)
    | (old, check) => (m.writeCoded index (mergeBytes old w.data w.enables), check)

/-- R154: a write burst from a word index up, with the check result of each word. -/
def Memory.writeBurst (m : Memory) (index : Nat) : List WriteWord → Memory × List CheckResult
  | [] => (m, [])
  | w :: rest =>
    let (m1, c) := m.writeWord index w
    let (m2, cs) := m1.writeBurst (index + 1) rest
    (m2, c :: cs)

/-- R155: a read burst of count words from a word index up, with the check result of each word. -/
def Memory.readBurst (m : Memory) (index count : Nat) : List (Word × CheckResult) :=
  (List.range count).map (fun i => m.readChecked (index + i))

/-- A burst of whole words with new check codes (the REPORT writes, R154). -/
def Memory.writeWhole (m : Memory) (index : Nat) : List Word → Memory
  | [] => m
  | w :: rest => (m.writeCoded index w).writeWhole (index + 1) rest

/-- A disturbance of a stored word from outside (log entry 4). -/
def Memory.disturb (m : Memory) (u : Upset) : Memory :=
  { (m.writeRaw u.index (m.readRaw u.index ^^^ u.flips.extractLsb' 0 32)) with
    flips := sparseSet 0 m.flips u.index (m.flipsAt u.index ^^^ u.flips) }

/-- Disturbances in order. -/
def Memory.disturbAll (m : Memory) (us : List Upset) : Memory := us.foldl Memory.disturb m

end Sys2Proof.Machine
end

