-- ==== Sys2Proof/Machine/Flags.lean ====
section
/-! DEFINITION. The conditions and what an occurrence does: the occurred bits, the report queue, ATTENTION, the scheduling of status
writes (chapter 11) and the first-fault record (R156). -/

namespace Sys2Proof.Machine

/-! ### Codings of section 11.6 -/

/-- The reasons of a refusal, in the order of R146's table. -/
inductive Reason where
  | beyondAddressSpace
  | spansRegions
  | ringWriteFromSystem
  | outputFromCapture
  | writeToOutput
  | writeToStatus
  | writeToGuard
  | controlFromCapture
  | beyondDram
  | spansSlots
  | closedSlot
  | vacantSlot
deriving DecidableEq, Repr

/-- The number of a reason (section 11.6, code 15). -/
def Reason.code : Reason → Nat
  | .beyondAddressSpace => 1
  | .spansRegions => 2
  | .ringWriteFromSystem => 3
  | .outputFromCapture => 4
  | .writeToOutput => 5
  | .writeToStatus => 6
  | .writeToGuard => 7
  | .controlFromCapture => 8
  | .beyondDram => 9
  | .spansSlots => 10
  | .closedSlot => 11
  | .vacantSlot => 12

/-- R146: the status a reason gives. -/
def Reason.status : Reason → Status
  | .beyondAddressSpace => .addressError
  | .beyondDram => .addressError
  | .spansRegions => .accessError
  | .ringWriteFromSystem => .accessError
  | .outputFromCapture => .accessError
  | .writeToOutput => .accessError
  | .writeToStatus => .accessError
  | .writeToGuard => .accessError
  | .controlFromCapture => .accessError
  | .spansSlots => .accessError
  | .closedSlot => .accessError
  | .vacantSlot => .accessError

/-- R146, R180: the source block of a refusal, 1 the router, 2 the ingest monitor. -/
def Reason.source (r : Reason) : Nat := if 10 ≤ r.code then 2 else 1

/-- Section 11.6: the coding of a requester. -/
def Requester.code : Requester → Nat
  | .refresh => 0
  | .capture => 1
  | .fill => 2
  | .system => 3
  | .probe => 4
  | .report => 5

/-- Section 11.6: the coding of a transfer. -/
def Transfer.code : Transfer → Nat
  | .read => 0
  | .merge => 1
  | .reload => 2

/-- R162: the coding of a window kind. -/
def WindowKind.code : WindowKind → Nat
  | .off => 0
  | .fieldRing => 1
  | .output => 2
  | .status => 3
  | .guard => 4

/-- Section 11.6, status word 8: the coding of a method. -/
def Method.code : Method → Nat
  | .weave => 1
  | .blend => 2
  | .spatial => 3
  | .fill => 4

/-- Section 11.6, code 10: the coding of a label's position. -/
def Position32.code : Position32 → Nat
  | .lead => 0
  | .trail => 1
  | .film p => p

/-- Section 11.6, code 10: the coding of a label's kind, 0 for 2:2 and 1 for 3:2. -/
def Position32.kind : Position32 → Nat
  | .lead => 0
  | .trail => 0
  | .film _ => 1

/-- Section 11.6, status word 6: the coding of a cadence mode. -/
def CadenceMode.code : CadenceMode → Nat
  | .video => 0
  | .locked22 => 1
  | .locked32 => 2

/-- Section 11.6, status word 5: the coding of an acquisition state. -/
def Acquisition.code : Acquisition → Nat
  | .off => 0
  | .acquiring => 1
  | .acquired => 2
  | .failed => 3

/-! ### Conditions -/

/-- The counts of damaged lines of LINE_DAMAGE (R16). -/
structure DamageCounts where
  missing : Nat
  slipped : Nat
  dropout : Nat
  short : Nat
  held : Nat
  overlong : Nat
deriving DecidableEq, Repr

/-- What PROBE_INCOMPLETE carries (R49). -/
structure ProbeReport where
  lines : Nat
  counting : Nat
  skipped : Nat
  checkFailed : Nat
  referenceLost : Nat
  openAtClose : Nat
  notMeasured : Nat
  combLost : Bool
  repeatLost : Bool
deriving DecidableEq, Repr

/-- The twenty kinds of condition with what each carries (section 11.6); SETTING_ADJUSTED has three layouts. -/
inductive Condition where
  | fieldRejected (addr slot : Nat)
  | fieldCut (field : FieldNo) (cause slot : Nat)
  | ingestStall (field : FieldNo) (k : Nat) (wasFilling : Bool)
  | lineDamage (field : FieldNo) (counts : DamageCounts)
  | captureGap (field : FieldNo) (expected received : Word)
  | parityRepeat (field : FieldNo) (parity : Parity)
  | standardAcquired (lines : Nat)
  | standardFault (reason count measured : Nat)
  | probeIncomplete (field : FieldNo) (report : ProbeReport)
  | cadenceLock (field : FieldNo) (label : CadenceLabel)
  | cadenceBreak (field : FieldNo) (mode : CadenceMode) (episode cause : Nat) (position : Position32)
  | frameRepeat (anchor : FieldNo) (method : Method)
  | fieldSkip (anchor : FieldNo) (count : Nat)
  | referenceLost (field : FieldNo) (role : Nat) (before after : Method) (released : Nat)
  | accessViolation (addr : Nat) (port : Port) (isWrite : Bool) (count : Nat) (tag : BitVec 4) (reason : Reason)
  | windowAdjusted (addr step : Nat) (kindWritten kindInstalled : WindowKind) (base size installed : Nat)
  | rowAdjusted (addr : Nat) (written0 written1 loaded0 loaded1 : Word)
  | settingAdjusted (addr written loaded : Nat)
  | settingRefused (addr group check : Nat) (value : Word)
  | checkCorrected (addr : Nat) (requester : Requester) (transfer : Transfer) (corrected failing : Nat)
  | checkFailed (addr : Nat) (requester : Requester) (transfer : Transfer) (corrected failing : Nat)
  | refreshMissed (coupled : Bool) (interval : Nat)
deriving DecidableEq, Repr

/-- Section 11.6: the code of a condition. -/
def Condition.code : Condition → Nat
  | .fieldRejected _ _ => 1
  | .fieldCut _ _ _ => 2
  | .ingestStall _ _ _ => 3
  | .lineDamage _ _ => 4
  | .captureGap _ _ _ => 5
  | .parityRepeat _ _ => 6
  | .standardAcquired _ => 7
  | .standardFault _ _ _ => 8
  | .probeIncomplete _ _ => 9
  | .cadenceLock _ _ => 10
  | .cadenceBreak _ _ _ _ _ => 11
  | .frameRepeat _ _ => 12
  | .fieldSkip _ _ => 13
  | .referenceLost _ _ _ _ _ => 14
  | .accessViolation _ _ _ _ _ _ => 15
  | .windowAdjusted _ _ _ _ _ _ _ => 16
  | .rowAdjusted _ _ _ _ _ => 16
  | .settingAdjusted _ _ _ => 16
  | .settingRefused _ _ _ _ => 17
  | .checkCorrected _ _ _ _ _ => 18
  | .checkFailed _ _ _ _ _ => 19
  | .refreshMissed _ _ => 20

/-- R180, section 11.6: the source block of a condition. -/
def Condition.source : Condition → Nat
  | .fieldRejected _ _ => 2
  | .fieldCut _ _ _ => 2
  | .ingestStall _ _ _ => 2
  | .lineDamage _ _ => 2
  | .captureGap _ _ _ => 2
  | .parityRepeat _ _ => 2
  | .standardAcquired _ => 2
  | .standardFault _ _ _ => 2
  | .probeIncomplete _ _ => 4
  | .cadenceLock _ _ => 5
  | .cadenceBreak _ _ _ _ _ => 5
  | .frameRepeat _ _ => 6
  | .fieldSkip _ _ => 6
  | .referenceLost _ _ _ _ _ => 6
  | .accessViolation _ _ _ _ _ reason => reason.source
  | .windowAdjusted _ _ _ _ _ _ _ => 1
  | .rowAdjusted _ _ _ _ _ => 7
  | .settingAdjusted _ _ _ => 7
  | .settingRefused _ _ _ _ => 7
  | .checkCorrected _ _ _ _ _ => 8
  | .checkFailed _ _ _ _ _ => 8
  | .refreshMissed _ _ => 8

/-- Words 2 to 7 of a record (section 11.6): the field concerned, the address concerned, and the variant part. -/
def Condition.body : Condition → List Word
  | .fieldRejected addr slot => [0, word addr, word slot, 0, 0, 0]
  | .fieldCut f cause slot => [f, 0, word cause, word slot, 0, 0]
  | .ingestStall f k wasFilling => [f, 0, word k, word (flag wasFilling), 0, 0]
  | .lineDamage f c => [f, 0, pack16 c.missing c.slipped, pack16 c.dropout c.short, pack16 c.held c.overlong, 0]
  | .captureGap f expected received => [f, 0, expected, received, 0, 0]
  | .parityRepeat f parity => [f, 0, word parity.toNat, 0, 0, 0]
  | .standardAcquired l => [0, 0, word l, 0, 0, 0]
  | .standardFault reason count measured => [0, 0, word reason, word count, word measured, 0]
  | .probeIncomplete f r =>
    [f, 0, pack16 r.lines r.counting,
      word (r.skipped % 256 + r.checkFailed % 256 * 256 + r.referenceLost % 256 * 65536 + r.openAtClose % 256 * 16777216),
      word (r.notMeasured % 65536 + flag r.combLost * 65536 + flag r.repeatLost * 131072), 0]
  | .cadenceLock f label => [f, 0, word label.position.kind, word label.episode, word label.position.code, 0]
  | .cadenceBreak f mode episode cause position =>
    [f, 0, word mode.code, word episode, word cause, word position.code]
  | .frameRepeat f method => [f, 0, word method.code, 0, 0, 0]
  | .fieldSkip f count => [f, 0, word count, 0, 0, 0]
  | .referenceLost f role before after released =>
    [f, 0, word role, word (before.code + after.code * 256), word released, 0]
  | .accessViolation addr port isWrite count tag reason =>
    [0, word addr,
      word ((if port = .system then 1 else 0) + flag isWrite * 256 + count % 64 * 65536 + tag.toNat * 16777216),
      word reason.code, 0, 0]
  | .windowAdjusted addr step kw ki base size installed =>
    [0, word addr, word (step + kw.code * 256 + ki.code * 65536), word base, word size, word installed]
  | .rowAdjusted addr w0 w1 l0 l1 => [0, word addr, w0, w1, l0, l1]
  | .settingAdjusted addr written loaded => [0, word addr, word written, word loaded, 0, 0]
  | .settingRefused addr group check value => [0, word addr, word group, word check, value, 0]
  | .checkCorrected addr requester transfer corrected failing =>
    [0, word addr, word requester.code, word transfer.code, pack16 corrected failing, 0]
  | .checkFailed addr requester transfer corrected failing =>
    [0, word addr, word requester.code, word transfer.code, pack16 corrected failing, 0]
  | .refreshMissed coupled interval => [0, 0, word (flag coupled), word (if coupled then 0 else interval), 0, 0]

/-- R180: the eight words of a condition's record, with the frame number at its occurrence. -/
def Condition.record (c : Condition) (frame : FieldNo) : List Word :=
  word (c.code + c.source * 256) :: frame :: c.body

/-! ### The condition unit -/

/-- R142: the window of a kind in the working table. -/
def State.window (s : State) (k : WindowKind) : Option WindowEntry := s.windows.find? (fun e => decide (e.kind = k))

/-- R179: a STATUS window stands in the working table. -/
def State.statusStands (s : State) : Bool := (s.window .status).isSome

/-- R176: the free positions of the report ring. -/
def ConditionUnit.freePositions (u : ConditionUnit) : Nat := (u.readIndex - u.writeIndex - 1).toNat

/-- The bit of a code in the occurred word and the report mask (section 11.6). -/
def codeBit (code : Nat) : BitVec 20 := 1#20 <<< (code - 1)

/-- R178: a status write is scheduled where a STATUS window stands. -/
def ConditionUnit.schedule (u : ConditionUnit) (stands : Bool) : ConditionUnit :=
  { u with statusPending := u.statusPending || stands }

/-- R174: an occurrence sets its bit, may queue its record, and schedules a status write. -/
def ConditionUnit.occur (u : ConditionUnit) (code : Nat) (record : List Word) (stands : Bool) : ConditionUnit :=
  { u with
    occurred := u.occurred ||| codeBit code
    queue :=
      if u.mask &&& codeBit code ≠ 0 ∧ stands = true ∧ u.queue.length < Config.recordDepth ∧
          u.queue.length < u.freePositions
      then u.queue ++ [record] else u.queue
    statusPending := u.statusPending || stands }

/-- R174: a condition occurs. While RESET is asserted the unit is held and none does (R173). -/
def raise (c : Condition) (s : State) : State :=
  { s with cond :=
      if s.phase = .asserted then s.cond else s.cond.occur c.code (c.record s.planner.frame) s.statusStands }

/-- Conditions in order. -/
def raiseAll (cs : List Condition) (s : State) : State := cs.foldl (fun s c => raise c s) s

/-- R178: schedules a status-block write. -/
def scheduleStatus (s : State) : State := { s with cond := s.cond.schedule s.statusStands }

/-- R175: the ATTENTION output, low while RESET is asserted (R173). -/
def State.attention (s : State) : Bool :=
  decide (s.phase ≠ .asserted) && decide (s.cond.occurred &&& s.cond.mask ≠ 0)

/-- R175: clears the occurred bits named in the low 20 bits of the clear word, and schedules a status write. -/
def ConditionUnit.clear (u : ConditionUnit) (w : Word) (stands : Bool) : ConditionUnit :=
  { u with occurred := u.occurred &&& ~~~ w.extractLsb' 0 20, statusPending := u.statusPending || stands }

/-- R175: takes a new report mask, and schedules a status write. -/
def ConditionUnit.setMask (u : ConditionUnit) (w : Word) (stands : Bool) : ConditionUnit :=
  { u with mask := w.extractLsb' 0 20, statusPending := u.statusPending || stands }

/-- R176, R177: takes a new report read index, withdraws a chosen record whose position it names, and schedules a status write. -/
def ConditionUnit.setReadIndex (u : ConditionUnit) (w : Word) (stands : Bool) : ConditionUnit :=
  { u with
    readIndex := w.extractLsb' 0 6
    chosen := if u.chosen = some .record ∧ u.writeIndex + 1 = w.extractLsb' 0 6 then none else u.chosen
    statusPending := u.statusPending || stands }

/-- R179: what a window load does to the report queue and the pending status write, by the STATUS window before and after. -/
def ConditionUnit.windowLoad (u : ConditionUnit) (before after : Option WindowEntry) : ConditionUnit :=
  match before, after with
  | none, none => u
  | some _, none => { u with queue := [], statusPending := false, chosen := none }
  | none, some _ => { u with statusPending := true }
  | some b, some a => if b.base = a.base then u else { u with statusPending := true }

/-- R177: what REPORT would choose now: the oldest record where its position is not the read index, else a pending status write. -/
def ConditionUnit.choice (u : ConditionUnit) : Option ReportChoice :=
  if u.queue ≠ [] ∧ u.writeIndex + 1 ≠ u.readIndex then some .record
  else if u.statusPending then some .status
  else none

/-- R177: what REPORT presents: the burst already chosen, else what it would choose now (log entry 6). -/
def ConditionUnit.presented (u : ConditionUnit) : Option ReportChoice :=
  match u.chosen with
  | some c => some c
  | none => u.choice

/-! ### Check errors (R155, R156) -/

/-- R156: the first-fault record after a burst that raised CHECK_CORRECTED (multi false) or CHECK_FAILED (multi true). -/
def FirstFault.record (old : Option FirstFault) (new : FirstFault) : Option FirstFault :=
  match old with
  | none => some new
  | some f => if new.multi ∧ ¬ f.multi then some new else some f

/-- The index of the first word with a check result. -/
def firstWith (c : CheckResult) (cs : List CheckResult) : Nat := cs.findIdx (fun x => decide (x = c))

/-- R155, R156: what a burst from a byte address on does by its check results: nothing when all are clean, else one condition and the
first-fault record. -/
def raiseChecks (requester : Requester) (transfer : Transfer) (addr : Nat) (cs : List CheckResult) (s : State) : State :=
  let failing := cs.countP (fun x => decide (x = .failed))
  let corrected := cs.countP (fun x => decide (x = .corrected))
  if failing ≠ 0 then
    let a := addr + 4 * firstWith .failed cs
    raise (.checkFailed a requester transfer corrected failing)
      { s with memPort := { s.memPort with
          firstFault := FirstFault.record s.memPort.firstFault
            { addr := word a, requester := requester, transfer := transfer, multi := true } } }
  else if corrected ≠ 0 then
    let a := addr + 4 * firstWith .corrected cs
    raise (.checkCorrected a requester transfer corrected failing)
      { s with memPort := { s.memPort with
          firstFault := FirstFault.record s.memPort.firstFault
            { addr := word a, requester := requester, transfer := transfer, multi := false } } }
  else s

/-! ### Refresh additions (R157) -/

/-- R157: one refresh addition; at 8 it is lost and REFRESH_MISSED occurs. -/
def refreshAddition (s : State) : State :=
  if s.memPort.refreshPending < Config.refreshUrgent then
    { s with memPort := { s.memPort with refreshPending := s.memPort.refreshPending + 1 } }
  else raise (.refreshMissed s.settings.memory.coupled s.settings.memory.interval) s

end Sys2Proof.Machine
end

