-- ==== Sys2Proof/WellFormed.lean ====
section
/-! DEFINITION. Which command terms are commands of the device: the word count of a request, of a response step and the word index of
an upset lie in their ranges. -/

namespace Sys2Proof

/-- The word count of a request: given by a read, the number of its words for a write (R134). -/
def Request.count (r : Request) : Nat :=
  match r.body with
  | .read n => n
  | .write ws => ws.length

/-- R134: a request carries 1 to 32 words. -/
def Request.wf (r : Request) : Bool := decide (1 ≤ r.count) && decide (r.count ≤ 32)

/-- An upset names a word of the 32-bit byte address space and flips at least one bit. -/
def Upset.wf (u : Upset) : Bool := decide (u.index < 2 ^ 30) && decide (u.flips ≠ 0)

/-- The upsets before a grant are well-formed. -/
def BurstPart.wf : BurstPart → Bool
  | .grant us => us.all Upset.wf
  | .ret => true

/-- A step of a response returns 1 to 32 words. -/
def responseCountWf (n : Nat) : Bool := decide (1 ≤ n) && decide (n ≤ 32)

/-- A well-formed command. -/
def Instr.wf : Instr → Bool
  | .powerOn _ _ => true
  | .warmResetAssert => true
  | .resetRelease _ _ => true
  | .reloadBurstReturn p => p.wf
  | .captureArrival r => r.wf
  | .captureRequestTake => true
  | .stallTimerExpiry => true
  | .systemArrival r => r.wf
  | .systemRequestTake => true
  | .outputReadTake => true
  | .controlPageWrite => true
  | .holdWordWrite => true
  | .clearOccurredBits => true
  | .clearFirstFaultRecord => true
  | .reportReadIndexWrite => true
  | .reportMaskWrite => true
  | .withdrawal _ => true
  | .outputReadData n => responseCountWf n
  | .passThroughReadResponse _ n => responseCountWf n
  | .refusedReadResponse _ => true
  | .captureBurstGrant us => us.all Upset.wf
  | .systemBurstGrant us => us.all Upset.wf
  | .fillBurstReturn p => p.wf
  | .probeBurstReturn p => p.wf
  | .refreshGrant => true
  | .recordBurstGrant _ => true
  | .statusBlockGrant _ => true
  | .refreshIntervalExpiry => true
  | .refreshReqEdge => true

end Sys2Proof
end

