-- ==== Sys2Proof/Machine/Operands.lean ====
section
/-! DEFINITION. The operands of the commands: the words a request names (R134), the region of each (R142), the judgement of a request
(R144, R145), and the layout of the field ring (R1). -/

namespace Sys2Proof.Machine

/-! ### Requests -/

/-- Whether a request is a WRITE (R134). -/
def isWriteRequest (r : Request) : Bool :=
  match r.body with
  | .read _ => false
  | .write _ => true

/-- The words of a write, none for a read (R134). -/
def writeWords (r : Request) : List WriteWord :=
  match r.body with
  | .read _ => []
  | .write ws => ws

/-- The byte address of a request's first word (R134). -/
def firstAddr (r : Request) : Nat := wordBase r.addr

/-- The byte address just past a request's last word. -/
def endAddr (r : Request) : Nat := firstAddr r + 4 * r.count

/-- The byte addresses of a request's words, in order (R134). -/
def wordAddrs (r : Request) : List Nat := (List.range r.count).map (fun i => firstAddr r + 4 * i)

/-! ### Straps and regions -/

/-- R159: the DRAM size by DSIZE. -/
def State.dramSize (s : State) : Nat := 536870912 * 2 ^ s.straps.dsize.toNat

/-- R159: the base of the control page by CPAGE. -/
def State.pageBase (s : State) : Nat := s.straps.cpage.toNat * 16777216

/-- R142: the regions. -/
inductive Region where
  | fieldRing
  | output
  | status
  | guard
  | controlPage
  | elsewhere
deriving DecidableEq, Repr

/-- R142: whether an entry that is not OFF contains an address. -/
def WindowEntry.contains (e : WindowEntry) (a : Nat) : Bool :=
  decide (e.kind ≠ .off) && decide (e.base ≤ a) && decide (a < e.base + e.size)

/-- R142: the region a window kind gives. -/
def WindowKind.region : WindowKind → Region
  | .off => .elsewhere
  | .fieldRing => .fieldRing
  | .output => .output
  | .status => .status
  | .guard => .guard

/-- R142: the region of a word address: the control page, else the lowest-numbered entry that contains it, else elsewhere. -/
def State.region (s : State) (a : Nat) : Region :=
  if s.pageBase ≤ a ∧ a < s.pageBase + 4096 then .controlPage
  else match s.windows.find? (fun e => e.contains a) with
    | some e => e.kind.region
    | none => .elsewhere

/-! ### Judgement -/

/-- What becomes of a request at its take (R144, R147). -/
inductive Verdict where
  | refuse (reason : Reason)
  | pass
  | toMonitor
  | toOutput
  | toSettings
deriving DecidableEq, Repr

/-- R145: the permission table. -/
def permission (port : Port) (isWrite : Bool) : Region → Verdict
  | .fieldRing =>
    match port, isWrite with
    | .capture, true => .toMonitor
    | .capture, false => .pass
    | .system, true => .refuse .ringWriteFromSystem
    | .system, false => .pass
  | .output =>
    match port, isWrite with
    | .capture, _ => .refuse .outputFromCapture
    | .system, true => .refuse .writeToOutput
    | .system, false => .toOutput
  | .status => if isWrite then .refuse .writeToStatus else .pass
  | .guard => if isWrite then .refuse .writeToGuard else .pass
  | .controlPage =>
    match port, isWrite with
    | .capture, true => .refuse .controlFromCapture
    | .capture, false => .pass
    | .system, true => .toSettings
    | .system, false => .pass
  | .elsewhere => .pass

/-- R144 step 2: all words of a request lie in one region. -/
def State.oneRegion (s : State) (r : Request) : Bool :=
  (wordAddrs r).all (fun a => decide (s.region a = s.region (firstAddr r)))

/-- R144: the judgement of a request at its take, step by step. -/
def State.judge (s : State) (port : Port) (r : Request) : Verdict :=
  if 4294967296 < endAddr r then .refuse .beyondAddressSpace
  else if ! s.oneRegion r then .refuse .spansRegions
  else match permission port (isWriteRequest r) (s.region (firstAddr r)) with
    | .pass => if s.dramSize < endAddr r then .refuse .beyondDram else .pass
    | v => v

/-- R146: the condition a refusal raises. -/
def violation (port : Port) (r : Request) (reason : Reason) : Condition :=
  .accessViolation (firstAddr r) port (isWriteRequest r) r.count r.tag reason

/-! ### The field ring (R1) -/

/-- The ring's position and geometry as the monitor uses them at a take; lines is L, or Lmax while L is not known. -/
structure Ring where
  base : Nat
  slots : Nat
  slotPitch : Nat
  linePitch : Nat
  width : Nat
  lines : Nat
deriving DecidableEq, Repr

/-- Section 1.1: Lmax of a group. -/
def IngestGroup.lmax (g : IngestGroup) : Nat := min Config.maxLines ((g.slotPitch - 64) / g.linePitch)

/-- R23: L as known: given, acquired, or 0 while it is not known or no group is working. -/
def State.knownL (s : State) : Nat :=
  match s.settings.ingest with
  | none => 0
  | some g =>
    match s.monitor.acquisition with
    | .off => g.l
    | .acquired => s.monitor.acquiredL
    | .acquiring => 0
    | .failed => 0

/-- R3: the ring while the monitor is ACTIVE: an ingest group works and its ring lies wholly inside the FIELD_RING window. -/
def State.ring (s : State) : Option Ring :=
  match s.settings.ingest, s.window .fieldRing with
  | some g, some w =>
    if g.k * g.slotPitch ≤ w.size then
      some { base := w.base, slots := g.k, slotPitch := g.slotPitch, linePitch := g.linePitch, width := g.w
             lines := if s.monitor.acquisition = .off ∨ s.monitor.acquisition = .acquired then s.knownL else g.lmax }
    else none
  | _, _ => none

/-- The areas of the FIELD_RING window (R1). -/
inductive Area where
  | header (slot index : Nat)
  | pixel (slot line x : Nat)
  | tag (slot line : Nat)
  | padding (slot line : Nat)
  | tail (slot : Nat)
  | ringTail
deriving DecidableEq, Repr

/-- R1: the area of a word address of the FIELD_RING window. -/
def Ring.area (g : Ring) (a : Nat) : Area :=
  let slot := (a - g.base) / g.slotPitch
  let inSlot := (a - g.base) % g.slotPitch
  let line := (inSlot - 64) / g.linePitch
  let x := (inSlot - 64) % g.linePitch / 4
  if g.slots ≤ slot then .ringTail
  else if inSlot < 64 then .header slot (inSlot / 4)
  else if g.lines ≤ line then .tail slot
  else if x < g.width then .pixel slot line x
  else if x = g.width then .tag slot line
  else .padding slot line

/-- The slot an area belongs to, none for the ring tail (R1). -/
def Area.slot : Area → Option Nat
  | .header s _ => some s
  | .pixel s _ _ => some s
  | .tag s _ => some s
  | .padding s _ => some s
  | .tail s => some s
  | .ringTail => none

/-- Whether an area is a line's (R4). -/
def Area.isLine : Area → Bool
  | .header _ _ => false
  | .pixel _ _ _ => true
  | .tag _ _ => true
  | .padding _ _ => true
  | .tail _ => false
  | .ringTail => false

/-- A word of a capture write with the area it lies in. -/
abbrev AreaWord := Area × WriteWord

/-- R2: the words of a write with their areas. -/
def Ring.areaWords (g : Ring) (r : Request) : List AreaWord :=
  ((wordAddrs r).map g.area).zip (writeWords r)

/-- R2: the words lie in two slots, or in a slot and the ring tail. -/
def spansSlots (ws : List AreaWord) : Bool :=
  match ws with
  | [] => false
  | w :: rest => rest.any (fun v => decide (v.1.slot ≠ w.1.slot))

/-- The slot of a write that does not span, none for the ring tail. -/
def slotOf (ws : List AreaWord) : Option Nat :=
  match ws with
  | [] => none
  | w :: _ => w.1.slot

/-- R2: whether the write covers a header word, all four of its enables set. -/
def covers (ws : List AreaWord) (index : Nat) : Bool :=
  ws.any (fun w => match w.1 with
    | .header _ i => decide (i = index) && decide (w.2.enables = 15#4)
    | _ => false)

/-- The value a write gives a header word it covers. -/
def coveredValue (ws : List AreaWord) (index : Nat) : Word :=
  match ws.find? (fun w => match w.1 with
    | .header _ i => decide (i = index) && decide (w.2.enables = 15#4)
    | _ => false) with
  | some w => w.2.data
  | none => 0

/-- R10: the write with the enables of its padding words turned off. -/
def trimmed (ws : List AreaWord) : List WriteWord :=
  ws.map (fun w => match w.1 with
    | .padding _ _ => { w.2 with enables := 0 }
    | _ => w.2)

/-- Where a line of a slot begins (R1, R125). -/
def Ring.lineBase (g : Ring) (slot line : Nat) : Nat := g.base + slot * g.slotPitch + 64 + line * g.linePitch

end Sys2Proof.Machine
end

