-- ==== Sys2Proof/Machine/LineStore.lean ====
section
/-! DEFINITION. The line store and fetch engine (chapter 7): lookup, allocation, fills, voiding, release and withdrawal. -/

namespace Sys2Proof.Machine

/-- A run of consecutive words of DRAM that a requester presents (R149). -/
structure Burst where
  addr : Nat
  count : Nat
deriving DecidableEq, Repr

/-- The next burst of a line of width words from base, of which granted words have been granted: at most 32 words, the last burst
carrying the remainder (R44, R125). -/
def nextBurst (base width granted : Nat) : Option Burst :=
  if granted < width then some { addr := base + 4 * granted, count := min Config.burstWords (width - granted) } else none

/-- R120: an entry that a lookup of a tag matches. -/
def StoreEntry.hit (e : StoreEntry) (t : LineTag) : Bool :=
  decide (e.state = .filling ∨ e.state = .valid ∨ e.state = .poisoned) && decide (e.tag = some t)

/-- The entry of a number; EMPTY where there is none. -/
def LineStore.entry (st : LineStore) (n : Nat) : StoreEntry := st.entries.getD n StoreEntry.empty

/-- R120: the entry a lookup finds. -/
def LineStore.lookup (st : LineStore) (t : LineTag) : Option Nat := st.entries.findIdx? (fun e => e.hit t)

/-- R118: the free list, every EMPTY entry by number. -/
def LineStore.freeList (st : LineStore) : List Nat :=
  (List.range st.entries.length).filter (fun n => decide ((st.entry n).state = .empty))

/-- R123: the entry a miss takes: the first of the free list, else the oldest of the LRU order. -/
def LineStore.victim (st : LineStore) : Option Nat :=
  match st.entries.findIdx? (fun e => decide (e.state = .empty)) with
  | some n => some n
  | none => st.lru.head?

/-- R122: a hit takes one use count, and the entry leaves the LRU order. -/
def LineStore.share (st : LineStore) (n : Nat) : LineStore :=
  { st with entries := modifyAt (fun e => { e with useCount := e.useCount + 1 }) st.entries n, lru := st.lru.erase n }

/-- R122, R123, R125: a miss gives the entry its new tag, use count 1 and a fill, issued behind the fills outstanding. -/
def LineStore.allocate (st : LineStore) (n : Nat) (t : LineTag) (base width : Nat) : LineStore :=
  { st with
    entries := modifyAt (fun _ => { tag := some t, state := .filling, useCount := 1, data := []
                                    fill := some { base := base, width := width, granted := 0 } }) st.entries n
    lru := st.lru.erase n
    fillQueue := st.fillQueue ++ [n] }

/-- The end of an entry's fill: it leaves the fills outstanding, its granted bursts are discarded (log entry 30), and a withdrawn read
that waited for it waits no more (R129). -/
def LineStore.endFill (st : LineStore) (n : Nat) : LineStore :=
  { st with
    fillQueue := st.fillQueue.erase n
    inFlight := st.inFlight.filter (fun b => decide (b.entry ≠ n))
    withdrawn := (st.withdrawn.map (fun w => w.erase n)).filter (fun w => decide (w ≠ [])) }

/-- R125, R126: a fill ends with its entry VALID or POISONED; with use count 0 the entry joins the newest end of the LRU order. -/
def LineStore.complete (st : LineStore) (n : Nat) (outcome : EntryState) : LineStore :=
  let st1 := st.endFill n
  { st1 with
    entries := modifyAt (fun e => { e with state := outcome, fill := none }) st1.entries n
    lru := if (st1.entry n).useCount = 0 then st1.lru ++ [n] else st1.lru }

/-- R127: the fill of one entry is cut off: VOID, or EMPTY at once when its use count is 0. -/
def LineStore.voidEntry (st : LineStore) (n : Nat) : LineStore :=
  let st1 := st.endFill n
  { st1 with
    entries := modifyAt (fun e =>
      if e.useCount = 0 then StoreEntry.empty else { e with state := .void, fill := none, data := [] }) st1.entries n }

/-- R127: whether an entry is FILLING for one of the fields. -/
def StoreEntry.fillsFor (e : StoreEntry) (fields : List FieldNo) : Bool :=
  match e.tag with
  | some t => decide (e.state = .filling) && decide (t.field ∈ fields)
  | none => false

/-- R127: the notice of the fields' eviction or removal voids their fills. -/
def LineStore.voidFields (st : LineStore) (fields : List FieldNo) : LineStore :=
  ((List.range st.entries.length).filter (fun n => (st.entry n).fillsFor fields)).foldl LineStore.voidEntry st

/-- R130, R131: one entry of a read's need set loses the read's use count. -/
def LineStore.releaseEntry (st : LineStore) (n : Nat) : LineStore :=
  let e := st.entry n
  if e.useCount = 1 then
    match e.state with
    | .valid => { st with entries := modifyAt (fun e => { e with useCount := 0 }) st.entries n, lru := st.lru ++ [n] }
    | .poisoned => { st with entries := modifyAt (fun e => { e with useCount := 0 }) st.entries n, lru := st.lru ++ [n] }
    | .void => { st with entries := modifyAt (fun _ => StoreEntry.empty) st.entries n }
    | .filling => { st with entries := modifyAt (fun e => { e with useCount := 0 }) st.entries n }
    | .empty => { st with entries := modifyAt (fun e => { e with useCount := 0 }) st.entries n }
  else { st with entries := modifyAt (fun e => { e with useCount := e.useCount - 1 }) st.entries n }

/-- R130: a read's entries are released in need-set order. -/
def LineStore.release (st : LineStore) (need : List NeedLine) : LineStore :=
  (need.map (fun l => l.entry)).foldl LineStore.releaseEntry st

/-- R131: a withdrawn read's entries are released, and it stays counted for those still FILLING. -/
def LineStore.withdraw (st : LineStore) (need : List NeedLine) : LineStore :=
  let waits := (need.map (fun l => l.entry)).filter (fun n => decide ((st.entry n).state = .filling))
  let st1 := st.release need
  if waits = [] then st1 else { st1 with withdrawn := st1.withdrawn ++ [waits] }

/-- A line a read draws on, before it has an entry (R121). -/
structure WantedLine where
  role : SourceRole
  line : Nat
  tag : LineTag
  held : Option Nat
  base : Nat
  width : Nat
deriving DecidableEq, Repr

/-- R122: one line of a need set is looked up, and shared or allocated; none where no entry can be allocated. -/
def LineStore.takeLine (st : LineStore) (w : WantedLine) : Option (LineStore × NeedLine) :=
  match st.lookup w.tag with
  | some n => some (st.share n, { role := w.role, line := w.line, entry := n, held := w.held })
  | none =>
    match st.victim with
    | some n => some (st.allocate n w.tag w.base w.width, { role := w.role, line := w.line, entry := n, held := w.held })
    | none => none

/-- R122: the lines of a need set, in order. -/
def LineStore.takeLines (st : LineStore) : List WantedLine → Option (LineStore × List NeedLine)
  | [] => some (st, [])
  | w :: rest =>
    match st.takeLine w with
    | none => none
    | some (st1, l) =>
      match st1.takeLines rest with
      | none => none
      | some (st2, ls) => some (st2, l :: ls)

/-- R124, R130: whether an entry of a need set is FILLING. -/
def LineStore.anyFilling (st : LineStore) (need : List NeedLine) : Bool :=
  need.any (fun l => decide ((st.entry l.entry).state = .filling))

/-- R125: the entry whose fill presents the next burst, and that burst: the oldest outstanding fill first. -/
def LineStore.presented (st : LineStore) : Option (Nat × Burst) :=
  st.fillQueue.findSome? (fun n =>
    match (st.entry n).fill with
    | none => none
    | some f => (nextBurst f.base f.width f.granted).map (fun b => (n, b)))

/-- R125: a burst of an entry's fill has been granted. -/
def LineStore.grant (st : LineStore) (n : Nat) (words : List Word) (failed : Bool) : LineStore :=
  { st with
    entries := modifyAt (fun e => { e with
      fill := e.fill.map (fun f => { f with granted := f.granted + words.length }) }) st.entries n
    inFlight := st.inFlight ++ [{ entry := n, words := words, failed := failed }] }

/-- R125, R126: the oldest granted burst returns: a failing word poisons the entry; the last word completes it. -/
def LineStore.returned (st : LineStore) : LineStore :=
  match st.inFlight with
  | [] => st
  | b :: rest =>
    let st1 := { st with inFlight := rest }
    if b.failed then st1.complete b.entry .poisoned
    else
      let st2 := { st1 with entries := modifyAt (fun e => { e with data := e.data ++ b.words }) st1.entries b.entry }
      match (st2.entry b.entry).fill with
      | none => st2
      | some f => if f.width ≤ (st2.entry b.entry).data.length then st2.complete b.entry .valid else st2

end Sys2Proof.Machine
end

