-- ==== Sys2Proof/Machine/History.lean ====
section
/-! DEFINITION. The field history (chapter 2): finding records, changing one in place, and removing one. -/

namespace Sys2Proof.Machine

/-- R37: the record of a field number. -/
def History.find (h : History) (f : FieldNo) : Option FieldRecord := h.records.find? (fun r => decide (r.number = f))

/-- R37: the record of a slot. -/
def History.ofSlot (h : History) (slot : Nat) : Option FieldRecord := h.records.find? (fun r => decide (r.slot = slot))

/-- R37: the filling record. -/
def History.filling (h : History) : Option FieldRecord := h.records.find? (fun r => decide (r.state = .filling))

/-- R37: the newest record. -/
def History.newest (h : History) : Option FieldRecord := h.records.getLast?

/-- R37: the newest closed record. -/
def History.newestClosed (h : History) : Option FieldRecord := (h.records.filter FieldRecord.closed).getLast?

/-- The record standing just before that of a number in a list of records. -/
def recordBefore (f : FieldNo) : List FieldRecord → Option FieldRecord
  | [] => none
  | [_] => none
  | a :: b :: rest => if b.number = f then some a else recordBefore f (b :: rest)

/-- R37: the record standing just older than that of a number. -/
def History.before (h : History) (f : FieldNo) : Option FieldRecord := recordBefore f h.records

/-- The history with f applied to the record of a number. -/
def History.update (h : History) (n : FieldNo) (f : FieldRecord → FieldRecord) : History :=
  { h with records := h.records.map (fun r => if r.number = n then f r else r) }

/-- The history without the record of a number; the others keep their order (R33). -/
def History.remove (h : History) (n : FieldNo) : History :=
  { h with records := h.records.filter (fun r => decide (r.number ≠ n)) }

/-- R32: the history with a record admitted at the newest end. -/
def History.append (h : History) (r : FieldRecord) : History :=
  { h with records := h.records ++ [r], next := FieldNo.succ h.next }

/-- R3: the filling field, 0 where no field is FILLING. -/
def State.fillingField (s : State) : FieldNo :=
  match s.history.filling with
  | some r => r.number
  | none => 0

/-- R5: an entry of a line map set up at admission. -/
def LineEntry.fresh : LineEntry := { extent := 0, overlong := false, tagWritten := false, tag := 0, final := none }

/-- R31: whether a role set holds any role. -/
def Roles.any (r : Roles) : Bool := r.anchor || r.partner || r.anchor2 || r.partner2

/-- R31: the roles by which a plan names a field number. -/
def Plan.rolesOf (p : Plan) (f : FieldNo) : Roles :=
  { anchor := decide (p.anchor.map (fun a => a.field) = some f)
    partner := decide (p.partner.map (fun a => a.field) = some f)
    anchor2 := decide (p.anchor2 = some f)
    partner2 := decide (p.partner2 = some f) }

/-- R31: the roles of a plan, or of none, written into the referenced sets. -/
def History.reference (h : History) (p : Option Plan) : History :=
  { h with records := h.records.map (fun r => { r with
      referenced := match p with
        | some p => p.rolesOf r.number
        | none => Roles.empty }) }

end Sys2Proof.Machine
end

