-- ==== Sys2Proof/Machine/Cadence.lean ====
section
/-! DEFINITION. The cadence detector (chapter 3, R50 to R61): the evidence tests, the modes, locks, breaks and labels. -/

namespace Sys2Proof.Machine

/-- What the detector finds at a close: its new state, the label of the closing field, and the condition raised. -/
structure CadenceResult where
  cadence : Cadence
  label : Option CadenceLabel
  condition : Option Condition
deriving DecidableEq, Repr

/-- R52: the result of the Evidence22 test: none, inconsistent, or consistent with hypothesis h. -/
inductive Evidence22 where
  | absent
  | inconsistent
  | consistent (h : Nat)
deriving DecidableEq, Repr

/-- R51: the phase of a field number. -/
def FieldNo.phase (f : FieldNo) : Nat := f.toNat % 2

/-- R52: the Evidence22 test over the comb metrics of n and n-1, with their phases and the evidence floor. -/
def evidence22 (cN cP : Option Nat) (phaseN phaseP floorF : Nat) : Evidence22 :=
  match cN, cP with
  | some c, some p =>
    if floorF ≤ max c p then
      if 2 * min c p ≤ max c p then .consistent (if c ≤ p then phaseN else phaseP) else .inconsistent
    else .absent
  | _, _ => .absent

/-- R52: the repeat event test over the repeat metrics of n and n-1, with the repeat threshold and the evidence floor. -/
def repeatEvent (rN rP : Option Nat) (threshold floorF : Nat) : Bool :=
  match rN, rP with
  | some r, some p => decide (r ≤ threshold) && decide (4 * r ≤ p) && decide (floorF ≤ p)
  | _, _ => false

/-- R52: the R-evidence test over the repeat metric of n-1. -/
def rEvidence (rP : Option Nat) (floorF : Nat) : Bool :=
  match rP with
  | some p => decide (floorF ≤ p)
  | none => false

/-- R56, R57: the 2:2 position of a field of a phase. -/
def position22 (phase ph22 : Nat) : Position32 := if phase = ph22 then .trail else .lead

/-- R56: an episode number's successor, from 65535 to 1 (R50). -/
def nextEpisode (e : Nat) : Nat := if e = 65535 then 1 else e + 1

/-- R53, R57, R58: the position a breaking field would have taken. -/
def Cadence.wouldTake (c : Cadence) (phase : Nat) : Position32 :=
  match c.mode with
  | .locked32 => .film c.nextPosition
  | .locked22 => position22 phase c.ph22
  | .video => .lead

/-- R60: the condition that ends a lock, none in VIDEO. -/
def Cadence.breakCondition (c : Cadence) (n : FieldNo) (cause phase : Nat) : Option Condition :=
  match c.mode with
  | .video => none
  | .locked22 => some (.cadenceBreak n .locked22 c.episode cause (c.wouldTake phase))
  | .locked32 => some (.cadenceBreak n .locked32 c.episode cause (c.wouldTake phase))

/-- R53, R57, R58: a field without a label that leaves the mode VIDEO, c22 at 0 and the repeat list empty. -/
def Cadence.toVideo (c : Cadence) (n : FieldNo) (cause phase : Nat) : CadenceResult :=
  { cadence := { c with mode := .video, c22 := 0, repeats := [] }, label := none, condition := c.breakCondition n cause phase }

/-- R54: the 2:2 counter and phase in VIDEO mode. -/
def Cadence.count22 (c : Cadence) (ev : Evidence22) (e22 : Nat) : Cadence :=
  match ev with
  | .consistent h =>
    if h = c.ph22 ∧ 0 < c.c22 then { c with c22 := min e22 (c.c22 + 1) } else { c with c22 := 1, ph22 := h }
  | .inconsistent => { c with c22 := 0 }
  | .absent => c

/-- R54: whether count22 made an increment. -/
def Cadence.increments (c : Cadence) (ev : Evidence22) : Bool :=
  match ev with
  | .consistent h => decide (h = c.ph22) && decide (0 < c.c22)
  | .inconsistent => false
  | .absent => false

/-- R55: whether a repeat event at n is appended, n being exactly 5 more than the newest entry. -/
def appendsRepeat (repeats : List FieldNo) (n : FieldNo) : Bool :=
  match repeats.getLast? with
  | some last => decide (n.toNat = last.toNat + 5)
  | none => false

/-- R55: the repeat list after a repeat event at n. -/
def nextRepeats (repeats : List FieldNo) (n : FieldNo) : List FieldNo :=
  if appendsRepeat repeats n then
    if repeats.length = 3 then (repeats ++ [n]).drop 1 else repeats ++ [n]
  else [n]

/-- R56: a lock opens a new episode and labels the locking field. -/
def lockAt (c : Cadence) (mode : CadenceMode) (n : FieldNo) (position : Position32) : CadenceResult :=
  let label : CadenceLabel := { episode := nextEpisode c.episode, position := position }
  { cadence := { c with mode := mode, episode := nextEpisode c.episode }, label := some label
    condition := some (.cadenceLock n label) }

/-- R54 to R56: VIDEO mode at the close of a CONTINUOUS, uncut field. -/
def Cadence.video (c : Cadence) (g : IngestGroup) (n : FieldNo) (phase : Nat) (ev : Evidence22) (event : Bool) : CadenceResult :=
  let counted := c.count22 ev g.e22
  let appended := event && appendsRepeat c.repeats n
  let repeats := if event then nextRepeats c.repeats n else c.repeats
  if appended ∧ repeats.length = 3 ∧ g.allow32 = true then
    lockAt { counted with repeats := [], c22 := 0, nextPosition := 3 } .locked32 n (.film 2)
  else if c.increments ev ∧ counted.c22 = g.e22 ∧ g.allow22 = true then
    lockAt { counted with repeats := [] } .locked22 n (position22 phase counted.ph22)
  else { cadence := { counted with repeats := repeats }, label := none, condition := none }

/-- R57: LOCKED_22 mode at the close of a CONTINUOUS, uncut field. -/
def Cadence.locked22 (c : Cadence) (n : FieldNo) (phase : Nat) (ev : Evidence22) : CadenceResult :=
  match ev with
  | .inconsistent => c.toVideo n 3 phase
  | .consistent h =>
    if h = c.ph22 then
      { cadence := c, label := some { episode := c.episode, position := position22 phase c.ph22 }, condition := none }
    else c.toVideo n 3 phase
  | .absent => { cadence := c, label := some { episode := c.episode, position := position22 phase c.ph22 }, condition := none }

/-- R58: LOCKED_32 mode at the close of a CONTINUOUS, uncut field. -/
def Cadence.locked32 (c : Cadence) (n : FieldNo) (phase : Nat) (event evidence : Bool) : CadenceResult :=
  if (c.nextPosition = 2 ∧ evidence = true ∧ event = false) ∨ (c.nextPosition ≠ 2 ∧ event = true) then c.toVideo n 3 phase
  else
    { cadence := { c with nextPosition := (c.nextPosition + 1) % 5 }
      label := some { episode := c.episode, position := .film c.nextPosition }, condition := none }

/-- R51: the wrap of field numbers: at the close of field 1, CONTINUOUS and uncut, ph22 is inverted and the repeat list emptied. -/
def Cadence.wrap (c : Cadence) : Cadence := { c with ph22 := 1 - c.ph22, repeats := [] }

/-- R51 to R58: what the detector does at the close of field n, from its record, the record of n-1 by number, and the working ingest
group. R51 inverts ph22 at field 1 only where it closes CONTINUOUS and uncut; that the position CADENCE_BREAK carries for a field 1 that
does not is taken from ph22 as it stands, not inverted, is the model's choice (log entry 34). -/
def Cadence.close (c : Cadence) (g : IngestGroup) (r : FieldRecord) (prev : Option FieldRecord) : CadenceResult :=
  let n := r.number
  if r.continuous = false ∨ r.state = .cut then
    c.toVideo n (if r.state = .cut then 2 else 1) (FieldNo.phase n)
  else
    let c1 := if n = 1#32 then c.wrap else c
    let phaseP := if n = 1#32 then 0 else FieldNo.phase (FieldNo.pred n)
    let comb (x : Option FieldRecord) : Option Nat := (x.bind (fun y => y.metrics)).bind (fun m => m.combMetric)
    let rep (x : Option FieldRecord) : Option Nat := (x.bind (fun y => y.metrics)).bind (fun m => m.repeatMetric)
    let ev := evidence22 (comb (some r)) (comb prev) (FieldNo.phase n) phaseP g.floorF
    let event := repeatEvent (rep (some r)) (rep prev) g.thresholdR g.floorF
    match c1.mode with
    | .video => c1.video g n (FieldNo.phase n) ev event
    | .locked22 => c1.locked22 n (FieldNo.phase n) ev
    | .locked32 => c1.locked32 n (FieldNo.phase n) event (rEvidence (rep prev) g.floorF)

/-- R61: a load that lowers E22 below c22 lowers c22 to it. -/
def Cadence.newE22 (c : Cadence) (e22 : Nat) : Cadence := { c with c22 := min c.c22 e22 }

/-- R50: the detector after an ingest geometry change. -/
def Cadence.geometryChange (c : Cadence) : Cadence := { Cadence.reset with episode := c.episode }

end Sys2Proof.Machine
end

