-- ==== Sys2Proof/Machine/Probe.lean ====
section
/-! DEFINITION. The probe unit (chapter 3, R40 to R49): references, probe lines and their fetches, sums, the loss of a reference and
the metrics. -/

namespace Sys2Proof.Machine

/-! ### Samples (R83, R15) -/

/-- Section 6.2, R83: the luma sample of a pixel word. -/
def lumaOf (w : Word) : Nat := bits w 16 10

/-- Section 6.2, R83: the chroma sample of a pixel word. -/
def chromaOf (w : Word) : Nat := bits w 0 10

/-- R15: the index of the word that stands for word x of a line, by the line's extent when it is HELD. -/
def tailIndex (held : Option Nat) (x : Nat) : Nat :=
  match held with
  | some e => if e ≤ x then e - 1 else x
  | none => x

/-- R15, R83: pixel word x of a line as it supplies picture. -/
def pixelWord (words : List Word) (held : Option Nat) (x : Nat) : Word := words.getD (tailIndex held x) 0

/-! ### Probe lines and references -/

/-- R41: the probe lines of a field of L lines. -/
def probeLines (l : Nat) : List Nat := (List.range l).filter (fun n => decide (n % 4 = 2))

/-- R41: P. -/
def probeCount (l : Nat) : Nat := (l + 1) / 4

/-- R41: S. -/
def samplesPerLine (w : Nat) : Nat := (w - 33) / 4 + 1

/-- R41: the sampled columns of a line of W words. -/
def sampleColumns (w : Nat) : List Nat := (List.range (samplesPerLine w)).map (fun i => 16 + 4 * i)

/-- R42: the comb reference of an admitted record. -/
def History.combReference (h : History) (r : FieldRecord) : Option FieldNo :=
  if r.continuous = true ∧ (h.before r.number).map (fun b => b.number) = some (FieldNo.pred r.number)
  then some (FieldNo.pred r.number) else none

/-- R42: the repeat reference of an admitted record. -/
def History.repeatReference (h : History) (r : FieldRecord) : Option FieldNo :=
  match h.find (FieldNo.pred r.number) with
  | none => none
  | some p =>
    if r.continuous = true ∧ p.continuous = true ∧ (h.find (FieldNo.pred p.number)).isSome = true
    then some (FieldNo.pred p.number) else none

/-- R40 to R42: the probe unit at the admission of a record. -/
def ProbeUnit.admission (h : History) (r : FieldRecord) : ProbeUnit :=
  { field := some { number := r.number, slot := r.slot, parity := r.parity }
    combRef := h.combReference r, repeatRef := h.repeatReference r, combLost := false, repeatLost := false
    table := (probeLines r.lines.length).map (fun l => { line := l, status := .waiting, repeatSum := 0, combSum := 0 })
    pending := [], inFlight := [] }

/-! ### Starting a probe line (R43, R44) -/

/-- R44: the two comb lines of probe line l of a field of a parity, the upper first, clamped into 0..L-1. -/
def combLines (parity : Parity) (l lines : Nat) : Nat × Nat :=
  match parity with
  | .top => (l - 1, min l (lines - 1))
  | .bottom => (min l (lines - 1), min (l + 1) (lines - 1))

/-- R44: a fetch of one line of a slot; a line of a reference record brings its HELD extent. -/
def probeFetch (g : Ring) (role : ProbeRole) (slot line : Nat) (record : Option FieldRecord) : ProbeFetch :=
  { role := role, line := line, base := g.lineBase slot line, width := g.width
    held := match record with
      | some r => (r.lines.getD line LineEntry.fresh).heldExtent
      | none => none
    granted := 0, words := [] }

/-- R44: the fetches of a probe line, in order. -/
def ProbeUnit.fetches (u : ProbeUnit) (h : History) (g : Ring) (f : ProbeField) (l : Nat) : List ProbeFetch :=
  let own := [probeFetch g .own f.slot l none]
  let rep := match u.repeatRef.bind h.find with
    | some r => [probeFetch g .repeatRef r.slot l (some r)]
    | none => []
  let comb := match u.combRef.bind h.find with
    | some r =>
      let (upper, lower) := combLines f.parity l g.lines
      if upper = lower then [probeFetch g .combBoth r.slot upper (some r)]
      else [probeFetch g .combUpper r.slot upper (some r), probeFetch g .combLower r.slot lower (some r)]
    | none => []
  own ++ rep ++ comb

/-- The probe table with a line's entry changed. -/
def ProbeUnit.setEntry (u : ProbeUnit) (l : Nat) (f : ProbeEntry → ProbeEntry) : ProbeUnit :=
  { u with table := u.table.map (fun e => if e.line = l then f e else e) }

/-- R40: no reference stands. -/
def ProbeUnit.noReference (u : ProbeUnit) : Bool := u.combRef.isNone && u.repeatRef.isNone

/-- R43: the monitor tells that a line is complete; a WAITING probe line becomes NOT_RUN, PENDING or INVALID. -/
def ProbeUnit.lineComplete (u : ProbeUnit) (h : History) (g : Ring) (l : Nat) : ProbeUnit :=
  match u.field, u.table.find? (fun e => decide (e.line = l) && decide (e.status = .waiting)) with
  | some f, some _ =>
    if u.noReference then u.setEntry l (fun e => { e with status := .notRun })
    else if u.pending.length < Config.pendingProbes then
      let u1 := u.setEntry l (fun e => { e with status := .pending })
      { u1 with pending := u1.pending ++ [{ line := l, fetches := u.fetches h g f l }] }
    else u.setEntry l (fun e => { e with status := .invalid .skipped })
  | _, _ => u

/-! ### Returns (R45, R46) -/

/-- The fetch of a role, if the probe line makes it. -/
def PendingProbe.fetch (p : PendingProbe) (role : ProbeRole) : Option ProbeFetch :=
  p.fetches.find? (fun f => decide (f.role = role))

/-- The luma of a fetched line at a column (R44, R83). -/
def ProbeFetch.luma (f : ProbeFetch) (x : Nat) : Nat := lumaOf (pixelWord f.words f.held x)

/-- R45: one term of the repeat sum. -/
def repeatTerm (fn fr : Nat) : Nat := absDiff fn fr

/-- R45: one term of the comb sum, clamped to 1023; the subtraction stops at 0. -/
def combTerm (fn fa fb : Nat) : Nat := min 1023 (absDiff (2 * fn) (fa + fb) - absDiff fa fb)

/-- R45: the repeat sum of a probe line, 0 where the repeat reference is absent. -/
def PendingProbe.repeatSum (p : PendingProbe) : Nat :=
  match p.fetch .own, p.fetch .repeatRef with
  | some own, some r => ((sampleColumns own.width).map (fun x => repeatTerm (own.luma x) (r.luma x))).sum
  | _, _ => 0

/-- R44: the upper comb line; one line serves as both where the indices clamp together. -/
def PendingProbe.upper (p : PendingProbe) : Option ProbeFetch :=
  match p.fetch .combBoth with
  | some f => some f
  | none => p.fetch .combUpper

/-- R44: the lower comb line. -/
def PendingProbe.lower (p : PendingProbe) : Option ProbeFetch :=
  match p.fetch .combBoth with
  | some f => some f
  | none => p.fetch .combLower

/-- R45: the comb sum of a probe line, 0 where the comb reference is absent. -/
def PendingProbe.combSum (p : PendingProbe) : Nat :=
  match p.fetch .own, p.upper, p.lower with
  | some own, some a, some b =>
    ((sampleColumns own.width).map (fun x => combTerm (own.luma x) (a.luma x) (b.luma x))).sum
  | _, _, _ => 0

/-- R45: every fetch of the line has returned. -/
def PendingProbe.complete (p : PendingProbe) : Bool := p.fetches.all (fun f => decide (f.width ≤ f.words.length))

/-- A line leaves the pending list, its granted bursts discarded (log entry 30). -/
def ProbeUnit.leave (u : ProbeUnit) (l : Nat) : ProbeUnit :=
  { u with
    pending := u.pending.filter (fun p => decide (p.line ≠ l))
    inFlight := u.inFlight.filter (fun b => decide (b.line ≠ l)) }

/-- R45: a pending line all of whose fetches have returned becomes DONE with its sums. -/
def ProbeUnit.settleLine (u : ProbeUnit) (l : Nat) : ProbeUnit :=
  match u.pending.find? (fun p => decide (p.line = l)) with
  | none => u
  | some p =>
    if p.complete then
      (u.setEntry l (fun e => { e with status := .done, repeatSum := p.repeatSum, combSum := p.combSum })).leave l
    else u

/-- R44: the line, fetch and burst the PROBE requester presents: the oldest pending line's first. -/
def ProbeUnit.presented (u : ProbeUnit) : Option (Nat × ProbeRole × Burst) :=
  u.pending.findSome? (fun p =>
    p.fetches.findSome? (fun f => (nextBurst f.base f.width f.granted).map (fun b => (p.line, f.role, b))))

/-- The pending list with the fetch of a role of a line changed. -/
def ProbeUnit.setFetch (u : ProbeUnit) (l : Nat) (role : ProbeRole) (f : ProbeFetch → ProbeFetch) : ProbeUnit :=
  { u with pending := u.pending.map (fun p =>
      if p.line = l then { p with fetches := p.fetches.map (fun x => if x.role = role then f x else x) } else p) }

/-- R44: a burst of a fetch has been granted. -/
def ProbeUnit.grant (u : ProbeUnit) (l : Nat) (role : ProbeRole) (words : List Word) (failed : Bool) : ProbeUnit :=
  let u1 := u.setFetch l role (fun f => { f with granted := f.granted + words.length })
  { u1 with inFlight := u1.inFlight ++ [{ line := l, role := role, words := words, failed := failed }] }

/-- R45, R46: the oldest granted burst returns: a failing word makes the line INVALID, the last word makes it DONE. -/
def ProbeUnit.returned (u : ProbeUnit) : ProbeUnit :=
  match u.inFlight with
  | [] => u
  | b :: rest =>
    let u1 := { u with inFlight := rest }
    if b.failed then (u1.setEntry b.line (fun e => { e with status := .invalid .checkFailed })).leave b.line
    else (u1.setFetch b.line b.role (fun f => { f with words := f.words ++ b.words })).settleLine b.line

/-! ### Loss of a reference (R47) -/

/-- R47: whether a fetch is of the comb reference. -/
def ProbeRole.ofComb : ProbeRole → Bool
  | .combUpper => true
  | .combLower => true
  | .combBoth => true
  | .own => false
  | .repeatRef => false

/-- R47 step 2: every pending line drops the fetches that p names. -/
def ProbeUnit.dropFetches (u : ProbeUnit) (p : ProbeRole → Bool) : ProbeUnit :=
  { u with
    pending := u.pending.map (fun q => { q with fetches := q.fetches.filter (fun f => ! p f.role) })
    inFlight := u.inFlight.filter (fun b => ! p b.role) }

/-- R47 step 2: a line left with no reference becomes INVALID; another becomes DONE if its other fetches have all returned. -/
def ProbeUnit.afterLoss (u : ProbeUnit) (l : Nat) : ProbeUnit :=
  if u.noReference then (u.setEntry l (fun e => { e with status := .invalid .referenceLost })).leave l else u.settleLine l

/-- R47: the comb reference is lost. -/
def ProbeUnit.loseComb (u : ProbeUnit) : ProbeUnit :=
  let u1 := { (u.dropFetches ProbeRole.ofComb) with combRef := none, combLost := true }
  (u.pending.map (fun p => p.line)).foldl ProbeUnit.afterLoss u1

/-- R47: the repeat reference is lost. -/
def ProbeUnit.loseRepeat (u : ProbeUnit) : ProbeUnit :=
  let u1 := { (u.dropFetches (fun r => decide (r = .repeatRef))) with repeatRef := none, repeatLost := true }
  (u.pending.map (fun p => p.line)).foldl ProbeUnit.afterLoss u1

/-- R47: an eviction notice with a field number. -/
def ProbeUnit.evicted (u : ProbeUnit) (f : FieldNo) : ProbeUnit :=
  if u.combRef = some f then u.loseComb
  else if u.repeatRef = some f then u.loseRepeat
  else u

/-! ### Metrics at close (R48, R49) -/

/-- R48 step 1: every PENDING line becomes INVALID, open at close. -/
def ProbeEntry.atClose (e : ProbeEntry) : ProbeEntry :=
  if e.status = .pending then { e with status := .invalid .openAtClose } else e

/-- Whether a line of a record, if it is there, is usable. -/
def usableIn (r : Option FieldRecord) (l : Nat) : Bool :=
  match r with
  | some r => (r.lines.getD l LineEntry.fresh).usable
  | none => false

/-- R48 step 2: whether a DONE line counts. -/
def ProbeUnit.countsLine (u : ProbeUnit) (h : History) (r : FieldRecord) (e : ProbeEntry) : Bool :=
  let (upper, lower) := combLines r.parity e.line r.lines.length
  decide (e.status = .done) && usableIn (some r) e.line &&
    (match u.repeatRef with
      | some f => usableIn (h.find f) e.line
      | none => true) &&
    (match u.combRef with
      | some f => usableIn (h.find f) upper && usableIn (h.find f) lower
      | none => true)

/-- R49: whether the field had a reference at its admission. -/
def ProbeUnit.measured (u : ProbeUnit) : Bool := !u.noReference || u.combLost || u.repeatLost

/-- R49: how many lines stand INVALID for a reason. -/
def invalidCount (table : List ProbeEntry) (r : InvalidReason) : Nat :=
  table.countP (fun e => decide (e.status = .invalid r))

/-- R48, R49: the metrics of the closing record, and what PROBE_INCOMPLETE carries when it occurs. -/
def ProbeUnit.settle (u : ProbeUnit) (h : History) (r : FieldRecord) (width : Nat) : Option Metrics × Option ProbeReport :=
  let table := u.table.map ProbeEntry.atClose
  let counting := table.filter (u.countsLine h r)
  let p := probeCount r.lines.length
  let q := counting.length
  let samples := q * samplesPerLine width
  if u.measured = false then (none, none)
  else if u.noReference = true ∨ q < (p + 1) / 2 then
    (none, some
      { lines := p, counting := q, skipped := invalidCount table .skipped, checkFailed := invalidCount table .checkFailed
        referenceLost := invalidCount table .referenceLost, openAtClose := invalidCount table .openAtClose
        notMeasured := table.countP (fun e => decide (e.status = .waiting ∨ e.status = .notRun))
        combLost := u.combLost, repeatLost := u.repeatLost })
  else
    (some
      { repeatMetric :=
          if u.repeatRef.isSome then some (min 1023 ((counting.map (fun e => e.repeatSum)).sum / samples)) else none
        combMetric :=
          if u.combRef.isSome then some (min 1023 ((counting.map (fun e => e.combSum)).sum / samples)) else none }, none)

end Sys2Proof.Machine
end

