-- ==== Sys2Proof/Machine/Planner.lean ====
section
/-! DEFINITION. The frame planner (chapter 4): the anchor choice, the method decision, the geometry snapshot with its steps and offsets
(R106 to R108), and the repair of a plan. -/

namespace Sys2Proof.Machine

/-! ### Repair on eviction (R76 to R79) -/

/-- R79: the roles released with a lost role, bit 0 partner, bit 1 anchor-2, bit 2 partner-2. -/
def releasedBits (partner anchor2 partner2 : Bool) : Nat := flag partner + flag anchor2 * 2 + flag partner2 * 4

/-- R76 to R78: the plan after the eviction of a field it names, with the role lost (1 anchor, 2 partner, 3 anchor-2, 4 partner-2)
and the roles released; none where the roles are empty. -/
def Plan.repair (p : Plan) (roles : Roles) : Option (Plan × Nat × Nat) :=
  if roles.anchor then
    some ({ p with method := .fill, anchor := none, partner := none, anchor2 := none, partner2 := none, anchorLost := true }, 1,
      releasedBits p.partner.isSome p.anchor2.isSome p.partner2.isSome)
  else if roles.partner then
    some ({ p with method := .spatial, partner := none, partner2 := none, partnerLost := true }, 2,
      releasedBits false false p.partner2.isSome)
  else if roles.anchor2 then some ({ p with anchor2 := none, motionLost := true }, 3, 0)
  else if roles.partner2 then some ({ p with partner2 := none, motionLost := true }, 4, 0)
  else none

/-! ### Anchor choice (R68, R69) -/

/-- R68: the anchor choice: none for FILL, else the anchor and whether the method decision is run for it. -/
def History.anchorChoice (h : History) (acq : Acquisition) : Option (FieldRecord × Bool) :=
  if acq = .acquiring ∨ acq = .failed then none
  else match h.newestClosed with
    | none => none
    | some n =>
      match h.before n.number with
      | some a => some (a, true)
      | none => some (n, false)

/-- R69: the number of admissions from p to a. -/
def admissionsFrom (p a : FieldNo) : Nat := if p.toNat ≤ a.toNat then a.toNat - p.toNat else a.toNat + 4294967295 - p.toNat

/-- R69: the judgement of an anchor: the repeat flag and the skip count, 0 for none. -/
def judgeAnchor (previous anchor : FieldNo) : Bool × Nat :=
  if previous = 0#32 then (false, 0)
  else
    let d := admissionsFrom previous anchor
    if d = 0 then (true, 0)
    else if d = 1 then (false, 0)
    else if d < 2147483648 then (false, d - 1)
    else (false, 0)

/-! ### Method decision (R70 to R73) -/

/-- R59: the partner table: whether the offset is +1, and the label the partner must carry. -/
def partnerTable : Position32 → Option (Bool × Position32)
  | .lead => some (true, .trail)
  | .trail => some (false, .lead)
  | .film 0 => some (true, .film 1)
  | .film 1 => some (false, .film 0)
  | .film 2 => some (false, .film 1)
  | .film 3 => some (true, .film 4)
  | .film 4 => some (false, .film 3)
  | .film _ => none

/-- R71: the weave test: the partner of an anchor that carries a label, where it qualifies. -/
def History.weavePartner (h : History) (a : FieldRecord) : Option PartnerRole :=
  match a.label with
  | none => none
  | some label =>
    match partnerTable label.position with
    | none => none
    | some (after, wanted) =>
      let number := if after then FieldNo.succ a.number else FieldNo.pred a.number
      match h.find number with
      | none => none
      | some p =>
        if p.closed = true ∧ p.parity = a.parity.other ∧
            p.label = some { episode := label.episode, position := wanted } ∧
            (if after then p.continuous else a.continuous) = true
        then some { field := number, after := after } else none

/-- R72: whether the record of a field is present and closed. -/
def History.presentClosed (h : History) (f : FieldNo) : Bool :=
  match h.find f with
  | some r => r.closed
  | none => false

/-- R72: whether the record of a field is present and CONTINUOUS. -/
def History.isContinuous (h : History) (f : FieldNo) : Bool :=
  match h.find f with
  | some r => r.continuous
  | none => false

/-- R72: the blend test. -/
def History.blends (h : History) (a : FieldRecord) : Bool :=
  match h.find (FieldNo.pred a.number) with
  | some p => a.continuous && p.closed && decide (p.parity = a.parity.other)
  | none => false

/-- R63: the roles and method a frame start decides. -/
structure Decision where
  method : Method
  partner : Option PartnerRole
  anchor2 : Option FieldNo
  partner2 : Option FieldNo
deriving DecidableEq, Repr

/-- R73: SPATIAL names only its anchor. -/
def Decision.spatial : Decision := { method := .spatial, partner := none, anchor2 := none, partner2 := none }

/-- R72: the BLEND plan of an anchor with the motion references available. R72 also says that partner-2 has the partner's parity, which
its table does not make so where field a-1 repeats its predecessor's parity: the table is followed, whatever the parity of field a-3. That
is the model's choice (log entry 41). -/
def History.blendDecision (h : History) (a : FieldRecord) : Decision :=
  let n1 := FieldNo.pred a.number
  let n2 := FieldNo.pred n1
  let n3 := FieldNo.pred n2
  { method := .blend, partner := some { field := n1, after := false }
    anchor2 := if h.presentClosed n2 && h.isContinuous n1 then some n2 else none
    partner2 := if h.presentClosed n3 && h.isContinuous n2 then some n3 else none }

/-- R70: the method decision for an anchor under an override. -/
def History.decide (h : History) (a : FieldRecord) (o : Override) : Decision :=
  if o = .spatialOnly then Decision.spatial
  else
    match (if o = .auto then h.weavePartner a else none) with
    | some p => { method := .weave, partner := some p, anchor2 := none, partner2 := none }
    | none => if h.blends a then h.blendDecision a else Decision.spatial

/-! ### Steps and offsets (R106 to R108) -/

/-- R107: the step of an axis. -/
def axisStep (src box : Nat) : Nat := min 65536 (src * 65536 / box)

/-- R108: the offset of an axis, rounded toward minus infinity. -/
def axisOffset (src box step : Nat) : Int :=
  (((step : Int) - 65536) + ((src : Int) * 65536 - (box : Int) * step)) / 2

/-- R111: the rows a coefficient select chooses. -/
def coefRows (custom : Bool) (rows : List CoefRow) : List CoefRow := if custom then rows else defaultRows

/-- R74, R101: the geometry snapshot from the source width and height and the working output group; with no source no step or offset
is computed. R74 and R101 give the five steps and offsets no value then: the model holds 0 there, its own choice (log entry 40). -/
def takeSnapshot (width rows : Nat) (g : OutputGroup) (custom : List CoefRow) : Snapshot :=
  let known := decide (width ≠ 0) && decide (rows ≠ 0)
  { width := if known then width else 0, rows := if known then rows else 0
    wo := g.wo, ho := g.ho, pitch := g.pitch, x0 := g.x0, y0 := g.y0, wi := g.wi, hi := g.hi
    fillY := g.fillY, fillC := g.fillC, tLo := g.tLo, tHi := g.tHi
    coefs := coefRows g.custom custom
    vStep := if known then axisStep rows g.hi else 0
    vOffset := if known then axisOffset rows g.hi (axisStep rows g.hi) else 0
    hStep := if known then axisStep width g.wi else 0
    lumaOffset := if known then axisOffset width g.wi (axisStep width g.wi) else 0
    chromaOffset := if known then axisOffset (width / 2) (g.wi / 2) (axisStep width g.wi) else 0 }

end Sys2Proof.Machine
end

