-- ==== Sys2Proof/Machine/Settings.lean ====
section
/-! DEFINITION. The settings the pending copy holds (R162), the ladder values (R96), the checks and clamps at load (R143, R167 to
R169), each over plain values. -/

namespace Sys2Proof.Machine

/-! ### Reading the pending copy (R162) -/

/-- R161: the word of the pending copy at a byte offset of the page. -/
def Settings.at (s : Settings) (offset : Nat) : Word := sparseGet 0 s.copy (offset / 4)

/-- R164: the hold word of the pending copy is zero. -/
def Settings.holdZero (s : Settings) : Bool := decide (s.at 0x000 = 0)

/-- R96: the value of a ladder pair: range in bits 0-1, step in bits 8-11. -/
def ladder (w : Word) : Nat :=
  let n := bits w 8 4
  match bits w 0 2 with
  | 0 => 2 * (n + 1)
  | 1 => 4 * (n + 1)
  | 2 => 32 + 4 * (n + 1)
  | _ => 64 + 8 * (n + 1)

/-- R168, R169: a value of a word, or the default named for its setting where the word is zero in all 32 bits. -/
def orDefault (w : Word) (dflt value : Nat) : Nat := if w = 0 then dflt else value

/-- A setting's offset in the page with its written and loaded values. -/
structure Adjusted where
  offset : Nat
  written : Nat
  loaded : Nat
deriving DecidableEq, Repr

/-- The adjustments among a list that changed a value, in order. -/
def changedOnly (as : List Adjusted) : List Adjusted := as.filter (fun a => decide (a.written ≠ a.loaded))

/-! ### Memory group (R167) -/

/-- R167: the interval as clamped. -/
def clampInterval (n : Nat) : Nat := clampNat n 100 65535

/-! ### Ingest group (R168) -/

/-- The words of the ingest group in the pending copy. -/
structure IngestWords where
  w : Word
  l : Word
  k : Word
  slotPitch : Word
  linePitch : Word
  stallLimit : Word
  e22 : Word
  allow : Word
  floorF : Word
  thresholdR : Word
deriving DecidableEq, Repr

/-- R162: the ingest group's words. -/
def Settings.ingestWords (s : Settings) : IngestWords :=
  { w := s.at 0x100, l := s.at 0x104, k := s.at 0x108, slotPitch := s.at 0x10C, linePitch := s.at 0x110
    stallLimit := s.at 0x114, e22 := s.at 0x118, allow := s.at 0x11C, floorF := s.at 0x120, thresholdR := s.at 0x124 }

/-- What refuses a group: the check number and the settings its failing test reads, each an offset and a value. -/
structure Refused where
  check : Nat
  candidates : List (Nat × Word)
deriving DecidableEq, Repr

/-- R168: the first check that refuses the ingest group, with the size of the FIELD_RING window if one stands. The candidates are the
settings of the group that the failing part of the check reads; where no FIELD_RING window stands, check 6 reads none of them, and K and
slot pitch are the model's candidates (log entry 1). -/
def IngestWords.check (g : IngestWords) (ringSize : Option Nat) : Option Refused :=
  let w := g.w.toNat
  let l := g.l.toNat
  let k := g.k.toNat
  let sp := g.slotPitch.toNat
  let lp := g.linePitch.toNat
  if ¬ (256 ≤ w ∧ w ≤ 1024 ∧ w % 2 = 0) then some { check := 1, candidates := [(0x100, g.w)] }
  else if ¬ (l = 0 ∨ (120 ≤ l ∧ l ≤ 320)) then some { check := 2, candidates := [(0x104, g.l)] }
  else if ¬ (4 ≤ k ∧ k ≤ 8) then some { check := 3, candidates := [(0x108, g.k)] }
  else if ¬ (lp % 64 = 0 ∧ (w + 1) * 4 ≤ lp) then
    some { check := 4, candidates := (0x110, g.linePitch) :: (if (w + 1) * 4 ≤ lp then [] else [(0x100, g.w)]) }
  else if ¬ (sp % 64 = 0 ∧ 64 + (if l = 0 then 120 else l) * lp ≤ sp) then
    some { check := 5
           candidates := (0x10C, g.slotPitch) ::
             (if 64 + (if l = 0 then 120 else l) * lp ≤ sp then [] else [(0x104, g.l), (0x110, g.linePitch)]) }
  else match ringSize with
    | none => some { check := 6, candidates := [(0x108, g.k), (0x10C, g.slotPitch)] }
    | some size =>
      if k * sp ≤ size then none else some { check := 6, candidates := [(0x108, g.k), (0x10C, g.slotPitch)] }

/-- R168: the stall limit as loaded. -/
def loadedStall (w : Word) : Nat := orDefault w Config.defaultStallLimit (clampNat w.toNat 18 24)

/-- R168: E22 as loaded. -/
def loadedE22 (w : Word) : Nat := orDefault w 8 (clampNat w.toNat 4 32)

/-- R168: the ingest group as loaded. -/
def IngestWords.load (g : IngestWords) : IngestGroup :=
  { w := g.w.toNat, l := g.l.toNat, k := g.k.toNat, slotPitch := g.slotPitch.toNat, linePitch := g.linePitch.toNat
    stallLimit := loadedStall g.stallLimit, e22 := loadedE22 g.e22
    allow22 := g.allow.getLsbD 0, allow32 := g.allow.getLsbD 1
    floorF := orDefault g.floorF 8 (ladder g.floorF), thresholdR := orDefault g.thresholdR 4 (ladder g.thresholdR) }

/-- R168: the clamps that changed a written value; a zero word's default is none. -/
def IngestWords.adjusted (g : IngestWords) : List Adjusted :=
  changedOnly
    [{ offset := 0x114, written := orDefault g.stallLimit Config.defaultStallLimit g.stallLimit.toNat
       loaded := loadedStall g.stallLimit },
     { offset := 0x118, written := orDefault g.e22 8 g.e22.toNat, loaded := loadedE22 g.e22 }]

/-- R3, R168: whether a load is an ingest geometry change. -/
def IngestGroup.changesGeometry (new : IngestGroup) (old : Option IngestGroup) : Bool :=
  match old with
  | none => true
  | some o =>
    decide (new.l = 0) || decide (new.w ≠ o.w) || decide (new.l ≠ o.l) || decide (new.k ≠ o.k) ||
      decide (new.slotPitch ≠ o.slotPitch) || decide (new.linePitch ≠ o.linePitch)

/-! ### Output group (R169, R112) -/

/-- The words of the output group in the pending copy, but the coefficient rows. -/
structure OutputWords where
  wo : Word
  ho : Word
  pitch : Word
  x0 : Word
  y0 : Word
  wi : Word
  hi : Word
  fillY : Word
  fillC : Word
  tLo : Word
  tHi : Word
  override : Word
  select : Word
deriving DecidableEq, Repr

/-- R162: the output group's words. -/
def Settings.outputWords (s : Settings) : OutputWords :=
  { wo := s.at 0x200, ho := s.at 0x204, pitch := s.at 0x208, x0 := s.at 0x20C, y0 := s.at 0x210, wi := s.at 0x214
    hi := s.at 0x218, fillY := s.at 0x21C, fillC := s.at 0x220, tLo := s.at 0x224, tHi := s.at 0x228
    override := s.at 0x22C, select := s.at 0x230 }

/-- R169: rounded down to even. -/
def evenDown (n : Nat) : Nat := n / 2 * 2

/-- R169: the settings that the failing tests of check 3 read (log entry 1). -/
def OutputWords.boxCandidates (g : OutputWords) : List (Nat × Word) :=
  let x0 := evenDown g.x0.toNat
  let wi := evenDown g.wi.toNat
  (if wi < 2 then [(0x214, word wi)] else []) ++
  (if g.hi.toNat < 1 then [(0x218, g.hi)] else []) ++
  (if g.wo.toNat < x0 + wi then [(0x20C, word x0), (0x214, word wi), (0x200, g.wo)] else []) ++
  (if g.ho.toNat < g.y0.toNat + g.hi.toNat then [(0x210, g.y0), (0x218, g.hi), (0x204, g.ho)] else [])

/-- R169: the first check that refuses the output group, x0 and wi rounded down to even. -/
def OutputWords.check (g : OutputWords) : Option Refused :=
  if ¬ (640 ≤ g.wo.toNat ∧ g.wo.toNat ≤ 2048 ∧ g.wo.toNat % 2 = 0) then some { check := 1, candidates := [(0x200, g.wo)] }
  else if ¬ (240 ≤ g.ho.toNat ∧ g.ho.toNat ≤ 1080) then some { check := 2, candidates := [(0x204, g.ho)] }
  else if g.boxCandidates = [] then none
  else some { check := 3, candidates := g.boxCandidates }

/-- R169: the row pitch as loaded: where below Wo * 4 or not a multiple of 64, the smallest multiple of 64 at least both.
A written pitch above 0xFFFFFFC0 so becomes 2^32, which no word holds; that the working pitch is then 2^32, and its record shows 0 as
the loaded value, is the model's choice (log entry 35). -/
def loadedPitch (pitch wo : Nat) : Nat := if pitch < wo * 4 ∨ pitch % 64 ≠ 0 then (max pitch (wo * 4) + 63) / 64 * 64 else pitch

/-- R162, R169: the method override, code 3 becoming AUTO. -/
def overrideOf (n : Nat) : Override :=
  match n with
  | 1 => .noWeave
  | 2 => .spatialOnly
  | _ => .auto

/-- R169: a fill value as loaded. -/
def loadedFill (w : Word) (dflt : Nat) : Nat := orDefault w dflt (clampNat w.toNat 4 1019)

/-- R97: tHi as loaded over tLo. -/
def loadedHigh (tLo tHi : Nat) : Nat := if tHi ≤ tLo then tLo + 1 else tHi

/-- R169: the tLo value before the tHi check. -/
def OutputWords.low (g : OutputWords) : Nat := orDefault g.tLo 16 (ladder g.tLo)

/-- R169: the tHi value before the tHi check. -/
def OutputWords.high (g : OutputWords) : Nat := orDefault g.tHi 64 (ladder g.tHi)

/-- R169: the output group as loaded. -/
def OutputWords.load (g : OutputWords) : OutputGroup :=
  { wo := g.wo.toNat, ho := g.ho.toNat, pitch := loadedPitch g.pitch.toNat g.wo.toNat
    x0 := evenDown g.x0.toNat, y0 := g.y0.toNat, wi := evenDown g.wi.toNat, hi := g.hi.toNat
    fillY := loadedFill g.fillY Config.defaultFillY, fillC := loadedFill g.fillC Config.defaultFillC
    tLo := g.low, tHi := loadedHigh g.low g.high
    override := overrideOf (bits g.override 0 2), custom := g.select.getLsbD 0 }

/-- R169: the adjustments that changed a value, in offset order; tHi is reported by its value (section 11.6). -/
def OutputWords.adjusted (g : OutputWords) : List Adjusted :=
  changedOnly
    [{ offset := 0x208, written := g.pitch.toNat, loaded := loadedPitch g.pitch.toNat g.wo.toNat },
     { offset := 0x20C, written := g.x0.toNat, loaded := evenDown g.x0.toNat },
     { offset := 0x214, written := g.wi.toNat, loaded := evenDown g.wi.toNat },
     { offset := 0x21C, written := orDefault g.fillY Config.defaultFillY g.fillY.toNat
       loaded := loadedFill g.fillY Config.defaultFillY },
     { offset := 0x220, written := orDefault g.fillC Config.defaultFillC g.fillC.toNat
       loaded := loadedFill g.fillC Config.defaultFillC },
     { offset := 0x228, written := g.high, loaded := loadedHigh g.low g.high },
     { offset := 0x22C, written := bits g.override 0 2, loaded := if bits g.override 0 2 = 3 then 0 else bits g.override 0 2 }]

/-- R162: a custom row as written. -/
def Settings.writtenRow (s : Settings) (p : Nat) : CoefRow :=
  let a := s.at (0x300 + 8 * p)
  let b := s.at (0x304 + 8 * p)
  { c0 := signed16 (bits a 0 16), c1 := signed16 (bits a 16 16), c2 := signed16 (bits b 0 16), c3 := signed16 (bits b 16 16) }

/-- R112: a row passes when each coefficient lies within -128..383 and the four sum to 256. -/
def CoefRow.passes (r : CoefRow) : Bool :=
  let ok (c : Int) : Bool := decide (-128 ≤ c) && decide (c ≤ 383)
  ok r.c0 && ok r.c1 && ok r.c2 && ok r.c3 && decide (r.c0 + r.c1 + r.c2 + r.c3 = 256)

/-- R112: a custom row as loaded. -/
def Settings.loadedRow (s : Settings) (p : Nat) : CoefRow :=
  if (s.writtenRow p).passes then s.writtenRow p else CoefRow.default p

/-- R162: a row packed as in the control page. -/
def CoefRow.packed (r : CoefRow) : Word × Word :=
  (word (field16 r.c0 + field16 r.c1 * 65536), word (field16 r.c2 + field16 r.c3 * 65536))

/-- R112: the conditions of the failing rows, in the order of row index, the page at base. -/
def Settings.rowConditions (s : Settings) (base : Nat) : List Condition :=
  ((List.range 16).filter (fun p => !(s.writtenRow p).passes)).map (fun p =>
    .rowAdjusted (base + 0x300 + 8 * p) (s.at (0x300 + 8 * p)) (s.at (0x304 + 8 * p))
      (CoefRow.default p).packed.1 (CoefRow.default p).packed.2)

/-! ### Window group (R143) -/

/-- R162: the coding of a window kind, 5 to 7 reading as OFF. -/
def windowKindOf (n : Nat) : WindowKind :=
  match n with
  | 1 => .fieldRing
  | 2 => .output
  | 3 => .status
  | 4 => .guard
  | _ => .off

/-- R162: window entry i as written. -/
def Settings.windowEntry (s : Settings) (i : Nat) : WindowEntry :=
  { base := (s.at (0x040 + 16 * i)).toNat, size := (s.at (0x044 + 16 * i)).toNat
    kind := windowKindOf (bits (s.at (0x048 + 16 * i)) 0 3) }

/-- R143 step 1: rounded down to a multiple of 64 KiB. -/
def align64K (n : Nat) : Nat := n / 65536 * 65536

/-- R143: the kinds of which at most one entry stands. -/
def WindowKind.unique : WindowKind → Bool
  | .fieldRing => true
  | .output => true
  | .status => true
  | .off => false
  | .guard => false

/-- R143: an entry as installed, after the entries installed before it, with the last step that changed it (0 for none). -/
def installEntry (dramSize pageBase : Nat) (before : List WindowEntry) (e : WindowEntry) : WindowEntry × Nat :=
  if e.kind = .off then (e, 0)
  else
    let base := align64K e.base
    let size := align64K e.size
    let rounded : WindowEntry := { base := base, size := size, kind := e.kind }
    let dropped : WindowEntry := { rounded with kind := .off }
    if size = 0 then (dropped, 1)
    else if 4294967296 < base + size then (dropped, 2)
    else if base < pageBase + 4096 ∧ pageBase < base + size then (dropped, 3)
    else if e.kind ≠ .output ∧ dramSize < base + size then (dropped, 4)
    else if e.kind.unique = true ∧ (before.any (fun b => decide (b.kind = e.kind))) = true then (dropped, 5)
    else if rounded = e then (e, 0) else (rounded, 1)

/-- R143: the entries as installed, in order, each with its last changing step. -/
def installEntries (dramSize pageBase : Nat) (before : List WindowEntry) : List WindowEntry → List (WindowEntry × Nat)
  | [] => []
  | e :: rest =>
    let r := installEntry dramSize pageBase before e
    r :: installEntries dramSize pageBase (before ++ [r.1]) rest

/-- R143: the eight entries of the pending copy. -/
def Settings.windowEntries (s : Settings) : List WindowEntry := (List.range 8).map s.windowEntry

/-- R143: the condition of an adjusted entry i, the page at base. -/
def windowCondition (base i : Nat) (written : WindowEntry) (r : WindowEntry × Nat) : Option Condition :=
  if r.2 = 0 then none
  else some (.windowAdjusted (base + 0x040 + 16 * i) r.2 written.kind r.1.kind written.base written.size r.1.size)

/-- R143: the conditions of a window load, in entry order. -/
def windowConditions (base : Nat) (written : List WindowEntry) (installed : List (WindowEntry × Nat)) : List Condition :=
  ((List.range written.length).zip (written.zip installed)).filterMap (fun x => windowCondition base x.1 x.2.1 x.2.2)

/-- R1, R67, R143: a window was moved, resized or removed: it stood, and it does not stand with the same base and size (log entry
17). -/
def windowChanged (before after : Option WindowEntry) : Bool :=
  match before, after with
  | none, _ => false
  | some _, none => true
  | some b, some a => decide (b.base ≠ a.base) || decide (b.size ≠ a.size)

end Sys2Proof.Machine
end

