-- ==== Sys2Proof/Machine/Reconstruct.lean ====
section
/-! DEFINITION. Line reconstruction (chapter 5): the lines a reconstructed row draws on, the source of each anchor row, concealment, the
spatial estimate, the motion measure and the blend. -/

namespace Sys2Proof.Machine

/-! ### Rows and lines (R82, R91) -/

/-- R82: whether row r is an anchor row. -/
def isAnchorRow (pA r : Nat) : Bool := decide (r % 2 = pA)

/-- R82: the line at row r of a field of parity p. -/
def lineAtRow (p r : Nat) : Nat := (r - p) / 2

/-- The row above, when it lies in the frame. -/
def rowAbove (r : Nat) : Option Nat := if r = 0 then none else some (r - 1)

/-- The row below, when it lies in a frame of so many rows. -/
def rowBelow (rows r : Nat) : Option Nat := if r + 1 < rows then some (r + 1) else none

/-- R91: row a of a missing row, the row below standing in where the row above lies outside. -/
def neighbourA (r : Nat) : Nat := if r = 0 then r + 1 else r - 1

/-- R91: row b of a missing row, the row above standing in where the row below lies outside. -/
def neighbourB (rows r : Nat) : Nat := if r + 1 < rows then r + 1 else r - 1

/-! ### Sources of an anchor row (R84, R86 to R89) -/

/-- What an anchor row takes its samples from: one line, the average of two partner lines, or fill values. -/
inductive RowSource where
  | line (role : SourceRole) (l : Nat)
  | average (upper lower : Nat)
  | fill
deriving DecidableEq, Repr

/-- R89: the nearest anchor line that p accepts for concealing line l of a field of so many lines: upward first, then downward. -/
def nearestAnchor (p : Nat → Bool) (lines l : Nat) : Option Nat :=
  match (List.range l).reverse.find? p with
  | some n => some n
  | none => ((List.range lines).drop (l + 1)).find? p

/-- R87, R88: the side of a partner average at a row, where its line is accepted. -/
def partnerSide (ok : SourceRole → Nat → Bool) (pA : Nat) (row : Option Nat) : Option Nat :=
  match row with
  | none => none
  | some r => if ok .partner (lineAtRow (1 - pA) r) then some (lineAtRow (1 - pA) r) else none

/-- R87: the concealment source of anchor row r in a frame of so many rows, over the lines that ok accepts. -/
def conceal (ok : SourceRole → Nat → Bool) (pA rows r : Nat) : RowSource :=
  let l := lineAtRow pA r
  match partnerSide ok pA (rowAbove r), partnerSide ok pA (rowBelow rows r) with
  | some p, some q => .average p q
  | some p, none => .line .partner p
  | none, some q => .line .partner q
  | none, none =>
    if ok .anchor2 l then .line .anchor2 l
    else match nearestAnchor (ok .anchor) (rows / 2) l with
      | some n => .line .anchor n
      | none => .fill

/-- R84: the source planned for anchor row r over the usable lines. -/
def plannedSource (usable : SourceRole → Nat → Bool) (pA rows r : Nat) : RowSource :=
  if usable .anchor (lineAtRow pA r) then .line .anchor (lineAtRow pA r) else conceal usable pA rows r

/-- The lines a source draws on. -/
def RowSource.draws : RowSource → List (SourceRole × Nat)
  | .line role l => [(role, l)]
  | .average p q => [(.partner, p), (.partner, q)]
  | .fill => []

/-! ### Planning (R84, R121) -/

/-- R84: the lines that missing row r draws on beyond those of its neighbours, by method. -/
def methodDraws (usable : SourceRole → Nat → Bool) (method : Method) (pA rows r : Nat) : List (SourceRole × Nat) :=
  let p := lineAtRow (1 - pA) r
  let a := lineAtRow pA (neighbourA r)
  let b := lineAtRow pA (neighbourB rows r)
  match method with
  | .weave => if usable .partner p then [(.partner, p)] else []
  | .blend =>
    if usable .partner p then
      (.partner, p) :: ((if usable .partner2 p then [(.partner2, p)] else []) ++
        (if usable .anchor2 a && usable .anchor2 b && usable .anchor a && usable .anchor b then [(.anchor2, a), (.anchor2, b)]
          else []))
    else []
  | .spatial => []
  | .fill => []

/-- R84: the lines that row r draws on. -/
def rowDraws (usable : SourceRole → Nat → Bool) (method : Method) (pA rows r : Nat) : List (SourceRole × Nat) :=
  if isAnchorRow pA r then (plannedSource usable pA rows r).draws
  else
    (plannedSource usable pA rows (neighbourA r)).draws ++ (plannedSource usable pA rows (neighbourB rows r)).draws ++
      methodDraws usable method pA rows r

/-- R121: the anchor rows that tap row r concerns: itself, or the two neighbours that a missing row draws on. -/
def anchorRowsOf (pA rows r : Nat) : List Nat := if isAnchorRow pA r then [r] else [neighbourA r, neighbourB rows r]

/-- R121: whether line l of the anchor is the own line of an anchor row that the taps concern. -/
def ownLineOf (pA rows : Nat) (taps : List Nat) (l : Nat) : Bool :=
  (taps.flatMap (anchorRowsOf pA rows)).any (fun r => decide (lineAtRow pA r = l))

/-- R121: whether line l of the partner lies at a missing row of the taps. -/
def missingLineOf (pA : Nat) (taps : List Nat) (l : Nat) : Bool :=
  taps.any (fun r => !isAnchorRow pA r && decide (lineAtRow (1 - pA) r = l))

/-- R121: the place of a line's row of the table: anchor, partner, partner-2 and anchor-2 lines, then the concealment substitutes, which
are partner lines of no missing row of the taps and anchor lines of no anchor row of theirs. -/
def drawRank (pA rows : Nat) (taps : List Nat) (d : SourceRole × Nat) : Nat :=
  match d.1 with
  | .anchor => if ownLineOf pA rows taps d.2 then 0 else 4
  | .partner => if missingLineOf pA taps d.2 then 1 else 4
  | .partner2 => 2
  | .anchor2 => 3

/-- R121: whether a line comes before another in the need set, by rank and then by line number. Of two substitutes with one line number
the anchor's comes first (log entry 16). -/
def drawBefore (rank : SourceRole × Nat → Nat) (a b : SourceRole × Nat) : Bool :=
  decide (rank a < rank b) || (decide (rank a = rank b) && (decide (a.2 < b.2) || (decide (a.2 = b.2) && decide (a.1 = .anchor))))

/-- R121: a line put into its place in a need set, once. -/
def insertDraw (rank : SourceRole × Nat → Nat) (d : SourceRole × Nat) : List (SourceRole × Nat) → List (SourceRole × Nat)
  | [] => [d]
  | e :: rest => if d = e then e :: rest else if drawBefore rank d e then d :: e :: rest else e :: insertDraw rank d rest

/-- R121: the lines drawn on by the rows, each once, in order. -/
def needDraws (usable : SourceRole → Nat → Bool) (method : Method) (pA rows : Nat) (taps : List Nat) : List (SourceRole × Nat) :=
  (taps.flatMap (rowDraws usable method pA rows)).foldl (fun acc d => insertDraw (drawRank pA rows taps) d acc) []

/-- The field number a plan names in a role (R63). -/
def Plan.fieldOf (p : Plan) : SourceRole → Option FieldNo
  | .anchor => p.anchor.map (fun a => a.field)
  | .partner => p.partner.map (fun a => a.field)
  | .partner2 => p.partner2
  | .anchor2 => p.anchor2

/-- The record of the field that a plan names in a role. -/
def History.recordOf (h : History) (p : Plan) (role : SourceRole) : Option FieldRecord := (p.fieldOf role).bind h.find

/-- R84: whether line l of a role is usable by its final state. -/
def History.roleUsable (h : History) (p : Plan) (role : SourceRole) (l : Nat) : Bool := usableIn (h.recordOf p role) l

/-- R125: the wanted line of a draw, with its tag, its HELD extent and where it lies in DRAM. -/
def History.wanted (h : History) (p : Plan) (g : Ring) (d : SourceRole × Nat) : Option WantedLine :=
  match h.recordOf p d.1 with
  | none => none
  | some r =>
    some { role := d.1, line := d.2, tag := { slot := r.slot, field := r.number, line := d.2 }
           held := (r.lines.getD d.2 LineEntry.fresh).heldExtent, base := g.lineBase r.slot d.2, width := g.width }

/-! ### Production (R85 to R99) -/

/-- A line of a read's need set with what its entry holds when the data are produced (R85). -/
structure ResolvedLine where
  role : SourceRole
  line : Nat
  state : EntryState
  held : Option Nat
  data : List Word
deriving DecidableEq, Repr

/-- R85, R122: the lines of a need set with the entries so listed. -/
def LineStore.resolve (st : LineStore) (need : List NeedLine) : List ResolvedLine :=
  need.map (fun n =>
    { role := n.role, line := n.line, state := (st.entry n.entry).state, held := n.held, data := (st.entry n.entry).data })

/-- What the reconstruction unit computes a read's rows from (R81). -/
structure Picture where
  method : Method
  parity : Nat
  rows : Nat
  width : Nat
  fillY : Nat
  fillC : Nat
  tLo : Nat
  tHi : Nat
  lines : List ResolvedLine
deriving DecidableEq, Repr

/-- R85: the available line of a role. -/
def Picture.available (p : Picture) (role : SourceRole) (l : Nat) : Option ResolvedLine :=
  p.lines.find? (fun r => decide (r.role = role) && decide (r.line = l) && decide (r.state = .valid))

/-- R85: whether a line of a role is available. -/
def Picture.has (p : Picture) (role : SourceRole) (l : Nat) : Bool := (p.available role l).isSome

/-- R86: whether the anchor's own line was drawn on and its entry is VOID. -/
def Picture.ownVoid (p : Picture) (l : Nat) : Bool :=
  p.lines.any (fun r => decide (r.role = .anchor) && decide (r.line = l) && decide (r.state = .void))

/-- R83: word x of a line as it supplies picture. -/
def ResolvedLine.word (r : ResolvedLine) (x : Nat) : Word := pixelWord r.data r.held x

/-- R83: luma sample x of an available line; 0 where it is not available, which no use reads. -/
def Picture.luma (p : Picture) (role : SourceRole) (l x : Nat) : Nat :=
  match p.available role l with
  | some r => lumaOf (r.word x)
  | none => 0

/-- R83: chroma sample x of an available line; 0 where it is not available, which no use reads. -/
def Picture.chroma (p : Picture) (role : SourceRole) (l x : Nat) : Nat :=
  match p.available role l with
  | some r => chromaOf (r.word x)
  | none => 0

/-- R86, R87: the source of anchor row r at production. -/
def Picture.anchorSource (p : Picture) (r : Nat) : RowSource :=
  let l := lineAtRow p.parity r
  if p.has .anchor l then .line .anchor l
  else if p.ownVoid l then .fill
  else conceal p.has p.parity p.rows r

/-- R88: the rounded mean of two samples. -/
def mean2 (a b : Nat) : Nat := (a + b + 1) / 2

/-- R86 to R89: luma sample x of anchor row r. -/
def Picture.anchorLuma (p : Picture) (r x : Nat) : Nat :=
  match p.anchorSource r with
  | .line role l => p.luma role l x
  | .average u l => mean2 (p.luma .partner u x) (p.luma .partner l x)
  | .fill => p.fillY

/-- R86 to R89: chroma sample x of anchor row r. -/
def Picture.anchorChroma (p : Picture) (r x : Nat) : Nat :=
  match p.anchorSource r with
  | .line role l => p.chroma role l x
  | .average u l => mean2 (p.chroma .partner u x) (p.chroma .partner l x)
  | .fill => p.fillC

/-- R93: the direction of least difference, V before L before R, as its rounded mean: the samples are those of rows a and b at x-1, x
and x+1. -/
def edgeEstimate (aL a aR bL b bR : Nat) : Nat :=
  let dV := absDiff a b
  let dL := absDiff aL bR
  let dR := absDiff aR bL
  if dV ≤ dL ∧ dV ≤ dR then mean2 a b
  else if dL ≤ dR then mean2 aL bR
  else mean2 aR bL

/-- R93: the luma spatial estimate of missing row r at column x. -/
def Picture.spatialLuma (p : Picture) (r x : Nat) : Nat :=
  let a := p.anchorLuma (neighbourA r)
  let b := p.anchorLuma (neighbourB p.rows r)
  let left := x - 1
  let right := min (x + 1) (p.width - 1)
  edgeEstimate (a left) (a x) (a right) (b left) (b x) (b right)

/-- R94: the chroma spatial estimate of missing row r at word x. -/
def Picture.spatialChroma (p : Picture) (r x : Nat) : Nat :=
  mean2 (p.anchorChroma (neighbourA r) x) (p.anchorChroma (neighbourB p.rows r) x)

/-- R95: the partner term of the motion measure, where it is present. -/
def Picture.partnerTerm (p : Picture) (r x : Nat) : Option Nat :=
  let l := lineAtRow (1 - p.parity) r
  if p.has .partner2 l then some (absDiff (p.luma .partner l x) (p.luma .partner2 l x)) else none

/-- R95: the anchor term of the motion measure, where it is present. -/
def Picture.anchorTerm (p : Picture) (r x : Nat) : Option Nat :=
  let a := lineAtRow p.parity (neighbourA r)
  let b := lineAtRow p.parity (neighbourB p.rows r)
  if p.has .anchor a && p.has .anchor b && p.has .anchor2 a && p.has .anchor2 b then
    some (mean2 (absDiff (p.luma .anchor a x) (p.luma .anchor2 a x)) (absDiff (p.luma .anchor b x) (p.luma .anchor2 b x)))
  else none

/-- R95: the larger of the terms present, 1023 where neither is. -/
def motionOf (m1 m2 : Option Nat) : Nat :=
  match m1, m2 with
  | some a, some b => max a b
  | some a, none => a
  | none, some b => b
  | none, none => 1023

/-- R95: the motion measure of missing row r at luma column x. -/
def Picture.motion (p : Picture) (r x : Nat) : Nat := motionOf (p.partnerTerm r x) (p.anchorTerm r x)

/-- R98: the blend weight. -/
def blendWeight (m tLo tHi : Nat) : Nat :=
  if m ≤ tLo then 0 else if tHi ≤ m then 16 else (m - tLo) * 16 / (tHi - tLo)

/-- R99: the blend of the partner's sample t and the estimate s at weight w. -/
def blendSample (t s w : Nat) : Nat := (t * (16 - w) + s * w + 8) / 16

/-- R92: luma sample x of missing row r. -/
def Picture.missingLuma (p : Picture) (r x : Nat) : Nat :=
  let l := lineAtRow (1 - p.parity) r
  if p.has .partner l then
    match p.method with
    | .weave => p.luma .partner l x
    | .blend => blendSample (p.luma .partner l x) (p.spatialLuma r x) (blendWeight (p.motion r x) p.tLo p.tHi)
    | .spatial => p.spatialLuma r x
    | .fill => p.fillY
  else p.spatialLuma r x

/-- R92, R99: chroma sample x of missing row r, blended with the weight taken at the even column of its pair. -/
def Picture.missingChroma (p : Picture) (r x : Nat) : Nat :=
  let l := lineAtRow (1 - p.parity) r
  if p.has .partner l then
    match p.method with
    | .weave => p.chroma .partner l x
    | .blend =>
      blendSample (p.chroma .partner l x) (p.spatialChroma r x) (blendWeight (p.motion r (x / 2 * 2)) p.tLo p.tHi)
    | .spatial => p.spatialChroma r x
    | .fill => p.fillC
  else p.spatialChroma r x

/-- R81: the luma sample Y(x, r). -/
def Picture.y (p : Picture) (x r : Nat) : Nat := if isAnchorRow p.parity r then p.anchorLuma r x else p.missingLuma r x

/-- R81: the chroma sample C(x, r). -/
def Picture.c (p : Picture) (x r : Nat) : Nat := if isAnchorRow p.parity r then p.anchorChroma r x else p.missingChroma r x

end Sys2Proof.Machine
end

