-- ==== Sys2Proof/Machine/Scaler.lean ====
section
/-! DEFINITION. Scaling and the output raster (chapter 6): the pixel of a word, fill words, positions, phases and taps, the two filter
stages and the output word. -/

namespace Sys2Proof.Machine

/-! ### Pixels (R103, R104, R105) -/

/-- R103: the row of a byte offset. -/
def pixelRow (pitch o : Nat) : Nat := o / pitch

/-- R103: the column of a byte offset. -/
def pixelColumn (pitch o : Nat) : Nat := o % pitch / 4

/-- R104: whether the pixel (x, y) of a read of a row, whose copy is not FILL, is a picture word. -/
def Snapshot.isPicture (g : Snapshot) (row x y : Nat) : Bool :=
  decide (x < g.wo) && decide (y < g.ho) && decide (g.x0 ≤ x) && decide (x < g.x0 + g.wi) &&
    decide (g.y0 ≤ y) && decide (y < g.y0 + g.hi) && decide (y = row)

/-- R116: an output word of a luma and a chroma sample. -/
def outputWord (y c : Nat) : Word := word (c % 1024 + y % 1024 * 65536)

/-- R104: whether the word at offset o of a read whose first word lies at offset first is a picture word. -/
def Plan.pictureAt (p : Plan) (first o : Nat) : Bool :=
  decide (p.method ≠ .fill) &&
    p.snapshot.isPicture (pixelRow p.snapshot.pitch first) (pixelColumn p.snapshot.pitch o) (pixelRow p.snapshot.pitch o)

/-- The byte offsets of a read's words. -/
def wordOffsets (first count : Nat) : List Nat := (List.range count).map (fun i => first + 4 * i)

/-! ### Positions and taps (R109, R110) -/

/-- R109: the position of output index i on an axis. -/
def axisPos (step offset : Int) (i : Nat) : Int := (i : Int) * step + offset

/-- R109: the source index, rounded toward minus infinity. -/
def posIndex (pos : Int) : Int := pos / 65536

/-- R109: the phase, from the fraction 0..65535. -/
def posPhase (pos : Int) : Nat := (pos % 65536).toNat / 4096

/-- R110: a tap clamped into 0..src-1. -/
def clampTap (src : Nat) (n : Int) : Nat := (clampInt n 0 ((src : Int) - 1)).toNat

/-- R110: the four taps at source index n. -/
def taps (src : Nat) (n : Int) : List Nat :=
  [clampTap src (n - 1), clampTap src n, clampTap src (n + 1), clampTap src (n + 2)]

/-- R110: the reconstructed rows a read's picture words need. -/
def Snapshot.rowTaps (g : Snapshot) (row : Nat) : List Nat :=
  taps g.rows (posIndex (axisPos g.vStep g.vOffset (row - g.y0)))

/-- R121: the rows an output read of count words from offset first needs; none where it has no picture word. -/
def Plan.neededRows (p : Plan) (first count : Nat) : List Nat :=
  if (wordOffsets first count).any (fun o => p.pictureAt first o) then
    p.snapshot.rowTaps (pixelRow p.snapshot.pitch first)
  else []

/-! ### Filters (R113 to R115) -/

/-- R111: the coefficient row of a phase. -/
def Snapshot.coef (g : Snapshot) (phase : Nat) : CoefRow := g.coefs.getD phase (CoefRow.default phase)

/-- R113, R114: four samples filtered by a row, rounded toward minus infinity and clamped. -/
def filter4 (c : CoefRow) (s0 s1 s2 s3 : Nat) (lo hi : Int) : Nat :=
  (clampInt ((c.c0 * s0 + c.c1 * s1 + c.c2 * s2 + c.c3 * s3 + 128) / 256) lo hi).toNat

/-- A filter over the taps a list names. -/
def filterTaps (c : CoefRow) (f : Nat → Nat) (ts : List Nat) (lo hi : Int) : Nat :=
  filter4 c (f (ts.getD 0 0)) (f (ts.getD 1 0)) (f (ts.getD 2 0)) (f (ts.getD 3 0)) lo hi

/-- R113: the vertical stage over a sample of each tap row. -/
def Snapshot.vertical (g : Snapshot) (row : Nat) (f : Nat → Nat) : Nat :=
  filterTaps (g.coef (posPhase (axisPos g.vStep g.vOffset (row - g.y0)))) f (g.rowTaps row) 0 1023

/-- R114: the luma of the picture word at column x of a read's row. -/
def Snapshot.lumaOut (g : Snapshot) (p : Picture) (row x : Nat) : Nat :=
  let pos := axisPos g.hStep g.lumaOffset (x - g.x0)
  filterTaps (g.coef (posPhase pos)) (fun col => g.vertical row (fun r => p.y col r)) (taps g.width (posIndex pos)) 4 1019

/-- R115: the chroma of the picture word at column x of a read's row: Cb where x - x0 is even, else Cr. -/
def Snapshot.chromaOut (g : Snapshot) (p : Picture) (row x : Nat) : Nat :=
  let i := x - g.x0
  let pos := axisPos g.hStep g.chromaOffset (i / 2)
  filterTaps (g.coef (posPhase pos)) (fun m => g.vertical row (fun r => p.c (2 * m + i % 2) r))
    (taps (g.width / 2) (posIndex pos)) 4 1019

/-! ### The words of a read (R101, R116) -/

/-- R81: the picture a read's copy and entries give the reconstruction unit. -/
def Plan.picture (p : Plan) (lines : List ResolvedLine) : Picture :=
  { method := p.method
    parity := match p.anchor with
      | some a => a.parity.toNat
      | none => 0
    rows := p.snapshot.rows, width := p.snapshot.width, fillY := p.snapshot.fillY, fillC := p.snapshot.fillC
    tLo := p.snapshot.tLo, tHi := p.snapshot.tHi, lines := lines }

/-- R104, R116: the word at offset o of a read with an OPEN copy. -/
def Plan.outputWordAt (p : Plan) (lines : List ResolvedLine) (first o : Nat) : Word :=
  let g := p.snapshot
  if p.pictureAt first o then
    outputWord (g.lumaOut (p.picture lines) (pixelRow g.pitch first) (pixelColumn g.pitch o))
      (g.chromaOut (p.picture lines) (pixelRow g.pitch first) (pixelColumn g.pitch o))
  else outputWord g.fillY g.fillC

/-- R104, R116: the words of an output read of count words, produced from the store. -/
def OutputRead.produce (o : OutputRead) (st : LineStore) (count : Nat) : List Word :=
  match o.plan with
  | none => List.replicate count (outputWord o.fillY o.fillC)
  | some p => (wordOffsets o.offset count).map (p.outputWordAt (st.resolve o.need) o.offset)

end Sys2Proof.Machine
end

