-- ==== Sys2Proof/Machine/Queues.lean ====
section
/-! DEFINITION. The queues of the two upstream ports (R135 to R139): what stands in a position, the order of takes and of responses,
which request is next, and what leaves a port. -/

namespace Sys2Proof.Machine

/-! ### Positions -/

/-- The place in take order of a position taken and not yet granted (R136, R137). -/
def Progress.ungranted : Progress → Option Nat
  | .untaken => none
  | .held => none
  | .writeTaken o _ => some o
  | .readTaken o => some o
  | .readGranted _ _ _ _ => none
  | .readRefused _ _ => none
  | .outputTaken _ _ => none

/-- The place in take order of a taken read that has not left its position (R139). -/
def Progress.readOrder : Progress → Option Nat
  | .untaken => none
  | .held => none
  | .writeTaken _ _ => none
  | .readTaken o => some o
  | .readGranted o _ _ _ => some o
  | .readRefused o _ => some o
  | .outputTaken o _ => some o

/-- Whether a position has been taken (R140). -/
def Progress.taken : Progress → Bool
  | .untaken => false
  | .held => false
  | .writeTaken _ _ => true
  | .readTaken _ => true
  | .readGranted _ _ _ _ => true
  | .readRefused _ _ => true
  | .outputTaken _ _ => true

/-- Whether a position holds a taken output read (R129). -/
def Progress.isOutput : Progress → Bool
  | .untaken => false
  | .held => false
  | .writeTaken _ _ => false
  | .readTaken _ => false
  | .readGranted _ _ _ _ => false
  | .readRefused _ _ => false
  | .outputTaken _ _ => true

/-- A taken write not yet granted: its place in take order and the byte addresses it spans (R152). -/
structure PendingWrite where
  order : Nat
  first : Nat
  past : Nat
deriving DecidableEq, Repr

/-- R152: the pending write of a position, if it holds one. -/
def QueuePosition.pendingWrite (q : QueuePosition) : Option PendingWrite :=
  match q.progress with
  | .writeTaken o _ => some { order := o, first := firstAddr q.request, past := endAddr q.request }
  | .untaken => none
  | .held => none
  | .readTaken _ => none
  | .readGranted _ _ _ _ => none
  | .readRefused _ _ => none
  | .outputTaken _ _ => none

/-- The queue with the first position that p accepts changed by f, or removed where f gives none. -/
def replaceFirst (p : QueuePosition → Bool) (f : QueuePosition → Option QueuePosition) (queue : List QueuePosition) :
    List QueuePosition :=
  match pickFirst p queue with
  | none => queue
  | some (before, q, after) =>
    match f q with
    | some q1 => before ++ q1 :: after
    | none => before ++ after

/-! ### Ports -/

/-- The port of a name. -/
def State.port (s : State) : Port → PortState
  | .capture => s.capture
  | .system => s.system

/-- The state with a port changed. -/
def State.setPort (s : State) (port : Port) (p : PortState) : State :=
  match port with
  | .capture => { s with capture := p }
  | .system => { s with system := p }

/-- The position of the oldest taken request not yet granted, which the port's requester presents (R136, R137). -/
def PortState.head (p : PortState) : Option QueuePosition := leastBy (fun q => q.progress.ungranted) p.queue

/-- The position of the read whose response stands first on a port (R139). -/
def PortState.firstResponse (p : PortState) : Option QueuePosition := leastBy (fun q => q.progress.readOrder) p.queue

/-- Whether a position is one of that place in take order, not yet granted. -/
def QueuePosition.isUngranted (order : Nat) (q : QueuePosition) : Bool := decide (q.progress.ungranted = some order)

/-- Whether a position is a read of that place in take order. -/
def QueuePosition.isRead (order : Nat) (q : QueuePosition) : Bool := decide (q.progress.readOrder = some order)

/-- The port with the first position that p accepts changed by f, or removed where f gives none. -/
def PortState.replace (port : PortState) (p : QueuePosition → Bool) (f : QueuePosition → Option QueuePosition) : PortState :=
  { port with queue := replaceFirst p f port.queue }

/-- R138: a take acknowledgement leaves a port. -/
def PortState.acknowledge (p : PortState) (tag : BitVec 4) (body : AckBody) : PortState :=
  { p with acks := p.acks ++ [{ tag := tag, body := body }] }

/-- R139: a response, or the next part of one, leaves a port. -/
def PortState.respond (p : PortState) (r : Response) : PortState := { p with responses := p.responses ++ [r] }

/-- R129: the output reads counted: those taken that hold a position, and those withdrawn whose fills still run. -/
def State.counted (s : State) : Nat := s.system.queue.countP (fun q => q.progress.isOutput) + s.store.withdrawn.length

/-- Whether a position is untaken. -/
def QueuePosition.isUntaken (q : QueuePosition) : Bool := decide (q.progress = .untaken)

/-- Whether a position is held (R137). -/
def QueuePosition.isHeld (q : QueuePosition) : Bool := decide (q.progress = .held)

/-- R136: the request the capture port takes next. -/
def State.nextCapture (s : State) : Option QueuePosition := s.capture.queue.find? QueuePosition.isUntaken

/-- R137: whether the system port turns to its oldest held read: one is held and fewer than four output reads are counted. -/
def State.heldTurn (s : State) : Bool :=
  decide (s.counted < Config.outputLimit) && s.system.queue.any QueuePosition.isHeld

/-- R137: whether a system position is of the kind the port comes to next. -/
def State.systemTurn (s : State) (q : QueuePosition) : Bool := if s.heldTurn then q.isHeld else q.isUntaken

/-- R137: the request the system port comes to next. -/
def State.nextSystem (s : State) : Option QueuePosition := s.system.queue.find? s.systemTurn

/-- R137: whether an output read the port comes to is held: four are counted, or an earlier one is held. -/
def State.mustHold (s : State) : Bool :=
  !s.heldTurn && (decide (Config.outputLimit ≤ s.counted) || s.system.queue.any QueuePosition.isHeld)

/-- R152: the taken writes of both ports that have not been granted. -/
def State.pendingWrites (s : State) : List PendingWrite :=
  s.capture.queue.filterMap QueuePosition.pendingWrite ++ s.system.queue.filterMap QueuePosition.pendingWrite

end Sys2Proof.Machine
end

