-- ==== Sys2Proof/Machine/Arbiter.lean ====
section
/-! DEFINITION. The arbiter of the memory port (R149 to R153): what each requester presents, what blocks it, the choice, and the
starvation counts. -/

namespace Sys2Proof.Machine

/-! ### What the requesters present (R149) -/

/-- R152: whether a burst shares a word with a pending write. -/
def PendingWrite.overlaps (w : PendingWrite) (first past : Nat) : Bool := decide (w.first < past) && decide (first < w.past)

/-- R152: whether a read of an upstream port taken at a place in take order is blocked. -/
def State.portBlocked (s : State) (order first past : Nat) : Bool :=
  s.pendingWrites.any (fun w => decide (w.order < order) && w.overlaps first past)

/-- R152: whether a burst of FILL, PROBE or the reload is blocked. -/
def State.deviceBlocked (s : State) (b : Burst) : Bool :=
  s.pendingWrites.any (fun w => w.overlaps b.addr (b.addr + 4 * b.count))

/-- R149, R152: whether a port's requester waits with the head position q: a write waits, a read waits unless it is blocked. -/
def State.headWaiting (s : State) (q : QueuePosition) : Bool :=
  match q.progress with
  | .readTaken o => !s.portBlocked o (firstAddr q.request) (endAddr q.request)
  | .writeTaken _ _ => true
  | .untaken => false
  | .held => false
  | .readGranted _ _ _ _ => false
  | .readRefused _ _ => false
  | .outputTaken _ _ => false

/-- R149, R172: the next burst of the reload, 32 words in address order. -/
def State.reloadBurst (s : State) (r : Reload) : Option Burst :=
  if r.granted < 32 then some { addr := s.pageBase + 128 * r.granted, count := Config.burstWords } else none

/-- R149: whether a port presents a burst that may be granted. -/
def State.portWaiting (s : State) (p : PortState) : Bool :=
  match p.head with
  | some q => s.headWaiting q
  | none => false

/-- R149, R152: whether FILL waits. -/
def State.fillWaiting (s : State) : Bool :=
  match s.store.presented with
  | some (_, b) => !s.deviceBlocked b
  | none => false

/-- R149, R150, R152: whether PROBE waits: it presents a burst, its gate is open, and the burst is not blocked. -/
def State.probeWaiting (s : State) : Bool :=
  match s.probe.presented with
  | some (_, _, b) => decide (s.capture.queue.length ≤ Config.probeGate) && !s.deviceBlocked b
  | none => false

/-- R149, R152: whether SYSTEM waits, with the reload's next burst while the reload runs. -/
def State.systemWaiting (s : State) : Bool :=
  match s.phase with
  | .reloading r =>
    match s.reloadBurst r with
    | some b => !s.deviceBlocked b
    | none => false
  | .running => s.portWaiting s.system
  | .asserted => false

/-- R177, R179: whether REPORT waits. -/
def State.reportWaiting (s : State) : Bool := s.cond.presented.isSome && s.statusStands

/-- R149, R160: whether a requester is waiting; while RESET is asserted only REFRESH may be. -/
def State.waiting (s : State) : Requester → Bool
  | .refresh => decide (1 ≤ s.memPort.refreshPending)
  | .capture => decide (s.phase ≠ .asserted) && s.portWaiting s.capture
  | .fill => decide (s.phase ≠ .asserted) && s.fillWaiting
  | .system => decide (s.phase ≠ .asserted) && s.systemWaiting
  | .probe => decide (s.phase ≠ .asserted) && s.probeWaiting
  | .report => decide (s.phase ≠ .asserted) && s.reportWaiting

/-! ### The choice (R151) -/

/-- R153: the starvation count of a requester; CAPTURE has none. -/
def Starvation.count (v : Starvation) : Requester → Nat
  | .refresh => v.refresh
  | .capture => 0
  | .fill => v.fill
  | .system => v.system
  | .probe => v.probe
  | .report => v.report

/-- R153: whether a requester is starved. -/
def Starvation.isStarved (v : Starvation) (r : Requester) : Bool := decide (v.count r = Config.starved)

/-- R151: the order of the requesters at position 3, and at positions 4 to 8. -/
def grantOrder : List Requester := [.fill, .system, .probe, .refresh, .report]

/-- R151: the requester the arbiter grants. -/
def State.grantee (s : State) : Option Requester :=
  if s.memPort.refreshPending = Config.refreshUrgent then some .refresh
  else if s.waiting .capture then some .capture
  else
    match grantOrder.find? (fun r => s.waiting r && s.memPort.starvation.isStarved r) with
    | some r => some r
    | none => grantOrder.find? s.waiting

/-- R153: a starvation count at a grant. -/
def nextStarvation (count : Nat) (granted waiting : Bool) : Nat :=
  if granted then 0 else if waiting then min Config.starved (count + 1) else 0

/-- R153: the starvation counts after a grant to a requester. -/
def Starvation.grant (v : Starvation) (waiting : Requester → Bool) (r : Requester) : Starvation :=
  { fill := nextStarvation v.fill (decide (r = .fill)) (waiting .fill)
    system := nextStarvation v.system (decide (r = .system)) (waiting .system)
    probe := nextStarvation v.probe (decide (r = .probe)) (waiting .probe)
    refresh := nextStarvation v.refresh (decide (r = .refresh)) (waiting .refresh)
    report := nextStarvation v.report (decide (r = .report)) (waiting .report) }

/-- R153: the state with the starvation counts of a grant. -/
def State.countGrant (s : State) (r : Requester) : State :=
  { s with memPort := { s.memPort with starvation := s.memPort.starvation.grant s.waiting r } }

end Sys2Proof.Machine
end

