-- ==== Sys2Proof/Machine/Fields.lean ====
section
/-! DEFINITION. What ends a field and what takes it away: the close (R12 to R16), the eviction (R33, R34) with the repair of the plan
(R76 to R79), the end of a measurement (R21, R22), and the stall expiry (R18). -/

namespace Sys2Proof.Machine

/-! ### Close (R12 to R16) -/

/-- R12: what closes a field. -/
inductive CloseCause where
  | endMark
  | nextOpening
  | ownSlot
  | rejected
  | stall
deriving DecidableEq, Repr

/-- Section 11.6, code 2: the coding of a cause of FIELD_CUT. -/
def CloseCause.code : CloseCause → Nat
  | .endMark => 0
  | .nextOpening => 1
  | .ownSlot => 2
  | .rejected => 3
  | .stall => 4

/-- R14: the SLIPPED test of line l with tags present. -/
def LineEntry.slipped (e : LineEntry) (l : Nat) : Bool :=
  !e.tagWritten || decide (bits e.tag 0 10 ≠ l) || e.tag.getLsbD 13

/-- R14: the final state of line l of a field of width w. -/
def finalState (w : Nat) (tags : Bool) (l : Nat) (e : LineEntry) : LineState :=
  if e.extent = 0 then .missing
  else if tags && e.slipped l then .slipped
  else if tags && e.tag.getLsbD 12 then .dropout
  else if e.extent < 3 * w / 4 then .short
  else if e.extent < w then .held
  else if e.overlong then .overlong
  else .good

/-- R13 step 1: the line map with its final states. -/
def settleLines (w : Nat) (tags : Bool) (lines : List LineEntry) : List LineEntry :=
  lines.zipIdx.map (fun x => { x.1 with final := some (finalState w tags x.2 x.1) })

/-- R16: how many lines hold a final state. -/
def countState (lines : List LineEntry) (f : LineState) : Nat := lines.countP (fun e => decide (e.final = some f))

/-- R16: the damage counts of a line map. -/
def damageOf (lines : List LineEntry) : DamageCounts :=
  { missing := countState lines .missing, slipped := countState lines .slipped, dropout := countState lines .dropout
    short := countState lines .short, held := countState lines .held, overlong := countState lines .overlong }

/-- R16: whether any line is other than GOOD. -/
def damaged (lines : List LineEntry) : Bool := lines.any (fun e => decide (e.final ≠ some .good))

/-- R13 step 2, R30: the record closed by a cause. -/
def FieldRecord.close (r : FieldRecord) (cause : CloseCause) (w : Nat) : FieldRecord :=
  { r with
    lines := settleLines w r.tagsPresent r.lines
    state := if cause = .endMark then .complete else .cut
    stalled := decide (cause = .stall) }

/-- R13 step 2, R7: the note after the close of a record, closed CUT where it describes that record. -/
def noteAfterClose (note : Option AdmissionNote) (f : FieldNo) (cause : CloseCause) : Option AdmissionNote :=
  note.map (fun n => if cause ≠ .endMark ∧ n.field = f then { n with closedCut := true } else n)

/-- R13 step 4: the conditions of a close, in order. -/
def closeConditions (r : FieldRecord) (cause : CloseCause) (report : Option ProbeReport) (cadence : Option Condition) :
    List Condition :=
  (if cause = .endMark then [] else [.fieldCut r.number cause.code r.slot]) ++
  (if damaged r.lines then [.lineDamage r.number (damageOf r.lines)] else []) ++
  (match report with
    | some p => [.probeIncomplete r.number p]
    | none => []) ++
  cadence.toList

/-- R13: the close of the filling record r under the working ingest group g. R48 step 4 does not name the set of lost references, which R41
clears at the next admission; that it is emptied here, with the table, is the model's choice (log entry 37). -/
def closeRecord (cause : CloseCause) (r : FieldRecord) (g : IngestGroup) (s : State) : State :=
  let closed := r.close cause g.w
  let h1 := s.history.update r.number (fun _ => closed)
  let settled := s.probe.settle h1 closed g.w
  let measured := { closed with metrics := settled.1 }
  let result := s.cadence.close g measured (h1.find (FieldNo.pred r.number))
  scheduleStatus (raiseAll (closeConditions closed cause settled.2 result.condition)
    { s with
      monitor := { s.monitor with note := noteAfterClose s.monitor.note r.number cause }
      history := s.history.update r.number (fun _ => { measured with label := result.label })
      probe := ProbeUnit.reset
      cadence := result.cadence })

/-- R12, R13: the close of the filling field; nothing where no field is FILLING. -/
def closeField (cause : CloseCause) (s : State) : State :=
  match s.history.filling, s.settings.ingest with
  | some r, some g => closeRecord cause r g s
  | _, _ => s

/-! ### Eviction (R33, R34, R76 to R79) -/

/-- R79: REFERENCE_LOST of a repair. -/
def lostCondition (f : FieldNo) (before : Plan) (repair : Plan × Nat × Nat) : Condition :=
  .referenceLost f repair.2.1 before.method repair.1.method repair.2.2

/-- R76 to R79: the planner's notice of an eviction: the plan repaired for the referenced set, then REFERENCE_LOST. -/
def repairPlan (f : FieldNo) (roles : Roles) (s : State) : State :=
  match s.planner.plan with
  | none => s
  | some p =>
    match p.repair roles with
    | none => s
    | some repair =>
      raise (lostCondition f p repair)
        { s with
          planner := { s.planner with plan := some repair.1 }
          history := s.history.reference (some repair.1) }

/-- R33, R34: the eviction of a record, with its notices to the fetch engine, the probe unit and the frame planner. -/
def evict (r : FieldRecord) (s : State) : State :=
  repairPlan r.number r.referenced
    { s with
      history := s.history.remove r.number
      store := s.store.voidFields [r.number]
      probe := s.probe.evicted r.number }

/-- R5 step 2, R6 step 3: the record of a slot is evicted, if the slot holds one. -/
def evictSlot (slot : Nat) (s : State) : State :=
  match s.history.ofSlot slot with
  | some r => evict r s
  | none => s

/-! ### Measurement (R20 to R22) -/

/-- R21: the measured count of a list of extents: the highest index with an extent above 0, plus one, or 0. -/
def measuredCount : List Nat → Nat
  | [] => 0
  | e :: rest => if measuredCount rest = 0 then (if e = 0 then 0 else 1) else measuredCount rest + 1

/-- R21: the lines on which two measured counts agree, the larger of the two, where they differ by at most 1. -/
def agreement (previous : Option Nat) (count : Nat) : Option Nat :=
  match previous with
  | some p => if absDiff p count ≤ 1 then some (max p count) else none
  | none => none

/-- R22: the monitor enters FAILED, its measurement removed and its timer stopped. -/
def Monitor.fail (m : Monitor) : Monitor :=
  { m with acquisition := .failed, measurement := none, timerRunning := false, timerCount := 0 }

/-- R21: the end of a measurement with a count. -/
def endMeasured (count : Nat) (s : State) : State :=
  let m := { s.monitor with measuredFields := s.monitor.measuredFields + 1 }
  match agreement s.monitor.previousCount count with
  | some l =>
    if 120 ≤ l ∧ l ≤ Config.maxLines then
      scheduleStatus (raise (.standardAcquired l)
        { s with monitor := { m with acquisition := .acquired, acquiredL := l, measurement := none } })
    else
      scheduleStatus (raise (.standardFault 1 l m.measuredFields) { s with monitor := m.fail })
  | none =>
    let m1 := { m with previousCount := some count }
    if Config.maxMeasured ≤ m.measuredFields then
      scheduleStatus (raise (.standardFault 2 count m.measuredFields) { s with monitor := m1.fail })
    else { s with monitor := { m1 with measurement := none } }

/-- R21: the measurement in progress ends; nothing where there is none. -/
def endMeasurement (s : State) : State :=
  match s.monitor.measurement with
  | some m => endMeasured (measuredCount m.extents) s
  | none => s

/-! ### Stall expiry (R18) -/

/-- R17, R168: the working stall limit. -/
def State.stallLimit (s : State) : Nat :=
  match s.settings.ingest with
  | some g => g.stallLimit
  | none => Config.defaultStallLimit

/-- R17: the timer stopped at 0. -/
def Monitor.stopTimer (m : Monitor) : Monitor := { m with timerRunning := false, timerCount := 0 }

/-- R18: the stall timer expires. -/
def expireStall (s : State) : State :=
  let filling := s.fillingField
  let s1 := raise (.ingestStall filling s.stallLimit (decide (filling ≠ 0))) { s with monitor := s.monitor.stopTimer }
  if filling ≠ 0 then closeField .stall s1
  else if s.monitor.acquisition = .acquiring then endMeasurement s1
  else s1

end Sys2Proof.Machine
end

