-- ==== Sys2Proof/Machine/Loads.lean ====
section
/-! DEFINITION. The loads of the four groups (R143, R167 to R169), the ingest geometry change (R170), the plan going to NONE (R67), and
the hold release (R164). -/

namespace Sys2Proof.Machine

/-! ### The plan goes to NONE (R67) -/

/-- R67: the plan is set to NONE: roles released, snapshot discarded, a status write where it was OPEN. Where the OUTPUT window's load does
this, R62 and R67 do not say what becomes of the later-row flag: it stands as it was, which is the model's choice (log entry 39). -/
def planToNone (s : State) : State :=
  let s1 := { s with
    planner := { s.planner with plan := none }
    history := s.history.reference none }
  if s.planner.plan.isSome then scheduleStatus s1 else s1

/-! ### Ingest geometry change (R170) -/

/-- R3: the acquisition state after a geometry change. -/
def acquisitionOf (g : Option IngestGroup) : Acquisition :=
  match g with
  | some g => if g.l = 0 then .acquiring else .off
  | none => .off

/-- R170 step 1: the monitor takes the values of R3's last column; a change of the acquisition state schedules a status write. -/
def resetMonitor (s : State) : State :=
  let s1 := { s with monitor := { Monitor.reset with acquisition := acquisitionOf s.settings.ingest } }
  if s.monitor.acquisition ≠ acquisitionOf s.settings.ingest then scheduleStatus s1 else s1

/-- R170 step 2: the plan goes to NONE, the previous anchor becomes 0 and the later-row flag no (R62). -/
def dropPlan (s : State) : State :=
  let s1 := planToNone s
  { s1 with planner := { s1.planner with laterRow := false, previousAnchor := 0 } }

/-- R35, R170 step 3: the history is emptied, with the emptied notice where it held a record. -/
def emptyHistory (s : State) : State :=
  if s.history.records = [] then s
  else
    { s with
      history := { s.history with records := [] }
      store := s.store.voidFields (s.history.records.map (fun r => r.number))
      probe := ProbeUnit.reset }

/-- R170: an ingest geometry change. -/
def geometryChange (s : State) : State :=
  let s1 := emptyHistory (dropPlan (resetMonitor s))
  { s1 with cadence := s1.cadence.geometryChange }

/-! ### Memory group (R167, R158) -/

/-- R167: the memory group of the pending copy. -/
def Settings.memoryGroup (s : Settings) : MemoryGroup :=
  { coupled := (s.at 0x010).getLsbD 0, interval := clampInterval (s.at 0x014).toNat }

/-- R158: the interval timer after a load, by the old and the new group. -/
def timerAfterLoad (old new : MemoryGroup) (count : Nat) : Nat :=
  if new.coupled then 0 else if old.coupled then 0 else if old.interval ≠ new.interval ∧ new.interval ≤ count then 0 else count

/-- R158: whether a load makes a refresh addition: DECOUPLED before and after, and the count at or above a changed interval. -/
def loadAdds (old new : MemoryGroup) (count : Nat) : Bool :=
  !old.coupled && !new.coupled && decide (old.interval ≠ new.interval) && decide (new.interval ≤ count)

/-- R167: SETTING_ADJUSTED of the interval, the page at base. -/
def Settings.memoryConditions (s : Settings) (base : Nat) : List Condition :=
  if (s.at 0x014).toNat = clampInterval (s.at 0x014).toNat then []
  else [.settingAdjusted (base + 0x014) (s.at 0x014).toNat (clampInterval (s.at 0x014).toNat)]

/-- R167: the memory group is loaded. Where a load both clamps the interval and loses its addition, SETTING_ADJUSTED comes before
REFRESH_MISSED: the spec gives no order, and this one is the model's choice (log entry 28). -/
def loadMemory (s : State) : State :=
  let new := s.settings.memoryGroup
  let s1 := raiseAll (s.settings.memoryConditions s.pageBase)
    { s with
      settings := { s.settings with memory := new, memoryPending := false }
      memPort := { s.memPort with intervalCount := timerAfterLoad s.settings.memory new s.memPort.intervalCount } }
  if loadAdds s.settings.memory new s.memPort.intervalCount then refreshAddition s1 else s1

/-! ### Window group (R143) -/

/-- R143: the table as installed with the last changing steps. -/
def State.installed (s : State) : List (WindowEntry × Nat) :=
  installEntries s.dramSize s.pageBase [] s.settings.windowEntries

/-- R143, R179: the table is installed and the condition unit takes notice of the STATUS window. -/
def installWindows (s : State) : State :=
  let s1 := { s with
    windows := s.installed.map Prod.fst
    settings := { s.settings with windowPending := false } }
  { s1 with cond := s1.cond.windowLoad (s.window .status) (s1.window .status) }

/-- R143: the window group is loaded, with its effects on the ingest monitor, the plan and the condition unit. -/
def loadWindow (s : State) : State :=
  let s1 := installWindows s
  let s2 := if windowChanged (s.window .fieldRing) (s1.window .fieldRing) then geometryChange s1 else s1
  let s3 := if windowChanged (s.window .output) (s1.window .output) then planToNone s2 else s2
  raiseAll (windowConditions s.pageBase s.settings.windowEntries s.installed) s3

/-! ### Ingest group (R168) -/

/-- Section 11.6, code 17: SETTING_REFUSED of a group (1 ingest, 2 output), the page at base; which of the settings the failing test
reads is named is a free value (log entry 1). -/
def refusedCondition (base group : Nat) (r : Refused) : Condition :=
  let chosen := r.candidates.getD (Config.offender group r.check (r.candidates.map (fun c => c.2)) % r.candidates.length) (0, 0)
  .settingRefused (base + chosen.1) group r.check chosen.2

/-- R168, R169: SETTING_ADJUSTED of each adjustment, the page at base. -/
def adjustedConditions (base : Nat) (as : List Adjusted) : List Condition :=
  as.map (fun a => .settingAdjusted (base + a.offset) a.written a.loaded)

/-- R19: a load that is no geometry change makes the timer expire where its count stands at or above the new limit. -/
def stallAtLoad (s : State) : State :=
  if s.monitor.timerRunning = true ∧ 2 ^ s.stallLimit ≤ s.monitor.timerCount then expireStall s else s

/-- R168, R3, R19, R61: an ingest group that passes its checks is installed. -/
def installIngest (g : IngestWords) (s : State) : State :=
  let new := g.load
  let s1 := raiseAll (adjustedConditions s.pageBase g.adjusted)
    { s with settings := { s.settings with ingest := some new, ingestPending := false } }
  if new.changesGeometry s.settings.ingest then geometryChange s1
  else stallAtLoad { s1 with cadence := s1.cadence.newE22 new.e22 }

/-- R168: the ingest group is refused. -/
def refuseIngest (r : Refused) (s : State) : State :=
  raise (refusedCondition s.pageBase 1 r) { s with settings := { s.settings with ingestPending := false } }

/-- R168: the ingest group is loaded or refused. -/
def loadIngest (s : State) : State :=
  match s.settings.ingestWords.check ((s.window .fieldRing).map (fun w => w.size)) with
  | some r => refuseIngest r s
  | none => installIngest s.settings.ingestWords s

/-! ### Output group (R169) -/

/-- R112: the working custom rows after a load: loaded where the select is CUSTOM, else as they were. -/
def Settings.rowsAfterLoad (s : Settings) (custom : Bool) : List CoefRow :=
  if custom then (List.range 16).map s.loadedRow else s.customRows

/-- R169: the output group is loaded or refused. -/
def loadOutput (s : State) : State :=
  let g := s.settings.outputWords
  match g.check with
  | some r => raise (refusedCondition s.pageBase 2 r) { s with settings := { s.settings with outputPending := false } }
  | none =>
    raiseAll (adjustedConditions s.pageBase g.adjusted ++ (if g.load.custom then s.settings.rowConditions s.pageBase else []))
      { s with settings := { s.settings with
          output := some g.load, outputPending := false, customRows := s.settings.rowsAfterLoad g.load.custom } }

/-! ### Hold release (R164) -/

/-- R164 step 1. -/
def releaseMemory (s : State) : State := if s.settings.memoryPending then loadMemory s else s

/-- R164 step 2. -/
def releaseWindow (s : State) : State := if s.settings.windowPending then loadWindow s else s

/-- R164 step 3: the ingest group loads when no field is FILLING. -/
def releaseIngest (s : State) : State := if s.settings.ingestPending = true ∧ s.history.filling = none then loadIngest s else s

/-- R164 step 4: the output group loads when the plan is NONE. -/
def releaseOutput (s : State) : State := if s.settings.outputPending = true ∧ s.planner.plan = none then loadOutput s else s

/-- R164: a hold release. -/
def holdRelease (s : State) : State := releaseOutput (releaseIngest (releaseWindow (releaseMemory s)))

end Sys2Proof.Machine
end

