-- ==== Sys2Proof/Machine/Ingest.lean ====
section
/-! DEFINITION. What the ingest monitor does with a capture write (chapter 1): opening bursts, admission, line writes, end marks,
refusals, and acquisition. -/

namespace Sys2Proof.Machine

/-! ### Admission (R5, R7, R32) -/

/-- R5: what the monitor takes from the header words of an opening burst. -/
structure Header where
  count : Word
  parity : Parity
  tags : Bool
deriving DecidableEq, Repr

/-- R5: the header words of an opening burst. -/
def headerOf (ws : List AreaWord) : Header :=
  { count := coveredValue ws 0
    parity := if (coveredValue ws 1).getLsbD 0 then .bottom else .top
    tags := (coveredValue ws 1).getLsbD 1 }

/-- R7: the continuity set of a new record against the note. -/
def continuityOf (note : Option AdmissionNote) (h : Header) : Continuity :=
  match note with
  | none => { first := true, gap := false, parityRepeat := false, afterCut := false }
  | some n =>
    { first := false
      gap := decide (h.count ≠ n.captureCount + 1)
      parityRepeat := decide (h.parity = n.parity)
      afterCut := n.closedCut }

/-- R7: the conditions of an admission, CAPTURE_GAP before PARITY_REPEAT. -/
def admissionConditions (note : Option AdmissionNote) (h : Header) (f : FieldNo) : List Condition :=
  match note with
  | none => []
  | some n =>
    (if h.count ≠ n.captureCount + 1 then [.captureGap f (n.captureCount + 1) h.count] else []) ++
    (if h.parity = n.parity then [.parityRepeat f h.parity] else [])

/-- R32: the record of an admission. -/
def admittedRecord (f : FieldNo) (slot lines : Nat) (note : Option AdmissionNote) (h : Header) : FieldRecord :=
  { number := f, slot := slot, captureCount := h.count, parity := h.parity, tagsPresent := h.tags, state := .filling
    stalled := false, continuity := continuityOf note h, lines := List.replicate lines LineEntry.fresh, metrics := none
    label := none, referenced := Roles.empty }

/-- R7, R17: the monitor at an admission: the note rewritten and the timer restarted. -/
def Monitor.admission (m : Monitor) (f : FieldNo) (h : Header) : Monitor :=
  { m with
    note := some { field := f, captureCount := h.count, parity := h.parity, closedCut := false }
    timerRunning := true
    timerCount := 0 }

/-- R5 steps 3 to 5: the admission of a field in a slot. -/
def admitField (g : Ring) (slot : Nat) (h : Header) (s : State) : State :=
  let f := s.history.next
  let r := admittedRecord f slot g.lines s.monitor.note h
  raiseAll (admissionConditions s.monitor.note h f)
    { s with
      monitor := s.monitor.admission f h
      history := s.history.append r
      probe := ProbeUnit.admission (s.history.append r) r }

/-! ### Line writes (R8 to R10) -/

/-- R8: the extent of a line after one of its pixel words. -/
def extendTo (extent x : Nat) : Nat := if x ≤ extent then max extent (x + 1) else extent

/-- R9: the recorded tag after a write to the tag word. -/
def LineEntry.writeTag (e : LineEntry) (w : WriteWord) : LineEntry :=
  { e with tag := mergeBytes e.tag w.data w.enables, tagWritten := true }

/-- The filling record with an entry of its line map changed. -/
def changeLine (r : FieldRecord) (line : Nat) (f : LineEntry → LineEntry) (s : State) : State :=
  { s with history := s.history.update r.number (fun x => { x with lines := modifyAt f x.lines line }) }

/-- R8: a pixel word of the filling slot; the probe unit is told when the extent reaches W. -/
def pixelWrite (g : Ring) (r : FieldRecord) (line x : Nat) (s : State) : State :=
  let e := (r.lines.getD line LineEntry.fresh).extent
  let s1 := changeLine r line (fun m => { m with extent := extendTo e x }) s
  if e < g.width ∧ extendTo e x = g.width then { s1 with probe := s1.probe.lineComplete s1.history g line } else s1

/-- R8 to R10: one word of a line write of the filling slot. -/
def lineWord (g : Ring) (s : State) (w : AreaWord) : State :=
  match s.history.filling with
  | none => s
  | some r =>
    match w.1 with
    | .pixel _ line x => pixelWrite g r line x s
    | .tag _ line => if r.tagsPresent then changeLine r line (fun e => e.writeTag w.2) s else s
    | .padding _ line => changeLine r line (fun e => { e with overlong := true }) s
    | .header _ _ => s
    | .tail _ => s
    | .ringTail => s

/-- R8 to R10: the line words of a write of the filling slot, in address order. -/
def lineWords (g : Ring) (ws : List AreaWord) (s : State) : State := ws.foldl (lineWord g) s

/-! ### Opening bursts (R5, R6) -/

/-- R4, R5: a write that covers header words 0 and 1. -/
def acceptedOpening (ws : List AreaWord) : Bool := covers ws 0 && covers ws 1

/-- R6: a write that covers header word 0 but not word 1. -/
def rejectedOpening (ws : List AreaWord) : Bool := covers ws 0 && !covers ws 1

/-- R5 step 1, section 11.6: the cause of the cut by an opening burst in a slot. -/
def State.openingCause (s : State) (slot : Nat) : CloseCause :=
  match s.history.filling with
  | some r => if r.slot = slot then .ownSlot else .nextOpening
  | none => .nextOpening

/-- R5: an accepted opening burst in a slot. -/
def openField (g : Ring) (slot : Nat) (ws : List AreaWord) (s : State) : State :=
  let s1 := evictSlot slot (closeField (s.openingCause slot) s)
  lineWords g ws (admitField g slot (headerOf ws) s1)

/-- R6 step 2: the field FILLING in the slot is closed CUT. -/
def cutInSlot (slot : Nat) (s : State) : State :=
  match s.history.filling with
  | some r => if r.slot = slot then closeField .rejected s else s
  | none => s

/-- R6: a rejected opening burst in a slot, the burst's first address addr. -/
def rejectField (addr slot : Nat) (s : State) : State :=
  evictSlot slot (cutInSlot slot (raise (.fieldRejected addr slot) s))

/-! ### The end mark (R11) -/

/-- R11: a write of the filling slot that covers header word 4 closes the field where the value matches. -/
def endMark (ws : List AreaWord) (s : State) : State :=
  match s.history.filling with
  | some r => if covers ws 4 = true ∧ coveredValue ws 4 = r.captureCount then closeField .endMark s else s
  | none => s

/-! ### OFF and ACQUIRED (R4) -/

/-- What becomes of a capture write at the monitor: refused, or handed on with the words as the monitor leaves them (R2). -/
inductive Handed where
  | refused (reason : Reason)
  | passed (words : List WriteWord)
deriving DecidableEq, Repr

/-- R4: a write in a slot while acquisition is OFF or ACQUIRED. -/
def slotWrite (g : Ring) (addr slot : Nat) (ws : List AreaWord) (s : State) : State × Handed :=
  if acceptedOpening ws then (openField g slot ws s, .passed (trimmed ws))
  else if rejectedOpening ws then (rejectField addr slot s, .passed (trimmed ws))
  else
    match s.history.ofSlot slot with
    | none => if ws.any (fun w => w.1.isLine) then (s, .refused .vacantSlot) else (s, .passed (trimmed ws))
    | some r =>
      if r.closed then (s, .refused .closedSlot)
      else (endMark ws (lineWords g ws s), .passed (trimmed ws))

/-! ### ACQUIRING (R20) -/

/-- R8, R20: the measured extents after one word of the measured slot. -/
def Measurement.word (m : Measurement) (w : AreaWord) : Measurement :=
  match w.1 with
  | .pixel slot line x => if slot = m.slot then { m with extents := modifyAt (fun e => extendTo e x) m.extents line } else m
  | .tag _ _ => m
  | .padding _ _ => m
  | .header _ _ => m
  | .tail _ => m
  | .ringTail => m

/-- R20: the line words of a write in the measured slot. -/
def measureWords (ws : List AreaWord) (s : State) : State :=
  { s with monitor := { s.monitor with measurement := s.monitor.measurement.map (fun m => ws.foldl Measurement.word m) } }

/-- R20: a write to header word 4 of the measured slot that covers the measurement's capture count ends it. -/
def measureEnd (slot : Nat) (ws : List AreaWord) (s : State) : State :=
  match s.monitor.measurement with
  | some m => if m.slot = slot ∧ covers ws 4 = true ∧ coveredValue ws 4 = m.captureCount then endMeasurement s else s
  | none => s

/-- R20, R17: a new measurement of a slot of so many lines, the timer restarted. -/
def Monitor.measure (m : Monitor) (slot lines : Nat) (count : Word) : Monitor :=
  { m with
    measurement := some { slot := slot, captureCount := count, extents := List.replicate lines 0 }
    timerRunning := true
    timerCount := 0 }

/-- R20, R21: an accepted opening burst while ACQUIRING: the measurement in progress ends; then the burst starts a new one, or is
admitted where the state has become ACQUIRED, or is ignored where it has become FAILED. -/
def acquiringOpening (r : Request) (g : Ring) (slot : Nat) (ws : List AreaWord) (s : State) : State × Handed :=
  let s1 := endMeasurement s
  match s1.monitor.acquisition with
  | .acquiring =>
    (measureWords ws { s1 with monitor := s1.monitor.measure slot g.lines (headerOf ws).count }, .passed (trimmed ws))
  | .acquired =>
    match s1.ring with
    | some g1 => (openField g1 slot (g1.areaWords r) s1, .passed (trimmed (g1.areaWords r)))
    | none => (s1, .passed (trimmed ws))
  | .failed => (s1, .passed (trimmed ws))
  | .off => (s1, .passed (trimmed ws))

/-- R20: a write in a slot while acquisition is ACQUIRING. -/
def acquiringWrite (r : Request) (g : Ring) (slot : Nat) (ws : List AreaWord) (s : State) : State × Handed :=
  if acceptedOpening ws then acquiringOpening r g slot ws s
  else if rejectedOpening ws then (raise (.fieldRejected (firstAddr r) slot) s, .passed (trimmed ws))
  else (measureEnd slot ws (measureWords ws s), .passed (trimmed ws))

/-! ### A capture write in the FIELD_RING window (R2, R165) -/

/-- R4, R20, R22: a write that does not span, under a geometry, by the acquisition state. -/
def ringWrite (r : Request) (g : Ring) (ws : List AreaWord) (s : State) : State × Handed :=
  match slotOf ws with
  | none => (s, .passed (trimmed ws))
  | some slot =>
    match s.monitor.acquisition with
    | .off => slotWrite g (firstAddr r) slot ws s
    | .acquired => slotWrite g (firstAddr r) slot ws s
    | .acquiring => acquiringWrite r g slot ws s
    | .failed => (s, .passed (trimmed ws))

/-- R5, R165: a burst judged again after the load of the ingest group: handled where it is still an accepted opening burst, else it
passes untouched (log entry 26). -/
def judgeAgain (r : Request) (s : State) : State × Handed :=
  match s.ring with
  | none => (s, .passed (writeWords r))
  | some g =>
    if !spansSlots (g.areaWords r) && acceptedOpening (g.areaWords r) then ringWrite r g (g.areaWords r) s
    else (s, .passed (writeWords r))

/-- R165: whether an opening burst loads the ingest group. -/
def State.loadsAtOpening (s : State) : Bool := s.settings.ingestPending && s.settings.holdZero

/-- R2 to R22: a capture write in the FIELD_RING window at its take. While the monitor is INACTIVE it passes untouched. -/
def monitorWrite (r : Request) (s : State) : State × Handed :=
  match s.ring with
  | none => (s, .passed (writeWords r))
  | some g =>
    if spansSlots (g.areaWords r) then (s, .refused .spansSlots)
    else if acceptedOpening (g.areaWords r) && s.loadsAtOpening then judgeAgain r (loadIngest s)
    else ringWrite r g (g.areaWords r) s

end Sys2Proof.Machine
end

