-- ==== Sys2Proof/Machine/Frames.lean ====
section
/-! DEFINITION. Frame starts (R64, R65) and the take of an output read (R75, R121 to R124). -/

namespace Sys2Proof.Machine

/-! ### The frame start (R64, R65) -/

/-- R64: the offset of a request's first word from the base of the OUTPUT window. -/
def State.outputOffset (s : State) (r : Request) : Nat :=
  match s.window .output with
  | some w => firstAddr r - w.base
  | none => 0

/-- R64: whether an output read at an offset starts a frame. -/
def State.startsFrame (s : State) (offset : Nat) : Bool :=
  match s.settings.output with
  | none => false
  | some g => decide (pixelRow g.pitch offset = 0) && (s.planner.plan.isNone || s.planner.laterRow)

/-- R65 step 1, R166: a pending output group loads while the hold word is zero. -/
def loadAtFrame (s : State) : State :=
  if s.settings.outputPending = true ∧ s.settings.holdZero = true then loadOutput s else s

/-- R74: the source width and height of a snapshot, 0 where they are not known. -/
def State.source (s : State) : Nat × Nat :=
  match s.settings.ingest with
  | some g => if s.knownL = 0 then (0, 0) else (g.w, 2 * s.knownL)
  | none => (0, 0)

/-- R74: the snapshot of a frame start under a working output group. -/
def State.snapshot (s : State) (g : OutputGroup) : Snapshot := takeSnapshot s.source.1 s.source.2 g s.settings.customRows

/-- R65 steps 4 to 7: what a frame start decides. -/
structure FrameChoice where
  plan : Plan
  previousAnchor : FieldNo
  condition : Option Condition
deriving DecidableEq, Repr

/-- R68: the FILL plan of a frame without an anchor. -/
def fillPlan (snapshot : Snapshot) : Plan :=
  { method := .fill, repeated := false, anchor := none, partner := none, anchor2 := none, partner2 := none
    anchorLost := false, partnerLost := false, motionLost := false, snapshot := snapshot }

/-- R69: the condition of an anchor's judgement. -/
def judgement (anchor : FieldNo) (method : Method) (j : Bool × Nat) : Option Condition :=
  if j.1 then some (.frameRepeat anchor method) else if j.2 = 0 then none else some (.fieldSkip anchor j.2)

/-- R68 to R74: the plan of a frame start, the previous anchor it leaves, and its condition. -/
def State.chooseFrame (s : State) (g : OutputGroup) : FrameChoice :=
  match s.history.anchorChoice s.monitor.acquisition with
  | none => { plan := fillPlan (s.snapshot g), previousAnchor := s.planner.previousAnchor, condition := none }
  | some (a, decided) =>
    let d := if decided then s.history.decide a g.override else Decision.spatial
    let j := judgeAnchor s.planner.previousAnchor a.number
    { plan :=
        { method := d.method, repeated := j.1, anchor := some { field := a.number, slot := a.slot, parity := a.parity }
          partner := d.partner, anchor2 := d.anchor2, partner2 := d.partner2, anchorLost := false, partnerLost := false
          motionLost := false, snapshot := s.snapshot g }
      previousAnchor := a.number
      condition := judgement a.number d.method j }

/-- R65 steps 2 to 9: the frame start under the working output group g. -/
def beginFrame (g : OutputGroup) (s : State) : State :=
  let c := s.chooseFrame g
  scheduleStatus (raiseAll c.condition.toList
    { s with
      planner := { plan := some c.plan, frame := FieldNo.succ s.planner.frame, laterRow := false
                   previousAnchor := c.previousAnchor }
      history := s.history.reference (some c.plan) })

/-- R65: a frame start. -/
def frameStart (s : State) : State :=
  let s1 := loadAtFrame s
  match s1.settings.output with
  | some g => beginFrame g s1
  | none => s1

/-! ### The read under its plan (R64, R75, R121 to R124) -/

/-- R64, R65: the later-row flag after a read at an offset. -/
def markRow (offset : Nat) (s : State) : State :=
  match s.planner.plan with
  | none => s
  | some p =>
    if 1 ≤ pixelRow p.snapshot.pitch offset then { s with planner := { s.planner with laterRow := true } } else s

/-- R121: the lines an output read of count words at an offset needs, in order. -/
def State.wantedLines (s : State) (offset count : Nat) : List WantedLine :=
  match s.planner.plan, s.ring with
  | some p, some g =>
    let pA := match p.anchor with
      | some a => a.parity.toNat
      | none => 0
    (needDraws (s.history.roleUsable p) p.method pA p.snapshot.rows (p.neededRows offset count)).filterMap (s.history.wanted p g)
  | _, _ => []

/-- R104: the fill values of the working output group, or the defaults where none is working. -/
def State.fills (s : State) : Nat × Nat :=
  match s.settings.output with
  | some g => (g.fillY, g.fillC)
  | none => (Config.defaultFillY, Config.defaultFillC)

/-- R75, R124: the taken read at an offset with a need set. -/
def State.takenRead (s : State) (offset : Nat) (need : List NeedLine) : OutputRead :=
  { deferred := s.store.anyFilling need, plan := s.planner.plan, offset := offset, fillY := s.fills.1, fillC := s.fills.2
    need := need, words := none, returned := 0 }

/-- R64, R65: what precedes the need set at an output read's take: the frame it may start, and the later-row flag. -/
def enterFrame (offset : Nat) (s : State) : State :=
  markRow offset (if s.startsFrame offset then frameStart s else s)

/-- R75, R121 to R124: the take of an output read: the state with its lines shared and allocated, and the read; none where a missing
line finds no entry (log entry 3). -/
def takeOutput (r : Request) (s : State) : Option (State × OutputRead) :=
  let offset := s.outputOffset r
  let s1 := enterFrame offset s
  match s1.store.takeLines (s1.wantedLines offset r.count) with
  | none => none
  | some (st, need) =>
    let s2 := { s1 with store := st }
    some (s2, s2.takenRead offset need)

end Sys2Proof.Machine
end

