-- ==== Sys2Proof/Machine/Ports.lean ====
section
/-! DEFINITION. The commands of the two upstream ports (chapter 8): arrivals, takes, control-page writes, withdrawals and responses. -/

namespace Sys2Proof.Machine

open Host (Outcome)

/-! ### Arrivals (R135, R141) -/

/-- R135: the positions of a port's queue. -/
def portDepth : Port → Nat
  | .capture => Config.captureDepth
  | .system => Config.systemDepth

/-- R135, R141: whether a port accepts a request: RESET is not asserted, a position is free, and the request is well-formed (log entry
14). -/
def State.accepts (s : State) (port : Port) (r : Request) : Bool :=
  decide (s.phase ≠ .asserted) && decide ((s.port port).queue.length < portDepth port) && r.wf

/-- R135: a request arrives at the newest end of a port's queue. -/
def PortState.arrive (p : PortState) (r : Request) : PortState :=
  { p with queue := p.queue ++ [{ request := r, progress := .untaken }] }

/-- CAPTURE_ARRIVAL (R135). -/
def execCaptureArrival (r : Request) (s : State) : Outcome State Fault Refusal :=
  if s.accepts .capture r then .next { s with capture := s.capture.arrive r } else .next s

/-- SYSTEM_ARRIVAL (R135). -/
def execSystemArrival (r : Request) (s : State) : Outcome State Fault Refusal :=
  if s.accepts .system r then .next { s with system := s.system.arrive r } else .next s

/-! ### Takes (R136 to R138, R144 to R147) -/

/-- The position the capture port takes next. -/
def captureTurn (q : QueuePosition) : Bool := q.isUntaken

/-- R135, R138: a position taken on a port: it becomes f of itself or leaves, and an acknowledgement leaves the port. -/
def PortState.take (p : PortState) (turn : QueuePosition → Bool) (f : QueuePosition → Option QueuePosition) (tag : BitVec 4)
    (body : AckBody) : PortState :=
  (p.replace turn f).acknowledge tag body

/-- What a position becomes at its take. -/
def becomes (progress : Progress) (q : QueuePosition) : Option QueuePosition := some { q with progress := progress }

/-- R138: the acknowledgement of a refused request. -/
def refusedAck (r : Request) (reason : Reason) : AckBody :=
  if isWriteRequest r then .writeStatus reason.status else .readClass false

/-- R135, R139: a refused write leaves its position, and a refused read awaits its turn to respond. -/
def refusedPosition (order : Nat) (reason : Reason) (q : QueuePosition) : Option QueuePosition :=
  if isWriteRequest q.request then none else some { q with progress := .readRefused order reason.status }

/-- R138: the acknowledgement of a request that passes to DRAM. -/
def passedAck (r : Request) : AckBody := if isWriteRequest r then .writeStatus .ok else .readClass true

/-- R147: the progress of a request that passes to DRAM, a write with the words it carries. -/
def passedProgress (order : Nat) (r : Request) (words : List WriteWord) : Progress :=
  if isWriteRequest r then .writeTaken order words else .readTaken order

/-- R146: a request is refused at its take on a port. -/
def refuseRequest (port : Port) (turn : QueuePosition → Bool) (r : Request) (reason : Reason) (s : State) : State :=
  raise (violation port r reason)
    { s.setPort port ((s.port port).take turn (refusedPosition s.takes reason) r.tag (refusedAck r reason)) with
      takes := s.takes + 1 }

/-- R147: a request passes to the memory port at its take on a port, a write with the words it carries. -/
def passRequest (port : Port) (turn : QueuePosition → Bool) (r : Request) (words : List WriteWord) (s : State) : State :=
  { s.setPort port ((s.port port).take turn (becomes (passedProgress s.takes r words)) r.tag (passedAck r)) with
    takes := s.takes + 1 }

/-- R4, R147: a field-ring write after the monitor's work: refused there, or handed on with the words the monitor leaves. -/
def finishMonitorWrite (r : Request) (x : State × Handed) : State :=
  match x.2 with
  | .refused reason => refuseRequest .capture captureTurn r reason x.1
  | .passed words => passRequest .capture captureTurn r words x.1

/-- R144, R147: the capture request r is taken. -/
def takeCapture (r : Request) (s : State) : State :=
  match s.judge .capture r with
  | .refuse reason => refuseRequest .capture captureTurn r reason s
  | .pass => passRequest .capture captureTurn r (writeWords r) s
  | .toMonitor => finishMonitorWrite r (monitorWrite r s)
  | .toOutput => s
  | .toSettings => s

/-- CAPTURE_REQUEST_TAKE (R136). -/
def execCaptureRequestTake (s : State) : Outcome State Fault Refusal :=
  if s.phase = .running then
    match s.nextCapture with
    | some q => .next (takeCapture q.request s)
    | none => .next s
  else .next s

/-- R137: the output read the system port comes to is held. -/
def holdRead (s : State) : State := { s with system := s.system.replace s.systemTurn (becomes .held) }

/-- R137: what the system port does with the request it comes to, where that is neither a control-page write nor the take of an output
read (log entry 15). -/
def takeSystem (r : Request) (s : State) : State :=
  match s.judge .system r with
  | .refuse reason => refuseRequest .system s.systemTurn r reason s
  | .pass => passRequest .system s.systemTurn r (writeWords r) s
  | .toOutput => if s.mustHold then holdRead s else s
  | .toMonitor => s
  | .toSettings => s

/-- SYSTEM_REQUEST_TAKE (R137). -/
def execSystemRequestTake (s : State) : Outcome State Fault Refusal :=
  if s.phase = .running then
    match s.nextSystem with
    | some q => .next (takeSystem q.request s)
    | none => .next s
  else .next s

/-! ### Output reads (R124) -/

/-- R137, R138: the taken output read stands in its position and its class is acknowledged. -/
def placeOutput (turn : QueuePosition → Bool) (r : Request) (x : State × OutputRead) : State :=
  { x.1 with
    system := x.1.system.take turn (becomes (.outputTaken x.1.takes x.2)) r.tag (.readClass x.2.deferred)
    takes := x.1.takes + 1 }

/-- R137, R144: whether the request the system port comes to is an output read that is taken now. -/
def State.takesOutput (s : State) (r : Request) : Bool := decide (s.judge .system r = .toOutput) && !s.mustHold

/-- R124: the output read r is taken. -/
def takeOutputRead (r : Request) (s : State) : Outcome State Fault Refusal :=
  match takeOutput r s with
  | some x => .next (placeOutput s.systemTurn r x)
  | none => .fault .noAllocatableEntry

/-- OUTPUT_READ_TAKE (R124). -/
def execOutputReadTake (s : State) : Outcome State Fault Refusal :=
  if s.phase = .running then
    match s.nextSystem with
    | some q => if s.takesOutput q.request then takeOutputRead q.request s else .next s
    | none => .next s
  else .next s

/-! ### Control-page writes (R161, R163) -/

/-- A word of a control-page write with its offset in the page. -/
structure PageWord where
  offset : Nat
  word : WriteWord
deriving DecidableEq, Repr

/-- R161: the words of a control-page write with their offsets, the page at base. -/
def pageWords (base : Nat) (r : Request) : List PageWord :=
  (wordAddrs r).zipWith (fun a w => { offset := a - base, word := w }) (writeWords r)

/-- R161 step 1: the copy with one word of the write. -/
def copyWord (copy : List (Nat × Word)) (w : PageWord) : List (Nat × Word) :=
  sparseSet 0 copy (w.offset / 4) (mergeBytes (sparseGet 0 copy (w.offset / 4)) w.word.data w.word.enables)

/-- R162: whether a write touches a range of offsets (log entry 18). -/
def touches (ws : List PageWord) (lo past : Nat) : Bool := ws.any (fun w => decide (lo ≤ w.offset) && decide (w.offset < past))

/-- R161 steps 1 and 2: the pending copy and the pending flags. -/
def Settings.write (s : Settings) (ws : List PageWord) : Settings :=
  { s with
    copy := ws.foldl copyWord s.copy
    memoryPending := s.memoryPending || touches ws 0x010 0x020
    windowPending := s.windowPending || touches ws 0x040 0x0C0
    ingestPending := s.ingestPending || touches ws 0x100 0x140
    outputPending := s.outputPending || touches ws 0x200 0x240 || touches ws 0x300 0x380 }

/-- R163, R156, R175: the clear word acts. -/
def actClear (s : State) : State :=
  let w := s.settings.at 0x004
  { s with
    cond := s.cond.clear w s.statusStands
    memPort := { s.memPort with firstFault := if w.getLsbD 31 then none else s.memPort.firstFault } }

/-- R163, R176: the report read index acts. -/
def actReadIndex (s : State) : State := { s with cond := s.cond.setReadIndex (s.settings.at 0x008) s.statusStands }

/-- R163, R175: the report mask acts. -/
def actMask (s : State) : State := { s with cond := s.cond.setMask (s.settings.at 0x00C) s.statusStands }

/-- R161 step 3, R163: the immediate words act in address order; the hold word acts in step 4. -/
def actImmediate (ws : List PageWord) (s : State) : State :=
  let s1 := if touches ws 0x004 0x008 then actClear s else s
  let s2 := if touches ws 0x008 0x00C then actReadIndex s1 else s1
  if touches ws 0x00C 0x010 then actMask s2 else s2

/-- R161 step 4, R164: a write that touches the hold word and leaves it zero releases the hold. -/
def actHold (ws : List PageWord) (s : State) : State :=
  if touches ws 0x000 0x004 = true ∧ s.settings.holdZero = true then holdRelease s else s

/-- R161: a control-page write acts on the settings unit. -/
def settingsWrite (ws : List PageWord) (s : State) : State :=
  actHold ws (actImmediate ws { s with settings := s.settings.write ws })

/-- R147, R161: the control-page write r is taken: the settings unit acts and the write goes on to the SYSTEM requester. -/
def takePageWrite (r : Request) (s : State) : State :=
  settingsWrite (pageWords s.pageBase r) (passRequest .system s.systemTurn r (writeWords r) s)

/-- The control-page write the system port comes to, if that is what stands next, with its words. -/
def State.nextPageWrite (s : State) : Option (Request × List PageWord) :=
  if s.phase = .running then
    match s.nextSystem with
    | some q => if s.judge .system q.request = .toSettings then some (q.request, pageWords s.pageBase q.request) else none
    | none => none
  else none

/-- The take of the next control-page write, where its words and the copy they leave are such as a row of the table names. -/
def takePageRow (row : List PageWord → Settings → Bool) (s : State) : Outcome State Fault Refusal :=
  match s.nextPageWrite with
  | some (r, ws) => if row ws (s.settings.write ws) then .next (takePageWrite r s) else .next s
  | none => .next s

/-- Whether a write touches the clear word and leaves a bit of codes 1 to 20 set in it (R163). -/
def clearsBits (ws : List PageWord) (s : Settings) : Bool :=
  touches ws 0x004 0x008 && decide ((s.at 0x004).extractLsb' 0 20 ≠ 0)

/-- Whether a write touches the clear word and leaves bit 31 set in it (R163). -/
def clearsFault (ws : List PageWord) (s : Settings) : Bool := touches ws 0x004 0x008 && (s.at 0x004).getLsbD 31

/-- Whether a write touches a word of the page that has no row of its own: one past the immediate words, or the clear word with none of
its bits set (R163, log entry 15). -/
def plainWords (ws : List PageWord) (s : Settings) : Bool :=
  touches ws 0x010 0x1000 || (touches ws 0x004 0x008 && !clearsBits ws s && !clearsFault ws s)

/-- CONTROL_PAGE_WRITE (R161). -/
def execControlPageWrite (s : State) : Outcome State Fault Refusal := takePageRow plainWords s

/-- HOLD_WORD_WRITE (R164). -/
def execHoldWordWrite (s : State) : Outcome State Fault Refusal := takePageRow (fun ws _ => touches ws 0x000 0x004) s

/-- CLEAR_OCCURRED_BITS (R175). -/
def execClearOccurredBits (s : State) : Outcome State Fault Refusal := takePageRow clearsBits s

/-- CLEAR_FIRST_FAULT_RECORD (R156). -/
def execClearFirstFaultRecord (s : State) : Outcome State Fault Refusal := takePageRow clearsFault s

/-- REPORT_READ_INDEX_WRITE (R176). -/
def execReportReadIndexWrite (s : State) : Outcome State Fault Refusal := takePageRow (fun ws _ => touches ws 0x008 0x00C) s

/-- REPORT_MASK_WRITE (R175). -/
def execReportMaskWrite (s : State) : Outcome State Fault Refusal := takePageRow (fun ws _ => touches ws 0x00C 0x010) s

/-! ### Withdrawal (R140, R131) -/

/-- R140: whether a position is taken and carries a tag. -/
def QueuePosition.takenWith (tag : BitVec 4) (q : QueuePosition) : Bool := q.progress.taken && decide (q.request.tag = tag)

/-- R131: the output read of a position, where it is DEFERRED and has returned no data word. -/
def QueuePosition.withdrawable (q : QueuePosition) : Option OutputRead :=
  match q.progress with
  | .outputTaken _ o => if o.deferred = true ∧ o.returned = 0 then some o else none
  | .untaken => none
  | .held => none
  | .writeTaken _ _ => none
  | .readTaken _ => none
  | .readGranted _ _ _ _ => none
  | .readRefused _ _ => none

/-- R140: the read a withdrawal of a tag drops: that of the oldest taken position with the tag, where it may be withdrawn. -/
def State.withdrawn (s : State) (tag : BitVec 4) : Option OutputRead :=
  (s.system.queue.find? (QueuePosition.takenWith tag)).bind QueuePosition.withdrawable

/-- R131: the read o is dropped, its position freed and its lines released. -/
def dropRead (tag : BitVec 4) (o : OutputRead) (s : State) : State :=
  { s with
    system := s.system.replace (QueuePosition.takenWith tag) (fun _ => none)
    store := s.store.withdraw o.need }

/-- WITHDRAWAL (R140). -/
def execWithdrawal (tag : BitVec 4) (s : State) : Outcome State Fault Refusal :=
  match s.withdrawn tag with
  | some o => .next (dropRead tag o s)
  | none => .next s

/-! ### Responses (R130, R139) -/

/-- R139: the part of a response of count words after those returned. -/
def responsePart (tag : BitVec 4) (status : Status) (words : List Word) (returned count : Nat) : Response :=
  { tag := tag, status := status, words := (words.drop returned).take count
    last := decide (words.length ≤ returned + count) }

/-- R130: the output read o of request r returns the next count words of its words, and is released with the last. -/
def returnOutput (r : Request) (order : Nat) (o : OutputRead) (words : List Word) (count : Nat) (s : State) : State :=
  let part := responsePart r.tag .ok words o.returned count
  if part.last then
    { s with
      system := (s.system.replace (QueuePosition.isRead order) (fun _ => none)).respond part
      store := s.store.release o.need }
  else
    { s with
      system := (s.system.replace (QueuePosition.isRead order)
        (becomes (.outputTaken order { o with words := some words, returned := o.returned + count }))).respond part }

/-- R130: the words of an output read: those produced already, else produced now. -/
def OutputRead.produced (o : OutputRead) (st : LineStore) (count : Nat) : List Word :=
  match o.words with
  | some ws => ws
  | none => o.produce st count

/-- R130: whether an output read's data may be produced: they have been, or every entry of its need set has left FILLING. -/
def OutputRead.ready (o : OutputRead) (st : LineStore) : Bool := o.words.isSome || !st.anyFilling o.need

/-- OUTPUT_READ_DATA (R130). -/
def execOutputReadData (count : Nat) (s : State) : Outcome State Fault Refusal :=
  if responseCountWf count then
    match s.system.firstResponse with
    | some q =>
      match q.progress with
      | .outputTaken order o =>
        if o.ready s.store then .next (returnOutput q.request order o (o.produced s.store q.request.count) count s) else .next s
      | .untaken => .next s
      | .held => .next s
      | .writeTaken _ _ => .next s
      | .readTaken _ => .next s
      | .readGranted _ _ _ _ => .next s
      | .readRefused _ _ => .next s
    | none => .next s
  else .next s

/-- R139: the status of a pass-through read. -/
def passStatus (failed : Bool) : Status := if failed then .dataError else .ok

/-- R139: a granted pass-through read of request r returns the next count words. -/
def PortState.returnRead (p : PortState) (r : Request) (order : Nat) (words : List Word) (failed : Bool) (returned count : Nat) :
    PortState :=
  let part := responsePart r.tag (passStatus failed) words returned count
  (p.replace (QueuePosition.isRead order)
    (if part.last then fun _ => none else becomes (.readGranted order words failed (returned + count)))).respond part

/-- PASS_THROUGH_READ_RESPONSE (R139). -/
def execPassThroughReadResponse (port : Port) (count : Nat) (s : State) : Outcome State Fault Refusal :=
  if responseCountWf count then
    match (s.port port).firstResponse with
    | some q =>
      match q.progress with
      | .readGranted order words failed returned =>
        .next (s.setPort port ((s.port port).returnRead q.request order words failed returned count))
      | .untaken => .next s
      | .held => .next s
      | .writeTaken _ _ => .next s
      | .readTaken _ => .next s
      | .readRefused _ _ => .next s
      | .outputTaken _ _ => .next s
    | none => .next s
  else .next s

/-- R139: a refused read returns its response with no words (log entry 25). -/
def PortState.returnRefused (p : PortState) (r : Request) (order : Nat) (status : Status) : PortState :=
  (p.replace (QueuePosition.isRead order) (fun _ => none)).respond { tag := r.tag, status := status, words := [], last := true }

/-- REFUSED_READ_RESPONSE (R139). -/
def execRefusedReadResponse (port : Port) (s : State) : Outcome State Fault Refusal :=
  match (s.port port).firstResponse with
  | some q =>
    match q.progress with
    | .readRefused order status => .next (s.setPort port ((s.port port).returnRefused q.request order status))
    | .untaken => .next s
    | .held => .next s
    | .writeTaken _ _ => .next s
    | .readTaken _ => .next s
    | .readGranted _ _ _ _ => .next s
    | .outputTaken _ _ => .next s
  | none => .next s

end Sys2Proof.Machine
end

