-- ==== Sys2Proof/Machine/Bursts.lean ====
section
/-! DEFINITION. The grants of the memory port (R149 to R157) and the returns of read bursts (R45, R125), with the report writes (R177,
R178). A grant the arbiter would not make leaves the state unchanged (log entry 12). -/

namespace Sys2Proof.Machine

open Host (Outcome)

/-! ### Shared -/

/-- The state with DRAM disturbed from outside before a grant (log entry 4). -/
def disturb (us : List Upset) (s : State) : State := { s with dram := s.dram.disturbAll us }

/-- R155: whether a burst read holds an uncorrectable word. -/
def anyFailed (ws : List (Word × CheckResult)) : Bool := ws.any (fun w => decide (w.2 = .failed))

/-- R155: a burst read from DRAM as it stands. -/
def State.readAt (s : State) (b : Burst) : List (Word × CheckResult) := s.dram.readBurst (b.addr / 4) b.count

/-- The grant to a requester of what act does, where the arbiter makes that grant; the upsets befell DRAM before it. -/
def grantTo (r : Requester) (us : List Upset) (act : State → State) (s : State) : Outcome State Fault Refusal :=
  if s.grantee = some r then .next (act ((disturb us s).countGrant r)) else .next s

/-! ### CAPTURE and SYSTEM (R149, R154, R155) -/

/-- R154, R155: a write burst of a port reaches DRAM and leaves its position. -/
def grantWrite (port : Port) (requester : Requester) (r : Request) (order : Nat) (words : List WriteWord) (s : State) : State :=
  let written := s.dram.writeBurst (firstAddr r / 4) words
  raiseChecks requester .merge (firstAddr r) written.2
    { s.setPort port ((s.port port).replace (QueuePosition.isUngranted order) (fun _ => none)) with dram := written.1 }

/-- R155: a read burst of a port takes its words from DRAM, and holds them until its turn to respond. -/
def grantRead (port : Port) (requester : Requester) (r : Request) (order : Nat) (s : State) : State :=
  let read := s.readAt { addr := firstAddr r, count := r.count }
  raiseChecks requester .read (firstAddr r) (read.map Prod.snd)
    (s.setPort port ((s.port port).replace (QueuePosition.isUngranted order)
      (becomes (.readGranted order (read.map Prod.fst) (anyFailed read) 0))))

/-- R149: the grant of the burst a port's requester presents. -/
def grantPort (port : Port) (requester : Requester) (s : State) : State :=
  match (s.port port).head with
  | none => s
  | some q =>
    match q.progress with
    | .writeTaken order words => grantWrite port requester q.request order words s
    | .readTaken order => grantRead port requester q.request order s
    | .untaken => s
    | .held => s
    | .readGranted _ _ _ _ => s
    | .readRefused _ _ => s
    | .outputTaken _ _ => s

/-- CAPTURE_BURST_GRANT (R149). -/
def execCaptureBurstGrant (us : List Upset) (s : State) : Outcome State Fault Refusal :=
  grantTo .capture us (grantPort .capture .capture) s

/-- SYSTEM_BURST_GRANT (R149): a port request's burst; the reload's have a row of their own. -/
def execSystemBurstGrant (us : List Upset) (s : State) : Outcome State Fault Refusal :=
  if s.phase = .running then grantTo .system us (grantPort .system .system) s else .next s

/-! ### FILL (R125, R126) -/

/-- R125: the grant of the next fill burst. -/
def grantFill (s : State) : State :=
  match s.store.presented with
  | none => s
  | some (n, b) =>
    let read := s.readAt b
    raiseChecks .fill .read b.addr (read.map Prod.snd)
      { s with store := s.store.grant n (read.map Prod.fst) (anyFailed read) }

/-- FILL_BURST_RETURN (R125): the grant of a fill burst, or its return into the entry. -/
def execFillBurstReturn (part : BurstPart) (s : State) : Outcome State Fault Refusal :=
  match part with
  | .grant us => grantTo .fill us grantFill s
  | .ret => .next { s with store := s.store.returned }

/-! ### PROBE (R44 to R46) -/

/-- R44: the grant of the next probe burst. -/
def grantProbe (s : State) : State :=
  match s.probe.presented with
  | none => s
  | some (l, role, b) =>
    let read := s.readAt b
    raiseChecks .probe .read b.addr (read.map Prod.snd)
      { s with probe := s.probe.grant l role (read.map Prod.fst) (anyFailed read) }

/-- PROBE_BURST_RETURN (R45): the grant of a probe burst, or its return to the probe unit. -/
def execProbeBurstReturn (part : BurstPart) (s : State) : Outcome State Fault Refusal :=
  match part with
  | .grant us => grantTo .probe us grantProbe s
  | .ret => .next { s with probe := s.probe.returned }

/-! ### REFRESH (R157) -/

/-- R157: a refresh is granted. -/
def grantRefresh (s : State) : State :=
  { s with memPort := { s.memPort with refreshPending := s.memPort.refreshPending - 1 } }

/-- REFRESH_GRANT (R157). -/
def execRefreshGrant (s : State) : Outcome State Fault Refusal := grantTo .refresh [] grantRefresh s

/-! ### REPORT (R177, R178) -/

/-- R177: REPORT chooses its next burst, where it has chosen none. -/
def chooseReport (c : ReportChoice) (s : State) : State :=
  if s.phase ≠ .asserted ∧ s.statusStands = true ∧ s.cond.presented = some c then { s with cond := { s.cond with chosen := some c } }
  else s

/-- R177: the base of the STATUS window. -/
def State.statusBase (s : State) : Nat :=
  match s.window .status with
  | some w => w.base
  | none => 0

/-- R176: the byte address of a ring position. -/
def State.ringAddress (s : State) (p : BitVec 6) : Nat := s.statusBase + 0x100 + 32 * p.toNat

/-- R177: the condition unit after the grant of its oldest record. -/
def ConditionUnit.recordGranted (u : ConditionUnit) : ConditionUnit :=
  { u with queue := u.queue.drop 1, writeIndex := u.writeIndex + 1, chosen := none, statusPending := true }

/-- R177: the oldest record is written at the next ring position. -/
def grantRecord (s : State) : State :=
  match s.cond.queue with
  | [] => s
  | record :: _ =>
    { s with
      dram := s.dram.writeWhole (s.ringAddress (s.cond.writeIndex + 1) / 4) record
      cond := s.cond.recordGranted }

/-- The grant to REPORT of what act does, where REPORT presents the choice c. -/
def grantReport (c : ReportChoice) (act : State → State) (s : State) : Outcome State Fault Refusal :=
  if s.cond.presented = some c then grantTo .report [] act s else .next s

/-- RECORD_BURST_GRANT (R177): REPORT chooses the oldest record, or its burst is granted. -/
def execRecordBurstGrant (part : ReportPart) (s : State) : Outcome State Fault Refusal :=
  match part with
  | .choose => .next (chooseReport .record s)
  | .grant => grantReport .record grantRecord s

/-! #### The status block (section 11.6) -/

/-- Status word 3: the first-fault record. -/
def firstFaultWord (f : Option FirstFault) : Word :=
  match f with
  | none => 0
  | some f => word (1 + flag f.multi * 2 + f.requester.code * 256 + f.transfer.code * 65536)

/-- Status word 4: the first-fault address (log entry 22). -/
def firstFaultAddress (f : Option FirstFault) : Word :=
  match f with
  | none => 0
  | some f => f.addr

/-- Status word 8: the partner offset. -/
def partnerOffset (p : Option PartnerRole) : Nat :=
  match p with
  | none => 0
  | some p => if p.after then 1 else 3

/-- Status word 8, R80: the plan state and method, the flags and the partner offset. -/
def planWord (p : Option Plan) : Word :=
  match p with
  | none => 0
  | some p =>
    word (p.method.code + flag p.repeated * 256 + flag p.anchorLost * 512 + flag p.partnerLost * 1024 +
      flag p.motionLost * 2048 + partnerOffset p.partner * 65536)

/-- Status word 9, R80: the anchor's field number, or 0. -/
def anchorWord (p : Option Plan) : Word := ((p.bind (fun p => p.anchor)).map (fun a => a.field)).getD 0

/-- Status word 10, R80: the partner's field number, or 0. -/
def partnerWord (p : Option Plan) : Word := ((p.bind (fun p => p.partner)).map (fun a => a.field)).getD 0

/-- Status word 1: the write index and the read index. -/
def indexWord (u : ConditionUnit) : Word := word (u.writeIndex.toNat + u.readIndex.toNat * 256)

/-- Status word 5, R23: the acquisition state and L. -/
def acquisitionWord (s : State) : Word := word (s.monitor.acquisition.code + s.knownL % 512 * 65536)

/-- Status word 6: the cadence mode, c22 and the episode. -/
def cadenceWord (c : Cadence) : Word := word (c.mode.code + c.c22 % 64 * 256 + c.episode % 65536 * 65536)

/-- R178, section 11.6: the 32 words of the status block, with the block number it carries. -/
def statusBlock (s : State) (number : Word) : List Word :=
  [s.cond.occurred.setWidth 32, indexWord s.cond, s.cond.mask.setWidth 32, firstFaultWord s.memPort.firstFault,
    firstFaultAddress s.memPort.firstFault, acquisitionWord s, cadenceWord s.cadence, s.planner.frame,
    planWord s.planner.plan, anchorWord s.planner.plan, partnerWord s.planner.plan, word s.history.records.length,
    (s.history.newest.map (fun r => r.number)).getD 0, (s.history.newest.map (fun r => r.captureCount)).getD 0, number] ++
  List.replicate 17 0

/-- R178: the condition unit after the grant of the status block. -/
def ConditionUnit.statusGranted (u : ConditionUnit) : ConditionUnit :=
  { u with statusPending := false, blockNumber := u.blockNumber + 1, chosen := none }

/-- R178: the status block is written with the state as it stands. -/
def grantStatus (s : State) : State :=
  { s with
    dram := s.dram.writeWhole (s.statusBase / 4) (statusBlock s (s.cond.blockNumber + 1))
    cond := s.cond.statusGranted }

/-- STATUS_BLOCK_GRANT (R178): REPORT chooses the status block, or its burst is granted. -/
def execStatusBlockGrant (part : ReportPart) (s : State) : Outcome State Fault Refusal :=
  match part with
  | .choose => .next (chooseReport .status s)
  | .grant => grantReport .status grantStatus s

end Sys2Proof.Machine
end

