-- ==== Sys2Proof/Machine/Resets.lean ====
section
/-! DEFINITION. Power-on, warm RESET and the reload of the control page (R141, R160, R171 to R173). -/

namespace Sys2Proof.Machine

open Host (Outcome)

/-! ### Power-on (R171) -/

/-- POWER_ON (R171), with the straps sampled (R159). The commands that wait still wait. -/
def execPowerOn (dsize : BitVec 2) (cpage : BitVec 3) (s : State) : Outcome State Fault Refusal :=
  .next { (State.powerOn dsize cpage) with pending := s.pending }

/-! ### Assertion of warm RESET (R141, R160, R172, R173) -/

/-- R141: every request holding a position is discarded. -/
def PortState.discard (p : PortState) : PortState := { p with queue := [] }

/-- R153, R156, R160: the memory port at the assertion: refresh runs on. -/
def MemPort.assert (m : MemPort) : MemPort :=
  { m with
    starvation := { fill := 0, system := 0, probe := 0, refresh := m.starvation.refresh, report := 0 }
    firstFault := none }

/-- R172: the settings unit at the assertion: it keeps the working memory group, and the pending copy and flags (log entry 32). -/
def Settings.assert (s : Settings) : Settings := { s with ingest := none, output := none, customRows := defaultRows }

/-- R141: the assertion of warm RESET. -/
def assertReset (s : State) : State :=
  { s with
    phase := .asserted
    capture := s.capture.discard
    system := s.system.discard
    windows := windowsOff
    monitor := Monitor.reset
    history := History.reset
    probe := ProbeUnit.reset
    cadence := Cadence.reset
    planner := Planner.reset
    store := LineStore.reset
    memPort := s.memPort.assert
    settings := s.settings.assert
    cond := ConditionUnit.reset }

/-- WARM_RESET_ASSERT (R141). -/
def execWarmResetAssert (s : State) : Outcome State Fault Refusal := .next (assertReset s)

/-! ### Release and reload (R159, R172) -/

/-- R172: the reload before its first burst. -/
def Reload.start : Reload := { granted := 0, returned := 0, inFlight := [] }

/-- RESET_RELEASE (R172), with the straps sampled (R159). -/
def execResetRelease (dsize : BitVec 2) (cpage : BitVec 3) (s : State) : Outcome State Fault Refusal :=
  if s.phase = .asserted then
    .next { s with phase := .reloading Reload.start, straps := { dsize := dsize, cpage := cpage } }
  else .next s

/-- R155, R172: a word of the reload as the settings unit takes it: zero where it failed its check. -/
def reloadWord (w : Word × CheckResult) : Word := if w.2 = .failed then 0 else w.1

/-- R149, R172: the grant of the reload's next burst. -/
def grantReload (s : State) : State :=
  match s.phase with
  | .reloading r =>
    match s.reloadBurst r with
    | some b =>
      let read := s.readAt b
      raiseChecks .system .reload b.addr (read.map Prod.snd)
        { s with phase := .reloading { r with granted := r.granted + 1, inFlight := r.inFlight ++ [read.map reloadWord] } }
    | none => s
  | .running => s
  | .asserted => s

/-- R172 step 1: the copy with words from a word index up. -/
def copyBurst (copy : List (Nat × Word)) (index : Nat) : List Word → List (Nat × Word)
  | [] => copy
  | w :: rest => copyBurst (sparseSet 0 copy index w) (index + 1) rest

/-- R172 step 2: all four groups are pending. -/
def Settings.allPending (s : Settings) : Settings :=
  { s with memoryPending := true, windowPending := true, ingestPending := true, outputPending := true }

/-- R172 steps 2 to 4: the end of the reload: all groups pending, the report mask handed over, the groups loaded where the hold word is
zero, and takes begin. -/
def reloadEnd (s : State) : State :=
  let s1 := { s with
    phase := .running
    settings := s.settings.allPending
    cond := { s.cond with mask := (s.settings.at 0x00C).extractLsb' 0 20 } }
  if s.settings.holdZero then holdRelease s1 else s1

/-- R172 step 1: the oldest granted burst of the reload returns into the pending copy; the last one ends the reload. -/
def returnReload (s : State) : State :=
  match s.phase with
  | .reloading r =>
    match r.inFlight with
    | [] => s
    | words :: rest =>
      let s1 := { s with
        phase := .reloading { r with returned := r.returned + 1, inFlight := rest }
        settings := { s.settings with copy := copyBurst s.settings.copy (32 * r.returned) words } }
      if 32 ≤ r.returned + 1 then reloadEnd s1 else s1
  | .running => s
  | .asserted => s

/-- Whether the reload runs. -/
def Phase.isReloading : Phase → Bool
  | .reloading _ => true
  | .running => false
  | .asserted => false

/-- RELOAD_BURST_RETURN (R172): the grant of a reload burst, or its return. -/
def execReloadBurstReturn (part : BurstPart) (s : State) : Outcome State Fault Refusal :=
  match part with
  | .grant us => if s.phase.isReloading then grantTo .system us grantReload s else .next s
  | .ret => .next (returnReload s)

end Sys2Proof.Machine
end

