-- ==== Sys2Proof/Machine/Timers.lean ====
section
/-! DEFINITION. The stall timer and the refresh interval timer (R17, R18, R158): their expiries as commands, the REFRESH_REQ edge, and
the REFCLK tick. -/

namespace Sys2Proof.Machine

open Host (Outcome)

/-- STALL_TIMER_EXPIRY (R18), while the timer runs (log entry 13). -/
def execStallTimerExpiry (s : State) : Outcome State Fault Refusal :=
  if s.monitor.timerRunning then .next (expireStall s) else .next s

/-- R158: the interval timer reaches the interval: it starts again from 0, with one refresh addition. -/
def expireInterval (s : State) : State := refreshAddition { s with memPort := { s.memPort with intervalCount := 0 } }

/-- REFRESH_INTERVAL_EXPIRY (R158), in DECOUPLED mode (log entry 13). -/
def execRefreshIntervalExpiry (s : State) : Outcome State Fault Refusal :=
  if s.settings.memory.coupled then .next s else .next (expireInterval s)

/-- REFRESH_REQ_EDGE (R158): one refresh addition in COUPLED mode; ignored in DECOUPLED mode. -/
def execRefreshReqEdge (s : State) : Outcome State Fault Refusal :=
  if s.settings.memory.coupled then .next (refreshAddition s) else .next s

/-- R17: the stall timer at a REFCLK tick. -/
def tickStall (s : State) : State :=
  if s.monitor.timerRunning then
    if 2 ^ s.stallLimit ≤ s.monitor.timerCount + 1 then expireStall s
    else { s with monitor := { s.monitor with timerCount := s.monitor.timerCount + 1 } }
  else s

/-- R158: the interval timer at a REFCLK tick. -/
def tickInterval (s : State) : State :=
  if s.settings.memory.coupled then s
  else if s.settings.memory.interval ≤ s.memPort.intervalCount + 1 then expireInterval s
  else { s with memPort := { s.memPort with intervalCount := s.memPort.intervalCount + 1 } }

/-- One REFCLK tick (section 6.6): the stall timer, then the interval timer (log entry 27). -/
def tick (s : State) : State := tickInterval (tickStall s)

end Sys2Proof.Machine
end

