-- ==== Sys2Proof/Machine/Dispatch.lean ====
section
/-! DEFINITION. The meaning of each command: one arm per constructor, each one call. -/

namespace Sys2Proof.Machine

open Host (Outcome)

def exec (i : Instr) (s : State) : Host.Outcome State Fault Refusal :=
  match i with
  | .powerOn dsize cpage => Sys2Proof.Machine.execPowerOn dsize cpage s
  | .warmResetAssert => Sys2Proof.Machine.execWarmResetAssert s
  | .resetRelease dsize cpage => Sys2Proof.Machine.execResetRelease dsize cpage s
  | .reloadBurstReturn part => Sys2Proof.Machine.execReloadBurstReturn part s
  | .captureArrival request => Sys2Proof.Machine.execCaptureArrival request s
  | .captureRequestTake => Sys2Proof.Machine.execCaptureRequestTake s
  | .stallTimerExpiry => Sys2Proof.Machine.execStallTimerExpiry s
  | .systemArrival request => Sys2Proof.Machine.execSystemArrival request s
  | .systemRequestTake => Sys2Proof.Machine.execSystemRequestTake s
  | .outputReadTake => Sys2Proof.Machine.execOutputReadTake s
  | .controlPageWrite => Sys2Proof.Machine.execControlPageWrite s
  | .holdWordWrite => Sys2Proof.Machine.execHoldWordWrite s
  | .clearOccurredBits => Sys2Proof.Machine.execClearOccurredBits s
  | .clearFirstFaultRecord => Sys2Proof.Machine.execClearFirstFaultRecord s
  | .reportReadIndexWrite => Sys2Proof.Machine.execReportReadIndexWrite s
  | .reportMaskWrite => Sys2Proof.Machine.execReportMaskWrite s
  | .withdrawal tag => Sys2Proof.Machine.execWithdrawal tag s
  | .outputReadData count => Sys2Proof.Machine.execOutputReadData count s
  | .passThroughReadResponse port count => Sys2Proof.Machine.execPassThroughReadResponse port count s
  | .refusedReadResponse port => Sys2Proof.Machine.execRefusedReadResponse port s
  | .captureBurstGrant upsets => Sys2Proof.Machine.execCaptureBurstGrant upsets s
  | .systemBurstGrant upsets => Sys2Proof.Machine.execSystemBurstGrant upsets s
  | .fillBurstReturn part => Sys2Proof.Machine.execFillBurstReturn part s
  | .probeBurstReturn part => Sys2Proof.Machine.execProbeBurstReturn part s
  | .refreshGrant => Sys2Proof.Machine.execRefreshGrant s
  | .recordBurstGrant part => Sys2Proof.Machine.execRecordBurstGrant part s
  | .statusBlockGrant part => Sys2Proof.Machine.execStatusBlockGrant part s
  | .refreshIntervalExpiry => Sys2Proof.Machine.execRefreshIntervalExpiry s
  | .refreshReqEdge => Sys2Proof.Machine.execRefreshReqEdge s

end Sys2Proof.Machine
end

