-- ==== Sys2Proof/Machine/Step.lean ====
section
/-! DEFINITION. One step: the command at the front of the queue on the state with the queue's rest, or one REFCLK tick where no command
waits. -/

namespace Sys2Proof.Machine

/-- One step of the device (log entry 13 for the empty queue). -/
def step (s : State) : Host.Outcome State Fault Refusal :=
  match s.pending with
  | [] => .next (tick s)
  | i :: rest => exec i { s with pending := rest }

/-- The state with the command that a table word spells at the front of the queue, unchanged where it spells none (log entry 2). -/
def State.withFetchWord (s : State) (nbits w : Nat) : State :=
  match decodeTableWord nbits w with
  | some i => { s with pending := i :: s.pending }
  | none => s

end Sys2Proof.Machine
end

