-- ==== Sys2Proof/Safety.lean ====
section
/-! DEFINITION. The invariants of the device that the statements speak of: canonical memories, capacities, the limit on output reads,
the report ring and its records, the window table, the line store, the field history and the plan's roles, and the ranges of the output
settings, the probe unit and the cadence detector; and what a close, the
voiding of fills and an ingest geometry change leave. -/

namespace Sys2Proof.Machine

/-- DRAM and the pending copy are in canonical form. -/
abbrev State.canonical (s : State) : Prop := s.dram.wf ∧ sparseWf (0 : Word) s.settings.copy

/-- R153: no starvation count passes 64. -/
abbrev Starvation.bounded (v : Starvation) : Prop :=
  v.fill ≤ Config.starved ∧ v.system ≤ Config.starved ∧ v.probe ≤ Config.starved ∧ v.refresh ≤ Config.starved ∧
    v.report ≤ Config.starved

/-- R118, R135, R142, R153, R157, R173: the capacities and counts of the device. -/
abbrev State.bounded (s : State) : Prop :=
  s.capture.queue.length ≤ Config.captureDepth ∧ s.system.queue.length ≤ Config.systemDepth ∧
    s.cond.queue.length ≤ Config.recordDepth ∧ s.memPort.refreshPending ≤ Config.refreshUrgent ∧
    s.memPort.starvation.bounded ∧ s.windows.length = 8 ∧ s.store.entries.length = Config.storeEntries

/-- R129: at most four output reads are counted. -/
abbrev State.countedOk (s : State) : Prop := s.counted ≤ Config.outputLimit

/-- R176, R177: a chosen record stands at the head of the report queue, and its position is not the read index. -/
abbrev ConditionUnit.ringOk (u : ConditionUnit) : Prop :=
  u.chosen = some .record → u.queue ≠ [] ∧ u.writeIndex + 1 ≠ u.readIndex

/-- R102: a fill value as a load leaves it. -/
abbrev fillOk (n : Nat) : Prop := 4 ≤ n ∧ n ≤ 1019

/-- R102, R97: the ranges of a working output group. -/
abbrev OutputGroup.inRange (g : OutputGroup) : Prop :=
  (640 ≤ g.wo ∧ g.wo ≤ 2048 ∧ g.wo % 2 = 0) ∧ (240 ≤ g.ho ∧ g.ho ≤ 1080) ∧ (g.pitch % 64 = 0 ∧ g.wo * 4 ≤ g.pitch) ∧
    (g.x0 % 2 = 0 ∧ g.wi % 2 = 0 ∧ 2 ≤ g.wi ∧ g.x0 + g.wi ≤ g.wo) ∧ (1 ≤ g.hi ∧ g.y0 + g.hi ≤ g.ho) ∧
    fillOk g.fillY ∧ fillOk g.fillC ∧ g.tLo < g.tHi

/-- R111: a coefficient row sums to 256. -/
abbrev CoefRow.sums (r : CoefRow) : Prop := r.c0 + r.c1 + r.c2 + r.c3 = 256

/-- R102, R111, R117: what a plan's snapshot holds is in range. -/
abbrev Snapshot.inRange (g : Snapshot) : Prop := fillOk g.fillY ∧ fillOk g.fillC ∧ g.tLo < g.tHi ∧ ∀ r ∈ g.coefs, r.sums

/-- R116, R117: an output word carries luma and chroma within 4..1019 and zeros above them. -/
abbrev sampleWordOk (w : Word) : Prop := fillOk (lumaOf w) ∧ fillOk (chromaOf w) ∧ w.extractLsb' 10 6 = 0 ∧ w.extractLsb' 26 6 = 0

/-- R117: a taken output read returns samples in range only. -/
abbrev OutputRead.inRange (o : OutputRead) : Prop :=
  fillOk o.fillY ∧ fillOk o.fillC ∧ (∀ p, o.plan = some p → p.snapshot.inRange) ∧
    (∀ ws, o.words = some ws → ∀ w ∈ ws, sampleWordOk w)

/-- R117: whatever a position holds of an output read is in range. -/
abbrev QueuePosition.inRange (q : QueuePosition) : Prop := ∀ n o, q.progress = .outputTaken n o → o.inRange

/-- R102, R111, R117: the output settings, the plan and the reads in flight are in range. -/
abbrev State.outputOk (s : State) : Prop :=
  (∀ g, s.settings.output = some g → g.inRange) ∧ (∀ r ∈ s.settings.customRows, r.sums) ∧
    (∀ p, s.planner.plan = some p → p.snapshot.inRange) ∧ (∀ q ∈ s.system.queue, q.inRange)

/-- R50: the ranges of the cadence detector's values. -/
abbrev Cadence.inRange (c : Cadence) : Prop := c.episode ≤ 65535 ∧ c.ph22 ≤ 1 ∧ c.repeats.length ≤ 3 ∧ c.nextPosition ≤ 4

/-- R50, R168: the working E22 lies within 4..32, and c22 within 0..E22. -/
abbrev State.c22Ok (s : State) : Prop := ∀ g, s.settings.ingest = some g → (4 ≤ g.e22 ∧ g.e22 ≤ 32) ∧ s.cadence.c22 ≤ g.e22

/-- R40, R50: at most two probe lines are pending, and the cadence detector's values are in range. -/
abbrev State.enginesOk (s : State) : Prop := s.probe.pending.length ≤ Config.pendingProbes ∧ s.cadence.inRange ∧ s.c22Ok

/-- R180: every queued record has eight words. -/
abbrev ConditionUnit.recordsOk (u : ConditionUnit) : Prop := ∀ r ∈ u.queue, r.length = 8

/-- R143: every window that is not OFF starts at a multiple of 64 KiB. -/
abbrev State.windowsOk (s : State) : Prop := ∀ e ∈ s.windows, e.kind ≠ .off → e.base % 65536 = 0

/-! ### The line store and the reads that hold its entries (R118, R120, R123) -/

/-- R122: the entries that a position's taken output read holds, one for each line of its need set. -/
def QueuePosition.holds (q : QueuePosition) : List Nat :=
  match q.progress with
  | .outputTaken _ o => o.need.map (fun l => l.entry)
  | .untaken => []
  | .held => []
  | .writeTaken _ _ => []
  | .readTaken _ => []
  | .readGranted _ _ _ _ => []
  | .readRefused _ _ => []

/-- R130: the entries held by a position's read whose data have been produced. -/
def QueuePosition.settledHolds (q : QueuePosition) : List Nat :=
  match q.progress with
  | .outputTaken _ o => if o.words.isSome then o.need.map (fun l => l.entry) else []
  | .untaken => []
  | .held => []
  | .writeTaken _ _ => []
  | .readTaken _ => []
  | .readGranted _ _ _ _ => []
  | .readRefused _ _ => []

/-- R118: the entries held by the taken output reads, one for each use. -/
def State.uses (s : State) : List Nat := s.system.queue.flatMap QueuePosition.holds

/-- R130: the entries held by the reads whose data have been produced. -/
def State.settledUses (s : State) : List Nat := s.system.queue.flatMap QueuePosition.settledHolds

/-- R118: whether an entry holds a line whose fill has ended whole. -/
def StoreEntry.ended (e : StoreEntry) : Bool := decide (e.state = .valid ∨ e.state = .poisoned)

/-- R118, R120, R123, R129: the laws of the line store, the entries in uses being held once for each time they stand there, and those in
settled by reads whose data have been produced: use counts count the uses, an EMPTY entry holds nothing, a VOID entry is held, the LRU
order holds exactly the VALID and POISONED entries of use count 0, an entry FILLING with use count 0 is waited for by a withdrawn read,
no fill and no burst is in flight but for a FILLING entry, and no tag is matched by two entries. -/
structure LineStore.lawful (st : LineStore) (uses settled : List Nat) : Prop where
  useCount : ∀ n, (st.entry n).useCount = uses.count n
  empty : ∀ n, (st.entry n).state = .empty → st.entry n = StoreEntry.empty
  void : ∀ n, (st.entry n).state = .void → (st.entry n).useCount ≠ 0
  lruNodup : st.lru.Nodup
  lru : ∀ n, n ∈ st.lru ↔ (st.entry n).ended = true ∧ (st.entry n).useCount = 0
  waited : ∀ n, (st.entry n).state = .filling → (st.entry n).useCount = 0 → ∃ w ∈ st.withdrawn, n ∈ w
  filling : ∀ n, (st.entry n).fill.isSome = true → (st.entry n).state = .filling
  inFlight : ∀ b ∈ st.inFlight, (st.entry b.entry).state = .filling
  settled : ∀ n ∈ settled, n ∈ uses ∧ (st.entry n).state ≠ .filling
  tags : ∀ t m n, (st.entry m).hit t = true → (st.entry n).hit t = true → m = n

/-- R121: the greatest number of lines that a need set holds. -/
def needLimit : Nat := 12

/-- R118 to R123: the laws of the line store over the reads in flight, none of which, nor any withdrawn read, holds more than 12
entries. -/
abbrev State.storeOk (s : State) : Prop :=
  s.store.lawful s.uses s.settledUses ∧ (∀ q ∈ s.system.queue, q.holds.length ≤ needLimit) ∧
    ∀ w ∈ s.store.withdrawn, w.length ≤ needLimit

/-! ### The field history and the plan's roles (R25, R31, R63) -/

/-- R24, R25: the laws of the history under a working slot count, none where no ingest group works: at most so many records, each in a
slot of its own and with a number of its own that is not 0, and at most one of them FILLING. -/
structure History.lawful (h : History) (slots : Option Nat) : Prop where
  slotsApart : (h.records.map (fun r => r.slot)).Nodup
  numbersApart : (h.records.map (fun r => r.number)).Nodup
  numbered : h.next ≠ 0 ∧ ∀ r ∈ h.records, r.number ≠ 0
  oneFilling : ∀ a ∈ h.records, ∀ b ∈ h.records, a.state = .filling → b.state = .filling → a = b
  atMost : match slots with
    | some k => h.records.length ≤ k ∧ ∀ r ∈ h.records, r.slot < k
    | none => h.records = []

/-- R63: the field numbers a plan names. -/
def Plan.names (p : Plan) : List FieldNo :=
  (p.anchor.map (fun a => a.field)).toList ++ (p.partner.map (fun a => a.field)).toList ++ p.anchor2.toList ++ p.partner2.toList

/-- R31, R63: a plan names present records, a different one in each role. -/
abbrev History.carries (h : History) (p : Plan) : Prop :=
  p.names.Nodup ∧ ∀ f ∈ p.names, ∃ r ∈ h.records, r.number = f

/-- R31: the roles by which a plan, or none, names a field number. -/
def rolesIn (plan : Option Plan) (f : FieldNo) : Roles :=
  match plan with
  | some p => p.rolesOf f
  | none => Roles.empty

/-- R25, R31, R63: the laws of the field history and of the plan over it. -/
abbrev State.historyOk (s : State) : Prop :=
  s.history.lawful (s.settings.ingest.map (fun g => g.k)) ∧ (∀ p, s.planner.plan = some p → s.history.carries p) ∧
    ∀ r ∈ s.history.records, r.referenced = rolesIn s.planner.plan r.number

/-- R25: the number the next record will carry stands in no record. It can return only after 2^32-1 admissions (log entry 36). -/
abbrev State.numberFree (s : State) : Prop := ∀ r ∈ s.history.records, r.number ≠ s.history.next

/-! ### The close of a field (R12 to R16) -/

/-- R12 to R16, R48, R50: what the close of the filling field r leaves in t of the state s; r1 is the closed record and code the cause's
number in section 11.6, 0 for an end mark. Every line takes its final state; the note closes with the record where it describes it and
the record was cut; the probe unit settles the metrics and is emptied (log entry 37); the detector labels the field; then the conditions
occur, in order FIELD_CUT, LINE_DAMAGE with the count of each state, PROBE_INCOMPLETE, and the detector's; and a status write is
scheduled. -/
def FieldClosed (code : Nat) (r r1 : FieldRecord) (g : IngestGroup) (s t : State) : Prop :=
  let closed := { r with
    lines := r.lines.zipIdx.map (fun x => { x.1 with final := some (finalState g.w r.tagsPresent x.2 x.1) })
    state := if code = 0 then .complete else .cut
    stalled := decide (code = 4) }
  let standing := s.history.update r.number (fun _ => closed)
  let settled := s.probe.settle standing closed g.w
  let result := s.cadence.close g { closed with metrics := settled.1 } (standing.find (FieldNo.pred r.number))
  let count := fun (f : LineState) => closed.lines.countP (fun e => decide (e.final = some f))
  r1 = { closed with metrics := settled.1, label := result.label } ∧
  t.history = s.history.update r.number (fun _ => r1) ∧
  t.monitor = { s.monitor with note := s.monitor.note.map (fun n =>
    if code ≠ 0 ∧ n.field = r.number then { n with closedCut := true } else n) } ∧
  t.probe = ProbeUnit.reset ∧ t.cadence = result.cadence ∧
  t.cond = (scheduleStatus (raiseAll ((if code = 0 then [] else [.fieldCut r.number code r.slot]) ++
    (if ∃ e ∈ closed.lines, e.final ≠ some .good then [.lineDamage r.number
      { missing := count .missing, slipped := count .slipped, dropout := count .dropout, short := count .short, held := count .held
        overlong := count .overlong }] else []) ++
    settled.2.toList.map (fun p => .probeIncomplete r.number p) ++ result.condition.toList) s)).cond ∧
  t = { s with history := t.history, monitor := t.monitor, probe := t.probe, cadence := t.cadence, cond := t.cond }

/-! ### The voiding of fills (R127, R129) -/

/-- R127, R129: what the voiding of the fills of some fields makes of a line store: each entry FILLING for one of them becomes EMPTY where
its use count is 0, else VOID; their fills are no longer outstanding, their granted bursts are discarded (at once: log entry 30), and
each withdrawn read stops waiting for them: one that waited for no other entry is counted no more. Nothing else changes. -/
def FillsVoided (fields : List FieldNo) (st st1 : LineStore) : Prop :=
  let voided := (List.range st.entries.length).filter (fun n => decide ((st.entry n).state = .filling) &&
    (match (st.entry n).tag with
      | some t => decide (t.field ∈ fields)
      | none => false))
  st1.entries.length = st.entries.length ∧
  (∀ n ∈ voided, st1.entry n = if (st.entry n).useCount = 0 then StoreEntry.empty
    else { st.entry n with state := .void, fill := none, data := [] }) ∧
  (∀ n < st.entries.length, n ∉ voided → st1.entry n = st.entry n) ∧
  (voided = [] → st1 = st) ∧
  (voided ≠ [] → st1 = { st with
    entries := st1.entries, fillQueue := voided.foldl List.erase st.fillQueue
    inFlight := st.inFlight.filter (fun b => decide (b.entry ∉ voided))
    withdrawn := (st.withdrawn.map (fun w => voided.foldl List.erase w)).filter (fun w => decide (w ≠ [])) })

/-! ### The ingest geometry change (R3, R35, R50, R170) -/

/-- R170: what an ingest geometry change leaves in t of the state s: the monitor at R3's values, AUTO acquiring; no plan and no previous
anchor; an empty history with its next number kept; the detector at R50's values; and where a record was removed, the probe unit empty
and the fills of the removed fields voided (R35, R127). -/
structure GeometryChanged (s t : State) : Prop where
  monitor : t.monitor =
    { note := none, timerRunning := false, timerCount := 0
      acquisition := match t.settings.ingest with
        | some g => if g.l = 0 then .acquiring else .off
        | none => .off
      measurement := none, measuredFields := 0, previousCount := none, acquiredL := 0 }
  planner : t.planner = { s.planner with plan := none, laterRow := false, previousAnchor := 0 }
  history : t.history = { s.history with records := [] }
  cadence : t.cadence = { mode := .video, episode := s.cadence.episode, c22 := 0, ph22 := 0, repeats := [], nextPosition := 0 }
  stands : s.history.records = [] → t.probe = s.probe ∧ t.store = s.store
  emptied : s.history.records ≠ [] →
    t.probe = ProbeUnit.reset ∧ FillsVoided (s.history.records.map (fun r => r.number)) s.store t.store

/-- What every step keeps of the memories, queues, counts, windows, report ring, probe unit and cadence detector. -/
abbrev State.boundsOk (s : State) : Prop :=
  s.canonical ∧ s.bounded ∧ s.countedOk ∧ s.cond.ringOk ∧ s.cond.recordsOk ∧ s.windowsOk ∧ s.enginesOk

/-- The same, and what every step then keeps of the line store. -/
abbrev State.deviceOk (s : State) : Prop := s.boundsOk ∧ s.storeOk

end Sys2Proof.Machine
end

