-- ==== Sys2Proof/Certificates/Slice0/Obligations.lean ====
section
/-! DEFINITION. The statements for the provers, in the order of the blocks: the step, resets, ports, field ingest, history and probes,
cadence, plans, reconstruction, scaling, line store, memory port, settings, conditions, and the invariants of every step. -/

section

open Sys2Proof Sys2Proof.Machine
open Host (Outcome)

/-! ### The step and the queue of commands -/

/-- A step takes the command at the front of the queue and answers exec of it on the state with the queue's rest. -/
def Obligations.StepRunsFrontCommand : Prop :=
  ∀ (c : Instr) (rest : List Instr) (s : State), s.pending = c :: rest → step s = exec c { s with pending := rest }

/-- The model's own choice (log entry 13): a step with no command waiting is one REFCLK tick, and the timers of R17 and R158 count it. -/
def Obligations.StepWithNoCommandCountsOneTick : Prop :=
  ∀ s : State, s.pending = [] → ∃ t, step s = .next t ∧ t.pending = [] ∧
    (s.monitor.timerRunning = false → t.monitor = s.monitor) ∧
    (s.monitor.timerRunning = true → s.monitor.timerCount + 1 < 2 ^ s.stallLimit →
      t.monitor = { s.monitor with timerCount := s.monitor.timerCount + 1 }) ∧
    (s.monitor.timerRunning = true → 2 ^ s.stallLimit ≤ s.monitor.timerCount + 1 →
      t.monitor.timerRunning = false ∧ t.monitor.timerCount = 0 ∧ (s.phase ≠ .asserted → t.cond.occurred.getLsbD 2 = true)) ∧
    (s.settings.memory.coupled = true → t.memPort = s.memPort) ∧
    (s.settings.memory.coupled = false → s.memPort.intervalCount + 1 < s.settings.memory.interval →
      t.memPort = { s.memPort with intervalCount := s.memPort.intervalCount + 1 }) ∧
    (s.settings.memory.coupled = false → s.settings.memory.interval ≤ s.memPort.intervalCount + 1 →
      t.memPort.intervalCount = 0 ∧
        t.memPort.refreshPending = if s.memPort.refreshPending < 8 then s.memPort.refreshPending + 1 else s.memPort.refreshPending)

/-- Every command answers a next state with the commands behind it as they were, but the take of an output read whose missing line
finds no entry, which stops (log entry 3). -/
def Obligations.CommandsAnswerANextStateAndLeaveTheQueue : Prop :=
  ∀ (c : Instr) (s : State), (∃ t, exec c s = .next t ∧ t.pending = s.pending) ∨
    (c = .outputReadTake ∧ exec c s = .fault .noAllocatableEntry)

/-! ### Power-on and warm RESET -/

/-- POWER_ON: every block stands at its values after power-on, with the straps sampled: the queues, the window table, the monitor, the
history, the probe unit, the detector, the planner, the line store, the memory port, the settings unit and the condition unit. -/
def Obligations.PowerOnSetsEveryBlock : Prop :=
  ∀ (d : BitVec 2) (c : BitVec 3) (s : State), ∃ t, exec (.powerOn d c) s = .next t ∧
    t.straps = { dsize := d, cpage := c } ∧ t.phase = .running ∧ t.capture.queue = [] ∧ t.system.queue = [] ∧ t.counted = 0 ∧
    t.windows.length = 8 ∧ (∀ e ∈ t.windows, e.kind = .off) ∧
    (∀ a, t.region a = if t.pageBase ≤ a ∧ a < t.pageBase + 4096 then .controlPage else .elsewhere) ∧
    t.ring = none ∧ t.fillingField = 0 ∧
    t.monitor = { note := none, timerRunning := false, timerCount := 0, acquisition := .off, measurement := none
                  measuredFields := 0, previousCount := none, acquiredL := 0 } ∧
    t.history = { records := [], next := 1 } ∧
    t.probe = { field := none, combRef := none, repeatRef := none, combLost := false, repeatLost := false, table := []
                pending := [], inFlight := [] } ∧
    t.cadence = { mode := .video, episode := 0, c22 := 0, ph22 := 0, repeats := [], nextPosition := 0 } ∧
    t.planner = { plan := none, frame := 0, laterRow := false, previousAnchor := 0 } ∧
    t.store = { entries := List.replicate 64 { tag := none, state := .empty, useCount := 0, data := [], fill := none }
                lru := [], fillQueue := [], inFlight := [], withdrawn := [] } ∧
    t.memPort = { starvation := { fill := 0, system := 0, probe := 0, refresh := 0, report := 0 }, firstFault := none
                  refreshPending := 0, intervalCount := 0 } ∧
    (∀ o, t.settings.at o = 0) ∧
    t.settings = { copy := t.settings.copy, memoryPending := false, windowPending := false, ingestPending := false
                   outputPending := false, memory := { coupled := false, interval := 210 }, ingest := none, output := none
                   customRows := (List.range 16).map (fun p : Nat => { c0 := 0, c1 := 256 - 16 * p, c2 := 16 * p, c3 := 0 }) } ∧
    t.fills = (64, 512) ∧
    t.cond = { occurred := 0, mask := 0, readIndex := 0, writeIndex := 0, queue := [], statusPending := false, blockNumber := 0
               chosen := none } ∧
    t.attention = false

/-- WARM_RESET_ASSERT: both ports and the blocks take their values of a warm RESET; the memory group, the refresh that it serves, the
straps and DRAM stand. That the pending copy stands is the model's reading (log entry 32), and that what has left the ports stands is
the model's form of what is outside the device (log entry 10). -/
def Obligations.WarmResetAssertionDiscardsRequestsAndKeepsDram : Prop :=
  ∀ s : State, ∃ t, exec .warmResetAssert s = .next t ∧
    t.phase = .asserted ∧ t.capture = { s.capture with queue := [] } ∧ t.system = { s.system with queue := [] } ∧ t.counted = 0 ∧
    t.dram = s.dram ∧ t.straps = s.straps ∧ t.takes = s.takes ∧ t.settings.memory = s.settings.memory ∧
    t.settings.copy = s.settings.copy ∧ t.settings.ingest = none ∧ t.settings.output = none ∧ t.settings.customRows = defaultRows ∧
    t.windows.length = 8 ∧ (∀ e ∈ t.windows, e.kind = .off) ∧ t.memPort.refreshPending = s.memPort.refreshPending ∧
    t.memPort.intervalCount = s.memPort.intervalCount ∧ t.memPort.firstFault = none ∧
    t.memPort.starvation = { fill := 0, system := 0, probe := 0, refresh := s.memPort.starvation.refresh, report := 0 } ∧
    t.history.records = [] ∧ t.history.next = 1 ∧ t.planner = Planner.reset ∧ t.cadence = Cadence.reset ∧ t.probe = ProbeUnit.reset ∧
    t.monitor = Monitor.reset ∧ t.store = LineStore.reset ∧ t.cond = ConditionUnit.reset ∧ t.attention = false ∧
    (∀ r, t.grantee = some r → r = .refresh)

/-- RESET_RELEASE while RESET is asserted: the straps are sampled and the reload starts; nothing else changes. RELOAD_BURST_RETURN. The
grant: while fewer than 32 bursts have been granted and the arbiter grants SYSTEM, the next 32 words of the
control page are read, a word that fails its check being taken as zero. The return of a burst that is not the last: its words stand in
the pending copy, and nothing else changes. The split into grant and return and the order of the returns (log entry 5), the upsets that
come with a grant (log entry 4) and CHECK_FAILED at the grant (log entry 31) are the model's own. -/
def Obligations.ReleaseReloadsThePendingCopy : Prop :=
  (∀ (d : BitVec 2) (c : BitVec 3) (s : State), s.phase = .asserted →
    exec (.resetRelease d c) s = .next { s with
      phase := .reloading { granted := 0, returned := 0, inFlight := [] }, straps := { dsize := d, cpage := c } }) ∧
  (∀ (us : List Upset) (r : Reload) (s : State), s.phase = .reloading r → r.granted < 32 → s.grantee = some .system →
    ∃ t, exec (.reloadBurstReturn (.grant us)) s = .next t ∧
      t.phase = .reloading { r with
        granted := r.granted + 1
        inFlight := r.inFlight ++ [(List.range 32).map (fun i =>
          let w := (s.dram.disturbAll us).readChecked (s.pageBase / 4 + 32 * r.granted + i)
          if w.2 = .failed then 0 else w.1)] } ∧
      t.dram = s.dram.disturbAll us ∧ t.settings = s.settings ∧
      ((∃ i < 32, ((s.dram.disturbAll us).readChecked (s.pageBase / 4 + 32 * r.granted + i)).2 = .failed) →
        t.cond.occurred.getLsbD 18 = true) ∧
      (let u := raiseChecks .system .reload (s.pageBase + 128 * r.granted)
          ((List.range 32).map (fun i => ((s.dram.disturbAll us).readChecked (s.pageBase / 4 + 32 * r.granted + i)).2))
          { s with memPort := { s.memPort with starvation := (s.countGrant .system).memPort.starvation } }
       t.cond = u.cond ∧ t.memPort = u.memPort) ∧
      t = { s with phase := t.phase, dram := t.dram, cond := t.cond, memPort := t.memPort }) ∧
  (∀ (r : Reload) (words : List Word) (rest : List (List Word)) (s : State), s.phase = .reloading r → r.inFlight = words :: rest →
    r.returned < 31 → sparseWf (0 : Word) s.settings.copy →
    ∃ t, exec (.reloadBurstReturn .ret) s = .next t ∧
      t.phase = .reloading { r with returned := r.returned + 1, inFlight := rest } ∧
      (∀ i, t.settings.at (4 * i) = if 32 * r.returned ≤ i then words.getD (i - 32 * r.returned) (s.settings.at (4 * i))
        else s.settings.at (4 * i)) ∧
      t = { s with phase := t.phase, settings := { s.settings with copy := t.settings.copy } })

/-- RELOAD_BURST_RETURN, the last return: the pending copy takes the last words, all four groups become pending, the mask of the copy is
handed over and takes begin; then, where the hold word of the copy is zero, the state is that of a hold release, which with no field
FILLING and no plan leaves no group pending; where it is not, the working values stand and the groups stay pending. -/
def Obligations.ReloadEndLoadsOrHoldsTheGroups : Prop :=
  ∀ (r : Reload) (words : List Word) (rest : List (List Word)) (s : State), s.phase = .reloading r → r.inFlight = words :: rest →
    r.returned = 31 → sparseWf (0 : Word) s.settings.copy →
    ∃ u t : State, exec (.reloadBurstReturn .ret) s = .next t ∧
      (∀ i, u.settings.at (4 * i) = if 992 ≤ i then words.getD (i - 992) (s.settings.at (4 * i)) else s.settings.at (4 * i)) ∧
      u = { s with
        phase := .running
        settings := { s.settings with
          copy := u.settings.copy, memoryPending := true, windowPending := true, ingestPending := true, outputPending := true }
        cond := { s.cond with mask := (u.settings.at 0x00C).extractLsb' 0 20 } } ∧
      (u.settings.at 0 = 0 → t = holdRelease u ∧
        (s.history.filling = none → s.planner.plan = none → t.settings.memoryPending = false ∧ t.settings.windowPending = false ∧
          t.settings.ingestPending = false ∧ t.settings.outputPending = false)) ∧
      (u.settings.at 0 ≠ 0 → t = u)


/-! ### The two upstream ports -/

/-- CAPTURE_ARRIVAL and SYSTEM_ARRIVAL: a request takes the newest position of its port's queue, untaken. The model's form of
back-pressure (log entry 14): an arrival at a full queue, or while RESET is asserted, changes nothing. -/
def Obligations.ArrivalTakesTheNewestPosition : Prop :=
  ∀ (r : Request) (s : State), r.wf = true →
    (s.phase ≠ .asserted → s.capture.queue.length < 16 → exec (.captureArrival r) s = .next { s with
      capture := { s.capture with queue := s.capture.queue ++ [{ request := r, progress := .untaken }] } }) ∧
    (s.phase ≠ .asserted → s.system.queue.length < 8 → exec (.systemArrival r) s = .next { s with
      system := { s.system with queue := s.system.queue ++ [{ request := r, progress := .untaken }] } }) ∧
    (s.phase = .asserted ∨ 16 ≤ s.capture.queue.length → exec (.captureArrival r) s = .next s) ∧
    (s.phase = .asserted ∨ 8 ≤ s.system.queue.length → exec (.systemArrival r) s = .next s)

/-- CAPTURE_REQUEST_TAKE and SYSTEM_REQUEST_TAKE of a request that the router refuses: the acknowledgement and ACCESS_VIOLATION are all
that comes of it; a refused write leaves its position, a refused read keeps it until it has responded. -/
def Obligations.RefusedRequestChangesNothingElse : Prop :=
  ∀ (before after : List QueuePosition) (q : QueuePosition) (reason : Reason) (s : State), s.phase = .running →
    let left := if isWriteRequest q.request then [] else [{ q with progress := .readRefused s.takes reason.status }]
    let body := if isWriteRequest q.request then AckBody.writeStatus reason.status else .readClass false
    (s.capture.queue = before ++ q :: after → (∀ p ∈ before, p.progress ≠ .untaken) → q.progress = .untaken →
      s.judge .capture q.request = .refuse reason →
      exec .captureRequestTake s = .next { s with
        takes := s.takes + 1
        capture := { s.capture with
          queue := before ++ left ++ after, acks := s.capture.acks ++ [{ tag := q.request.tag, body := body }] }
        cond := s.cond.occur 15 ((violation .capture q.request reason).record s.planner.frame) s.statusStands }) ∧
    (s.system.queue = before ++ q :: after → (∀ p ∈ before, s.systemTurn p = false) → s.systemTurn q = true →
      s.judge .system q.request = .refuse reason →
      exec .systemRequestTake s = .next { s with
        takes := s.takes + 1
        system := { s.system with
          queue := before ++ left ++ after, acks := s.system.acks ++ [{ tag := q.request.tag, body := body }] }
        cond := s.cond.occur 15 ((violation .system q.request reason).record s.planner.frame) s.statusStands })

/-- CAPTURE_REQUEST_TAKE and SYSTEM_REQUEST_TAKE of a request that passes to DRAM: it keeps its position, taken; a write is acknowledged
OK, a read DEFERRED; nothing else changes. -/
def Obligations.PassedRequestWaitsForItsGrant : Prop :=
  ∀ (before after : List QueuePosition) (q : QueuePosition) (s : State), s.phase = .running →
    (s.capture.queue = before ++ q :: after → (∀ p ∈ before, p.progress ≠ .untaken) → q.progress = .untaken →
      s.judge .capture q.request = .pass →
      exec .captureRequestTake s = .next { s with
        takes := s.takes + 1
        capture := { s.capture with
          queue := before ++ { q with progress := match q.request.body with
                                | .write ws => .writeTaken s.takes ws
                                | .read _ => .readTaken s.takes } :: after
          acks := s.capture.acks ++ [{ tag := q.request.tag, body := match q.request.body with
                                | .write _ => .writeStatus .ok
                                | .read _ => .readClass true }] } }) ∧
    (s.system.queue = before ++ q :: after → (∀ p ∈ before, s.systemTurn p = false) → s.systemTurn q = true →
      s.judge .system q.request = .pass →
      exec .systemRequestTake s = .next { s with
        takes := s.takes + 1
        system := { s.system with
          queue := before ++ { q with progress := match q.request.body with
                                | .write ws => .writeTaken s.takes ws
                                | .read _ => .readTaken s.takes } :: after
          acks := s.system.acks ++ [{ tag := q.request.tag, body := match q.request.body with
                                | .write _ => .writeStatus .ok
                                | .read _ => .readClass true }] } })

/-- The limit of four output reads. SYSTEM_REQUEST_TAKE of an output read while four are counted holds it, untaken and unacknowledged,
and the port goes on past it; once fewer than four are counted, the oldest held read is the request the system port comes to. -/
def Obligations.OutputReadOverTheLimitIsHeld : Prop :=
  ∀ (before after : List QueuePosition) (q : QueuePosition) (s : State), s.system.queue = before ++ q :: after →
    (s.phase = .running → (∀ p ∈ before, p.progress ≠ .untaken) → q.progress = .untaken → s.judge .system q.request = .toOutput →
      4 ≤ s.counted →
      exec .systemRequestTake s = .next { s with
        system := { s.system with queue := before ++ { q with progress := .held } :: after } }) ∧
    ((∀ p ∈ before, p.progress ≠ .held) → q.progress = .held → s.counted < 4 →
      s.nextSystem = some q ∧ s.mustHold = false ∧ ∀ p, s.systemTurn p = p.isHeld)

/-- The judgement of a request, step by step: the address space, one region, the permission table, the DRAM bound. The region of a word
is the control page, else that of the lowest-numbered entry, not OFF, that holds it, else elsewhere; the table is given cell by cell,
with its reasons. A write that passes has no word in a region that it must not write, and all its words lie within DRAM. -/
def Obligations.RouterJudgesInTheOrderOfItsSteps : Prop :=
  (∀ (a : Nat) (s : State),
    let outside := fun (e : WindowEntry) => e.kind = .off ∨ a < e.base ∨ e.base + e.size ≤ a
    let inPage := s.pageBase ≤ a ∧ a < s.pageBase + 4096
    s.pageBase = s.straps.cpage.toNat * 2 ^ 24 ∧ s.dramSize = 2 ^ (29 + s.straps.dsize.toNat) ∧
    (inPage → s.region a = .controlPage) ∧
    (¬ inPage → ∀ (before after : List WindowEntry) (e : WindowEntry), s.windows = before ++ e :: after →
      (∀ x ∈ before, outside x) → ¬ outside e →
      (e.kind = .fieldRing → s.region a = .fieldRing) ∧ (e.kind = .output → s.region a = .output) ∧
      (e.kind = .status → s.region a = .status) ∧ (e.kind = .guard → s.region a = .guard)) ∧
    (¬ inPage → (∀ x ∈ s.windows, outside x) → s.region a = .elsewhere)) ∧
  (permission .capture true .fieldRing = .toMonitor ∧ permission .capture false .fieldRing = .pass ∧
    permission .system true .fieldRing = .refuse .ringWriteFromSystem ∧ permission .system false .fieldRing = .pass ∧
    permission .capture true .output = .refuse .outputFromCapture ∧
    permission .capture false .output = .refuse .outputFromCapture ∧
    permission .system true .output = .refuse .writeToOutput ∧ permission .system false .output = .toOutput ∧
    permission .capture true .status = .refuse .writeToStatus ∧ permission .capture false .status = .pass ∧
    permission .system true .status = .refuse .writeToStatus ∧ permission .system false .status = .pass ∧
    permission .capture true .guard = .refuse .writeToGuard ∧ permission .capture false .guard = .pass ∧
    permission .system true .guard = .refuse .writeToGuard ∧ permission .system false .guard = .pass ∧
    permission .capture true .controlPage = .refuse .controlFromCapture ∧ permission .capture false .controlPage = .pass ∧
    permission .system true .controlPage = .toSettings ∧ permission .system false .controlPage = .pass ∧
    ∀ (port : Port) (isWrite : Bool), permission port isWrite .elsewhere = .pass) ∧
  ∀ (port : Port) (r : Request) (s : State),
    (2 ^ 32 < endAddr r → s.judge port r = .refuse .beyondAddressSpace) ∧
    (endAddr r ≤ 2 ^ 32 → (∃ a ∈ wordAddrs r, s.region a ≠ s.region (firstAddr r)) → s.judge port r = .refuse .spansRegions) ∧
    (endAddr r ≤ 2 ^ 32 → (∀ a ∈ wordAddrs r, s.region a = s.region (firstAddr r)) →
      (permission port (isWriteRequest r) (s.region (firstAddr r)) ≠ .pass →
        s.judge port r = permission port (isWriteRequest r) (s.region (firstAddr r))) ∧
      (permission port (isWriteRequest r) (s.region (firstAddr r)) = .pass →
        s.judge port r = if s.dramSize < endAddr r then .refuse .beyondDram else .pass)) ∧
    (s.judge port r = .pass → isWriteRequest r = true → ∀ a ∈ wordAddrs r, s.region a ≠ .status ∧ s.region a ≠ .guard ∧
      s.region a ≠ .output ∧ s.region a ≠ .controlPage ∧ s.region a ≠ .fieldRing ∧ a + 4 ≤ s.dramSize)

/-- WITHDRAWAL. Where the oldest taken position with its tag is a DEFERRED output read that has returned no word, the read leaves its
position and its lines lose its use counts in need-set order, as a release gives them; nothing leaves the port. Where an entry of its
need set is FILLING it stays counted as a withdrawn read that waits for those entries; else it is counted no more. Where it is any
other, or there is none, nothing changes. That the oldest position is judged in arrival order is the model's reading (log entry 21). -/
def Obligations.WithdrawalDropsADeferredRead : Prop :=
  (∀ (before after : List QueuePosition) (q : QueuePosition) (order : Nat) (o : OutputRead) (s : State),
    s.system.queue = before ++ q :: after → (∀ p ∈ before, p.progress.taken = true → p.request.tag ≠ q.request.tag) →
    q.progress = .outputTaken order o → o.deferred = true → o.returned = 0 →
    exec (.withdrawal q.request.tag) s = .next { s with
      system := { s.system with queue := before ++ after }
      store := { s.store.release o.need with
        withdrawn := s.store.withdrawn ++
          (let waits := (o.need.map (fun n => n.entry)).filter (fun n => decide ((s.store.entry n).state = .filling))
           if waits = [] then [] else [waits]) } }) ∧
  (∀ (s : State) (isOutput : QueuePosition → Bool), (∀ q, isOutput q = true ↔ ∃ order o, q.progress = .outputTaken order o) →
    s.counted = (s.system.queue.filter isOutput).length + s.store.withdrawn.length) ∧
  (∀ (tag : BitVec 4) (s : State),
    (∀ q order o, s.system.queue.find? (fun p => p.progress.taken && decide (p.request.tag = tag)) = some q →
      q.progress = .outputTaken order o → o.deferred = false ∨ o.returned ≠ 0) →
    exec (.withdrawal tag) s = .next s)

/-- OUTPUT_READ_DATA, PASS_THROUGH_READ_RESPONSE and REFUSED_READ_RESPONSE: what leaves the port, if anything does, is a part of the
response of the read that was taken before every other taken read on that port; the read stays in the queue until its last part has
left, and the other port stands. -/
def Obligations.ResponsesFollowTakeOrder : Prop :=
  ∀ (port : Port) (count : Nat) (c : Instr) (s : State),
    (c = .outputReadData count ∧ port = .system) ∨ c = .passThroughReadResponse port count ∨ c = .refusedReadResponse port →
    ∃ t, exec c s = .next t ∧
      t.port (match port with | .capture => .system | .system => .capture) =
        s.port (match port with | .capture => .system | .system => .capture) ∧
      (t = s ∨ ∃ q ∈ (s.port port).queue, ∃ (order : Nat) (part : Response),
        (s.port port).firstResponse = some q ∧ q.progress.readOrder = some order ∧
        (∀ p ∈ (s.port port).queue, ∀ n, p.progress.readOrder = some n → order ≤ n) ∧
        (t.port port).responses = (s.port port).responses ++ [part] ∧ part.tag = q.request.tag ∧
        (part.last = false → ∃ p ∈ (t.port port).queue, p.progress.readOrder = some order))

/-- OUTPUT_READ_DATA for the read whose turn it is, once every entry of its need set has left FILLING: the next words of its response
leave the port; with the last one the position is freed and the entries lose the read's use counts, one by one in need-set order. What
the words are, each by the pixel (x, y) of its byte offset. A fill word, the fill values: without a plan or with a FILL plan, outside
the raster, outside the image box, or in a row other than the read's first. Any other, a picture word: the reconstructed samples
filtered by the coefficient rows of their phases, vertically over four clamped rows, then horizontally over four clamped columns, each
stage rounded and clamped; the chroma Cb where x - x0 is even, else Cr. Chroma lies in bits 0..9, luma in bits 16..25, and the other
bits are 0. -/
def Obligations.OutputReadReturnsItsWordsInOrder : Prop :=
  (∀ (count order : Nat) (q : QueuePosition) (o : OutputRead) (before after : List QueuePosition) (s : State),
    1 ≤ count → count ≤ 32 → s.system.firstResponse = some q → q.progress = .outputTaken order o →
    s.system.queue = before ++ q :: after → (∀ p ∈ before, p.progress.readOrder ≠ some order) →
    (∀ n ∈ o.need, (s.store.entry n.entry).state ≠ .filling) →
    ∃ t words, exec (.outputReadData count) s = .next t ∧
      words = (match o.words with
        | some ws => ws
        | none => o.produce s.store q.request.count) ∧
      t.system.acks = s.system.acks ∧
      t.system.responses = s.system.responses ++ [{ tag := q.request.tag, status := .ok
                                                    words := (words.drop o.returned).take count
                                                    last := decide (words.length ≤ o.returned + count) }] ∧
      (o.returned + count < words.length → t.store = s.store ∧ t.system.queue = before ++
        { q with progress := .outputTaken order { o with words := some words, returned := o.returned + count } } :: after) ∧
      (words.length ≤ o.returned + count → t.store = s.store.release o.need ∧ t.system.queue = before ++ after) ∧
      t = { s with system := t.system, store := t.store }) ∧
  (∀ (st : LineStore) (n : NeedLine) (ns : List NeedLine),
    st.release [] = st ∧ st.release (n :: ns) = (st.releaseEntry n.entry).release ns) ∧
  (∀ (o : OutputRead) (st : LineStore) (count : Nat), (o.produce st count).length = count ∧ ∀ i < count,
    let carries := fun (y c : Nat) => ∃ w, (o.produce st count)[i]? = some w ∧ w.toNat = y % 2 ^ 10 * 2 ^ 16 + c % 2 ^ 10
    (o.plan = none → carries o.fillY o.fillC) ∧
    (∀ p, o.plan = some p →
      let g := p.snapshot
      let row := o.offset / g.pitch
      let x := (o.offset + 4 * i) % g.pitch / 4
      let y := (o.offset + 4 * i) / g.pitch
      let inBox := x < g.wo ∧ y < g.ho ∧ g.x0 ≤ x ∧ x < g.x0 + g.wi ∧ g.y0 ≤ y ∧ y < g.y0 + g.hi ∧ y = row
      let picture : Picture :=
        { method := p.method
          parity := match p.anchor with
            | some a => a.parity.toNat
            | none => 0
          rows := g.rows, width := g.width, fillY := g.fillY, fillC := g.fillC, tLo := g.tLo, tHi := g.tHi
          lines := o.need.map (fun n =>
            { role := n.role, line := n.line, state := (st.entry n.entry).state, held := n.held, data := (st.entry n.entry).data }) }
      let stage := fun (step offset : Int) (src i : Nat) (sample : Nat → Nat) (lo hi : Int) =>
        let n := (i * step + offset) / 65536
        let phase := ((i * step + offset - 65536 * n) / 4096).toNat
        let c := g.coefs.getD phase { c0 := 0, c1 := 256 - 16 * phase, c2 := 16 * phase, c3 := 0 }
        let tap := fun (k : Int) => (sample (max 0 (min (n + k) (src - 1))).toNat : Int)
        (max lo (min ((c.c0 * tap (-1) + c.c1 * tap 0 + c.c2 * tap 1 + c.c3 * tap 2 + 128) / 256) hi)).toNat
      let vertical := fun (sample : Nat → Nat) => stage g.vStep g.vOffset g.rows (row - g.y0) sample 0 1023
      let luma := stage g.hStep g.lumaOffset g.width (x - g.x0) (fun col => vertical (fun r => picture.y col r)) 4 1019
      let chroma := stage g.hStep g.chromaOffset (g.width / 2) ((x - g.x0) / 2)
        (fun m => vertical (fun r => picture.c (2 * m + (x - g.x0) % 2) r)) 4 1019
      (p.method = .fill ∨ ¬ inBox → carries g.fillY g.fillC) ∧ (p.method ≠ .fill → inBox → carries luma chroma)))

/-- PASS_THROUGH_READ_RESPONSE for the granted read whose turn it is: the next words leave the port, with DATA_ERROR where a word of the
burst failed its check; with the last one the position is freed. REFUSED_READ_RESPONSE for the refused read whose turn it is: its status
leaves the port with zero words, and its position is freed. -/
def Obligations.PortReadsReturnTheirWordsOrStatus : Prop :=
  ∀ (port : Port) (order : Nat) (q : QueuePosition) (before after : List QueuePosition) (s : State),
    (s.port port).firstResponse = some q → (s.port port).queue = before ++ q :: after →
    (∀ p ∈ before, p.progress.readOrder ≠ some order) →
    (∀ (count returned : Nat) (words : List Word) (failed : Bool), 1 ≤ count → count ≤ 32 →
      q.progress = .readGranted order words failed returned →
      exec (.passThroughReadResponse port count) s = .next (s.setPort port { s.port port with
        queue := before ++ (if words.length ≤ returned + count then []
          else [{ q with progress := .readGranted order words failed (returned + count) }]) ++ after
        responses := (s.port port).responses ++ [{ tag := q.request.tag, status := if failed then .dataError else .ok
                                                   words := (words.drop returned).take count
                                                   last := decide (words.length ≤ returned + count) }] })) ∧
    (∀ status : Status, q.progress = .readRefused order status →
      exec (.refusedReadResponse port) s = .next (s.setPort port { s.port port with
        queue := before ++ after
        responses := (s.port port).responses ++ [{ tag := q.request.tag, status := status, words := [], last := true }] }))


/-! ### Field ingest -/

/-- The final state of a line is the first of the seven whose test holds, and HELD, OVERLONG and GOOD are usable. -/
def Obligations.FinalLineStateIsTheFirstWhoseTestHolds : Prop :=
  ∀ (w : Nat) (tags : Bool) (l : Nat) (e : LineEntry),
    let slipped := tags = true ∧ (e.tagWritten = false ∨ e.tag.toNat % 1024 ≠ l ∨ e.tag.getLsbD 13 = true)
    let dropout := tags = true ∧ e.tag.getLsbD 12 = true
    (e.extent = 0 → finalState w tags l e = .missing) ∧
    (e.extent ≠ 0 → slipped → finalState w tags l e = .slipped) ∧
    (e.extent ≠ 0 → ¬ slipped → dropout → finalState w tags l e = .dropout) ∧
    (¬ slipped → ¬ dropout → 0 < e.extent → e.extent < 3 * w / 4 → finalState w tags l e = .short) ∧
    (¬ slipped → ¬ dropout → 0 < e.extent → 3 * w / 4 ≤ e.extent → e.extent < w → finalState w tags l e = .held) ∧
    (¬ slipped → ¬ dropout → 0 < e.extent → e.extent = w → e.overlong = true → finalState w tags l e = .overlong) ∧
    (¬ slipped → ¬ dropout → 0 < e.extent → e.extent = w → e.overlong = false → finalState w tags l e = .good) ∧
    (∀ f : LineState, f.usable = true ↔ f = .held ∨ f = .overlong ∨ f = .good)

/-- CAPTURE_REQUEST_TAKE of a line write of the filling slot, part by part in address order. The pixel part: n contiguous words from
word x on take the extent to x + n when they join the written prefix, and leave it when they do not; where that takes it from below W
to W the probe unit is told that the line is complete, and else it stands. The tag word, where tags are present: the enabled bytes of the
recorded tag, enable i naming byte i (log entry 8), and the mark. Padding words: the OVERLONG mark, and no enable on the way to DRAM. No
other line, and no other field of the line's entry, changes. So too where the write covers header word 4 with a value that is not the
capture count: the field stays FILLING. -/
def Obligations.PixelPartExtendsAJoinedPrefix : Prop :=
  (∀ (g : Ring) (slot line : Nat) (r : FieldRecord) (s : State), s.history.filling = some r → line < r.lines.length →
    let entry := fun (x : FieldRecord) => x.lines.getD line LineEntry.fresh
    let only := fun (t : State) (e : LineEntry) => ∃ r1, t.history.filling = some r1 ∧ r1 = { r with lines := r1.lines } ∧
      (∀ l, l ≠ line → r1.lines.getD l LineEntry.fresh = r.lines.getD l LineEntry.fresh) ∧ entry r1 = e ∧
      t = { s with history := t.history, probe := t.probe }
    (∀ (x : Nat) (words : List WriteWord), x + words.length ≤ g.width →
      only (lineWords g (words.zipIdx.map (fun w => (Area.pixel slot line (x + w.2), w.1))) s) { entry r with
        extent := if x ≤ (entry r).extent then max (entry r).extent (x + words.length) else (entry r).extent } ∧
      (let t := lineWords g (words.zipIdx.map (fun w => (Area.pixel slot line (x + w.2), w.1))) s
       let told := (entry r).extent < g.width ∧ x ≤ (entry r).extent ∧ x + words.length = g.width
       (told → t.probe = s.probe.lineComplete t.history g line) ∧ (¬ told → t.probe = s.probe))) ∧
    (∀ w : WriteWord,
      (r.tagsPresent = false → lineWords g [(Area.tag slot line, w)] s = s) ∧
      (r.tagsPresent = true → ∃ tag : Word,
        (∀ i < 4, tag.extractLsb' (8 * i) 8 =
          if w.enables.getLsbD i then w.data.extractLsb' (8 * i) 8 else (entry r).tag.extractLsb' (8 * i) 8) ∧
        only (lineWords g [(Area.tag slot line, w)] s) { entry r with tag := tag, tagWritten := true } ∧
        (lineWords g [(Area.tag slot line, w)] s).probe = s.probe)) ∧
    (∀ words : List WriteWord, words ≠ [] →
      only (lineWords g (words.map (fun w => (Area.padding slot line, w))) s) { entry r with overlong := true } ∧
      (lineWords g (words.map (fun w => (Area.padding slot line, w))) s).probe = s.probe)) ∧
  (∀ (g : Ring) (ws1 ws2 : List AreaWord) (s : State), lineWords g (ws1 ++ ws2) s = lineWords g ws2 (lineWords g ws1 s)) ∧
  (∀ (before after : List QueuePosition) (q : QueuePosition) (g : Ring) (slot : Nat) (r : FieldRecord) (s : State),
    s.phase = .running → s.capture.queue = before ++ q :: after → (∀ p ∈ before, p.progress ≠ .untaken) →
    q.progress = .untaken → s.judge .capture q.request = .toMonitor → s.ring = some g →
    spansSlots (g.areaWords q.request) = false → slotOf (g.areaWords q.request) = some slot →
    s.monitor.acquisition = .off ∨ s.monitor.acquisition = .acquired → covers (g.areaWords q.request) 0 = false →
    (covers (g.areaWords q.request) 4 = true → ∀ f, s.history.filling = some f →
      coveredValue (g.areaWords q.request) 4 ≠ f.captureCount) →
    s.history.ofSlot slot = some r → r.state = .filling →
    exec .captureRequestTake s = .next { lineWords g (g.areaWords q.request) s with
      takes := s.takes + 1
      capture := { s.capture with
        queue := before ++ { q with progress := .writeTaken s.takes (trimmed (g.areaWords q.request)) } :: after
        acks := s.capture.acks ++ [{ tag := q.request.tag, body := .writeStatus .ok }] } })

/-- CAPTURE_REQUEST_TAKE of an accepted opening burst (acquisition OFF or ACQUIRED, no pending ingest load to make): a new record is the
newest of the history, FILLING, with the next field number, the header's values and the continuity flags against the note; the note
describes it, the timer restarts, and the write goes on to DRAM with its padding words turned off. In order: a FILLING field is closed
CUT, its cause the next opening burst or one in its own slot; the record of the slot is evicted; the new record joins the records left,
with CAPTURE_GAP and PARITY_REPEAT against the note. Before the write's own line words the probe unit is set up for it: one WAITING
entry for each line l with l mod 4 = 2; the comb reference, field n-1, where n is CONTINUOUS and the record just before it is that
field's; the repeat reference, field n-2, where n and n-1 are CONTINUOUS and both records are present. A rejected opening burst admits
none: FIELD_REJECTED occurs, a field FILLING in the slot is closed CUT with cause rejected opening, and a record of the slot is evicted;
the write goes on the same way. An accepted burst that loads a pending ingest group is then taken as in the state that load leaves,
where it still is such a burst. A close is as FieldClosed says; that it empties the set of lost references is log entry 37. -/
def Obligations.OpeningBurstAdmitsANewField : Prop :=
  (∀ (before after : List QueuePosition) (q : QueuePosition) (g : Ring) (slot : Nat) (s : State), s.phase = .running →
    s.capture.queue = before ++ q :: after → (∀ p ∈ before, p.progress ≠ .untaken) → q.progress = .untaken →
    s.judge .capture q.request = .toMonitor → s.ring = some g → spansSlots (g.areaWords q.request) = false →
    slotOf (g.areaWords q.request) = some slot → s.monitor.acquisition = .off ∨ s.monitor.acquisition = .acquired →
    covers (g.areaWords q.request) 0 = true → covers (g.areaWords q.request) 1 = true → s.loadsAtOpening = false →
    let count := coveredValue (g.areaWords q.request) 0
    let word1 := coveredValue (g.areaWords q.request) 1
    let parity := if word1.getLsbD 0 then Parity.bottom else Parity.top
    ∃ t r, exec .captureRequestTake s = .next t ∧ t.history.newest = some r ∧ r.number = s.history.next ∧ r.slot = slot ∧
      r.captureCount = count ∧ r.parity = parity ∧ r.tagsPresent = word1.getLsbD 1 ∧ r.state = .filling ∧ r.stalled = false ∧
      r.lines.length = g.lines ∧ r.metrics = none ∧ r.label = none ∧ r.referenced = Roles.empty ∧
      t.history.next = FieldNo.succ s.history.next ∧
      (s.monitor.note = none → r.continuity = { first := true, gap := false, parityRepeat := false, afterCut := false }) ∧
      (∀ n, s.monitor.note = some n → r.continuity.first = false ∧
        (r.continuity.gap = true ↔ count ≠ n.captureCount + 1) ∧ (r.continuity.parityRepeat = true ↔ parity = n.parity) ∧
        (s.history.filling = none → r.continuity.afterCut = n.closedCut) ∧
        (∀ x, s.history.filling = some x → x.number = n.field → r.continuity.afterCut = true)) ∧
      t.monitor.note = some { field := s.history.next, captureCount := count, parity := parity, closedCut := false } ∧
      t.monitor.timerRunning = true ∧ t.monitor.timerCount = 0 ∧ t.takes = s.takes + 1 ∧ t.dram = s.dram ∧
      t.capture.queue = before ++
        { q with progress := .writeTaken s.takes (trimmed (g.areaWords q.request)) } :: after ∧
      t.capture.acks = s.capture.acks ++ [{ tag := q.request.tag, body := .writeStatus .ok }] ∧
      ∃ (u w v : State) (older : List FieldRecord) (n : FieldRecord),
        (s.history.filling = none → u = s) ∧
        (∀ x gi, s.history.filling = some x → s.settings.ingest = some gi →
          ∃ x1, FieldClosed (if x.slot = slot then 2 else 1) x x1 gi s u) ∧
        (u.history.ofSlot slot = none → w = u) ∧ (∀ x, u.history.ofSlot slot = some x → w = evict x u) ∧
        older = w.history.records ∧ n = { r with lines := List.replicate g.lines LineEntry.fresh } ∧
        v.history.records = older ++ [n] ∧
        v.cond = (raiseAll (match u.monitor.note with
          | none => []
          | some p => (if count ≠ p.captureCount + 1 then [.captureGap n.number (p.captureCount + 1) count] else []) ++
              (if parity = p.parity then [.parityRepeat n.number parity] else [])) w).cond ∧
        v = { w with history := v.history, monitor := v.monitor, probe := v.probe, cond := v.cond } ∧
        v.history.next = FieldNo.succ w.history.next ∧ v.monitor = { u.monitor with
          note := some { field := n.number, captureCount := count, parity := parity, closedCut := false }
          timerRunning := true, timerCount := 0 } ∧
        t = { lineWords g (g.areaWords q.request) v with takes := t.takes, capture := t.capture } ∧
        v.probe = { field := some { number := n.number, slot := slot, parity := parity }
                    combRef := v.probe.combRef, repeatRef := v.probe.repeatRef, combLost := false, repeatLost := false
                    table := ((List.range g.lines).filter (fun l => decide (l % 4 = 2))).map
                      (fun l => { line := l, status := .waiting, repeatSum := 0, combSum := 0 })
                    pending := [], inFlight := [] } ∧
        (let continuous := fun (x : FieldRecord) =>
           x.continuity = { first := false, gap := false, parityRepeat := false, afterCut := false }
         ((∀ x ∈ older, x.number ≠ n.number) → ∀ f, v.probe.combRef = some f ↔ f = FieldNo.pred n.number ∧ continuous n ∧
           ∃ b, older.getLast? = some b ∧ b.number = f) ∧
         (∀ f, v.probe.repeatRef = some f ↔ f = FieldNo.pred (FieldNo.pred n.number) ∧ continuous n ∧
           (∃ b, v.history.find (FieldNo.pred n.number) = some b ∧ continuous b) ∧ ∃ b, v.history.find f = some b))) ∧
  (∀ (before after : List QueuePosition) (q : QueuePosition) (g : Ring) (slot : Nat) (s : State), s.phase = .running →
    s.capture.queue = before ++ q :: after → (∀ p ∈ before, p.progress ≠ .untaken) → q.progress = .untaken →
    s.judge .capture q.request = .toMonitor → s.ring = some g → spansSlots (g.areaWords q.request) = false →
    slotOf (g.areaWords q.request) = some slot → s.monitor.acquisition = .off ∨ s.monitor.acquisition = .acquired →
    covers (g.areaWords q.request) 0 = true → covers (g.areaWords q.request) 1 = false →
    let named := raise (.fieldRejected (firstAddr q.request) slot) s
    let taken := fun (u : State) => { u with
      takes := s.takes + 1
      capture := { s.capture with
        queue := before ++ { q with progress := .writeTaken s.takes (trimmed (g.areaWords q.request)) } :: after
        acks := s.capture.acks ++ [{ tag := q.request.tag, body := .writeStatus .ok }] } }
    (s.history.ofSlot slot = none → exec .captureRequestTake s = .next (taken named)) ∧
    (∀ r, s.history.ofSlot slot = some r → (∀ f, s.history.filling = some f → f.slot ≠ slot) →
      exec .captureRequestTake s = .next (taken (evict r named))) ∧
    (∀ r gi, s.history.ofSlot slot = some r → s.history.filling = some r → s.history.find r.number = some r →
      s.settings.ingest = some gi →
      ∃ (u : State) (r1 : FieldRecord), exec .captureRequestTake s = .next (taken (evict r1 u)) ∧ FieldClosed 3 r r1 gi named u ∧
        r1.number = r.number ∧ r1.slot = r.slot ∧ r1.referenced = r.referenced ∧ r1.state = .cut ∧ r1.stalled = false ∧
        u.cond.occurred.getLsbD 0 = true ∧ u.cond.occurred.getLsbD 1 = true)) ∧
  (∀ (q : QueuePosition) (g g1 : Ring) (s : State), s.phase = .running → s.nextCapture = some q →
    s.judge .capture q.request = .toMonitor → s.ring = some g → spansSlots (g.areaWords q.request) = false →
    covers (g.areaWords q.request) 0 = true → covers (g.areaWords q.request) 1 = true →
    s.settings.ingestPending = true → s.settings.at 0 = 0 → (loadIngest s).ring = some g1 →
    spansSlots (g1.areaWords q.request) = false → covers (g1.areaWords q.request) 0 = true →
    covers (g1.areaWords q.request) 1 = true →
    exec .captureRequestTake s = exec .captureRequestTake (loadIngest s))

/-- CAPTURE_REQUEST_TAKE of a matching end mark: the line words of the write first, then the filling field as they leave it closes as
FieldClosed says with no cause of a cut: COMPLETE, not stalled, every line with its final state and nothing else of it changed; the
metrics are what the probe unit settles, the detector makes its close and the field takes its label; LINE_DAMAGE with the count of each
state where a line is not GOOD, then PROBE_INCOMPLETE and the detector's condition occur, and a status write is scheduled; the probe unit
gives the field up, its set of lost references emptied too (log entry 37). -/
def Obligations.EndMarkClosesTheFillingField : Prop :=
  ∀ (before after : List QueuePosition) (q : QueuePosition) (g : Ring) (gi : IngestGroup) (slot : Nat) (r : FieldRecord) (s : State),
    s.phase = .running → s.capture.queue = before ++ q :: after → (∀ p ∈ before, p.progress ≠ .untaken) →
    q.progress = .untaken → s.judge .capture q.request = .toMonitor → s.ring = some g → s.settings.ingest = some gi →
    spansSlots (g.areaWords q.request) = false → slotOf (g.areaWords q.request) = some slot →
    s.monitor.acquisition = .off ∨ s.monitor.acquisition = .acquired → covers (g.areaWords q.request) 0 = false →
    covers (g.areaWords q.request) 4 = true → coveredValue (g.areaWords q.request) 4 = r.captureCount →
    s.history.filling = some r → s.history.ofSlot slot = some r → s.history.find r.number = some r →
    ∃ t r1, exec .captureRequestTake s = .next t ∧
      (let u := lineWords g (g.areaWords q.request) s
       ∃ r0 v, u.history.filling = some r0 ∧ r0 = { r with lines := r0.lines } ∧ r0.lines.length = r.lines.length ∧
        FieldClosed 0 r0 r1 gi u v ∧ t = { v with takes := t.takes, capture := t.capture } ∧
        r1.lines = r0.lines.zipIdx.map (fun x =>
          { x.1 with final := some (finalState gi.w r.tagsPresent x.2 x.1) })) ∧
      t.history.find r.number = some r1 ∧ r1.state = .complete ∧ r1.stalled = false ∧
      r1.number = r.number ∧ r1.slot = r.slot ∧ r1.captureCount = r.captureCount ∧ r1.parity = r.parity ∧
      r1.continuity = r.continuity ∧ r1.lines.length = r.lines.length ∧
      (∀ l, l < r1.lines.length → (r1.lines.getD l LineEntry.fresh).final =
        some (finalState gi.w r.tagsPresent l (r1.lines.getD l LineEntry.fresh))) ∧
      r1.label = (s.cadence.close gi r1 (t.history.find (FieldNo.pred r.number))).label ∧
      t.cadence = (s.cadence.close gi r1 (t.history.find (FieldNo.pred r.number))).cadence ∧
      t.monitor = s.monitor ∧ t.probe = ProbeUnit.reset ∧ t.dram = s.dram ∧ t.store = s.store ∧ t.planner = s.planner ∧
      t.settings = s.settings ∧ t.memPort = s.memPort ∧ t.system = s.system ∧
      t.capture.queue = before ++ { q with progress := .writeTaken s.takes (trimmed (g.areaWords q.request)) } :: after

/-- CAPTURE_REQUEST_TAKE of a write that the ingest monitor refuses: one that spans slots, one that is no opening burst in a closed slot,
one to a line of a vacant slot. It changes no record and no DRAM word. Whatever the monitor hands on where no ingest load is made has as
many words as were presented, each padding word with no enable and every other word as presented; where the write ends acquisition and
is admitted, its padding is that of the lines acquired. While ACQUIRING or FAILED it refuses only a write that spans slots. -/
def Obligations.MonitorRefusesOrTrimsTheWrite : Prop :=
  ∀ (before after : List QueuePosition) (q : QueuePosition) (g : Ring) (s : State), s.phase = .running →
    s.capture.queue = before ++ q :: after → (∀ p ∈ before, p.progress ≠ .untaken) → q.progress = .untaken →
    s.judge .capture q.request = .toMonitor → s.ring = some g →
    let opening := covers (g.areaWords q.request) 0 = true ∧ covers (g.areaWords q.request) 1 = true
    (∀ reason : Reason, ((reason = .spansSlots ∧ spansSlots (g.areaWords q.request) = true) ∨
      (spansSlots (g.areaWords q.request) = false ∧ covers (g.areaWords q.request) 0 = false ∧
        (s.monitor.acquisition = .off ∨ s.monitor.acquisition = .acquired) ∧
        ((reason = .closedSlot ∧ ∃ slot r, slotOf (g.areaWords q.request) = some slot ∧ s.history.ofSlot slot = some r ∧
            r.state ≠ .filling) ∨
          (reason = .vacantSlot ∧ (∃ slot, slotOf (g.areaWords q.request) = some slot ∧ s.history.ofSlot slot = none) ∧
            ∃ w ∈ g.areaWords q.request, w.1.isLine = true)))) →
    exec .captureRequestTake s = .next { s with
      takes := s.takes + 1
      capture := { s.capture with
        queue := before ++ after, acks := s.capture.acks ++ [{ tag := q.request.tag, body := .writeStatus .accessError }] }
      cond := s.cond.occur 15 ((violation .capture q.request reason).record s.planner.frame) s.statusStands }) ∧
    ((opening → s.loadsAtOpening = false) → ∃ (t : State) (g1 : Ring), exec .captureRequestTake s = .next t ∧ t.dram = s.dram ∧
      (¬ (s.monitor.acquisition = .acquiring ∧ t.monitor.acquisition = .acquired ∧ opening) → g1 = g) ∧
      (s.monitor.acquisition = .acquiring ∧ t.monitor.acquisition = .acquired ∧ opening →
        g1 = { g with lines := t.monitor.acquiredL }) ∧
      (t.capture.queue = before ++ after ∨ ∃ ws : List WriteWord,
        t.capture.queue = before ++ { q with progress := .writeTaken s.takes ws } :: after ∧ ws.length = q.request.count ∧
        ∀ x ∈ (g1.areaWords q.request).zip ws,
          x.2 = (match x.1.1 with
            | .padding _ _ => { x.1.2 with enables := 0 }
            | _ => x.1.2)) ∧
      (s.monitor.acquisition = .acquiring ∨ s.monitor.acquisition = .failed → spansSlots (g.areaWords q.request) = false →
        t.capture.queue ≠ before ++ after ∧ t.capture.acks =
          s.capture.acks ++ [{ tag := q.request.tag, body := .writeStatus .ok }]))

/-- STALL_TIMER_EXPIRY while the timer runs: INGEST_STALL occurs with the limit k and whether a field was FILLING, and the timer stops
at 0. Then a FILLING field is closed CUT and stalled, as FieldClosed says with cause stall; while ACQUIRING without one, a measurement in
progress ends with its measured count; else nothing further changes. That a close empties the set of lost references is log entry 37. -/
def Obligations.StallExpiryCutsTheFillingField : Prop :=
  ∀ s : State, s.monitor.timerRunning = true → ∃ t, exec .stallTimerExpiry s = .next t ∧
    t.monitor.timerRunning = false ∧ t.monitor.timerCount = 0 ∧
    (s.phase ≠ .asserted → t.cond.occurred.getLsbD 2 = true) ∧
    (∀ r g, s.history.filling = some r → r.number ≠ 0 → s.settings.ingest = some g → s.history.find r.number = some r →
      ∃ r1, t.history.find r.number = some r1 ∧ r1.state = .cut ∧ r1.stalled = true ∧ r1.lines.length = r.lines.length ∧
        t.probe = ProbeUnit.reset ∧ (s.phase ≠ .asserted → t.cond.occurred.getLsbD 1 = true)) ∧
    (let limit := (s.settings.ingest.map (fun g => g.stallLimit)).getD 21
     let stopped := { s with monitor := { s.monitor with timerRunning := false, timerCount := 0 } }
     (∀ r g, s.history.filling = some r → r.number ≠ 0 → s.settings.ingest = some g →
       ∃ r1, FieldClosed 4 r r1 g (raise (.ingestStall r.number limit true) stopped) t) ∧
     (s.history.filling = none →
       let stalled := raise (.ingestStall 0 limit false) stopped
       (∀ m, s.monitor.acquisition = .acquiring → s.monitor.measurement = some m →
         t = endMeasured (measuredCount m.extents) stalled) ∧
       (s.monitor.acquisition ≠ .acquiring ∨ s.monitor.measurement = none → t = stalled))) ∧
    t.capture = s.capture ∧ t.system = s.system ∧ t.dram = s.dram ∧ t.settings = s.settings ∧ t.store = s.store ∧
    t.planner = s.planner ∧ t.memPort = s.memPort ∧ t.windows = s.windows

/-- Acquisition. The measured count is the highest line with an extent, plus one. The end of a measurement: an agreement within 1 of the
previous count makes acquisition ACQUIRED with the larger count where it lies within 120..320 and FAILED where it does not; without
agreement the count is kept, and the eighth measured field makes it FAILED. CAPTURE_REQUEST_TAKE while ACQUIRING: an accepted opening
burst ends the measurement and is then taken as in the state that leaves; where none runs it starts one and restarts the timer (its own
words counting, log entry 23); a rejected one raises FIELD_REJECTED; any other write brings the measured slot's extents up to date, and
the matching end mark ends the measurement. While FAILED no write changes the monitor. -/
def Obligations.MeasurementEndAcquiresOrFails : Prop :=
  (∀ es : List Nat, (measuredCount es = 0 ↔ ∀ e ∈ es, e = 0) ∧
    ∀ n, measuredCount es = n + 1 ↔ 0 < es.getD n 0 ∧ ∀ k, n < k → es.getD k 0 = 0) ∧
  (∀ (m : Measurement) (line x : Nat) (words : List WriteWord), line < m.extents.length →
    (words.zipIdx.map (fun w => ((Area.pixel m.slot line (x + w.2), w.1) : AreaWord))).foldl Measurement.word m = { m with
      extents := m.extents.set line (if x ≤ m.extents.getD line 0 then max (m.extents.getD line 0) (x + words.length)
        else m.extents.getD line 0) }) ∧
  (∀ (m : Measurement) (w : AreaWord), (∀ line x, w.1 ≠ .pixel m.slot line x) → m.word w = m) ∧
  (∀ (count : Nat) (s : State), s.phase ≠ .asserted →
    let t := endMeasured count s
    t.monitor.measuredFields = s.monitor.measuredFields + 1 ∧ t.monitor.measurement = none ∧
    t = { s with monitor := t.monitor, cond := t.cond } ∧
    (∀ p, s.monitor.previousCount = some p → p ≤ count + 1 → count ≤ p + 1 →
      (120 ≤ max p count → max p count ≤ 320 → t.monitor.acquisition = .acquired ∧ t.monitor.acquiredL = max p count ∧
        t.cond.occurred.getLsbD 6 = true) ∧
      (max p count < 120 ∨ 320 < max p count → t.monitor.acquisition = .failed ∧ t.monitor.timerRunning = false ∧
        t.cond.occurred.getLsbD 7 = true)) ∧
    ((∀ p, s.monitor.previousCount = some p → count + 1 < p ∨ p + 1 < count) →
      t.monitor.previousCount = some count ∧
      (8 ≤ s.monitor.measuredFields + 1 → t.monitor.acquisition = .failed ∧ t.cond.occurred.getLsbD 7 = true) ∧
      (s.monitor.measuredFields + 1 < 8 → t.monitor.acquisition = s.monitor.acquisition))) ∧
  (∀ (before after : List QueuePosition) (q : QueuePosition) (g : Ring) (slot : Nat) (s : State), s.phase = .running →
    s.capture.queue = before ++ q :: after → (∀ p ∈ before, p.progress ≠ .untaken) → q.progress = .untaken →
    s.judge .capture q.request = .toMonitor → s.ring = some g → spansSlots (g.areaWords q.request) = false →
    slotOf (g.areaWords q.request) = some slot →
    let ws := g.areaWords q.request
    let opening := covers ws 0 = true ∧ covers ws 1 = true
    let taken := fun (u : State) => { u with
      takes := s.takes + 1
      capture := { s.capture with
        queue := before ++ { q with progress := .writeTaken s.takes (trimmed ws) } :: after
        acks := s.capture.acks ++ [{ tag := q.request.tag, body := .writeStatus .ok }] } }
    (s.monitor.acquisition = .failed → (opening → s.loadsAtOpening = false) → exec .captureRequestTake s = .next (taken s)) ∧
    (s.monitor.acquisition = .acquiring →
      (∀ m, opening → s.loadsAtOpening = false → s.monitor.measurement = some m →
        exec .captureRequestTake s = exec .captureRequestTake (endMeasured (measuredCount m.extents) s)) ∧
      (opening → s.loadsAtOpening = false → s.monitor.measurement = none →
        exec .captureRequestTake s = .next (taken { s with monitor := { s.monitor with
          measurement := some (ws.foldl Measurement.word
            { slot := slot, captureCount := coveredValue ws 0, extents := List.replicate g.lines 0 })
          timerRunning := true, timerCount := 0 } })) ∧
      (covers ws 0 = true → covers ws 1 = false → exec .captureRequestTake s =
        .next (taken (raise (.fieldRejected (firstAddr q.request) slot) s))) ∧
      (covers ws 0 = false → s.monitor.measurement = none → exec .captureRequestTake s = .next (taken s)) ∧
      (∀ m, covers ws 0 = false → s.monitor.measurement = some m →
        let u := { s with monitor := { s.monitor with measurement := some (ws.foldl Measurement.word m) } }
        (m.slot = slot ∧ covers ws 4 = true ∧ coveredValue ws 4 = m.captureCount → exec .captureRequestTake s =
          .next (taken (endMeasured (measuredCount (ws.foldl Measurement.word m).extents) u))) ∧
        (¬ (m.slot = slot ∧ covers ws 4 = true ∧ coveredValue ws 4 = m.captureCount) →
          exec .captureRequestTake s = .next (taken u)) ∧
        (m.slot ≠ slot → u = s))))


/-! ### Field history, probe unit and cadence detector -/

/-- An eviction takes one record out and leaves the others in their order; no entry is left FILLING for the field: one with use count 0
becomes EMPTY, another VOID, and every other entry stands; their fills are no longer outstanding, their granted bursts are discarded (at
once: log entry 30), and a withdrawn read that waited for them waits for them no more. The plan is repaired for the roles in the record's
referenced set, with REFERENCE_LOST, as LostReferencesRepairThePlan says; the next field number, the monitor and the detector are left
alone. A probe
unit of which the field is a reference loses it: the reference becomes none and joins the references lost; each pending line drops its
fetches of it, granted ones too (at once: log entry 30); a line left with no reference becomes INVALID, REFERENCE_LOST, one whose other
fetches have all returned DONE with the remaining sum, and both leave the pending list. Another probe unit stands. -/
def Obligations.EvictionRemovesOneRecordWithItsNotices : Prop :=
  ∀ (r : FieldRecord) (s : State), (∀ f, s.probe.combRef = some f → s.probe.repeatRef ≠ some f) →
    let t := evict r s
    t.history.records.map (fun x => { x with referenced := Roles.empty }) =
      (s.history.records.filter (fun x => decide (x.number ≠ r.number))).map (fun x => { x with referenced := Roles.empty }) ∧
    t.history.next = s.history.next ∧ t.monitor = s.monitor ∧
    (let removed := { s.history with records := s.history.records.filter (fun x => decide (x.number ≠ r.number)) }
     let repaired := repairPlan r.number r.referenced { s with history := removed }
     t.planner = repaired.planner ∧ t.cond = repaired.cond ∧ t.history = repaired.history) ∧
    t = { s with history := t.history, store := t.store, probe := t.probe, planner := t.planner, cond := t.cond } ∧
    FillsVoided [r.number] s.store t.store ∧
    t.probe.combRef ≠ some r.number ∧ t.probe.repeatRef ≠ some r.number ∧
    (s.probe.combRef ≠ some r.number → s.probe.repeatRef ≠ some r.number → t.probe = s.probe) ∧
    (let loses := fun (drops : ProbeRole → Bool) (remaining : Option FieldNo) =>
       let kept := s.probe.pending.map (fun q => { q with fetches := q.fetches.filter (fun f => !drops f.role) })
       let pending := fun (l : Nat) => kept.find? (fun q => decide (q.line = l))
       let ended := fun (l : Nat) => match pending l with
         | some q => remaining.isNone || q.fetches.all (fun f => decide (f.width ≤ f.words.length))
         | none => false
       t.probe = { s.probe with
         combRef := t.probe.combRef, repeatRef := t.probe.repeatRef, combLost := t.probe.combLost, repeatLost := t.probe.repeatLost
         table := s.probe.table.map (fun e => match pending e.line with
           | some q =>
             if remaining = none then { e with status := .invalid .referenceLost }
             else if ended e.line = true then { e with status := .done, repeatSum := q.repeatSum, combSum := q.combSum }
             else e
           | none => e)
         pending := kept.filter (fun q => !ended q.line)
         inFlight := s.probe.inFlight.filter (fun b => !drops b.role && !ended b.line) }
     (s.probe.combRef = some r.number → t.probe.combRef = none ∧ t.probe.combLost = true ∧
       t.probe.repeatRef = s.probe.repeatRef ∧ t.probe.repeatLost = s.probe.repeatLost ∧
       loses (fun x => decide (x = .combUpper ∨ x = .combLower ∨ x = .combBoth)) s.probe.repeatRef) ∧
     (s.probe.repeatRef = some r.number → t.probe.repeatRef = none ∧ t.probe.repeatLost = true ∧
       t.probe.combRef = s.probe.combRef ∧ t.probe.combLost = s.probe.combLost ∧
       loses (fun x => decide (x = .repeatRef)) s.probe.combRef)) ∧
    t.settings = s.settings ∧ t.cadence = s.cadence ∧ t.dram = s.dram ∧ t.capture = s.capture ∧ t.system = s.system

/-- A completed line starts a WAITING probe line: NOT_RUN without a reference; PENDING, with its fetches queued, where fewer than two
lines are pending; else INVALID, SKIPPED. A line that is no WAITING probe line starts nothing. The fetches are whole lines, in order: the
line itself from the probe field's slot; the same line of the repeat reference; and of the comb reference lines l-1 and l for a TOP field,
l and l+1 for a BOTTOM one, each clamped into 0..L-1, once where both are one line. A fetch of a reference carries its line's extent
where that is HELD. -/
def Obligations.CompletedLineStartsItsProbeLine : Prop :=
  ∀ (u : ProbeUnit) (h : History) (g : Ring) (l : Nat) (f : ProbeField), u.field = some f →
    ((∀ e ∈ u.table, e.line = l → e.status ≠ .waiting) → u.lineComplete h g l = u) ∧
    ((∃ e ∈ u.table, e.line = l ∧ e.status = .waiting) →
      let t := u.lineComplete h g l
      (u.combRef = none → u.repeatRef = none →
        (∀ e ∈ t.table, e.line = l → e.status = .notRun) ∧ t.pending = u.pending) ∧
      ((u.combRef ≠ none ∨ u.repeatRef ≠ none) → u.pending.length < 2 →
        (∀ e ∈ t.table, e.line = l → e.status = .pending) ∧
          t.pending = u.pending ++ [{ line := l, fetches := u.fetches h g f l }]) ∧
      ((u.combRef ≠ none ∨ u.repeatRef ≠ none) → 2 ≤ u.pending.length →
        (∀ e ∈ t.table, e.line = l → e.status = .invalid .skipped) ∧ t.pending = u.pending) ∧
      t.table.map (fun e => e.line) = u.table.map (fun e => e.line) ∧ (∀ e ∈ t.table, e.line ≠ l → e ∈ u.table)) ∧
    (l < g.lines →
      let fetch := fun (role : ProbeRole) (slot line : Nat) (held : Option Nat) =>
        ({ role := role, line := line, base := g.base + slot * g.slotPitch + 64 + line * g.linePitch, width := g.width, held := held
           granted := 0, words := [] } : ProbeFetch)
      let held := fun (r : FieldRecord) (n : Nat) =>
        let e := r.lines.getD n LineEntry.fresh
        if e.final = some .held then some e.extent else none
      let upper := match f.parity with
        | .top => l - 1
        | .bottom => l
      let lower := match f.parity with
        | .top => l
        | .bottom => min (l + 1) (g.lines - 1)
      u.fetches h g f l = [fetch .own f.slot l none] ++
        (match u.repeatRef.bind h.find with
          | some r => [fetch .repeatRef r.slot l (held r l)]
          | none => []) ++
        (match u.combRef.bind h.find with
          | some r =>
            if upper = lower then [fetch .combBoth r.slot upper (held r upper)]
            else [fetch .combUpper r.slot upper (held r upper), fetch .combLower r.slot lower (held r lower)]
          | none => []))

/-- PROBE_BURST_RETURN. The grant: the next burst of the oldest pending line, up to 32 words of the first of its fetches that is not
granted whole, is read from DRAM as it stands; the fetch's granted count moves on by it, the starvation counts follow the grant, and
check errors are reported with it (their moment is log entry 31). The return: a failing word makes the line INVALID, CHECK_FAILED, and
it leaves the pending list with its granted bursts (at once: log entry 30); else the words join their fetch, and the last word of the
last fetch makes the line DONE with its sums; nothing else of the probe unit, and nothing outside it, changes. The sums: over the
samples at columns 16, 20 and on, |Fn - Fr| for the repeat reference, and for the comb reference |2Fn - Fa - Fb| - |Fa - Fb|, not below
0 and clamped to 1023; 0 for a reference that is absent. A column at or beyond the extent of a HELD line takes the luma of its last
word. -/
def Obligations.ProbeBurstsFetchAndSettleLines : Prop :=
  (∀ (us : List Upset) (l : Nat) (role : ProbeRole) (b : Burst) (s : State), s.grantee = some .probe →
    s.probe.presented = some (l, role, b) →
    let read := (List.range b.count).map (fun i => (s.dram.disturbAll us).readChecked (b.addr / 4 + i))
    ∃ t, exec (.probeBurstReturn (.grant us)) s = .next t ∧
      t.probe = { s.probe with
        inFlight := s.probe.inFlight ++ [{ line := l, role := role, words := read.map (fun w => w.1)
                                           failed := read.any (fun w => decide (w.2 = .failed)) }]
        pending := s.probe.pending.map (fun p => if p.line = l then { p with fetches := p.fetches.map (fun f =>
          if f.role = role then { f with granted := f.granted + b.count } else f) } else p) } ∧
      t.dram = s.dram.disturbAll us ∧
      (let u := raiseChecks .probe .read b.addr (read.map (fun w => w.2))
          { s with memPort := { s.memPort with starvation := (s.countGrant .probe).memPort.starvation } }
       t.cond = u.cond ∧ t.memPort = u.memPort) ∧
      t = { s with probe := t.probe, dram := t.dram, memPort := t.memPort, cond := t.cond }) ∧
  (∀ (b : ProbeReturn) (rest : List ProbeReturn) (s : State), s.probe.inFlight = b :: rest →
    let joined := s.probe.pending.map (fun p => if p.line = b.line then { p with fetches := p.fetches.map (fun f =>
      if f.role = b.role then { f with words := f.words ++ b.words } else f) } else p)
    ∃ t, exec (.probeBurstReturn .ret) s = .next t ∧ t = { s with probe := t.probe } ∧
      (b.failed = true → t.probe = { s.probe with
        table := s.probe.table.map (fun e => if e.line = b.line then { e with status := .invalid .checkFailed } else e)
        pending := s.probe.pending.filter (fun p => decide (p.line ≠ b.line))
        inFlight := rest.filter (fun x => decide (x.line ≠ b.line)) }) ∧
      (b.failed = false →
        (joined.find? (fun p => decide (p.line = b.line)) = none → t.probe = { s.probe with inFlight := rest }) ∧
        (∀ p, joined.find? (fun p => decide (p.line = b.line)) = some p →
          ((∀ f ∈ p.fetches, f.width ≤ f.words.length) → t.probe = { s.probe with
            table := s.probe.table.map (fun e => if e.line = b.line
              then { e with status := .done, repeatSum := p.repeatSum, combSum := p.combSum } else e)
            pending := joined.filter (fun p => decide (p.line ≠ b.line))
            inFlight := rest.filter (fun x => decide (x.line ≠ b.line)) }) ∧
          ((∃ f ∈ p.fetches, f.words.length < f.width) → t.probe = { s.probe with pending := joined, inFlight := rest })))) ∧
  (∀ (u : ProbeUnit) (l : Nat) (role : ProbeRole) (b : Burst), u.presented = some (l, role, b) ↔
    ∃ (pb pa : List PendingProbe) (p : PendingProbe) (fb fa : List ProbeFetch) (f : ProbeFetch), u.pending = pb ++ p :: pa ∧
      (∀ x ∈ pb, ∀ y ∈ x.fetches, y.width ≤ y.granted) ∧ p.fetches = fb ++ f :: fa ∧ (∀ y ∈ fb, y.width ≤ y.granted) ∧
      f.granted < f.width ∧ l = p.line ∧ role = f.role ∧
      b = { addr := f.base + 4 * f.granted, count := min 32 (f.width - f.granted) }) ∧
  (∀ (p : PendingProbe) (own : ProbeFetch), p.fetch .own = some own →
    let columns := (List.range ((own.width - 33) / 4 + 1)).map (fun i => 16 + 4 * i)
    let luma : ProbeFetch → Nat → Nat := fun f x => (f.words.getD (match f.held with
      | some e => if e ≤ x then e - 1 else x
      | none => x) 0).toNat / 2 ^ 16 % 2 ^ 10
    let comb := fun (n a b : Nat) => min 1023 ((2 * (n : Int) - a - b).natAbs - ((a : Int) - b).natAbs)
    (∀ r, p.fetch .repeatRef = some r →
      p.repeatSum = (columns.map (fun x => ((luma own x : Int) - luma r x).natAbs)).sum) ∧
    (p.fetch .repeatRef = none → p.repeatSum = 0) ∧
    (∀ a b, p.fetch .combBoth = none → p.fetch .combUpper = some a → p.fetch .combLower = some b →
      p.combSum = (columns.map (fun x => comb (luma own x) (luma a x) (luma b x))).sum) ∧
    (∀ a, p.fetch .combBoth = some a → p.combSum = (columns.map (fun x => comb (luma own x) (luma a x) (luma a x))).sum) ∧
    (p.fetch .combBoth = none → p.fetch .combUpper = none → p.combSum = 0))

/-- The metrics of a close. A line counts when it is DONE and usable, and usable are the lines read for it from each reference that
remains. No metrics, and no report, for an unmeasured field; none, and PROBE_INCOMPLETE with the counts, where no reference remains or
fewer than half the probe lines count; else for each reference that remains the sum of its sums over the lines that count, divided by
the samples counted, clamped to 1023. -/
def Obligations.MetricsFollowTheLinesThatCount : Prop :=
  ∀ (u : ProbeUnit) (h : History) (r : FieldRecord) (width : Nat),
    let table := u.table.map (fun e => if e.status = .pending then { e with status := .invalid .openAtClose } else e)
    let counting := table.filter (u.countsLine h r)
    let q := counting.length
    let p := (r.lines.length + 1) / 4
    let samples := q * ((width - 33) / 4 + 1)
    let usable := fun (x : FieldRecord) (l : Nat) => (x.lines.getD l LineEntry.fresh).usable = true
    let invalid := fun (reason : InvalidReason) => table.countP (fun e => decide (e.status = .invalid reason))
    (∀ e : ProbeEntry, e.line < r.lines.length →
      let upper := if r.parity = .top then e.line - 1 else e.line
      let lower := if r.parity = .top then e.line else min (e.line + 1) (r.lines.length - 1)
      (u.countsLine h r e = true ↔ e.status = .done ∧ usable r e.line ∧
        (∀ f, u.repeatRef = some f → ∃ x, h.find f = some x ∧ usable x e.line) ∧
        (∀ f, u.combRef = some f → ∃ x, h.find f = some x ∧ usable x upper ∧ usable x lower))) ∧
    (u.measured = true ↔ u.combRef ≠ none ∨ u.repeatRef ≠ none ∨ u.combLost = true ∨ u.repeatLost = true) ∧
    (u.measured = false → u.settle h r width = (none, none)) ∧
    (u.measured = true → (u.combRef = none ∧ u.repeatRef = none) ∨ q < (p + 1) / 2 →
      u.settle h r width = (none, some
        { lines := p, counting := q, skipped := invalid .skipped, checkFailed := invalid .checkFailed
          referenceLost := invalid .referenceLost, openAtClose := invalid .openAtClose
          notMeasured := table.countP (fun e => decide (e.status = .waiting ∨ e.status = .notRun))
          combLost := u.combLost, repeatLost := u.repeatLost })) ∧
    (u.measured = true → (u.combRef ≠ none ∨ u.repeatRef ≠ none) → (p + 1) / 2 ≤ q →
      u.settle h r width = (some
        { repeatMetric := u.repeatRef.map (fun _ => min 1023 ((counting.map (fun e => e.repeatSum)).sum / samples))
          combMetric := u.combRef.map (fun _ => min 1023 ((counting.map (fun e => e.combSum)).sum / samples)) }, none))

/-- The three evidence tests over the metrics of a field and its predecessor. -/
def Obligations.EvidenceTestsReadBothMetrics : Prop :=
  ∀ (cN cP rN rP : Option Nat) (phaseN phaseP floorF threshold : Nat),
    (∀ h, evidence22 cN cP phaseN phaseP floorF = .consistent h ↔ ∃ c p, cN = some c ∧ cP = some p ∧ floorF ≤ max c p ∧
      2 * min c p ≤ max c p ∧ h = if c ≤ p then phaseN else phaseP) ∧
    (evidence22 cN cP phaseN phaseP floorF = .inconsistent ↔ ∃ c p, cN = some c ∧ cP = some p ∧ floorF ≤ max c p ∧
      max c p < 2 * min c p) ∧
    (repeatEvent rN rP threshold floorF = true ↔ ∃ r p, rN = some r ∧ rP = some p ∧ r ≤ threshold ∧ 4 * r ≤ p ∧ floorF ≤ p) ∧
    (rEvidence rP floorF = true ↔ ∃ p, rP = some p ∧ floorF ≤ p)

/-- A close that is not CONTINUOUS or is CUT ends any lock before evidence is looked at: VIDEO, no counter, no repeat list, no label. -/
def Obligations.ContinuityComesBeforeEvidence : Prop :=
  ∀ (c : Cadence) (g : IngestGroup) (r : FieldRecord) (prev : Option FieldRecord), r.continuous = false ∨ r.state = .cut →
    (c.close g r prev).cadence = { c with mode := .video, c22 := 0, repeats := [] } ∧ (c.close g r prev).label = none ∧
    (c.mode = .video → (c.close g r prev).condition = none) ∧
    (c.mode ≠ .video → ∃ position, (c.close g r prev).condition =
      some (.cadenceBreak r.number c.mode c.episode (if r.state = .cut then 2 else 1) position))

/-- A CONTINUOUS, uncut close in VIDEO mode: the 2:2 counter follows the evidence, and a lock opens a new episode: 3:2 where the repeat
list takes its third entry, else 2:2 at an increment that leaves the counter at E22; without a lock there is no label. At field 1 the
phase is inverted, the repeat list emptied and the predecessor's phase taken as 0 first. -/
def Obligations.VideoModeCountsAndLocks : Prop :=
  ∀ (c : Cadence) (g : IngestGroup) (r : FieldRecord) (prev : Option FieldRecord), c.inRange → c.mode = .video →
    r.continuous = true → r.state ≠ .cut →
    let comb := fun (x : Option FieldRecord) => (x.bind (fun y => y.metrics)).bind (fun m => m.combMetric)
    let rep := fun (x : Option FieldRecord) => (x.bind (fun y => y.metrics)).bind (fun m => m.repeatMetric)
    let phase := r.number.toNat % 2
    let phaseP := if r.number = 1 then 0 else (FieldNo.pred r.number).toNat % 2
    let ph22 := if r.number = 1 then 1 - c.ph22 else c.ph22
    let repeats := if r.number = 1 then [] else c.repeats
    let ev := evidence22 (comb (some r)) (comb prev) phase phaseP g.floorF
    let event := repeatEvent (rep (some r)) (rep prev) g.thresholdR g.floorF
    let follows := ∃ last, repeats.getLast? = some last ∧ r.number.toNat = last.toNat + 5
    let lock32 := event = true ∧ follows ∧ 2 ≤ repeats.length ∧ g.allow32 = true
    let lock22 := ev = .consistent ph22 ∧ 0 < c.c22 ∧ min g.e22 (c.c22 + 1) = g.e22 ∧ g.allow22 = true
    let episode := if c.episode = 65535 then 1 else c.episode + 1
    let position := if phase = ph22 then Position32.trail else Position32.lead
    let x := c.close g r prev
    (lock32 → x.cadence.mode = .locked32 ∧ x.cadence.episode = episode ∧ x.cadence.nextPosition = 3 ∧ x.cadence.repeats = [] ∧
      x.cadence.c22 = 0 ∧ x.label = some { episode := episode, position := .film 2 } ∧
      x.condition = some (.cadenceLock r.number { episode := episode, position := .film 2 })) ∧
    (¬ lock32 → lock22 → x.cadence.mode = .locked22 ∧ x.cadence.episode = episode ∧ x.cadence.c22 = g.e22 ∧
      x.cadence.repeats = [] ∧ x.label = some { episode := episode, position := position } ∧
      x.condition = some (.cadenceLock r.number { episode := episode, position := position })) ∧
    (¬ lock32 → ¬ lock22 → x.cadence.mode = .video ∧ x.cadence.episode = c.episode ∧ x.label = none ∧ x.condition = none ∧
      (event = false → x.cadence.repeats = repeats) ∧
      (event = true → follows → x.cadence.repeats = (repeats ++ [r.number]).drop (repeats.length - 2)) ∧
      (event = true → ¬ follows → x.cadence.repeats = [r.number])) ∧
    (¬ lock32 → x.cadence.nextPosition = c.nextPosition ∧
      (ev = .consistent ph22 → 0 < c.c22 → x.cadence.c22 = min g.e22 (c.c22 + 1) ∧ x.cadence.ph22 = ph22) ∧
      (∀ h, ev = .consistent h → (h ≠ ph22 ∨ c.c22 = 0) → x.cadence.c22 = 1 ∧ x.cadence.ph22 = h) ∧
      (ev = .inconsistent → x.cadence.c22 = 0 ∧ x.cadence.ph22 = ph22) ∧
      (ev = .absent → x.cadence.c22 = c.c22 ∧ x.cadence.ph22 = ph22))

/-- A CONTINUOUS, uncut close in the locked modes: the lock holds, and labels the field with its position, unless the evidence is
against it; a break has cause "evidence" (3) and leaves no label. The wrap of field numbers is made up for at field 1. -/
def Obligations.LockedModesHoldOrBreakOnEvidence : Prop :=
  ∀ (c : Cadence) (g : IngestGroup) (r : FieldRecord) (prev : Option FieldRecord), r.continuous = true → r.state ≠ .cut →
    let comb := fun (x : Option FieldRecord) => (x.bind (fun y => y.metrics)).bind (fun m => m.combMetric)
    let rep := fun (x : Option FieldRecord) => (x.bind (fun y => y.metrics)).bind (fun m => m.repeatMetric)
    let phase := r.number.toNat % 2
    let phaseP := if r.number = 1 then 0 else (FieldNo.pred r.number).toNat % 2
    let wrapped := if r.number = 1 then { c with ph22 := 1 - c.ph22, repeats := [] } else c
    let ev := evidence22 (comb (some r)) (comb prev) phase phaseP g.floorF
    let event := repeatEvent (rep (some r)) (rep prev) g.thresholdR g.floorF
    let evidence := rEvidence (rep prev) g.floorF
    let position := if phase = wrapped.ph22 then Position32.trail else Position32.lead
    let against := (c.nextPosition = 2 ∧ evidence = true ∧ event = false) ∨ (c.nextPosition ≠ 2 ∧ event = true)
    let x := c.close g r prev
    let video := { wrapped with mode := CadenceMode.video, c22 := 0, repeats := [] }
    (c.mode = .locked22 →
      (ev = .absent ∨ ev = .consistent wrapped.ph22 →
        x = { cadence := wrapped, label := some { episode := c.episode, position := position }, condition := none }) ∧
      (ev ≠ .absent → ev ≠ .consistent wrapped.ph22 →
        x = { cadence := video, label := none
              condition := some (.cadenceBreak r.number .locked22 c.episode 3 position) })) ∧
    (c.mode = .locked32 →
      (¬ against → x = { cadence := { wrapped with nextPosition := (c.nextPosition + 1) % 5 }
                         label := some { episode := c.episode, position := .film c.nextPosition }, condition := none }) ∧
      (against → x = { cadence := video, label := none
                       condition := some (.cadenceBreak r.number .locked32 c.episode 3 (.film c.nextPosition)) }))


/-! ### Frame plans and the take of an output read -/

/-- The partner table, and the weave test: the partner of a labelled anchor, where its record is closed, of the other parity, labelled in
the same episode as the table requires, and linked by continuity. -/
def Obligations.WeavePartnerFollowsThePartnerTable : Prop :=
  (partnerTable .lead = some (true, .trail) ∧ partnerTable .trail = some (false, .lead) ∧
    partnerTable (.film 0) = some (true, .film 1) ∧ partnerTable (.film 1) = some (false, .film 0) ∧
    partnerTable (.film 2) = some (false, .film 1) ∧ partnerTable (.film 3) = some (true, .film 4) ∧
    partnerTable (.film 4) = some (false, .film 3)) ∧
  ∀ (h : History) (a : FieldRecord) (p : PartnerRole), h.weavePartner a = some p ↔
    ∃ label wanted r, a.label = some label ∧ partnerTable label.position = some (p.after, wanted) ∧
      p.field = (if p.after then FieldNo.succ a.number else FieldNo.pred a.number) ∧ h.find p.field = some r ∧ r.state ≠ .filling ∧
      r.parity ≠ a.parity ∧ r.label = some { episode := label.episode, position := wanted } ∧
      (if p.after then r.continuous else a.continuous) = true

/-- The anchor choice, the method decision, the judgement and the geometry snapshot of a frame start. The snapshot holds the working
output group's items, the rows its select chooses and, where an ingest group works and L is known, the source size with the steps and
offsets; else zeros for these, of which those of the steps and offsets are the model's own (log entry 40). A BLEND plan names
partner-2 as R72's table has it, whatever its parity: where field a-1 repeats its predecessor's, that is the model's choice (log entry
41). -/
def Obligations.FrameStartChoosesAnchorAndMethod : Prop :=
  ∀ (g : OutputGroup) (s : State),
    let c := s.chooseFrame g
    (s.monitor.acquisition = .acquiring ∨ s.monitor.acquisition = .failed ∨ s.history.newestClosed = none →
      c.plan.method = .fill ∧ c.plan.anchor = none ∧ c.plan.partner = none ∧ c.plan.anchor2 = none ∧ c.plan.partner2 = none ∧
      c.plan.repeated = false ∧ c.previousAnchor = s.planner.previousAnchor ∧ c.condition = none) ∧
    (∀ n a, s.monitor.acquisition ≠ .acquiring → s.monitor.acquisition ≠ .failed → s.history.newestClosed = some n →
      a = (s.history.before n.number).getD n →
      let d := if s.planner.previousAnchor.toNat ≤ a.number.toNat then a.number.toNat - s.planner.previousAnchor.toNat
        else a.number.toNat + (2 ^ 32 - 1) - s.planner.previousAnchor.toNat
      let previous := s.history.find (FieldNo.pred a.number)
      let blends := ∃ p, previous = some p ∧ a.continuous = true ∧ p.state ≠ .filling ∧ p.parity ≠ a.parity
      let weaves := g.override = .auto ∧ (s.history.weavePartner a).isSome = true
      let decided := (s.history.before n.number).isSome = true ∧ g.override ≠ .spatialOnly
      c.plan.anchor = some { field := a.number, slot := a.slot, parity := a.parity } ∧ c.previousAnchor = a.number ∧
      (¬ decided ∨ (¬ weaves ∧ ¬ blends) → c.plan.method = .spatial ∧ c.plan.partner = none ∧ c.plan.anchor2 = none ∧
        c.plan.partner2 = none) ∧
      (decided → weaves → c.plan.method = .weave ∧ c.plan.partner = s.history.weavePartner a ∧ c.plan.anchor2 = none ∧
        c.plan.partner2 = none) ∧
      (decided → ¬ weaves → blends → c.plan.method = .blend ∧
        c.plan.partner = some { field := FieldNo.pred a.number, after := false } ∧
        (∀ f, c.plan.anchor2 = some f ↔ f = FieldNo.pred (FieldNo.pred a.number) ∧
          (∃ r, s.history.find f = some r ∧ r.state ≠ .filling) ∧ ∃ r, previous = some r ∧ r.continuous = true) ∧
        (∀ f, c.plan.partner2 = some f ↔ f = FieldNo.pred (FieldNo.pred (FieldNo.pred a.number)) ∧
          (∃ r, s.history.find f = some r ∧ r.state ≠ .filling) ∧
          ∃ r, s.history.find (FieldNo.pred (FieldNo.pred a.number)) = some r ∧ r.continuous = true)) ∧
      (s.planner.previousAnchor = 0 → c.plan.repeated = false ∧ c.condition = none) ∧
      (s.planner.previousAnchor ≠ 0 →
        (d = 0 → c.plan.repeated = true ∧ c.condition = some (.frameRepeat a.number c.plan.method)) ∧
        (d = 1 → c.plan.repeated = false ∧ c.condition = none) ∧
        (2 ≤ d → d ≤ 2 ^ 31 - 1 → c.plan.repeated = false ∧ c.condition = some (.fieldSkip a.number (d - 1))) ∧
        (2 ^ 31 ≤ d → c.plan.repeated = false ∧ c.condition = none))) ∧
    c.plan.anchorLost = false ∧ c.plan.partnerLost = false ∧ c.plan.motionLost = false ∧
    (let defaults := (List.range 16).map (fun p : Nat => ({ c0 := 0, c1 := 256 - 16 * p, c2 := 16 * p, c3 := 0 } : CoefRow))
    let unknown : Snapshot :=
      { width := 0, rows := 0, wo := g.wo, ho := g.ho, pitch := g.pitch, x0 := g.x0, y0 := g.y0, wi := g.wi, hi := g.hi
        fillY := g.fillY, fillC := g.fillC, tLo := g.tLo, tHi := g.tHi
        coefs := if g.custom then s.settings.customRows else defaults
        vStep := 0, vOffset := 0, hStep := 0, lumaOffset := 0, chromaOffset := 0 }
    (∀ gi, s.settings.ingest = some gi → s.knownL = (match s.monitor.acquisition with
      | .off => gi.l
      | .acquired => s.monitor.acquiredL
      | .acquiring => 0
      | .failed => 0)) ∧
    (s.settings.ingest = none ∨ s.knownL = 0 → c.plan.snapshot = unknown) ∧
    (∀ gi, s.settings.ingest = some gi → 0 < gi.w → s.knownL ≠ 0 → c.plan.snapshot = { unknown with
      width := gi.w, rows := 2 * s.knownL
      vStep := axisStep (2 * s.knownL) g.hi, vOffset := axisOffset (2 * s.knownL) g.hi (axisStep (2 * s.knownL) g.hi)
      hStep := axisStep gi.w g.wi, lumaOffset := axisOffset gi.w g.wi (axisStep gi.w g.wi)
      chromaOffset := axisOffset (gi.w / 2) (g.wi / 2) (axisStep gi.w g.wi) }))

/-- The repair of a plan at the eviction of a field it names, with REFERENCE_LOST: FILL without its anchor, SPATIAL without its partner,
the method kept without a motion reference. -/
def Obligations.LostReferencesRepairThePlan : Prop :=
  ∀ (f : FieldNo) (roles : Roles) (p : Plan) (s : State), s.planner.plan = some p →
    let repaired := fun (p1 : Plan) (role released : Nat) =>
      raise (.referenceLost f role p.method p1.method released)
        { s with planner := { s.planner with plan := some p1 }, history := s.history.reference (some p1) }
    let one := fun (b : Bool) (n : Nat) => if b then n else 0
    (roles.anchor = true → repairPlan f roles s = repaired
      { p with method := .fill, anchor := none, partner := none, anchor2 := none, partner2 := none, anchorLost := true } 1
      (one p.partner.isSome 1 + one p.anchor2.isSome 2 + one p.partner2.isSome 4)) ∧
    (roles.anchor = false → roles.partner = true → repairPlan f roles s = repaired
      { p with method := .spatial, partner := none, partner2 := none, partnerLost := true } 2 (one p.partner2.isSome 4)) ∧
    (roles.anchor = false → roles.partner = false → roles.anchor2 = true → repairPlan f roles s = repaired
      { p with anchor2 := none, motionLost := true } 3 0) ∧
    (roles.anchor = false → roles.partner = false → roles.anchor2 = false → roles.partner2 = true →
      repairPlan f roles s = repaired { p with partner2 := none, motionLost := true } 4 0) ∧
    (roles = Roles.empty → repairPlan f roles s = s)

/-- OUTPUT_READ_TAKE of an output read, where the store has an entry for each line it may miss, as it has in every state that meets the
invariant of StepKeepsTheDeviceInBounds: the read starts a frame exactly where its first word lies in row 0 with no plan or a later row
behind it, a pending output group being loaded first where the hold word is zero; it takes a copy of the plan and its lines, and is
acknowledged with its class. The lines it wants, where it has a picture word: those that the rows of its four vertical taps draw on. An
anchor row draws on its own line where that is usable, else on the usable partner lines beside it, else on anchor-2's line, else on the
nearest usable anchor line above, else below. A missing row draws on what its two neighbours draw on and, by the method, on the partner's
line, and for a blend on those of partner-2 and anchor-2. Each stands once, by the rows of R121's table and then by line number; of two
substitutes with one line number the anchor's comes first (log entry 16). -/
def Obligations.OutputReadTakeServesTheReadUnderItsPlan : Prop :=
  (∀ (before after : List QueuePosition) (q : QueuePosition) (s : State), s.phase = .running →
    s.system.queue = before ++ q :: after → (∀ p ∈ before, s.systemTurn p = false) → s.systemTurn q = true →
    s.judge .system q.request = .toOutput → s.mustHold = false →
    let offset := s.outputOffset q.request
    let u := enterFrame offset s
    let wanted := u.wantedLines offset q.request.count
    s.deviceOk ∨ (wanted.length ≤ s.store.freeList.length + s.store.lru.length ∧
      ∀ n ∈ s.store.lru, (s.store.entry n).state ≠ .empty) →
    ∃ t o, exec .outputReadTake s = .next t ∧ s.store.takeLines wanted = some (t.store, o.need) ∧
      o.need.map (fun n => (n.role, n.line, n.held)) = wanted.map (fun w => (w.role, w.line, w.held)) ∧
      (o.deferred = true ↔ ∃ n ∈ o.need, (t.store.entry n.entry).state = .filling) ∧
      o.plan = u.planner.plan ∧ o.offset = offset ∧ o.fillY = u.fills.1 ∧ o.fillC = u.fills.2 ∧ o.words = none ∧ o.returned = 0 ∧
      t = { u with
        takes := s.takes + 1, store := t.store
        system := { s.system with
          queue := before ++ { q with progress := .outputTaken s.takes o } :: after
          acks := s.system.acks ++ [{ tag := q.request.tag, body := .readClass o.deferred }] } } ∧
      (∀ w, s.window .output = some w → offset = firstAddr q.request - w.base) ∧
      (s.startsFrame offset = true ↔ ∃ g, s.settings.output = some g ∧ offset / g.pitch = 0 ∧
        (s.planner.plan = none ∨ s.planner.laterRow = true)) ∧
      (s.startsFrame offset = false → u = { s with planner := { s.planner with
        laterRow := s.planner.laterRow || (match s.planner.plan with
          | none => false
          | some p => decide (1 ≤ offset / p.snapshot.pitch)) } }) ∧
      (s.startsFrame offset = true → ∃ (v : State) (g : OutputGroup),
        (s.settings.outputPending = true → s.settings.at 0 = 0 → v = loadOutput s) ∧
        (s.settings.outputPending = false ∨ s.settings.at 0 ≠ 0 → v = s) ∧ v.settings.output = some g ∧
        u.planner = { plan := some (v.chooseFrame g).plan, frame := FieldNo.succ s.planner.frame
                      laterRow := decide (1 ≤ offset / g.pitch), previousAnchor := (v.chooseFrame g).previousAnchor } ∧
        u.history = v.history.reference (some (v.chooseFrame g).plan) ∧
        u.cond = (scheduleStatus (raiseAll (v.chooseFrame g).condition.toList { v with planner := u.planner })).cond ∧
        u = { v with planner := u.planner, history := u.history, cond := u.cond }) ∧
      t.capture = s.capture ∧ t.dram = s.dram ∧ t.memPort = s.memPort ∧ t.monitor = s.monitor ∧ t.probe = s.probe ∧
      t.cadence = s.cadence ∧ t.windows = s.windows) ∧
  (∀ (st : LineStore) (w : WantedLine) (ws : List WantedLine), st.takeLines [] = some (st, []) ∧
    st.takeLines (w :: ws) = (st.takeLine w).bind (fun a => (a.1.takeLines ws).map (fun b => (b.1, a.2 :: b.2)))) ∧
  (∀ (s : State) (offset count : Nat),
    let wanted := s.wantedLines offset count
    (s.planner.plan = none ∨ s.ring = none → wanted = []) ∧
    (∀ (p : Plan) (gr : Ring), s.planner.plan = some p → s.ring = some gr →
      let g := p.snapshot
      let row := offset / g.pitch
      let pictured := p.method ≠ .fill ∧ ∃ i < count,
        let x := (offset + 4 * i) % g.pitch / 4
        let y := (offset + 4 * i) / g.pitch
        x < g.wo ∧ y < g.ho ∧ g.x0 ≤ x ∧ x < g.x0 + g.wi ∧ g.y0 ≤ y ∧ y < g.y0 + g.hi ∧ y = row
      let taps := ([-1, 0, 1, 2] : List Int).map (fun k =>
        (max 0 (min ((((row - g.y0 : Nat) : Int) * g.vStep + g.vOffset) / 65536 + k) (g.rows - 1))).toNat)
      let named : SourceRole → Option FieldNo := fun role => match role with
        | .anchor => p.anchor.map (fun a => a.field)
        | .partner => p.partner.map (fun a => a.field)
        | .partner2 => p.partner2
        | .anchor2 => p.anchor2
      let record := fun (role : SourceRole) => (named role).bind s.history.find
      let usable := fun (role : SourceRole) (l : Nat) => ∃ r f, record role = some r ∧
        (r.lines.getD l LineEntry.fresh).final = some f ∧ (f = .held ∨ f = .overlong ∨ f = .good)
      let pA := match p.anchor with
        | some a => a.parity.toNat
        | none => 0
      let own := fun (r : Nat) => (r - pA) / 2
      let other := fun (r : Nat) => (r - (1 - pA)) / 2
      let above := fun (r : Nat) => if r = 0 then r + 1 else r - 1
      let below := fun (r : Nat) => if r + 1 < g.rows then r + 1 else r - 1
      let up := fun (r : Nat) => 0 < r ∧ usable .partner (other (r - 1))
      let down := fun (r : Nat) => r + 1 < g.rows ∧ usable .partner (other (r + 1))
      let nearest := fun (l n : Nat) => usable .anchor n ∧ ((n < l ∧ ∀ k < l, n < k → ¬ usable .anchor k) ∨
        (l < n ∧ n < g.rows / 2 ∧ ∀ k < n, k ≠ l → ¬ usable .anchor k))
      let source := fun (r : Nat) (d : SourceRole × Nat) =>
        (usable .anchor (own r) ∧ d = (.anchor, own r)) ∨
        (¬ usable .anchor (own r) ∧ ((up r ∧ d = (.partner, other (r - 1))) ∨ (down r ∧ d = (.partner, other (r + 1))) ∨
          (¬ up r ∧ ¬ down r ∧ ((usable .anchor2 (own r) ∧ d = (.anchor2, own r)) ∨
            (¬ usable .anchor2 (own r) ∧ d.1 = .anchor ∧ nearest (own r) d.2)))))
      let moves := fun (r : Nat) => usable .anchor2 (own (above r)) ∧ usable .anchor2 (own (below r)) ∧
        usable .anchor (own (above r)) ∧ usable .anchor (own (below r))
      let draws := fun (r : Nat) (d : SourceRole × Nat) =>
        (r % 2 = pA ∧ source r d) ∨
        (r % 2 ≠ pA ∧ (source (above r) d ∨ source (below r) d ∨
          ((p.method = .weave ∨ p.method = .blend) ∧ usable .partner (other r) ∧ (d = (.partner, other r) ∨
            (p.method = .blend ∧ ((usable .partner2 (other r) ∧ d = (.partner2, other r)) ∨
              (moves r ∧ (d = (.anchor2, own (above r)) ∨ d = (.anchor2, own (below r))))))))))
      let rank := fun (w : WantedLine) => match w.role with
        | .anchor => if ∃ r ∈ taps, ∃ n ∈ (if r % 2 = pA then [r] else [above r, below r]), own n = w.line then 0 else 4
        | .partner => if ∃ r ∈ taps, r % 2 ≠ pA ∧ other r = w.line then 1 else 4
        | .partner2 => 2
        | .anchor2 => 3
      (∀ d : SourceRole × Nat, (∃ w ∈ wanted, (w.role, w.line) = d) ↔ pictured ∧ ∃ r ∈ taps, draws r d) ∧
      wanted.Pairwise (fun a b => rank a < rank b ∨
        (rank a = rank b ∧ (a.line < b.line ∨ (a.line = b.line ∧ a.role = .anchor ∧ b.role ≠ .anchor)))) ∧
      (∃ win gi, s.window .fieldRing = some win ∧ s.settings.ingest = some gi ∧ ∀ w ∈ wanted, ∃ r, record w.role = some r ∧
        w.tag = { slot := r.slot, field := r.number, line := w.line } ∧ w.width = gi.w ∧
        w.base = win.base + r.slot * gi.slotPitch + 64 + w.line * gi.linePitch ∧
        w.held = (let e := r.lines.getD w.line LineEntry.fresh
          if e.final = some .held then some e.extent else none))))

/-! ### Reconstruction, scaling and the output raster -/

/-- The spatial estimate, the blend weight and the blend: the direction of least difference, V before L before R, as a rounded mean; the
weight by the thresholds; and T and S weighted by 16 - w and w, rounded half up. -/
def Obligations.EstimateWeightAndBlendFollowTheirTables : Prop :=
  (∀ aL a aR bL b bR : Nat,
    let dist := fun (x y : Nat) => max x y - min x y
    (dist a b ≤ dist aL bR → dist a b ≤ dist aR bL → edgeEstimate aL a aR bL b bR = (a + b + 1) / 2) ∧
    (dist aL bR < dist a b → dist aL bR ≤ dist aR bL → edgeEstimate aL a aR bL b bR = (aL + bR + 1) / 2) ∧
    (dist aR bL < dist a b → dist aR bL < dist aL bR → edgeEstimate aL a aR bL b bR = (aR + bL + 1) / 2)) ∧
  (∀ m tLo tHi : Nat, tLo < tHi →
    (m ≤ tLo → blendWeight m tLo tHi = 0) ∧
    (tLo < m → m < tHi → blendWeight m tLo tHi = (m - tLo) * 16 / (tHi - tLo) ∧ blendWeight m tLo tHi ≤ 15) ∧
    (tHi ≤ m → blendWeight m tLo tHi = 16)) ∧
  (∀ t s w : Nat, w ≤ 16 → blendSample t s w = (t * (16 - w) + s * w + 8) / 2 ^ 4 ∧
    min t s ≤ blendSample t s w ∧ blendSample t s w ≤ max t s) ∧
  (∀ t s : Nat, blendSample t s 0 = t ∧ blendSample t s 16 = s)

/-- What a row of the reconstructed frame is made from: an anchor row its own line, fill values where that line is VOID, else the first
source of concealment that applies; a missing row the partner, the blend or the spatial estimate by the method. The motion measure that
weights the blend: the larger of the partner term and the anchor term where they are present, 1023 where neither is. The spatial
estimates: of luma the edge estimate over the rows above and below at columns x-1, x and x+1, clamped into 0..W-1, of chroma their
rounded mean, the one row standing in for the other at the frame's edges. A line is available where it was drawn on and its entry is
VALID, and its samples are those of its words, a HELD line's last word standing for those beyond its extent. -/
def Obligations.RowsTakeTheirSourcesInOrder : Prop :=
  ∀ (p : Picture) (x r : Nat), p.parity ≤ 1 →
    let l := (r - p.parity) / 2
    let m := (r - (1 - p.parity)) / 2
    let u := (r - 1 - (1 - p.parity)) / 2
    let d := (r + 1 - (1 - p.parity)) / 2
    let up := 0 < r ∧ p.has .partner u = true
    let down := r + 1 < p.rows ∧ p.has .partner d = true
    let concealed := r % 2 = p.parity ∧ p.has .anchor l = false ∧ p.ownVoid l = false
    let from2 := concealed ∧ ¬ up ∧ ¬ down
    let from3 := from2 ∧ p.has .anchor2 l = false
    let take := fun (role : SourceRole) (n : Nat) => p.y x r = p.luma role n x ∧ p.c x r = p.chroma role n x
    (r % 2 = p.parity → p.has .anchor l = true → take .anchor l) ∧
    (r % 2 = p.parity → p.has .anchor l = false → p.ownVoid l = true → p.y x r = p.fillY ∧ p.c x r = p.fillC) ∧
    (concealed → up → down → p.y x r = (p.luma .partner u x + p.luma .partner d x + 1) / 2 ∧
      p.c x r = (p.chroma .partner u x + p.chroma .partner d x + 1) / 2) ∧
    (concealed → up → ¬ down → take .partner u) ∧ (concealed → ¬ up → down → take .partner d) ∧
    (from2 → p.has .anchor2 l = true → take .anchor2 l) ∧
    (from3 → ∀ n < l, p.has .anchor n = true → (∀ k < l, n < k → p.has .anchor k = false) → take .anchor n) ∧
    (from3 → (∀ k < l, p.has .anchor k = false) → ∀ n, l < n → n < p.rows / 2 → p.has .anchor n = true →
      (∀ k, l < k → k < n → p.has .anchor k = false) → take .anchor n) ∧
    (from3 → (∀ k < p.rows / 2, p.has .anchor k = false) → (∀ k < l, p.has .anchor k = false) →
      p.y x r = p.fillY ∧ p.c x r = p.fillC) ∧
    (r % 2 ≠ p.parity →
      (p.method = .weave → p.has .partner m = true → take .partner m) ∧
      (p.method = .blend → p.has .partner m = true →
        p.y x r = blendSample (p.luma .partner m x) (p.spatialLuma r x) (blendWeight (p.motion r x) p.tLo p.tHi) ∧
        p.c x r = blendSample (p.chroma .partner m x) (p.spatialChroma r x)
          (blendWeight (p.motion r (2 * (x / 2))) p.tLo p.tHi)) ∧
      (p.method = .spatial ∨ p.has .partner m = false → p.y x r = p.spatialLuma r x ∧ p.c x r = p.spatialChroma r x)) ∧
    (let a := ((if r = 0 then r + 1 else r - 1) - p.parity) / 2
    let b := ((if r + 1 < p.rows then r + 1 else r - 1) - p.parity) / 2
    let dist := fun (x y : Nat) => max x y - min x y
    let m1 := dist (p.luma .partner m x) (p.luma .partner2 m x)
    let m2 := (dist (p.luma .anchor a x) (p.luma .anchor2 a x) + dist (p.luma .anchor b x) (p.luma .anchor2 b x) + 1) / 2
    let has1 := p.has .partner2 m = true
    let has2 := p.has .anchor a = true ∧ p.has .anchor b = true ∧ p.has .anchor2 a = true ∧ p.has .anchor2 b = true
    (has1 → has2 → p.motion r x = max m1 m2) ∧ (has1 → ¬ has2 → p.motion r x = m1) ∧ (¬ has1 → has2 → p.motion r x = m2) ∧
      (¬ has1 → ¬ has2 → p.motion r x = 1023)) ∧
    (let a := if r = 0 then r + 1 else r - 1
    let b := if r + 1 < p.rows then r + 1 else r - 1
    let left := x - 1
    let right := min (x + 1) (p.width - 1)
    r % 2 ≠ p.parity → 2 ≤ p.rows → r < p.rows → x < p.width →
      a % 2 = p.parity ∧ b % 2 = p.parity ∧
      p.spatialLuma r x = edgeEstimate (p.y left a) (p.y x a) (p.y right a) (p.y left b) (p.y x b) (p.y right b) ∧
      p.spatialChroma r x = (p.c x a + p.c x b + 1) / 2) ∧
    (∀ (role : SourceRole) (n : Nat),
      let drawn := fun (v : ResolvedLine) => decide (v.role = role ∧ v.line = n ∧ v.state = .valid)
      (p.has role n = true ↔ ∃ v ∈ p.lines, drawn v = true) ∧
      (p.ownVoid n = true ↔ ∃ v ∈ p.lines, v.role = .anchor ∧ v.line = n ∧ v.state = .void) ∧
      (∀ v, p.lines.find? drawn = some v →
        let w := (v.data.getD (match v.held with
          | some e => if e ≤ x then e - 1 else x
          | none => x) 0).toNat
        p.luma role n x = w / 2 ^ 16 % 2 ^ 10 ∧ p.chroma role n x = w % 2 ^ 10))

/-- The step and offset of an axis, and the position, source index, phase and taps of each output index of the box: the index lies
within -1..src-1, the phase within 0..15 and each tap within 0..src-1. -/
def Obligations.AxisPositionsStayWithinTheSource : Prop :=
  (∀ src box i : Nat, 1 ≤ src → i < box →
    let step : Int := axisStep src box
    let off := axisOffset src box (axisStep src box)
    let pos := axisPos step off i
    let n := posIndex pos
    step = min 65536 ((src : Int) * 65536 / box) ∧
    (2 * off ≤ (step - 65536) + (src * 65536 - box * step) ∧ (step - 65536) + (src * 65536 - box * step) < 2 * off + 2) ∧
    pos = i * step + off ∧ (65536 * n ≤ pos ∧ pos < 65536 * n + 65536) ∧ (-1 ≤ n ∧ n ≤ src - 1) ∧
    (4096 * (posPhase pos : Int) ≤ pos - 65536 * n ∧ pos - 65536 * n < 4096 * (posPhase pos : Int) + 4096) ∧ posPhase pos ≤ 15 ∧
    (taps src n).length = 4 ∧
    ∀ k < 4, (((taps src n).getD k 0 : Nat) : Int) = max 0 (min (n - 1 + k) (src - 1)) ∧ (taps src n).getD k 0 < src) ∧
  (∀ src box : Nat, src % 2 = 0 → box % 2 = 0 → 2 ≤ box → axisStep (src / 2) (box / 2) = axisStep src box)

/-- Every reconstructed sample lies within 0..1023, and every word that leaves the system port for an output read carries luma and chroma
within 4..1019 with the unused bits zero. The premise on the state is what StepKeepsTheOutputInRange keeps. -/
def Obligations.SamplesStayInRange : Prop :=
  (∀ (p : Picture) (x r : Nat), p.fillY ≤ 1023 → p.fillC ≤ 1023 → p.y x r ≤ 1023 ∧ p.c x r ≤ 1023) ∧
  (∀ (count : Nat) (s t : State), s.outputOk → exec (.outputReadData count) s = .next t →
    ∃ new : List Response, t.system.responses = s.system.responses ++ new ∧
      ∀ x ∈ new, ∀ w ∈ x.words, fillOk (lumaOf w) ∧ fillOk (chromaOf w) ∧ w.extractLsb' 10 6 = 0 ∧ w.extractLsb' 26 6 = 0)

/-! ### The line store -/

/-- The take of one line of a need set. A lookup finds an entry that is FILLING, VALID or POISONED and carries the tag; a hit is shared
with one more use count and leaves the LRU order; a miss takes the first EMPTY entry, else the oldest of the LRU order, and gives it
the tag, use count 1 and a fill behind the fills outstanding. -/
def Obligations.LookupsShareOrAllocateAnEntry : Prop :=
  ∀ (st : LineStore) (w : WantedLine) (n : Nat), n < st.entries.length →
    let matching := fun (k : Nat) => ((st.entry k).state = .filling ∨ (st.entry k).state = .valid ∨ (st.entry k).state = .poisoned) ∧
      (st.entry k).tag = some w.tag
    let line : NeedLine := { role := w.role, line := w.line, entry := n, held := w.held }
    let given : StoreEntry := { tag := some w.tag, state := .filling, useCount := 1, data := []
                                fill := some { base := w.base, width := w.width, granted := 0 } }
    (st.lookup w.tag = some n → matching n) ∧
    (st.lookup w.tag = none ↔ ∀ k < st.entries.length, ¬ matching k) ∧
    (st.lookup w.tag = some n → ∃ st1, st.takeLine w = some (st1, line) ∧
      st1.entry n = { st.entry n with useCount := (st.entry n).useCount + 1 } ∧ (∀ k, k ≠ n → st1.entry k = st.entry k) ∧
      st1 = { st with entries := st1.entries, lru := st.lru.erase n }) ∧
    (st.lookup w.tag = none →
      ((st.entry n).state = .empty ∧ ∀ k < n, (st.entry k).state ≠ .empty) ∨
        ((∀ k < st.entries.length, (st.entry k).state ≠ .empty) ∧ st.lru.head? = some n) →
      ∃ st1, st.takeLine w = some (st1, line) ∧ st1.entry n = given ∧ (∀ k, k ≠ n → st1.entry k = st.entry k) ∧
        st1 = { st with entries := st1.entries, lru := st.lru.erase n, fillQueue := st.fillQueue ++ [n] }) ∧
    ((st.entry n).useCount = 1 →
      ((st.entry n).state = .valid ∨ (st.entry n).state = .poisoned → (st.releaseEntry n).lru = st.lru ++ [n] ∧
        (st.releaseEntry n).entry n = { st.entry n with useCount := 0 }) ∧
      ((st.entry n).state = .void → (st.releaseEntry n).lru = st.lru ∧ (st.releaseEntry n).entry n = StoreEntry.empty) ∧
      ((st.entry n).state = .filling → (st.releaseEntry n).lru = st.lru ∧
        (st.releaseEntry n).entry n = { st.entry n with useCount := 0 })) ∧
    (2 ≤ (st.entry n).useCount → (st.releaseEntry n).lru = st.lru ∧
      (st.releaseEntry n).entry n = { st.entry n with useCount := (st.entry n).useCount - 1 }) ∧
    (∀ k, k ≠ n → (st.releaseEntry n).entry k = st.entry k)

/-- FILL_BURST_RETURN. The grant: the next burst of the oldest outstanding fill is read from DRAM as it stands, the starvation counts
follow the grant, and check errors are reported with it (that they are at the grant, and none at the return, is log entry 31). The
return: a failing word poisons the entry and ends its fill; the last word makes it VALID; an entry without a use count then joins the
LRU order. With the end of its fill the entry leaves the fills outstanding, what was granted for it is discarded (at once: log entry
30), and each withdrawn read stops waiting for it: one that waited for no other entry is counted no more. Nothing outside the line
store, but the port's counts and check conditions at the grant, changes. -/
def Obligations.FillBurstsFetchIntoTheEntry : Prop :=
  (∀ (us : List Upset) (n : Nat) (b : Burst) (s : State), s.grantee = some .fill → s.store.presented = some (n, b) →
    let read := (List.range b.count).map (fun i => (s.dram.disturbAll us).readChecked (b.addr / 4 + i))
    ∃ t, exec (.fillBurstReturn (.grant us)) s = .next t ∧ t.dram = s.dram.disturbAll us ∧
      t.store.inFlight = s.store.inFlight ++ [{ entry := n, words := read.map (fun w => w.1)
                                                failed := read.any (fun w => decide (w.2 = .failed)) }] ∧
      (∀ k, k ≠ n → t.store.entry k = s.store.entry k) ∧
      (n < s.store.entries.length → t.store.entry n = { s.store.entry n with
        fill := (s.store.entry n).fill.map (fun f => { f with granted := f.granted + b.count }) }) ∧
      t.store = { s.store with entries := t.store.entries, inFlight := t.store.inFlight } ∧
      (let u := raiseChecks .fill .read b.addr (read.map (fun w => w.2))
          { s with memPort := { s.memPort with starvation := (s.countGrant .fill).memPort.starvation } }
       t.cond = u.cond ∧ t.memPort = u.memPort) ∧
      t = { s with store := t.store, dram := t.dram, memPort := t.memPort, cond := t.cond }) ∧
  (∀ (b : FillReturn) (rest : List FillReturn) (f : Fill) (s : State), s.store.inFlight = b :: rest →
    b.entry < s.store.entries.length → (s.store.entry b.entry).fill = some f →
    ∃ t, exec (.fillBurstReturn .ret) s = .next t ∧ t = { s with store := t.store } ∧
      (∀ k, k ≠ b.entry → t.store.entry k = s.store.entry k) ∧
      (b.failed = true → t.store.entry b.entry = { s.store.entry b.entry with state := .poisoned, fill := none }) ∧
      (b.failed = false → (s.store.entry b.entry).data.length + b.words.length < f.width →
        t.store.entry b.entry = { s.store.entry b.entry with data := (s.store.entry b.entry).data ++ b.words } ∧
        t.store = { s.store with entries := t.store.entries, inFlight := rest }) ∧
      (b.failed = false → f.width ≤ (s.store.entry b.entry).data.length + b.words.length →
        t.store.entry b.entry = { s.store.entry b.entry with
          state := .valid, fill := none, data := (s.store.entry b.entry).data ++ b.words }) ∧
      (b.failed = true ∨ f.width ≤ (s.store.entry b.entry).data.length + b.words.length →
        t.store = { s.store with
          entries := t.store.entries, lru := t.store.lru, fillQueue := s.store.fillQueue.erase b.entry
          inFlight := rest.filter (fun x => decide (x.entry ≠ b.entry))
          withdrawn := (s.store.withdrawn.map (fun w => w.erase b.entry)).filter (fun w => decide (w ≠ [])) } ∧
        t.store.lru = if (s.store.entry b.entry).useCount = 0 then s.store.lru ++ [b.entry] else s.store.lru))

/-! ### The memory port -/

/-- The arbiter's choice, in the order of its list, and the starvation counts at a grant: 0 for the requester granted and for those not
waiting, one more, holding at 64, for those that waited. -/
def Obligations.ArbiterTakesTheFirstThatHolds : Prop :=
  ∀ s : State,
    (s.memPort.refreshPending = 8 → s.grantee = some .refresh) ∧
    (s.memPort.refreshPending ≠ 8 → s.waiting .capture = true → s.grantee = some .capture) ∧
    (s.memPort.refreshPending ≠ 8 → s.waiting .capture = false →
      (∀ (before after : List Requester) (r : Requester), [.fill, .system, .probe, .refresh, .report] = before ++ r :: after →
        s.waiting r = true →
        (s.memPort.starvation.count r = 64 → (∀ x ∈ before, s.waiting x = true → s.memPort.starvation.count x ≠ 64) →
          s.grantee = some r) ∧
        ((∀ x, x ≠ .capture → s.waiting x = true → s.memPort.starvation.count x ≠ 64) → (∀ x ∈ before, s.waiting x = false) →
          s.grantee = some r)) ∧
      ((∀ r, s.waiting r = false) → s.grantee = none)) ∧
    (s.memPort.starvation.bounded → ∀ r x : Requester, x ≠ .capture →
      (s.countGrant r).memPort.starvation.count x =
        if x = r then 0 else if s.waiting x = true then min 64 (s.memPort.starvation.count x + 1) else 0)

/-- The write-before-read rule: no read that the arbiter may grant shares a word with a write taken before it and not yet granted. -/
def Obligations.GrantedReadsWaitForEarlierWrites : Prop :=
  ∀ s : State,
    (∀ (port : Port) (q : QueuePosition) (order : Nat), s.phase = .running →
      s.grantee = some (match port with | .capture => .capture | .system => .system) → (s.port port).head = some q →
      q.progress = .readTaken order → ∀ w ∈ s.pendingWrites, w.order < order →
      w.past ≤ firstAddr q.request ∨ endAddr q.request ≤ w.first) ∧
    (∀ (n : Nat) (b : Burst), s.grantee = some .fill → s.store.presented = some (n, b) → ∀ w ∈ s.pendingWrites,
      w.past ≤ b.addr ∨ b.addr + 4 * b.count ≤ w.first) ∧
    (∀ (l : Nat) (role : ProbeRole) (b : Burst), s.grantee = some .probe → s.probe.presented = some (l, role, b) →
      s.capture.queue.length ≤ 4 ∧ ∀ w ∈ s.pendingWrites, w.past ≤ b.addr ∨ b.addr + 4 * b.count ≤ w.first)

/-- A word of a write burst by its enables: all four set it whole, none leaves it, one to three merge the enabled bytes into the checked
stored word, which a failed check leaves as it stands. -/
def Obligations.EnablesDecideTheWordWritten : Prop :=
  ∀ (m : Memory) (index : Nat) (w : WriteWord), m.wf →
    (w.enables = 15#4 → (m.writeWord index w).1.readChecked index = (w.data, .clean) ∧ (m.writeWord index w).2 = .clean) ∧
    (w.enables = 0#4 → m.writeWord index w = (m, .clean)) ∧
    (w.enables ≠ 15#4 → w.enables ≠ 0#4 →
      ((m.readChecked index).2 = .failed → m.writeWord index w = (m, .failed)) ∧
      ((m.readChecked index).2 ≠ .failed →
        (m.writeWord index w).2 = (m.readChecked index).2 ∧
        ((m.writeWord index w).1.readChecked index).2 = .clean ∧
        ∀ i < 4, ((m.writeWord index w).1.readChecked index).1.extractLsb' (8 * i) 8 =
          if w.enables.getLsbD i then w.data.extractLsb' (8 * i) 8 else (m.readChecked index).1.extractLsb' (8 * i) 8)) ∧
    (∀ j, j ≠ index → (m.writeWord index w).1.readChecked j = m.readChecked j)

/-- A word read from DRAM: without error as written; with one bit of its stored image in error corrected, and not rewritten; with more
than one as stored, and failed. -/
def Obligations.ChecksCorrectOneBitAndFailMore : Prop :=
  ∀ (m : Memory) (index : Nat) (w : Word) (f : Flips), m.wf →
    ((m.writeCoded index w).readChecked index = (w, .clean)) ∧
    (flipCount f = 1 → ((m.writeCoded index w).disturb { index := index, flips := f }).readChecked index = (w, .corrected)) ∧
    (2 ≤ flipCount f → ((m.writeCoded index w).disturb { index := index, flips := f }).readChecked index =
      (w ^^^ f.extractLsb' 0 32, .failed))

/-- What a burst's check results leave: no condition where all words are clean; CHECK_CORRECTED where some were corrected and none
failed; CHECK_FAILED alone where some failed; and the first-fault record filled, upgraded to MULTI, or left, as its table gives. -/
def Obligations.CheckErrorsFillTheFirstFaultRecord : Prop :=
  ∀ (r : Requester) (x : Transfer) (addr : Nat) (cs : List CheckResult) (s : State), s.phase ≠ .asserted →
    let t := raiseChecks r x addr cs s
    ((∀ c ∈ cs, c = .clean) → t = s) ∧
    (.failed ∉ cs → .corrected ∈ cs →
      t.cond = s.cond.occur 18 ((Condition.checkCorrected (addr + 4 * cs.findIdx (fun c => decide (c = .corrected))) r x
        (cs.count .corrected) 0).record s.planner.frame) s.statusStands ∧
      t.memPort.firstFault = match s.memPort.firstFault with
        | none => some { addr := word (addr + 4 * cs.findIdx (fun c => decide (c = .corrected))), requester := r, transfer := x
                         multi := false }
        | some f => some f) ∧
    (.failed ∈ cs →
      t.cond = s.cond.occur 19 ((Condition.checkFailed (addr + 4 * cs.findIdx (fun c => decide (c = .failed))) r x
        (cs.count .corrected) (cs.count .failed)).record s.planner.frame) s.statusStands ∧
      t.memPort.firstFault = match s.memPort.firstFault with
        | none => some { addr := word (addr + 4 * cs.findIdx (fun c => decide (c = .failed))), requester := r, transfer := x
                         multi := true }
        | some f => if f.multi then some f
          else some { addr := word (addr + 4 * cs.findIdx (fun c => decide (c = .failed))), requester := r, transfer := x
                      multi := true })

/-- CAPTURE_BURST_GRANT and SYSTEM_BURST_GRANT of a write: its words reach DRAM by their enables, the bytes of every other word read as
before, the position is freed, the starvation counts follow the grant, and check errors of merged words are reported with it (their
moment is log entry 31). -/
def Obligations.GrantedWriteReachesDram : Prop :=
  ∀ (port : Port) (us : List Upset) (q : QueuePosition) (order : Nat) (ws : List WriteWord) (before after : List QueuePosition)
    (s : State), s.phase = .running → s.dram.wf →
    s.grantee = some (match port with | .capture => .capture | .system => .system) → (s.port port).head = some q →
    q.progress = .writeTaken order ws → (s.port port).queue = before ++ q :: after →
    (∀ p ∈ before, p.progress.ungranted ≠ some order) →
    ∃ t, exec (match port with | .capture => .captureBurstGrant us | .system => .systemBurstGrant us) s = .next t ∧
      t.dram = ((s.dram.disturbAll us).writeBurst (firstAddr q.request / 4) ws).1 ∧
      (∀ a, a < firstAddr q.request ∨ firstAddr q.request + 4 * ws.length ≤ a →
        t.dram.readByte a = (s.dram.disturbAll us).readByte a) ∧
      t.port port = { s.port port with queue := before ++ after } ∧
      (let requester : Requester := match port with | .capture => .capture | .system => .system
       let u := raiseChecks requester .merge (firstAddr q.request) ((s.dram.disturbAll us).writeBurst (firstAddr q.request / 4) ws).2
          { s with memPort := { s.memPort with starvation := (s.countGrant requester).memPort.starvation } }
       t.cond = u.cond ∧ t.memPort = u.memPort) ∧
      t = { s with capture := t.capture, system := t.system, dram := t.dram, memPort := t.memPort, cond := t.cond } ∧
      t.port (match port with | .capture => .system | .system => .capture) =
        s.port (match port with | .capture => .system | .system => .capture)

/-- CAPTURE_BURST_GRANT and SYSTEM_BURST_GRANT of a read: its words are taken from DRAM as it stands, corrected where one bit is in
error, and held in the position with the failure mark; DRAM is left as the disturbances leave it; the starvation counts follow the
grant, and check errors are reported with it (their moment is log entry 31). -/
def Obligations.GrantedReadTakesItsWordsFromDram : Prop :=
  ∀ (port : Port) (us : List Upset) (q : QueuePosition) (order : Nat) (before after : List QueuePosition) (s : State),
    s.phase = .running → s.grantee = some (match port with | .capture => .capture | .system => .system) →
    (s.port port).head = some q → q.progress = .readTaken order → (s.port port).queue = before ++ q :: after →
    (∀ p ∈ before, p.progress.ungranted ≠ some order) →
    let read := (List.range q.request.count).map (fun i => (s.dram.disturbAll us).readChecked (firstAddr q.request / 4 + i))
    let granted := Progress.readGranted order (read.map (fun w => w.1)) (read.any (fun w => decide (w.2 = .failed))) 0
    ∃ t, exec (match port with | .capture => .captureBurstGrant us | .system => .systemBurstGrant us) s = .next t ∧
      t.port port = { s.port port with queue := before ++ { q with progress := granted } :: after } ∧
      (let requester : Requester := match port with | .capture => .capture | .system => .system
       let u := raiseChecks requester .read (firstAddr q.request) (read.map (fun w => w.2))
          { s with memPort := { s.memPort with starvation := (s.countGrant requester).memPort.starvation } }
       t.cond = u.cond ∧ t.memPort = u.memPort) ∧
      t.dram = s.dram.disturbAll us ∧
      t = { s with capture := t.capture, system := t.system, dram := t.dram, memPort := t.memPort, cond := t.cond } ∧
      t.port (match port with | .capture => .system | .system => .capture) =
        s.port (match port with | .capture => .system | .system => .capture)

/-- REFRESH_GRANT, where the arbiter grants REFRESH, lowers the pending count by one and moves no data. REFRESH_INTERVAL_EXPIRY in
DECOUPLED mode and REFRESH_REQ_EDGE in COUPLED mode make one addition: below 8 the pending count rises by one, at 8 it stays and
REFRESH_MISSED occurs; the other mode's source is ignored. -/
def Obligations.RefreshesArePendingUntilGranted : Prop :=
  (∀ s : State, s.grantee = some .refresh → exec .refreshGrant s = .next { s with
    memPort := { s.memPort with
      refreshPending := s.memPort.refreshPending - 1, starvation := s.memPort.starvation.grant s.waiting .refresh } }) ∧
  (∀ s : State, s.memPort.refreshPending ≤ 8 → s.phase ≠ .asserted →
    (s.settings.memory.coupled = false → exec .refreshReqEdge s = .next s ∧
      (s.memPort.refreshPending < 8 → exec .refreshIntervalExpiry s = .next { s with
        memPort := { s.memPort with intervalCount := 0, refreshPending := s.memPort.refreshPending + 1 } }) ∧
      (s.memPort.refreshPending = 8 → exec .refreshIntervalExpiry s = .next { s with
        memPort := { s.memPort with intervalCount := 0 },
        cond := s.cond.occur 20 ((Condition.refreshMissed false s.settings.memory.interval).record s.planner.frame)
          s.statusStands })) ∧
    (s.settings.memory.coupled = true → exec .refreshIntervalExpiry s = .next s ∧
      (s.memPort.refreshPending < 8 → exec .refreshReqEdge s = .next { s with
        memPort := { s.memPort with refreshPending := s.memPort.refreshPending + 1 } }) ∧
      (s.memPort.refreshPending = 8 → exec .refreshReqEdge s = .next { s with
        cond := s.cond.occur 20 ((Condition.refreshMissed true s.settings.memory.interval).record s.planner.frame)
          s.statusStands })))

/-! ### Conditions and the report ring -/

/-- An occurrence: the bit of the code is set; a record joins the queue exactly when its mask bit is set, a STATUS window stands, the
queue holds fewer than 8 records and fewer than the ring has free positions; a status write is scheduled where a STATUS window stands;
nothing else changes. Every record is eight words, the first two the code with the source block and the frame number. -/
def Obligations.OccurrenceSetsItsBitAndMayQueueARecord : Prop :=
  ∀ (c : Condition) (s : State), s.phase ≠ .asserted →
    let t := raise c s
    t = { s with cond := t.cond } ∧
    (∀ i < 20, t.cond.occurred.getLsbD i = (s.cond.occurred.getLsbD i || decide (i + 1 = c.code))) ∧
    t.cond.queue = (if s.cond.mask.getLsbD (c.code - 1) = true ∧ (∃ w ∈ s.windows, w.kind = .status) ∧
        s.cond.queue.length < 8 ∧ s.cond.queue.length < (s.cond.readIndex - s.cond.writeIndex - 1).toNat
      then s.cond.queue ++ [c.record s.planner.frame] else s.cond.queue) ∧
    (t.cond.statusPending = true ↔ s.cond.statusPending = true ∨ ∃ w ∈ s.windows, w.kind = .status) ∧
    t.cond = { s.cond with occurred := t.cond.occurred, queue := t.cond.queue, statusPending := t.cond.statusPending } ∧
    1 ≤ c.code ∧ c.code ≤ 20 ∧ (c.record s.planner.frame).length = 8 ∧ bits ((c.record s.planner.frame).getD 0 0) 0 8 = c.code ∧
    bits ((c.record s.planner.frame).getD 0 0) 8 8 = c.source ∧ (c.record s.planner.frame).getD 1 0 = s.planner.frame

/-- ATTENTION is asserted exactly while some code has its occurred bit and its mask bit set, and RESET is not asserted. -/
def Obligations.AttentionFollowsEnabledOccurredBits : Prop :=
  ∀ s : State, s.attention = true ↔
    s.phase ≠ .asserted ∧ ∃ i < 20, s.cond.occurred.getLsbD i = true ∧ s.cond.mask.getLsbD i = true

/-- RECORD_BURST_GRANT and STATUS_BLOCK_GRANT, the choice: where REPORT has chosen nothing, the oldest record is chosen unless its
position is the read index, and a pending status write where no record can be; nothing else changes. -/
def Obligations.ReportChoosesTheOldestRecordFirst : Prop :=
  ∀ s : State, s.phase ≠ .asserted → s.statusStands = true → s.cond.chosen = none →
    (s.cond.queue ≠ [] → s.cond.writeIndex + 1 ≠ s.cond.readIndex →
      exec (.recordBurstGrant .choose) s = .next { s with cond := { s.cond with chosen := some .record } } ∧
      exec (.statusBlockGrant .choose) s = .next s) ∧
    (s.cond.queue = [] ∨ s.cond.writeIndex + 1 = s.cond.readIndex → s.cond.statusPending = true →
      exec (.statusBlockGrant .choose) s = .next { s with cond := { s.cond with chosen := some .status } } ∧
      exec (.recordBurstGrant .choose) s = .next s)

/-- RECORD_BURST_GRANT, the grant: the oldest record stands at the next ring position, DRAM outside its 32 bytes reads as before, the
record leaves the queue, the write index becomes that position, and a status write is scheduled. No record is written into the position
equal to the report read index. -/
def Obligations.RecordGrantWritesTheNextRingPosition : Prop :=
  (∀ (record : List Word) (rest : List (List Word)) (s : State), s.dram.wf → s.grantee = some .report →
    s.cond.presented = some .record → s.cond.queue = record :: rest → s.cond.recordsOk → s.windowsOk →
    ∃ t, exec (.recordBurstGrant .grant) s = .next t ∧
      (∀ i < 8, (t.dram.readChecked ((s.statusBase + 0x100 + 32 * (s.cond.writeIndex + 1).toNat) / 4 + i)).1 = record.getD i 0) ∧
      (∀ a, a < s.statusBase + 0x100 + 32 * (s.cond.writeIndex + 1).toNat ∨
        s.statusBase + 0x100 + 32 * (s.cond.writeIndex + 1).toNat + 32 ≤ a → t.dram.readByte a = s.dram.readByte a) ∧
      t.cond = { s.cond with
        queue := rest, writeIndex := s.cond.writeIndex + 1, chosen := none, statusPending := true } ∧
      t = { s with dram := t.dram, cond := t.cond, memPort := { s.memPort with starvation := t.memPort.starvation } }) ∧
  (∀ s t : State, s.dram.wf → s.cond.ringOk → s.cond.recordsOk → s.windowsOk →
    exec (.recordBurstGrant .grant) s = .next t → ∀ i < 32,
      t.dram.readByte (s.statusBase + 0x100 + 32 * s.cond.readIndex.toNat + i) =
        s.dram.readByte (s.statusBase + 0x100 + 32 * s.cond.readIndex.toNat + i))

/-- STATUS_BLOCK_GRANT, the grant: the 32 words of the block stand at the STATUS window's base with the state as it stands, DRAM outside
them reads as before, the flag clears, and the block number increases by one. That words 3 and 4 are zero while the first-fault record
is not valid is the model's reading (log entry 22). -/
def Obligations.StatusGrantWritesTheBlock : Prop :=
  ∀ s : State,
    let flag := fun (b : Bool) (n : Nat) => if b then n else 0
    let requester : Requester → Nat := fun r => match r with
      | .refresh => 0
      | .capture => 1
      | .fill => 2
      | .system => 3
      | .probe => 4
      | .report => 5
    let transfer : Transfer → Nat := fun x => match x with
      | .read => 0
      | .merge => 1
      | .reload => 2
    let firstFault : Nat × Word := match s.memPort.firstFault with
      | none => (0, 0)
      | some f => (1 + flag f.multi (2 ^ 1) + requester f.requester * 2 ^ 8 + transfer f.transfer * 2 ^ 16, f.addr)
    let acquisition : Nat := match s.monitor.acquisition with
      | .off => 0
      | .acquiring => 1
      | .acquired => 2
      | .failed => 3
    let lines : Nat := match s.settings.ingest, s.monitor.acquisition with
      | some g, .off => g.l
      | some _, .acquired => s.monitor.acquiredL
      | _, _ => 0
    let mode : Nat := match s.cadence.mode with
      | .video => 0
      | .locked22 => 1
      | .locked32 => 2
    let method : Method → Nat := fun m => match m with
      | .weave => 1
      | .blend => 2
      | .spatial => 3
      | .fill => 4
    let offset : Option PartnerRole → Nat := fun p => match p with
      | none => 0
      | some p => if p.after then 1 else 3
    let plan : Nat := match s.planner.plan with
      | none => 0
      | some p => method p.method + flag p.repeated (2 ^ 8) + flag p.anchorLost (2 ^ 9) + flag p.partnerLost (2 ^ 10) +
          flag p.motionLost (2 ^ 11) + offset p.partner * 2 ^ 16
    s.dram.wf → s.grantee = some .report → s.cond.presented = some .status → s.windowsOk →
    ∃ t, exec (.statusBlockGrant .grant) s = .next t ∧
      (∀ i < 32, (t.dram.readChecked (s.statusBase / 4 + i)).1 =
        ([s.cond.occurred.setWidth 32, word (s.cond.writeIndex.toNat + s.cond.readIndex.toNat * 256), s.cond.mask.setWidth 32,
          word firstFault.1, firstFault.2, word (acquisition + lines % 2 ^ 9 * 2 ^ 16),
          word (mode + s.cadence.c22 % 2 ^ 6 * 2 ^ 8 + s.cadence.episode % 2 ^ 16 * 2 ^ 16), s.planner.frame, word plan,
          (match s.planner.plan.bind (fun p => p.anchor) with
            | some a => a.field
            | none => 0),
          (match s.planner.plan.bind (fun p => p.partner) with
            | some a => a.field
            | none => 0),
          word s.history.records.length,
          (s.history.newest.map (fun r => r.number)).getD 0, (s.history.newest.map (fun r => r.captureCount)).getD 0,
          s.cond.blockNumber + 1].getD i 0)) ∧
      (∀ a, a < s.statusBase ∨ s.statusBase + 128 ≤ a → t.dram.readByte a = s.dram.readByte a) ∧
      t.cond = { s.cond with statusPending := false, blockNumber := s.cond.blockNumber + 1, chosen := none } ∧
      t = { s with dram := t.dram, cond := t.cond, memPort := { s.memPort with starvation := t.memPort.starvation } }

/-! ### The control page and settings -/

/-- A control-page write at its take, under the row that names what it touches: the pending copy takes the enabled bytes, the groups
touched become pending, the clear word, the read index and the mask act in address order, the position waits for its grant, and a hold
word left zero releases the hold. That every row performs the whole take (log entry 15), that enable j names byte j (log entry 8) and
that a word is touched whatever its enables (log entry 18) are the model's. -/
def Obligations.PageWritesActAtTheirTake : Prop :=
  ∀ (before after : List QueuePosition) (q : QueuePosition) (words : List WriteWord) (s : State), s.phase = .running →
    s.system.queue = before ++ q :: after → (∀ p ∈ before, s.systemTurn p = false) → s.systemTurn q = true →
    s.judge .system q.request = .toSettings → q.request.body = .write words → sparseWf (0 : Word) s.settings.copy →
    let first := firstAddr q.request - s.pageBase
    let touched := fun (lo past : Nat) => ∃ i < words.length, lo ≤ first + 4 * i ∧ first + 4 * i < past
    ∃ u t : State,
      (∀ i, ∀ j < 4, (u.settings.at (4 * i)).extractLsb' (8 * j) 8 = match words[i - first / 4]? with
        | some w => if first / 4 ≤ i ∧ w.enables.getLsbD j = true then w.data.extractLsb' (8 * j) 8
            else (s.settings.at (4 * i)).extractLsb' (8 * j) 8
        | none => (s.settings.at (4 * i)).extractLsb' (8 * j) 8) ∧
      (u.settings.memoryPending = true ↔ s.settings.memoryPending = true ∨ touched 0x010 0x020) ∧
      (u.settings.windowPending = true ↔ s.settings.windowPending = true ∨ touched 0x040 0x0C0) ∧
      (u.settings.ingestPending = true ↔ s.settings.ingestPending = true ∨ touched 0x100 0x140) ∧
      (u.settings.outputPending = true ↔ s.settings.outputPending = true ∨ touched 0x200 0x240 ∨ touched 0x300 0x380) ∧
      (touched 0x004 0x008 → u.cond.occurred = s.cond.occurred &&& ~~~ (u.settings.at 0x004).extractLsb' 0 20 ∧
        ((u.settings.at 0x004).getLsbD 31 = true → u.memPort.firstFault = none) ∧
        ((u.settings.at 0x004).getLsbD 31 = false → u.memPort.firstFault = s.memPort.firstFault)) ∧
      (¬ touched 0x004 0x008 → u.cond.occurred = s.cond.occurred ∧ u.memPort.firstFault = s.memPort.firstFault) ∧
      (touched 0x008 0x00C → u.cond.readIndex.toNat = (u.settings.at 0x008).toNat % 64 ∧
        u.cond.chosen = if s.cond.chosen = some .record ∧ s.cond.writeIndex + 1 = u.cond.readIndex then none else s.cond.chosen) ∧
      (¬ touched 0x008 0x00C → u.cond.readIndex = s.cond.readIndex ∧ u.cond.chosen = s.cond.chosen) ∧
      (touched 0x00C 0x010 → u.cond.mask = (u.settings.at 0x00C).extractLsb' 0 20) ∧
      (¬ touched 0x00C 0x010 → u.cond.mask = s.cond.mask) ∧
      (u.cond.statusPending = true ↔ s.cond.statusPending = true ∨ (s.statusStands = true ∧ touched 0x004 0x010)) ∧
      u.cond = { s.cond with
        occurred := u.cond.occurred, mask := u.cond.mask, readIndex := u.cond.readIndex, chosen := u.cond.chosen
        statusPending := u.cond.statusPending } ∧
      u = { s with
        takes := s.takes + 1
        system := { s.system with
          queue := before ++ { q with progress := .writeTaken s.takes words } :: after
          acks := s.system.acks ++ [{ tag := q.request.tag, body := .writeStatus .ok }] }
        settings := { s.settings with
          copy := u.settings.copy, memoryPending := u.settings.memoryPending, windowPending := u.settings.windowPending
          ingestPending := u.settings.ingestPending, outputPending := u.settings.outputPending }
        memPort := { s.memPort with firstFault := u.memPort.firstFault }
        cond := u.cond } ∧
      (touched 0x000 0x004 → u.settings.at 0x000 = 0 → t = holdRelease u) ∧
      (¬ (touched 0x000 0x004 ∧ u.settings.at 0x000 = 0) → t = u) ∧
      (touched 0x000 0x004 → exec .holdWordWrite s = .next t) ∧
      (touched 0x004 0x008 → (u.settings.at 0x004).extractLsb' 0 20 ≠ 0 → exec .clearOccurredBits s = .next t) ∧
      (touched 0x004 0x008 → (u.settings.at 0x004).getLsbD 31 = true → exec .clearFirstFaultRecord s = .next t) ∧
      (touched 0x008 0x00C → exec .reportReadIndexWrite s = .next t) ∧
      (touched 0x00C 0x010 → exec .reportMaskWrite s = .next t) ∧
      (touched 0x010 0x1000 → exec .controlPageWrite s = .next t) ∧
      (touched 0x004 0x008 → (u.settings.at 0x004).extractLsb' 0 20 = 0 → (u.settings.at 0x004).getLsbD 31 = false →
        exec .controlPageWrite s = .next t)

/-- A hold release loads the pending groups in the order memory, window, ingest, output. The memory group takes its mode and its clamped
interval; the interval timer stands at 0 where the old or the new mode is COUPLED, and runs on between two DECOUPLED ones, but for a
changed interval that its count has reached: then it starts again from 0 with one refresh addition, lost with REFRESH_MISSED at 8
pending (after SETTING_ADJUSTED: log entry 28). A window load installs each of the 8 entries written, its base and size rounded down to
64 KiB, where the size is not zero and the entry lies in the address space, off the control page and, but for OUTPUT, within DRAM, and
no entry before it has its kind, unless GUARD; an entry that fails, or is written OFF, is OFF. A window that stood and is moved, resized
or removed (log entry 17) acts on other blocks: the FIELD_RING window makes an ingest geometry change (GeometryChanged; granted bursts
of the fills it voids are discarded at once: log entry 30), the OUTPUT window sets the plan to NONE, whose later-row flag then stands as
it was (log entry 39), and the STATUS window's removal empties the report queue; a STATUS window installed or moved schedules a status
write; the ring's indices are kept. -/
def Obligations.HoldReleaseLoadsMemoryAndWindows : Prop :=
  (∀ s : State,
    let s1 := if s.settings.memoryPending = true then loadMemory s else s
    let s2 := if s1.settings.windowPending = true then loadWindow s1 else s1
    let s3 := if s2.settings.ingestPending = true ∧ s2.history.filling = none then loadIngest s2 else s2
    holdRelease s = if s3.settings.outputPending = true ∧ s3.planner.plan = none then loadOutput s3 else s3) ∧
  (∀ s : State, s.phase ≠ .asserted →
    let t := loadMemory s
    let n := (s.settings.at 0x014).toNat
    t.settings = { s.settings with
      memory := { coupled := (s.settings.at 0x010).getLsbD 0, interval := if n < 100 then 100 else if 65535 < n then 65535 else n }
      memoryPending := false } ∧
    (n < 100 ∨ 65535 < n → t.cond.occurred.getLsbD 15 = true) ∧
    (let old := s.settings.memory
     let new := t.settings.memory
     let count := s.memPort.intervalCount
     let due := old.coupled = false ∧ new.coupled = false ∧ new.interval ≠ old.interval ∧ new.interval ≤ count
     let u := raiseAll (if n < 100 ∨ 65535 < n then [.settingAdjusted (s.pageBase + 0x014) n new.interval] else []) { s with
       settings := t.settings
       memPort := { s.memPort with intervalCount := if old.coupled = true ∨ new.coupled = true ∨ due then 0 else count } }
     (¬ due → t = u) ∧
     (due → (s.memPort.refreshPending < 8 → t = { u with memPort := { u.memPort with
           refreshPending := s.memPort.refreshPending + 1 } }) ∧
       (8 ≤ s.memPort.refreshPending → t = raise (.refreshMissed false new.interval) u)))) ∧
  (∀ s : State,
    let t := loadWindow s
    t.settings.windowPending = false ∧ t.windows.length = 8 ∧
    (windowKindOf 1 = .fieldRing ∧ windowKindOf 2 = .output ∧ windowKindOf 3 = .status ∧ windowKindOf 4 = .guard ∧
      ∀ n, n = 0 ∨ 5 ≤ n → windowKindOf n = .off) ∧
    (∀ i < 8,
      let base := (s.settings.at (0x040 + 16 * i)).toNat / 65536 * 65536
      let size := (s.settings.at (0x044 + 16 * i)).toNat / 65536 * 65536
      let kind := windowKindOf ((s.settings.at (0x048 + 16 * i)).toNat % 8)
      let passes := size ≠ 0 ∧ base + size ≤ 2 ^ 32 ∧ (base + size ≤ s.pageBase ∨ s.pageBase + 4096 ≤ base) ∧
        (kind ≠ .output → base + size ≤ s.dramSize) ∧ (kind ≠ .guard → ∀ e ∈ t.windows.take i, e.kind ≠ kind)
      (kind ≠ .off → passes → t.windows[i]? = some { base := base, size := size, kind := kind }) ∧
      (kind = .off ∨ ¬ passes → ∃ e, t.windows[i]? = some e ∧ e.kind = .off)) ∧
    (∀ e ∈ t.windows, e.kind ≠ .off → e.base % 65536 = 0 ∧ e.size % 65536 = 0 ∧ 65536 ≤ e.size ∧ e.base + e.size ≤ 2 ^ 32 ∧
      (e.base + e.size ≤ s.pageBase ∨ s.pageBase + 4096 ≤ e.base) ∧ (e.kind ≠ .output → e.base + e.size ≤ s.dramSize)) ∧
    ∀ k, k = .fieldRing ∨ k = .output ∨ k = .status → (t.windows.filter (fun e => decide (e.kind = k))).length ≤ 1) ∧
  (∀ s : State,
    let t := loadWindow s
    let moved := fun (k : WindowKind) => ∃ b, s.window k = some b ∧ ∀ a, t.window k = some a → a.base ≠ b.base ∨ a.size ≠ b.size
    (moved .fieldRing → GeometryChanged s t) ∧
    (¬ moved .fieldRing → t.monitor = s.monitor ∧ t.cadence = s.cadence ∧ t.probe = s.probe ∧ t.store = s.store ∧
      (moved .output → t.planner = { s.planner with plan := none } ∧ t.history = s.history.reference none) ∧
      (¬ moved .output → t.planner = s.planner ∧ t.history = s.history)) ∧
    (s.window .status ≠ none → t.window .status = none →
      t.cond.queue = [] ∧ t.cond.statusPending = false ∧ t.cond.chosen = none) ∧
    (s.window .status = none → t.window .status = none →
      t.cond.queue = s.cond.queue ∧ t.cond.statusPending = s.cond.statusPending ∧ t.cond.chosen = s.cond.chosen) ∧
    (∀ a, t.window .status = some a → (∃ new, t.cond.queue = s.cond.queue ++ new) ∧ t.cond.chosen = s.cond.chosen ∧
      ((∀ b, s.window .status = some b → b.base ≠ a.base) → t.cond.statusPending = true)) ∧
    t.cond.writeIndex = s.cond.writeIndex ∧ t.cond.readIndex = s.cond.readIndex ∧ t.cond.mask = s.cond.mask ∧
    t.cond.blockNumber = s.cond.blockNumber ∧
    t = { s with
      windows := t.windows, settings := { s.settings with windowPending := false }, monitor := t.monitor, planner := t.planner
      history := t.history, store := t.store, probe := t.probe, cadence := t.cadence, cond := t.cond })

/-- A load of the ingest or output group that fails a check leaves the working values, clears the pending flag and raises
SETTING_REFUSED; one that passes installs the values as written, rounded, defaulted and clamped, the ladder pairs as their values. Where
the select is CUSTOM the custom rows are loaded, a row that fails its check being replaced by its DEFAULT row; else they stand. An
ingest load with AUTO, another geometry or none before it makes a geometry change; any other lowers c22 to the new E22, and the stall
timer expires at once where its count has reached the new limit. The granted bursts of the fills a geometry change voids are discarded
at once (log entry 30). The pitch that results from one written above 0xFFFFFFC0 is the model's own (log entry 35). -/
def Obligations.RefusedGroupsLeaveTheWorkingValues : Prop :=
  (∀ s : State, s.phase ≠ .asserted →
    let g := s.settings.ingestWords
    let sizes := fun (size : Nat) => (256 ≤ g.w.toNat ∧ g.w.toNat ≤ 1024 ∧ g.w.toNat % 2 = 0) ∧
      (g.l = 0 ∨ (120 ≤ g.l.toNat ∧ g.l.toNat ≤ 320)) ∧ (4 ≤ g.k.toNat ∧ g.k.toNat ≤ 8) ∧
      (g.linePitch.toNat % 64 = 0 ∧ (g.w.toNat + 1) * 4 ≤ g.linePitch.toNat) ∧
      (g.slotPitch.toNat % 64 = 0 ∧ 64 + (if g.l = 0 then 120 else g.l.toNat) * g.linePitch.toNat ≤ g.slotPitch.toNat) ∧
      g.k.toNat * g.slotPitch.toNat ≤ size
    let t := loadIngest s
    ((∀ w, s.window .fieldRing = some w → ¬ sizes w.size) →
      t = { s with settings := { s.settings with ingestPending := false }, cond := t.cond } ∧
        t.cond.occurred.getLsbD 16 = true) ∧
    (∀ w, s.window .fieldRing = some w → sizes w.size →
      let new : IngestGroup :=
        { w := g.w.toNat, l := g.l.toNat, k := g.k.toNat, slotPitch := g.slotPitch.toNat, linePitch := g.linePitch.toNat
          stallLimit := if g.stallLimit = 0 then 21 else max 18 (min g.stallLimit.toNat 24)
          e22 := if g.e22 = 0 then 8 else max 4 (min g.e22.toNat 32)
          allow22 := g.allow.getLsbD 0, allow32 := g.allow.getLsbD 1
          floorF := if g.floorF = 0 then 8 else ladder g.floorF
          thresholdR := if g.thresholdR = 0 then 4 else ladder g.thresholdR }
      let same := new.l ≠ 0 ∧ ∃ o, s.settings.ingest = some o ∧ new.w = o.w ∧ new.l = o.l ∧ new.k = o.k ∧
        new.slotPitch = o.slotPitch ∧ new.linePitch = o.linePitch
      let clamped := (g.stallLimit ≠ 0 ∧ (g.stallLimit.toNat < 18 ∨ 24 < g.stallLimit.toNat)) ∨
        (g.e22 ≠ 0 ∧ (g.e22.toNat < 4 ∨ 32 < g.e22.toNat))
      let expires := s.monitor.timerRunning = true ∧ 2 ^ new.stallLimit ≤ s.monitor.timerCount
      t.settings = { s.settings with ingest := some new, ingestPending := false } ∧
      (clamped → t.cond.occurred.getLsbD 15 = true) ∧
      (¬ same → GeometryChanged s t ∧ t = { s with
        settings := t.settings, monitor := t.monitor, planner := t.planner, history := t.history, store := t.store
        probe := t.probe, cadence := t.cadence, cond := t.cond }) ∧
      (same → ∃ v : State, (¬ clamped → v.cond = s.cond) ∧ v = { s with
          settings := t.settings, cadence := { s.cadence with c22 := min s.cadence.c22 new.e22 }, cond := v.cond } ∧
        (expires → exec .stallTimerExpiry v = .next t) ∧ (¬ expires → t = v)))) ∧
  (∀ s : State, s.phase ≠ .asserted →
    let g := s.settings.outputWords
    let x0 := g.x0.toNat - g.x0.toNat % 2
    let wi := g.wi.toNat - g.wi.toNat % 2
    let passes := (640 ≤ g.wo.toNat ∧ g.wo.toNat ≤ 2048 ∧ g.wo.toNat % 2 = 0) ∧ (240 ≤ g.ho.toNat ∧ g.ho.toNat ≤ 1080) ∧
      2 ≤ wi ∧ 1 ≤ g.hi.toNat ∧ x0 + wi ≤ g.wo.toNat ∧ g.y0.toNat + g.hi.toNat ≤ g.ho.toNat
    let fill := fun (w : Word) (dflt : Nat) => if w = 0 then dflt else max 4 (min w.toNat 1019)
    let low := if g.tLo = 0 then 16 else ladder g.tLo
    let high := if g.tHi = 0 then 64 else ladder g.tHi
    let t := loadOutput s
    (¬ passes → t = { s with settings := { s.settings with outputPending := false }, cond := t.cond } ∧
      t.cond.occurred.getLsbD 16 = true) ∧
    (passes → t.settings.outputPending = false ∧
      (g.select.getLsbD 0 = false → t.settings.customRows = s.settings.customRows) ∧
      (g.select.getLsbD 0 = true → t.settings.customRows = (List.range 16).map (fun p =>
        let a := s.settings.at (0x300 + 8 * p)
        let b := s.settings.at (0x304 + 8 * p)
        let c0 := (a.extractLsb' 0 16).toInt
        let c1 := (a.extractLsb' 16 16).toInt
        let c2 := (b.extractLsb' 0 16).toInt
        let c3 := (b.extractLsb' 16 16).toInt
        if (∀ c ∈ [c0, c1, c2, c3], -128 ≤ c ∧ c ≤ 383) ∧ c0 + c1 + c2 + c3 = 256 then { c0 := c0, c1 := c1, c2 := c2, c3 := c3 }
        else { c0 := 0, c1 := 256 - 16 * (p : Int), c2 := 16 * (p : Int), c3 := 0 })) ∧
      ∃ pitch, t.settings.output = some
          { wo := g.wo.toNat, ho := g.ho.toNat, pitch := pitch, x0 := x0, y0 := g.y0.toNat, wi := wi, hi := g.hi.toNat
            fillY := fill g.fillY 64, fillC := fill g.fillC 512, tLo := low, tHi := if high ≤ low then low + 1 else high
            override := match g.override.toNat % 4 with
              | 1 => .noWeave
              | 2 => .spatialOnly
              | _ => .auto
            custom := g.select.getLsbD 0 } ∧
        pitch % 64 = 0 ∧ g.wo.toNat * 4 ≤ pitch ∧ g.pitch.toNat ≤ pitch ∧
        (∀ n, g.pitch.toNat ≤ n → g.wo.toNat * 4 ≤ n → n % 64 = 0 → pitch ≤ n) ∧
        t = { s with settings := t.settings, cond := t.cond })) ∧
  (∀ w : Word,
    let n := w.toNat / 2 ^ 8 % 16
    (w.toNat % 4 = 0 → ladder w = 2 * (n + 1)) ∧ (w.toNat % 4 = 1 → ladder w = 4 * (n + 1)) ∧
    (w.toNat % 4 = 2 → ladder w = 32 + 4 * (n + 1)) ∧ (w.toNat % 4 = 3 → ladder w = 64 + 8 * (n + 1)))


/-! ### The invariants of every step -/

/-- Every step keeps the memories canonical, the queues and counts within their capacities, at most four output reads counted, the
report ring and its records, the windows aligned, the probe unit and the cadence detector in range with c22 within E22, and the laws of
the line store over the reads in flight: use counts, the two orderings and one entry for each tag. In such a state every step answers a
next state, and at most 48 entries are in use. And every step keeps the laws of the field history and of the plan, where no record
carries the next field number: at most K records, in slots and with numbers of their own, one of them FILLING, and the plan's roles
naming different records that are present. The last premise is the spec's own reading of the numbers (log entry 36). -/
def Obligations.StepKeepsTheDeviceInBounds : Prop :=
  (∀ s t : State, s.deviceOk → step s = .next t → t.deviceOk) ∧
  (∀ s : State, s.deviceOk → (∃ t, step s = .next t) ∧
    (s.store.entries.filter (fun e => decide (e.useCount ≠ 0))).length ≤ 48) ∧
  (∀ s t : State, s.historyOk → s.numberFree → step s = .next t → t.historyOk)

/-- Every step keeps the working output group, the coefficient rows, the plan's snapshot and the output reads in flight in range. -/
def Obligations.StepKeepsTheOutputInRange : Prop :=
  ∀ s t : State, s.outputOk → step s = .next t → t.outputOk

/-- What every step keeps holds after power-on, whatever the straps, and after the assertion of warm RESET. -/
def Obligations.PowerOnAndResetMeetTheInvariants : Prop :=
  State.reset.deviceOk ∧ State.reset.outputOk ∧ State.reset.historyOk ∧
  (∀ (d : BitVec 2) (c : BitVec 3), (State.powerOn d c).deviceOk ∧ (State.powerOn d c).outputOk ∧ (State.powerOn d c).historyOk) ∧
  ∀ s t : State, s.deviceOk → exec .warmResetAssert s = .next t → t.deviceOk ∧ t.outputOk ∧ t.historyOk

end
end

