-- ==== Sys2Proof/Laws/State.lean ====
section
/-! SUPPORT. What each shared update of the state leaves alone, one lemma per field, and what it writes. -/

namespace Sys2Proof.Machine

/-! ### raise: the condition unit only -/

@[simp] theorem raise_pending (c : Condition) (s : State) : (raise c s).pending = s.pending := rfl
@[simp] theorem raise_phase (c : Condition) (s : State) : (raise c s).phase = s.phase := rfl
@[simp] theorem raise_straps (c : Condition) (s : State) : (raise c s).straps = s.straps := rfl
@[simp] theorem raise_capture (c : Condition) (s : State) : (raise c s).capture = s.capture := rfl
@[simp] theorem raise_system (c : Condition) (s : State) : (raise c s).system = s.system := rfl
@[simp] theorem raise_takes (c : Condition) (s : State) : (raise c s).takes = s.takes := rfl
@[simp] theorem raise_windows (c : Condition) (s : State) : (raise c s).windows = s.windows := rfl
@[simp] theorem raise_monitor (c : Condition) (s : State) : (raise c s).monitor = s.monitor := rfl
@[simp] theorem raise_history (c : Condition) (s : State) : (raise c s).history = s.history := rfl
@[simp] theorem raise_probe (c : Condition) (s : State) : (raise c s).probe = s.probe := rfl
@[simp] theorem raise_cadence (c : Condition) (s : State) : (raise c s).cadence = s.cadence := rfl
@[simp] theorem raise_planner (c : Condition) (s : State) : (raise c s).planner = s.planner := rfl
@[simp] theorem raise_store (c : Condition) (s : State) : (raise c s).store = s.store := rfl
@[simp] theorem raise_memPort (c : Condition) (s : State) : (raise c s).memPort = s.memPort := rfl
@[simp] theorem raise_settings (c : Condition) (s : State) : (raise c s).settings = s.settings := rfl
@[simp] theorem raise_dram (c : Condition) (s : State) : (raise c s).dram = s.dram := rfl

/-! ### raiseAll: the condition unit only -/

/-- Conditions in order change the condition unit only. -/
theorem raiseAll_eq (cs : List Condition) (s : State) : raiseAll cs s = { s with cond := (raiseAll cs s).cond } := by
  induction cs generalizing s with
  | nil => rfl
  | cons c cs ih => exact ih (raise c s)

@[simp] theorem raiseAll_pending (cs : List Condition) (s : State) : (raiseAll cs s).pending = s.pending := by rw [raiseAll_eq]
@[simp] theorem raiseAll_phase (cs : List Condition) (s : State) : (raiseAll cs s).phase = s.phase := by rw [raiseAll_eq]
@[simp] theorem raiseAll_straps (cs : List Condition) (s : State) : (raiseAll cs s).straps = s.straps := by rw [raiseAll_eq]
@[simp] theorem raiseAll_capture (cs : List Condition) (s : State) : (raiseAll cs s).capture = s.capture := by rw [raiseAll_eq]
@[simp] theorem raiseAll_system (cs : List Condition) (s : State) : (raiseAll cs s).system = s.system := by rw [raiseAll_eq]
@[simp] theorem raiseAll_takes (cs : List Condition) (s : State) : (raiseAll cs s).takes = s.takes := by rw [raiseAll_eq]
@[simp] theorem raiseAll_windows (cs : List Condition) (s : State) : (raiseAll cs s).windows = s.windows := by rw [raiseAll_eq]
@[simp] theorem raiseAll_monitor (cs : List Condition) (s : State) : (raiseAll cs s).monitor = s.monitor := by rw [raiseAll_eq]
@[simp] theorem raiseAll_history (cs : List Condition) (s : State) : (raiseAll cs s).history = s.history := by rw [raiseAll_eq]
@[simp] theorem raiseAll_probe (cs : List Condition) (s : State) : (raiseAll cs s).probe = s.probe := by rw [raiseAll_eq]
@[simp] theorem raiseAll_cadence (cs : List Condition) (s : State) : (raiseAll cs s).cadence = s.cadence := by rw [raiseAll_eq]
@[simp] theorem raiseAll_planner (cs : List Condition) (s : State) : (raiseAll cs s).planner = s.planner := by rw [raiseAll_eq]
@[simp] theorem raiseAll_store (cs : List Condition) (s : State) : (raiseAll cs s).store = s.store := by rw [raiseAll_eq]
@[simp] theorem raiseAll_memPort (cs : List Condition) (s : State) : (raiseAll cs s).memPort = s.memPort := by rw [raiseAll_eq]
@[simp] theorem raiseAll_settings (cs : List Condition) (s : State) : (raiseAll cs s).settings = s.settings := by rw [raiseAll_eq]
@[simp] theorem raiseAll_dram (cs : List Condition) (s : State) : (raiseAll cs s).dram = s.dram := by rw [raiseAll_eq]

/-! ### scheduleStatus: the condition unit only -/

@[simp] theorem scheduleStatus_pending (s : State) : (scheduleStatus s).pending = s.pending := rfl
@[simp] theorem scheduleStatus_phase (s : State) : (scheduleStatus s).phase = s.phase := rfl
@[simp] theorem scheduleStatus_straps (s : State) : (scheduleStatus s).straps = s.straps := rfl
@[simp] theorem scheduleStatus_capture (s : State) : (scheduleStatus s).capture = s.capture := rfl
@[simp] theorem scheduleStatus_system (s : State) : (scheduleStatus s).system = s.system := rfl
@[simp] theorem scheduleStatus_takes (s : State) : (scheduleStatus s).takes = s.takes := rfl
@[simp] theorem scheduleStatus_windows (s : State) : (scheduleStatus s).windows = s.windows := rfl
@[simp] theorem scheduleStatus_monitor (s : State) : (scheduleStatus s).monitor = s.monitor := rfl
@[simp] theorem scheduleStatus_history (s : State) : (scheduleStatus s).history = s.history := rfl
@[simp] theorem scheduleStatus_probe (s : State) : (scheduleStatus s).probe = s.probe := rfl
@[simp] theorem scheduleStatus_cadence (s : State) : (scheduleStatus s).cadence = s.cadence := rfl
@[simp] theorem scheduleStatus_planner (s : State) : (scheduleStatus s).planner = s.planner := rfl
@[simp] theorem scheduleStatus_store (s : State) : (scheduleStatus s).store = s.store := rfl
@[simp] theorem scheduleStatus_memPort (s : State) : (scheduleStatus s).memPort = s.memPort := rfl
@[simp] theorem scheduleStatus_settings (s : State) : (scheduleStatus s).settings = s.settings := rfl
@[simp] theorem scheduleStatus_dram (s : State) : (scheduleStatus s).dram = s.dram := rfl

/-! ### setPort: one port -/

@[simp] theorem setPort_pending (s : State) (x : Port) (p : PortState) : (s.setPort x p).pending = s.pending := by cases x <;> rfl
@[simp] theorem setPort_phase (s : State) (x : Port) (p : PortState) : (s.setPort x p).phase = s.phase := by cases x <;> rfl
@[simp] theorem setPort_straps (s : State) (x : Port) (p : PortState) : (s.setPort x p).straps = s.straps := by cases x <;> rfl
@[simp] theorem setPort_takes (s : State) (x : Port) (p : PortState) : (s.setPort x p).takes = s.takes := by cases x <;> rfl
@[simp] theorem setPort_windows (s : State) (x : Port) (p : PortState) : (s.setPort x p).windows = s.windows := by cases x <;> rfl
@[simp] theorem setPort_monitor (s : State) (x : Port) (p : PortState) : (s.setPort x p).monitor = s.monitor := by cases x <;> rfl
@[simp] theorem setPort_history (s : State) (x : Port) (p : PortState) : (s.setPort x p).history = s.history := by cases x <;> rfl
@[simp] theorem setPort_probe (s : State) (x : Port) (p : PortState) : (s.setPort x p).probe = s.probe := by cases x <;> rfl
@[simp] theorem setPort_cadence (s : State) (x : Port) (p : PortState) : (s.setPort x p).cadence = s.cadence := by cases x <;> rfl
@[simp] theorem setPort_planner (s : State) (x : Port) (p : PortState) : (s.setPort x p).planner = s.planner := by cases x <;> rfl
@[simp] theorem setPort_store (s : State) (x : Port) (p : PortState) : (s.setPort x p).store = s.store := by cases x <;> rfl
@[simp] theorem setPort_memPort (s : State) (x : Port) (p : PortState) : (s.setPort x p).memPort = s.memPort := by cases x <;> rfl
@[simp] theorem setPort_settings (s : State) (x : Port) (p : PortState) : (s.setPort x p).settings = s.settings := by cases x <;> rfl
@[simp] theorem setPort_cond (s : State) (x : Port) (p : PortState) : (s.setPort x p).cond = s.cond := by cases x <;> rfl
@[simp] theorem setPort_dram (s : State) (x : Port) (p : PortState) : (s.setPort x p).dram = s.dram := by cases x <;> rfl
@[simp] theorem setPort_capture_capture (s : State) (p : PortState) : (s.setPort .capture p).capture = p := rfl
@[simp] theorem setPort_capture_system (s : State) (p : PortState) : (s.setPort .capture p).system = s.system := rfl
@[simp] theorem setPort_system_capture (s : State) (p : PortState) : (s.setPort .system p).capture = s.capture := rfl
@[simp] theorem setPort_system_system (s : State) (p : PortState) : (s.setPort .system p).system = p := rfl
@[simp] theorem port_setPort (s : State) (x : Port) (p : PortState) : (s.setPort x p).port x = p := by cases x <;> rfl

/-! ### countGrant: the memory port only -/

@[simp] theorem countGrant_pending (s : State) (r : Requester) : (s.countGrant r).pending = s.pending := rfl
@[simp] theorem countGrant_phase (s : State) (r : Requester) : (s.countGrant r).phase = s.phase := rfl
@[simp] theorem countGrant_straps (s : State) (r : Requester) : (s.countGrant r).straps = s.straps := rfl
@[simp] theorem countGrant_capture (s : State) (r : Requester) : (s.countGrant r).capture = s.capture := rfl
@[simp] theorem countGrant_system (s : State) (r : Requester) : (s.countGrant r).system = s.system := rfl
@[simp] theorem countGrant_takes (s : State) (r : Requester) : (s.countGrant r).takes = s.takes := rfl
@[simp] theorem countGrant_windows (s : State) (r : Requester) : (s.countGrant r).windows = s.windows := rfl
@[simp] theorem countGrant_monitor (s : State) (r : Requester) : (s.countGrant r).monitor = s.monitor := rfl
@[simp] theorem countGrant_history (s : State) (r : Requester) : (s.countGrant r).history = s.history := rfl
@[simp] theorem countGrant_probe (s : State) (r : Requester) : (s.countGrant r).probe = s.probe := rfl
@[simp] theorem countGrant_cadence (s : State) (r : Requester) : (s.countGrant r).cadence = s.cadence := rfl
@[simp] theorem countGrant_planner (s : State) (r : Requester) : (s.countGrant r).planner = s.planner := rfl
@[simp] theorem countGrant_store (s : State) (r : Requester) : (s.countGrant r).store = s.store := rfl
@[simp] theorem countGrant_settings (s : State) (r : Requester) : (s.countGrant r).settings = s.settings := rfl
@[simp] theorem countGrant_cond (s : State) (r : Requester) : (s.countGrant r).cond = s.cond := rfl
@[simp] theorem countGrant_dram (s : State) (r : Requester) : (s.countGrant r).dram = s.dram := rfl

/-! ### disturb: DRAM only -/

@[simp] theorem disturb_pending (us : List Upset) (s : State) : (disturb us s).pending = s.pending := rfl
@[simp] theorem disturb_phase (us : List Upset) (s : State) : (disturb us s).phase = s.phase := rfl
@[simp] theorem disturb_straps (us : List Upset) (s : State) : (disturb us s).straps = s.straps := rfl
@[simp] theorem disturb_capture (us : List Upset) (s : State) : (disturb us s).capture = s.capture := rfl
@[simp] theorem disturb_system (us : List Upset) (s : State) : (disturb us s).system = s.system := rfl
@[simp] theorem disturb_takes (us : List Upset) (s : State) : (disturb us s).takes = s.takes := rfl
@[simp] theorem disturb_windows (us : List Upset) (s : State) : (disturb us s).windows = s.windows := rfl
@[simp] theorem disturb_monitor (us : List Upset) (s : State) : (disturb us s).monitor = s.monitor := rfl
@[simp] theorem disturb_history (us : List Upset) (s : State) : (disturb us s).history = s.history := rfl
@[simp] theorem disturb_probe (us : List Upset) (s : State) : (disturb us s).probe = s.probe := rfl
@[simp] theorem disturb_cadence (us : List Upset) (s : State) : (disturb us s).cadence = s.cadence := rfl
@[simp] theorem disturb_planner (us : List Upset) (s : State) : (disturb us s).planner = s.planner := rfl
@[simp] theorem disturb_store (us : List Upset) (s : State) : (disturb us s).store = s.store := rfl
@[simp] theorem disturb_memPort (us : List Upset) (s : State) : (disturb us s).memPort = s.memPort := rfl
@[simp] theorem disturb_settings (us : List Upset) (s : State) : (disturb us s).settings = s.settings := rfl
@[simp] theorem disturb_cond (us : List Upset) (s : State) : (disturb us s).cond = s.cond := rfl

/-! ### The window queries see the window table only -/

@[simp] theorem raise_window (c : Condition) (s : State) (k : WindowKind) : (raise c s).window k = s.window k := rfl
@[simp] theorem raise_ring (c : Condition) (s : State) : (raise c s).ring = s.ring := rfl
@[simp] theorem raise_statusStands (c : Condition) (s : State) : (raise c s).statusStands = s.statusStands := rfl
@[simp] theorem scheduleStatus_window (s : State) (k : WindowKind) : (scheduleStatus s).window k = s.window k := rfl
@[simp] theorem scheduleStatus_ring (s : State) : (scheduleStatus s).ring = s.ring := rfl

/-! ### What an occurrence does (R174) -/

/-- R174: outside RESET an occurrence sets the bit of its code. -/
theorem raise_occurred (c : Condition) (s : State) (h : s.phase ≠ .asserted) :
    (raise c s).cond.occurred = s.cond.occurred ||| codeBit c.code := by
  simp [raise, h, ConditionUnit.occur]

/-- R173: while RESET is asserted no condition occurs. -/
theorem raise_asserted (c : Condition) (s : State) (h : s.phase = .asserted) : raise c s = s := by
  unfold raise
  rw [if_pos h]

/-- R155: a check condition changes the memory port and the condition unit only. -/
theorem raiseChecks_eq (r : Requester) (x : Transfer) (a : Nat) (cs : List CheckResult) (s : State) :
    raiseChecks r x a cs s =
      { s with memPort := (raiseChecks r x a cs s).memPort, cond := (raiseChecks r x a cs s).cond } := by
  unfold raiseChecks
  simp only
  split
  · rfl
  · split <;> rfl

@[simp] theorem raiseChecks_pending (r : Requester) (x : Transfer) (a : Nat) (cs : List CheckResult) (s : State) :
    (raiseChecks r x a cs s).pending = s.pending := by rw [raiseChecks_eq]
@[simp] theorem raiseChecks_phase (r : Requester) (x : Transfer) (a : Nat) (cs : List CheckResult) (s : State) :
    (raiseChecks r x a cs s).phase = s.phase := by rw [raiseChecks_eq]
@[simp] theorem raiseChecks_straps (r : Requester) (x : Transfer) (a : Nat) (cs : List CheckResult) (s : State) :
    (raiseChecks r x a cs s).straps = s.straps := by rw [raiseChecks_eq]
@[simp] theorem raiseChecks_capture (r : Requester) (x : Transfer) (a : Nat) (cs : List CheckResult) (s : State) :
    (raiseChecks r x a cs s).capture = s.capture := by rw [raiseChecks_eq]
@[simp] theorem raiseChecks_system (r : Requester) (x : Transfer) (a : Nat) (cs : List CheckResult) (s : State) :
    (raiseChecks r x a cs s).system = s.system := by rw [raiseChecks_eq]
@[simp] theorem raiseChecks_takes (r : Requester) (x : Transfer) (a : Nat) (cs : List CheckResult) (s : State) :
    (raiseChecks r x a cs s).takes = s.takes := by rw [raiseChecks_eq]
@[simp] theorem raiseChecks_windows (r : Requester) (x : Transfer) (a : Nat) (cs : List CheckResult) (s : State) :
    (raiseChecks r x a cs s).windows = s.windows := by rw [raiseChecks_eq]
@[simp] theorem raiseChecks_monitor (r : Requester) (x : Transfer) (a : Nat) (cs : List CheckResult) (s : State) :
    (raiseChecks r x a cs s).monitor = s.monitor := by rw [raiseChecks_eq]
@[simp] theorem raiseChecks_history (r : Requester) (x : Transfer) (a : Nat) (cs : List CheckResult) (s : State) :
    (raiseChecks r x a cs s).history = s.history := by rw [raiseChecks_eq]
@[simp] theorem raiseChecks_probe (r : Requester) (x : Transfer) (a : Nat) (cs : List CheckResult) (s : State) :
    (raiseChecks r x a cs s).probe = s.probe := by rw [raiseChecks_eq]
@[simp] theorem raiseChecks_cadence (r : Requester) (x : Transfer) (a : Nat) (cs : List CheckResult) (s : State) :
    (raiseChecks r x a cs s).cadence = s.cadence := by rw [raiseChecks_eq]
@[simp] theorem raiseChecks_planner (r : Requester) (x : Transfer) (a : Nat) (cs : List CheckResult) (s : State) :
    (raiseChecks r x a cs s).planner = s.planner := by rw [raiseChecks_eq]
@[simp] theorem raiseChecks_store (r : Requester) (x : Transfer) (a : Nat) (cs : List CheckResult) (s : State) :
    (raiseChecks r x a cs s).store = s.store := by rw [raiseChecks_eq]
@[simp] theorem raiseChecks_settings (r : Requester) (x : Transfer) (a : Nat) (cs : List CheckResult) (s : State) :
    (raiseChecks r x a cs s).settings = s.settings := by rw [raiseChecks_eq]
@[simp] theorem raiseChecks_dram (r : Requester) (x : Transfer) (a : Nat) (cs : List CheckResult) (s : State) :
    (raiseChecks r x a cs s).dram = s.dram := by rw [raiseChecks_eq]

/-- R155: a burst without a word in error raises nothing. -/
theorem raiseChecks_clean (r : Requester) (x : Transfer) (a : Nat) (cs : List CheckResult) (s : State)
    (h : ∀ c ∈ cs, c = .clean) : raiseChecks r x a cs s = s := by
  have hf : cs.countP (fun c => decide (c = .failed)) = 0 :=
    List.countP_eq_zero.mpr (fun c hc => by rw [h c hc]; decide)
  have hc : cs.countP (fun c => decide (c = .corrected)) = 0 :=
    List.countP_eq_zero.mpr (fun c hc => by rw [h c hc]; decide)
  simp [raiseChecks, hf, hc]

/-- R157: an addition changes the memory port and the condition unit only. -/
theorem refreshAddition_eq (s : State) :
    refreshAddition s = { s with memPort := (refreshAddition s).memPort, cond := (refreshAddition s).cond } := by
  unfold refreshAddition
  split <;> rfl

@[simp] theorem refreshAddition_pending (s : State) : (refreshAddition s).pending = s.pending := by rw [refreshAddition_eq]
@[simp] theorem refreshAddition_phase (s : State) : (refreshAddition s).phase = s.phase := by rw [refreshAddition_eq]
@[simp] theorem refreshAddition_straps (s : State) : (refreshAddition s).straps = s.straps := by rw [refreshAddition_eq]
@[simp] theorem refreshAddition_capture (s : State) : (refreshAddition s).capture = s.capture := by rw [refreshAddition_eq]
@[simp] theorem refreshAddition_system (s : State) : (refreshAddition s).system = s.system := by rw [refreshAddition_eq]
@[simp] theorem refreshAddition_takes (s : State) : (refreshAddition s).takes = s.takes := by rw [refreshAddition_eq]
@[simp] theorem refreshAddition_windows (s : State) : (refreshAddition s).windows = s.windows := by rw [refreshAddition_eq]
@[simp] theorem refreshAddition_monitor (s : State) : (refreshAddition s).monitor = s.monitor := by rw [refreshAddition_eq]
@[simp] theorem refreshAddition_history (s : State) : (refreshAddition s).history = s.history := by rw [refreshAddition_eq]
@[simp] theorem refreshAddition_probe (s : State) : (refreshAddition s).probe = s.probe := by rw [refreshAddition_eq]
@[simp] theorem refreshAddition_cadence (s : State) : (refreshAddition s).cadence = s.cadence := by rw [refreshAddition_eq]
@[simp] theorem refreshAddition_planner (s : State) : (refreshAddition s).planner = s.planner := by rw [refreshAddition_eq]
@[simp] theorem refreshAddition_store (s : State) : (refreshAddition s).store = s.store := by rw [refreshAddition_eq]
@[simp] theorem refreshAddition_settings (s : State) : (refreshAddition s).settings = s.settings := by rw [refreshAddition_eq]
@[simp] theorem refreshAddition_dram (s : State) : (refreshAddition s).dram = s.dram := by rw [refreshAddition_eq]

end Sys2Proof.Machine
end

