-- ==== Sys2Proof/Laws/Closure.lean ====
section
/-! SUPPORT. What the work inside a take, a load or an expiry can do, said once: a relation that every primitive change of it respects is
respected by the whole of it. A law about the device needs the primitive changes only. -/

namespace Sys2Proof.Machine

/-- R is reflexive, transitive, and holds across every primitive change that a take, a load, an expiry or a tick makes outside the
ports, but for a load of the ingest group. -/
structure CoreClosed (R : State → State → Prop) : Prop where
  refl : ∀ s, R s s
  trans : ∀ {s t u}, R s t → R t u → R s u
  raise : ∀ c s, R s (Machine.raise c s)
  schedule : ∀ s, R s (Machine.scheduleStatus s)
  monitor : ∀ s m, R s { s with monitor := m }
  history : ∀ s h, R s { s with history := h }
  probeReset : ∀ s, R s { s with probe := ProbeUnit.reset }
  probeEvicted : ∀ s f, R s { s with probe := s.probe.evicted f }
  probeLine : ∀ s h g l, R s { s with probe := s.probe.lineComplete h g l }
  probeAdmission : ∀ s h r, R s { s with probe := ProbeUnit.admission h r }
  cadenceClose : ∀ s g r p, s.settings.ingest = some g → R s { s with cadence := (s.cadence.close g r p).cadence }
  cadenceE22 : ∀ s n, R s { s with cadence := s.cadence.newE22 n }
  cadenceGeometry : ∀ s, R s { s with cadence := s.cadence.geometryChange }
  planNone : ∀ s, R s { s with planner := { s.planner with plan := none } }
  planRepair : ∀ s p roles x, s.planner.plan = some p → p.repair roles = some x →
    R s { s with planner := { s.planner with plan := some x.1 } }
  planFlags : ∀ s b f, R s { s with planner := { s.planner with laterRow := b, previousAnchor := f } }
  planFrame : ∀ s g, s.settings.output = some g →
    R s { s with planner := { plan := some (s.chooseFrame g).plan, frame := FieldNo.succ s.planner.frame, laterRow := false
                              previousAnchor := (s.chooseFrame g).previousAnchor } }
  voidFields : ∀ s fs, R s { s with store := s.store.voidFields fs }
  installWindows : ∀ s, R s (Machine.installWindows s)
  memoryGroup : ∀ s n, R s { s with
    settings := { s.settings with memory := s.settings.memoryGroup, memoryPending := false }
    memPort := { s.memPort with intervalCount := n } }
  interval : ∀ s n, R s { s with memPort := { s.memPort with intervalCount := n } }
  addition : ∀ s, R s (refreshAddition s)
  outputRefused : ∀ s, R s { s with settings := { s.settings with outputPending := false } }
  outputLoaded : ∀ s, s.settings.outputWords.check = none → R s { s with settings := { s.settings with
    output := some s.settings.outputWords.load, outputPending := false
    customRows := s.settings.rowsAfterLoad s.settings.outputWords.load.custom } }

/-- R holds across a load of the ingest group too, so across all that a take, a load, an expiry or a tick does outside the ports. -/
structure InnerClosed (R : State → State → Prop) : Prop extends CoreClosed R where
  loadIngest : ∀ s, R s (Machine.loadIngest s)

/-! ### Two relations at once -/

/-- Two relations that every primitive change respects, as one. -/
theorem CoreClosed.and {R S : State → State → Prop} (h : CoreClosed R) (k : CoreClosed S) : CoreClosed (fun s t => R s t ∧ S s t) where
  refl s := ⟨h.refl s, k.refl s⟩
  trans a b := ⟨h.trans a.1 b.1, k.trans a.2 b.2⟩
  raise c s := ⟨h.raise c s, k.raise c s⟩
  schedule s := ⟨h.schedule s, k.schedule s⟩
  monitor s m := ⟨h.monitor s m, k.monitor s m⟩
  history s x := ⟨h.history s x, k.history s x⟩
  probeReset s := ⟨h.probeReset s, k.probeReset s⟩
  probeEvicted s f := ⟨h.probeEvicted s f, k.probeEvicted s f⟩
  probeLine s x g l := ⟨h.probeLine s x g l, k.probeLine s x g l⟩
  probeAdmission s x r := ⟨h.probeAdmission s x r, k.probeAdmission s x r⟩
  cadenceClose s g r p e := ⟨h.cadenceClose s g r p e, k.cadenceClose s g r p e⟩
  cadenceE22 s n := ⟨h.cadenceE22 s n, k.cadenceE22 s n⟩
  cadenceGeometry s := ⟨h.cadenceGeometry s, k.cadenceGeometry s⟩
  planNone s := ⟨h.planNone s, k.planNone s⟩
  planRepair s p r x a b := ⟨h.planRepair s p r x a b, k.planRepair s p r x a b⟩
  planFlags s b f := ⟨h.planFlags s b f, k.planFlags s b f⟩
  planFrame s g e := ⟨h.planFrame s g e, k.planFrame s g e⟩
  voidFields s fs := ⟨h.voidFields s fs, k.voidFields s fs⟩
  installWindows s := ⟨h.installWindows s, k.installWindows s⟩
  memoryGroup s n := ⟨h.memoryGroup s n, k.memoryGroup s n⟩
  interval s n := ⟨h.interval s n, k.interval s n⟩
  addition s := ⟨h.addition s, k.addition s⟩
  outputRefused s := ⟨h.outputRefused s, k.outputRefused s⟩
  outputLoaded s e := ⟨h.outputLoaded s e, k.outputLoaded s e⟩

/-- The same across a load of the ingest group. -/
theorem InnerClosed.and {R S : State → State → Prop} (h : InnerClosed R) (k : InnerClosed S) : InnerClosed (fun s t => R s t ∧ S s t) where
  toCoreClosed := h.toCoreClosed.and k.toCoreClosed
  loadIngest s := ⟨h.loadIngest s, k.loadIngest s⟩

namespace CoreClosed

variable {R : State → State → Prop}

theorem raiseAll (k : CoreClosed R) (cs : List Condition) (s : State) : R s (Machine.raiseAll cs s) := by
  induction cs generalizing s with
  | nil => exact k.refl s
  | cons c cs ih => exact k.trans (k.raise c s) (ih _)

/-! ### Fields -/

theorem closeRecord (k : CoreClosed R) (cause : CloseCause) (r : FieldRecord) (g : IngestGroup) (s : State)
    (hg : s.settings.ingest = some g) : R s (Machine.closeRecord cause r g s) := by
  refine k.trans ?_ (k.schedule _)
  refine k.trans ?_ (k.raiseAll _ _)
  exact k.trans (k.monitor s _) (k.trans (k.history _ _) (k.trans (k.probeReset _) (k.cadenceClose _ _ _ _ hg)))

theorem closeField (k : CoreClosed R) (cause : CloseCause) (s : State) : R s (Machine.closeField cause s) := by
  unfold Machine.closeField
  split
  · next hg => exact k.closeRecord _ _ _ _ hg
  · exact k.refl s

theorem repairPlan (k : CoreClosed R) (f : FieldNo) (roles : Roles) (s : State) : R s (Machine.repairPlan f roles s) := by
  unfold Machine.repairPlan
  split
  · exact k.refl s
  · next p hp =>
    split
    · exact k.refl s
    · next x hx =>
      refine k.trans ?_ (k.raise _ _)
      exact k.trans (k.planRepair s p roles x hp hx) (k.history _ _)

theorem evict (k : CoreClosed R) (r : FieldRecord) (s : State) : R s (Machine.evict r s) := by
  refine k.trans ?_ (k.repairPlan _ _ _)
  exact k.trans (k.history s _) (k.trans (k.voidFields _ _) (k.probeEvicted _ _))

theorem evictSlot (k : CoreClosed R) (slot : Nat) (s : State) : R s (Machine.evictSlot slot s) := by
  unfold Machine.evictSlot
  split
  · exact k.evict _ _
  · exact k.refl s

theorem endMeasured (k : CoreClosed R) (count : Nat) (s : State) : R s (Machine.endMeasured count s) := by
  unfold Machine.endMeasured
  simp only
  split
  · split
    · exact k.trans (k.monitor s _) (k.trans (k.raise _ _) (k.schedule _))
    · exact k.trans (k.monitor s _) (k.trans (k.raise _ _) (k.schedule _))
  · split
    · exact k.trans (k.monitor s _) (k.trans (k.raise _ _) (k.schedule _))
    · exact k.monitor s _

theorem endMeasurement (k : CoreClosed R) (s : State) : R s (Machine.endMeasurement s) := by
  unfold Machine.endMeasurement
  split
  · exact k.endMeasured _ _
  · exact k.refl s

theorem expireStall (k : CoreClosed R) (s : State) : R s (Machine.expireStall s) := by
  have h : ∀ m c, R s (Machine.raise c { s with monitor := m }) := fun m c => k.trans (k.monitor s m) (k.raise _ _)
  unfold Machine.expireStall
  simp only
  split
  · exact k.trans (h _ _) (k.closeField _ _)
  · split
    · exact k.trans (h _ _) (k.endMeasurement _)
    · exact h _ _

/-! ### Loads -/

theorem planToNone (k : CoreClosed R) (s : State) : R s (Machine.planToNone s) := by
  unfold Machine.planToNone
  simp only
  split
  · exact k.trans (k.planNone s) (k.trans (k.history _ _) (k.schedule _))
  · exact k.trans (k.planNone s) (k.history _ _)

theorem resetMonitor (k : CoreClosed R) (s : State) : R s (Machine.resetMonitor s) := by
  unfold Machine.resetMonitor
  simp only
  split
  · exact k.trans (k.monitor s _) (k.schedule _)
  · exact k.monitor s _

theorem dropPlan (k : CoreClosed R) (s : State) : R s (Machine.dropPlan s) :=
  k.trans (k.planToNone s) (k.planFlags _ _ _)

theorem emptyHistory (k : CoreClosed R) (s : State) : R s (Machine.emptyHistory s) := by
  unfold Machine.emptyHistory
  split
  · exact k.refl s
  · exact k.trans (k.history s _) (k.trans (k.voidFields _ _) (k.probeReset _))

theorem geometryChange (k : CoreClosed R) (s : State) : R s (Machine.geometryChange s) :=
  k.trans (k.resetMonitor s) (k.trans (k.dropPlan _) (k.trans (k.emptyHistory _) (k.cadenceGeometry _)))

theorem loadMemory (k : CoreClosed R) (s : State) : R s (Machine.loadMemory s) := by
  unfold Machine.loadMemory
  simp only
  split
  · exact k.trans (k.memoryGroup s _) (k.trans (k.raiseAll _ _) (k.addition _))
  · exact k.trans (k.memoryGroup s _) (k.raiseAll _ _)

theorem loadWindow (k : CoreClosed R) (s : State) : R s (Machine.loadWindow s) := by
  have hg : ∀ u : State, ∀ b : Bool, R u (if b then Machine.geometryChange u else u) := by
    intro u b
    split
    · exact k.geometryChange u
    · exact k.refl u
  have hp : ∀ u : State, ∀ b : Bool, R u (if b then Machine.planToNone u else u) := by
    intro u b
    split
    · exact k.planToNone u
    · exact k.refl u
  exact k.trans (k.installWindows s) (k.trans (hg _ _) (k.trans (hp _ _) (k.raiseAll _ _)))

theorem stallAtLoad (k : CoreClosed R) (s : State) : R s (Machine.stallAtLoad s) := by
  unfold Machine.stallAtLoad
  split
  · exact k.expireStall s
  · exact k.refl s

theorem loadOutput (k : CoreClosed R) (s : State) : R s (Machine.loadOutput s) := by
  unfold Machine.loadOutput
  simp only
  split
  · exact k.trans (k.outputRefused s) (k.raise _ _)
  · next h => exact k.trans (k.outputLoaded s h) (k.raiseAll _ _)

theorem releaseMemory (k : CoreClosed R) (s : State) : R s (Machine.releaseMemory s) := by
  unfold Machine.releaseMemory
  split
  · exact k.loadMemory s
  · exact k.refl s

theorem releaseWindow (k : CoreClosed R) (s : State) : R s (Machine.releaseWindow s) := by
  unfold Machine.releaseWindow
  split
  · exact k.loadWindow s
  · exact k.refl s

theorem releaseOutput (k : CoreClosed R) (s : State) : R s (Machine.releaseOutput s) := by
  unfold Machine.releaseOutput
  split
  · exact k.loadOutput s
  · exact k.refl s

/-! ### Ingest -/

theorem admitField (k : CoreClosed R) (g : Ring) (slot : Nat) (h : Header) (s : State) : R s (Machine.admitField g slot h s) := by
  let r := admittedRecord s.history.next slot g.lines s.monitor.note h
  refine k.trans ?_ (k.raiseAll _ _)
  refine k.trans (k.monitor s (s.monitor.admission s.history.next h)) ?_
  exact k.trans (k.history _ (s.history.append r)) (k.probeAdmission _ (s.history.append r) r)

theorem changeLine (k : CoreClosed R) (r : FieldRecord) (line : Nat) (f : LineEntry → LineEntry) (s : State) :
    R s (Machine.changeLine r line f s) := k.history s _

theorem pixelWrite (k : CoreClosed R) (g : Ring) (r : FieldRecord) (line x : Nat) (s : State) :
    R s (Machine.pixelWrite g r line x s) := by
  unfold Machine.pixelWrite
  simp only
  split
  · exact k.trans (k.changeLine r line _ s) (k.probeLine _ _ _ _)
  · exact k.changeLine r line _ s

theorem lineWord (k : CoreClosed R) (g : Ring) (s : State) (w : AreaWord) : R s (Machine.lineWord g s w) := by
  unfold Machine.lineWord
  split
  · exact k.refl s
  · split
    · exact k.pixelWrite _ _ _ _ _
    · split
      · exact k.changeLine _ _ _ _
      · exact k.refl s
    · exact k.changeLine _ _ _ _
    · exact k.refl s
    · exact k.refl s
    · exact k.refl s

theorem lineWords (k : CoreClosed R) (g : Ring) (ws : List AreaWord) (s : State) : R s (Machine.lineWords g ws s) := by
  unfold Machine.lineWords
  induction ws generalizing s with
  | nil => exact k.refl s
  | cons w ws ih => exact k.trans (k.lineWord g s w) (ih _)

theorem openField (k : CoreClosed R) (g : Ring) (slot : Nat) (ws : List AreaWord) (s : State) :
    R s (Machine.openField g slot ws s) :=
  k.trans (k.closeField _ s) (k.trans (k.evictSlot _ _) (k.trans (k.admitField _ _ _ _) (k.lineWords _ _ _)))

theorem cutInSlot (k : CoreClosed R) (slot : Nat) (s : State) : R s (Machine.cutInSlot slot s) := by
  unfold Machine.cutInSlot
  split
  · split
    · exact k.closeField _ _
    · exact k.refl s
  · exact k.refl s

theorem rejectField (k : CoreClosed R) (addr slot : Nat) (s : State) : R s (Machine.rejectField addr slot s) :=
  k.trans (k.raise _ s) (k.trans (k.cutInSlot _ _) (k.evictSlot _ _))

theorem endMark (k : CoreClosed R) (ws : List AreaWord) (s : State) : R s (Machine.endMark ws s) := by
  unfold Machine.endMark
  split
  · split
    · exact k.closeField _ _
    · exact k.refl s
  · exact k.refl s

theorem slotWrite (k : CoreClosed R) (g : Ring) (addr slot : Nat) (ws : List AreaWord) (s : State) :
    R s (Machine.slotWrite g addr slot ws s).1 := by
  unfold Machine.slotWrite
  split
  · exact k.openField _ _ _ _
  · split
    · exact k.rejectField _ _ _
    · split
      · split <;> exact k.refl s
      · split
        · exact k.refl s
        · exact k.trans (k.lineWords _ _ _) (k.endMark _ _)

theorem measureWords (k : CoreClosed R) (ws : List AreaWord) (s : State) : R s (Machine.measureWords ws s) := k.monitor s _

theorem measureEnd (k : CoreClosed R) (slot : Nat) (ws : List AreaWord) (s : State) : R s (Machine.measureEnd slot ws s) := by
  unfold Machine.measureEnd
  split
  · split
    · exact k.endMeasurement _
    · exact k.refl s
  · exact k.refl s

theorem acquiringOpening (k : CoreClosed R) (r : Request) (g : Ring) (slot : Nat) (ws : List AreaWord) (s : State) :
    R s (Machine.acquiringOpening r g slot ws s).1 := by
  unfold Machine.acquiringOpening
  simp only
  split
  · exact k.trans (k.endMeasurement s) (k.trans (k.monitor _ _) (k.measureWords _ _))
  · split
    · exact k.trans (k.endMeasurement s) (k.openField _ _ _ _)
    · exact k.endMeasurement s
  · exact k.endMeasurement s
  · exact k.endMeasurement s

theorem acquiringWrite (k : CoreClosed R) (r : Request) (g : Ring) (slot : Nat) (ws : List AreaWord) (s : State) :
    R s (Machine.acquiringWrite r g slot ws s).1 := by
  unfold Machine.acquiringWrite
  split
  · exact k.acquiringOpening _ _ _ _ _
  · split
    · exact k.raise _ _
    · exact k.trans (k.measureWords _ _) (k.measureEnd _ _ _)

theorem ringWrite (k : CoreClosed R) (r : Request) (g : Ring) (ws : List AreaWord) (s : State) :
    R s (Machine.ringWrite r g ws s).1 := by
  unfold Machine.ringWrite
  split
  · exact k.refl s
  · split
    · exact k.slotWrite _ _ _ _ _
    · exact k.slotWrite _ _ _ _ _
    · exact k.acquiringWrite _ _ _ _ _
    · exact k.refl s

theorem judgeAgain (k : CoreClosed R) (r : Request) (s : State) : R s (Machine.judgeAgain r s).1 := by
  unfold Machine.judgeAgain
  split
  · exact k.refl s
  · split
    · exact k.ringWrite _ _ _ _
    · exact k.refl s

/-! ### Frames -/

theorem loadAtFrame (k : CoreClosed R) (s : State) : R s (Machine.loadAtFrame s) := by
  unfold Machine.loadAtFrame
  split
  · exact k.loadOutput s
  · exact k.refl s

theorem beginFrame (k : CoreClosed R) (g : OutputGroup) (s : State) (h : s.settings.output = some g) :
    R s (Machine.beginFrame g s) :=
  k.trans (k.planFrame s g h) (k.trans (k.history _ _) (k.trans (k.raiseAll _ _) (k.schedule _)))

theorem frameStart (k : CoreClosed R) (s : State) : R s (Machine.frameStart s) := by
  unfold Machine.frameStart
  simp only
  split
  · next h => exact k.trans (k.loadAtFrame s) (k.beginFrame _ _ h)
  · exact k.loadAtFrame s

theorem markRow (k : CoreClosed R) (offset : Nat) (s : State) : R s (Machine.markRow offset s) := by
  unfold Machine.markRow
  split
  · exact k.refl s
  · split
    · exact k.planFlags s true s.planner.previousAnchor
    · exact k.refl s

theorem enterFrame (k : CoreClosed R) (offset : Nat) (s : State) : R s (Machine.enterFrame offset s) := by
  unfold Machine.enterFrame
  refine k.trans ?_ (k.markRow _ _)
  split
  · exact k.frameStart s
  · exact k.refl s

/-! ### Timers -/

theorem expireInterval (k : CoreClosed R) (s : State) : R s (Machine.expireInterval s) :=
  k.trans (k.interval s 0) (k.addition _)

theorem tickStall (k : CoreClosed R) (s : State) : R s (Machine.tickStall s) := by
  unfold Machine.tickStall
  split
  · split
    · exact k.expireStall s
    · exact k.monitor s _
  · exact k.refl s

theorem tickInterval (k : CoreClosed R) (s : State) : R s (Machine.tickInterval s) := by
  unfold Machine.tickInterval
  split
  · exact k.refl s
  · split
    · exact k.expireInterval s
    · exact k.interval s _

theorem tick (k : CoreClosed R) (s : State) : R s (Machine.tick s) := k.trans (k.tickStall s) (k.tickInterval _)

/-! ### The ingest group -/

theorem installIngest (k : CoreClosed R)
    (hl : ∀ s g, R s { s with settings := { s.settings with ingest := some g, ingestPending := false } }) (g : IngestWords) (s : State) :
    R s (Machine.installIngest g s) := by
  unfold Machine.installIngest
  simp only
  split
  · exact k.trans (hl s _) (k.trans (k.raiseAll _ _) (k.geometryChange _))
  · exact k.trans (hl s _) (k.trans (k.raiseAll _ _) (k.trans (k.cadenceE22 _ _) (k.stallAtLoad _)))

/-- A load of the ingest group from its parts: the refusal, and the new group in place of the old. -/
theorem loadIngest (k : CoreClosed R) (hr : ∀ s, R s { s with settings := { s.settings with ingestPending := false } })
    (hl : ∀ s g, R s { s with settings := { s.settings with ingest := some g, ingestPending := false } }) (s : State) :
    R s (Machine.loadIngest s) := by
  unfold Machine.loadIngest
  split
  · exact k.trans (hr s) (k.raise _ _)
  · exact k.installIngest hl _ _

/-- R is closed under all that a take, a load, an expiry or a tick does, where a load of the ingest group may put any group in place. -/
theorem inner (k : CoreClosed R) (hr : ∀ s, R s { s with settings := { s.settings with ingestPending := false } })
    (hl : ∀ s g, R s { s with settings := { s.settings with ingest := some g, ingestPending := false } }) : InnerClosed R :=
  { k with loadIngest := k.loadIngest hr hl }

end CoreClosed

namespace InnerClosed

variable {R : State → State → Prop}

theorem releaseIngest (k : InnerClosed R) (s : State) : R s (Machine.releaseIngest s) := by
  unfold Machine.releaseIngest
  split
  · exact k.loadIngest s
  · exact k.refl s

theorem holdRelease (k : InnerClosed R) (s : State) : R s (Machine.holdRelease s) :=
  k.trans (k.releaseMemory s) (k.trans (k.releaseWindow _) (k.trans (k.releaseIngest _) (k.releaseOutput _)))

theorem monitorWrite (k : InnerClosed R) (r : Request) (s : State) : R s (Machine.monitorWrite r s).1 := by
  unfold Machine.monitorWrite
  split
  · exact k.refl s
  · split
    · exact k.refl s
    · split
      · exact k.trans (k.loadIngest s) (k.judgeAgain _ _)
      · exact k.ringWrite _ _ _ _

end InnerClosed

end Sys2Proof.Machine
end

