-- ==== Sys2Proof/Laws/Keeps.lean ====
section
/-! SUPPORT. What the work inside a take leaves alone: the command queue, RESET's phase, the straps, both ports, the take counter, DRAM,
the pending copy and the status of the condition unit that only the host or a grant changes. -/

namespace Sys2Proof.Machine

/-- t has the command queue, phase, straps, ports, take counter and DRAM of s. -/
structure KeepsBus (s t : State) : Prop where
  pending : t.pending = s.pending
  phase : t.phase = s.phase
  straps : t.straps = s.straps
  capture : t.capture = s.capture
  system : t.system = s.system
  takes : t.takes = s.takes
  dram : t.dram = s.dram

/-- Nothing changed keeps everything. -/
theorem KeepsBus.refl (s : State) : KeepsBus s s := ⟨rfl, rfl, rfl, rfl, rfl, rfl, rfl⟩

/-- Two operations in turn. -/
theorem KeepsBus.trans {s t u : State} (h : KeepsBus s t) (k : KeepsBus t u) : KeepsBus s u :=
  ⟨k.pending.trans h.pending, k.phase.trans h.phase, k.straps.trans h.straps, k.capture.trans h.capture,
    k.system.trans h.system, k.takes.trans h.takes, k.dram.trans h.dram⟩

theorem refreshAddition_keeps (s : State) : KeepsBus s (refreshAddition s) := by
  constructor <;> simp

/-- The work inside a take, a load or an expiry keeps the bus. -/
theorem keepsBus_core : CoreClosed KeepsBus where
  refl := .refl
  trans := .trans
  raise _ _ := ⟨rfl, rfl, rfl, rfl, rfl, rfl, rfl⟩
  schedule _ := ⟨rfl, rfl, rfl, rfl, rfl, rfl, rfl⟩
  monitor _ _ := ⟨rfl, rfl, rfl, rfl, rfl, rfl, rfl⟩
  history _ _ := ⟨rfl, rfl, rfl, rfl, rfl, rfl, rfl⟩
  probeReset _ := ⟨rfl, rfl, rfl, rfl, rfl, rfl, rfl⟩
  probeEvicted _ _ := ⟨rfl, rfl, rfl, rfl, rfl, rfl, rfl⟩
  probeLine _ _ _ _ := ⟨rfl, rfl, rfl, rfl, rfl, rfl, rfl⟩
  probeAdmission _ _ _ := ⟨rfl, rfl, rfl, rfl, rfl, rfl, rfl⟩
  cadenceClose _ _ _ _ _ := ⟨rfl, rfl, rfl, rfl, rfl, rfl, rfl⟩
  cadenceE22 _ _ := ⟨rfl, rfl, rfl, rfl, rfl, rfl, rfl⟩
  cadenceGeometry _ := ⟨rfl, rfl, rfl, rfl, rfl, rfl, rfl⟩
  planNone _ := ⟨rfl, rfl, rfl, rfl, rfl, rfl, rfl⟩
  planRepair _ _ _ _ _ _ := ⟨rfl, rfl, rfl, rfl, rfl, rfl, rfl⟩
  planFlags _ _ _ := ⟨rfl, rfl, rfl, rfl, rfl, rfl, rfl⟩
  planFrame _ _ _ := ⟨rfl, rfl, rfl, rfl, rfl, rfl, rfl⟩
  voidFields _ _ := ⟨rfl, rfl, rfl, rfl, rfl, rfl, rfl⟩
  installWindows _ := ⟨rfl, rfl, rfl, rfl, rfl, rfl, rfl⟩
  memoryGroup _ _ := ⟨rfl, rfl, rfl, rfl, rfl, rfl, rfl⟩
  interval _ _ := ⟨rfl, rfl, rfl, rfl, rfl, rfl, rfl⟩
  addition := refreshAddition_keeps
  outputRefused _ := ⟨rfl, rfl, rfl, rfl, rfl, rfl, rfl⟩
  outputLoaded _ _ := ⟨rfl, rfl, rfl, rfl, rfl, rfl, rfl⟩

/-- The same across a load of the ingest group. -/
theorem keepsBus_closed : InnerClosed KeepsBus := keepsBus_core.inner (fun _ => ⟨rfl, rfl, rfl, rfl, rfl, rfl, rfl⟩) (fun _ _ => ⟨rfl, rfl, rfl, rfl, rfl, rfl, rfl⟩)

theorem holdRelease_keeps (s : State) : KeepsBus s (holdRelease s) := keepsBus_closed.holdRelease s
theorem expireStall_keeps (s : State) : KeepsBus s (expireStall s) := keepsBus_closed.expireStall s
theorem monitorWrite_keeps (r : Request) (s : State) : KeepsBus s (monitorWrite r s).1 := keepsBus_closed.monitorWrite r s
theorem enterFrame_keeps (offset : Nat) (s : State) : KeepsBus s (enterFrame offset s) := keepsBus_closed.enterFrame offset s
theorem tick_keeps (s : State) : KeepsBus s (tick s) := keepsBus_closed.tick s

/-- A taken output read's work. -/
theorem takeOutput_keeps (r : Request) (s : State) (x : State × OutputRead) (h : takeOutput r s = some x) : KeepsBus s x.1 := by
  unfold takeOutput at h
  simp only at h
  split at h
  · exact absurd h (by simp)
  · cases h
    exact (enterFrame_keeps _ s).trans ⟨rfl, rfl, rfl, rfl, rfl, rfl, rfl⟩

theorem actImmediate_keeps (ws : List PageWord) (s : State) : KeepsBus s (actImmediate ws s) := by
  have hc : KeepsBus s (if touches ws 0x004 0x008 then actClear s else s) := by
    split
    · exact ⟨rfl, rfl, rfl, rfl, rfl, rfl, rfl⟩
    · exact .refl s
  have hr : ∀ u, KeepsBus u (if touches ws 0x008 0x00C then actReadIndex u else u) := by
    intro u
    split
    · exact ⟨rfl, rfl, rfl, rfl, rfl, rfl, rfl⟩
    · exact .refl u
  have hm : ∀ u, KeepsBus u (if touches ws 0x00C 0x010 then actMask u else u) := by
    intro u
    split
    · exact ⟨rfl, rfl, rfl, rfl, rfl, rfl, rfl⟩
    · exact .refl u
  exact hc.trans ((hr _).trans (hm _))

theorem settingsWrite_keeps (ws : List PageWord) (s : State) : KeepsBus s (settingsWrite ws s) := by
  have ha : ∀ u, KeepsBus u (actHold ws u) := by
    intro u
    unfold actHold
    split
    · exact holdRelease_keeps u
    · exact .refl u
  have hw : KeepsBus s { s with settings := s.settings.write ws } := ⟨rfl, rfl, rfl, rfl, rfl, rfl, rfl⟩
  exact hw.trans ((actImmediate_keeps ws _).trans (ha _))

end Sys2Proof.Machine
end

