-- ==== Sys2Proof/Laws/Device.lean ====
section
/-! SUPPORT. What the work inside a take does to the condition unit, the window table, the line store's size, the memory port, the
pending copy, the probe unit and the cadence detector. -/

namespace Sys2Proof.Machine

/-! ### The condition unit -/

/-- What occurrences, scheduling and window loads can do to the condition unit. -/
structure CondGrows (u v : ConditionUnit) : Prop where
  mask : v.mask = u.mask
  readIndex : v.readIndex = u.readIndex
  writeIndex : v.writeIndex = u.writeIndex
  blockNumber : v.blockNumber = u.blockNumber
  occurred : ∀ i, u.occurred.getLsbD i = true → v.occurred.getLsbD i = true
  queue : u.queue.length ≤ Config.recordDepth → v.queue.length ≤ Config.recordDepth
  ring : u.ringOk → v.ringOk

theorem CondGrows.refl (u : ConditionUnit) : CondGrows u u := ⟨rfl, rfl, rfl, rfl, fun _ h => h, id, id⟩

theorem CondGrows.trans {u v w : ConditionUnit} (h : CondGrows u v) (k : CondGrows v w) : CondGrows u w :=
  ⟨k.mask.trans h.mask, k.readIndex.trans h.readIndex, k.writeIndex.trans h.writeIndex, k.blockNumber.trans h.blockNumber,
    fun i x => k.occurred i (h.occurred i x), fun x => k.queue (h.queue x), fun x => k.ring (h.ring x)⟩

theorem occur_grows (u : ConditionUnit) (code : Nat) (record : List Word) (stands : Bool) :
    CondGrows u (u.occur code record stands) := by
  refine ⟨rfl, rfl, rfl, rfl, ?_, ?_, ?_⟩
  · intro i h
    simp [ConditionUnit.occur, h]
  · intro h
    simp only [ConditionUnit.occur]
    split
    · next c =>
      have := c.2.2.1
      simp
      omega
    · exact h
  · intro h hc
    have := h hc
    refine ⟨?_, this.2⟩
    simp only [ConditionUnit.occur]
    split
    · simp
    · exact this.1

theorem windowLoad_grows (u : ConditionUnit) (b a : Option WindowEntry) : CondGrows u (u.windowLoad b a) := by
  unfold ConditionUnit.windowLoad
  split
  · exact .refl u
  · exact ⟨rfl, rfl, rfl, rfl, fun _ h => h, fun _ => by simp, fun _ h => by simp at h⟩
  · exact ⟨rfl, rfl, rfl, rfl, fun _ h => h, id, id⟩
  · split
    · exact .refl u
    · exact ⟨rfl, rfl, rfl, rfl, fun _ h => h, id, id⟩

theorem raise_grows (c : Condition) (s : State) : CondGrows s.cond (raise c s).cond := by
  unfold raise
  simp only
  split
  · exact .refl _
  · exact occur_grows _ _ _ _

theorem schedule_grows (s : State) : CondGrows s.cond (scheduleStatus s).cond :=
  ⟨rfl, rfl, rfl, rfl, fun _ h => h, id, id⟩

/-- The bit of a condition that occurs while RESET is not asserted. -/
theorem raise_sets (c : Condition) (s : State) (h : s.phase ≠ .asserted) (i : Nat) (hc : c.code = i + 1) (hi : i < 20) :
    (raise c s).cond.occurred.getLsbD i = true := by
  simp [raise, h, ConditionUnit.occur, codeBit, hc, hi]

/-! ### The line store -/

@[simp] theorem modifyAt_length {α : Type} (f : α → α) (l : List α) (n : Nat) : (modifyAt f l n).length = l.length := by
  induction l generalizing n with
  | nil => rfl
  | cons x rest ih =>
    cases n with
    | zero => rfl
    | succ n => simp [modifyAt, ih]

/-- The element of a changed list. -/
theorem modifyAt_getD {α : Type} (f : α → α) (l : List α) (n m : Nat) (d : α) (h : n < l.length) :
    (modifyAt f l n).getD m d = if m = n then f (l.getD n d) else l.getD m d := by
  induction l generalizing n m with
  | nil => simp at h
  | cons x rest ih =>
    cases n with
    | zero => cases m <;> simp [modifyAt]
    | succ n =>
      cases m with
      | zero => simp [modifyAt]
      | succ m =>
        simp only [List.length_cons, Nat.add_lt_add_iff_right] at h
        simpa [modifyAt] using ih n m h

/-- The store keeps its number of entries, and no more withdrawn reads are counted than before. -/
structure StoreKeeps (a b : LineStore) : Prop where
  entries : b.entries.length = a.entries.length
  withdrawn : b.withdrawn.length ≤ a.withdrawn.length

theorem StoreKeeps.refl (a : LineStore) : StoreKeeps a a := ⟨rfl, Nat.le_refl _⟩

theorem StoreKeeps.trans {a b c : LineStore} (h : StoreKeeps a b) (k : StoreKeeps b c) : StoreKeeps a c :=
  ⟨k.entries.trans h.entries, Nat.le_trans k.withdrawn h.withdrawn⟩

theorem endFill_keeps (st : LineStore) (n : Nat) : StoreKeeps st (st.endFill n) :=
  ⟨rfl, by simpa [LineStore.endFill] using Nat.le_trans (List.length_filter_le _ _) (by simp)⟩

theorem voidEntry_keeps (st : LineStore) (n : Nat) : StoreKeeps st (st.voidEntry n) :=
  ⟨by simp [LineStore.voidEntry, LineStore.endFill], (endFill_keeps st n).withdrawn⟩

theorem voidFields_keeps (st : LineStore) (fs : List FieldNo) : StoreKeeps st (st.voidFields fs) := by
  unfold LineStore.voidFields
  generalize (List.range st.entries.length).filter _ = ns
  induction ns generalizing st with
  | nil => exact .refl st
  | cons n ns ih => exact (voidEntry_keeps st n).trans (ih _)

theorem complete_keeps (st : LineStore) (n : Nat) (o : EntryState) : StoreKeeps st (st.complete n o) :=
  ⟨by simp [LineStore.complete, LineStore.endFill], (endFill_keeps st n).withdrawn⟩

theorem releaseEntry_keeps (st : LineStore) (n : Nat) : StoreKeeps st (st.releaseEntry n) := by
  unfold LineStore.releaseEntry
  simp only
  split
  · split <;> exact ⟨by simp, Nat.le_refl _⟩
  · exact ⟨by simp, Nat.le_refl _⟩

theorem release_keeps (st : LineStore) (need : List NeedLine) : StoreKeeps st (st.release need) := by
  unfold LineStore.release
  generalize need.map (fun l => l.entry) = ns
  induction ns generalizing st with
  | nil => exact .refl st
  | cons n ns ih => exact (releaseEntry_keeps st n).trans (ih _)

theorem takeLine_keeps {st st1 : LineStore} {w : WantedLine} {l : NeedLine} (h : st.takeLine w = some (st1, l)) :
    StoreKeeps st st1 := by
  unfold LineStore.takeLine at h
  split at h
  · cases h
    exact ⟨by simp [LineStore.share], Nat.le_refl _⟩
  · split at h
    · cases h
      exact ⟨by simp [LineStore.allocate], Nat.le_refl _⟩
    · simp at h

theorem takeLines_keeps {st st1 : LineStore} {ws : List WantedLine} {ls : List NeedLine} (h : st.takeLines ws = some (st1, ls)) :
    StoreKeeps st st1 := by
  induction ws generalizing st ls with
  | nil =>
    simp [LineStore.takeLines] at h
    exact h.1 ▸ .refl st
  | cons w ws ih =>
    simp only [LineStore.takeLines] at h
    split at h
    · simp at h
    · next st2 l h2 =>
      split at h
      · simp at h
      · next st3 ls3 h3 =>
        simp only [Option.some.injEq, Prod.mk.injEq] at h
        obtain ⟨rfl, _⟩ := h
        exact (takeLine_keeps h2).trans (ih h3)

theorem grant_keeps (st : LineStore) (n : Nat) (ws : List Word) (f : Bool) : StoreKeeps st (st.grant n ws f) :=
  ⟨by simp [LineStore.grant], Nat.le_refl _⟩

theorem returned_keeps (st : LineStore) : StoreKeeps st st.returned := by
  unfold LineStore.returned
  split
  · exact .refl st
  · simp only
    split
    · refine StoreKeeps.trans ?_ (complete_keeps _ _ _)
      exact ⟨rfl, Nat.le_refl _⟩
    · split
      · exact ⟨by simp, Nat.le_refl _⟩
      · split
        · refine StoreKeeps.trans ?_ (complete_keeps _ _ _)
          exact ⟨by simp, Nat.le_refl _⟩
        · exact ⟨by simp, Nat.le_refl _⟩

/-! ### Inside a take -/

/-- What the work inside a take keeps or bounds, besides the bus. -/
structure Inner (s t : State) : Prop where
  cond : CondGrows s.cond t.cond
  windows : s.windows.length = 8 → t.windows.length = 8
  store : StoreKeeps s.store t.store
  copy : t.settings.copy = s.settings.copy
  starvation : t.memPort.starvation = s.memPort.starvation
  firstFault : t.memPort.firstFault = s.memPort.firstFault
  refresh : s.memPort.refreshPending ≤ Config.refreshUrgent → t.memPort.refreshPending ≤ Config.refreshUrgent

theorem Inner.refl (s : State) : Inner s s := ⟨.refl _, id, .refl _, rfl, rfl, rfl, id⟩

theorem Inner.trans {s t u : State} (h : Inner s t) (k : Inner t u) : Inner s u :=
  ⟨h.cond.trans k.cond, fun x => k.windows (h.windows x), h.store.trans k.store, k.copy.trans h.copy,
    k.starvation.trans h.starvation, k.firstFault.trans h.firstFault, fun x => k.refresh (h.refresh x)⟩

theorem installEntries_length (d p : Nat) (before es : List WindowEntry) : (installEntries d p before es).length = es.length := by
  induction es generalizing before with
  | nil => rfl
  | cons e es ih => simp [installEntries, ih]

theorem installed_length (s : State) : (s.installed.map Prod.fst).length = 8 := by
  simp [State.installed, installEntries_length, Settings.windowEntries]

theorem inner_core : CoreClosed Inner where
  refl := .refl
  trans := .trans
  raise c s := ⟨raise_grows c s, id, .refl _, rfl, rfl, rfl, id⟩
  schedule s := ⟨schedule_grows s, id, .refl _, rfl, rfl, rfl, id⟩
  monitor s _ := ⟨.refl _, id, .refl _, rfl, rfl, rfl, id⟩
  history s _ := ⟨.refl _, id, .refl _, rfl, rfl, rfl, id⟩
  probeReset s := ⟨.refl _, id, .refl _, rfl, rfl, rfl, id⟩
  probeEvicted s _ := ⟨.refl _, id, .refl _, rfl, rfl, rfl, id⟩
  probeLine s _ _ _ := ⟨.refl _, id, .refl _, rfl, rfl, rfl, id⟩
  probeAdmission s _ _ := ⟨.refl _, id, .refl _, rfl, rfl, rfl, id⟩
  cadenceClose s _ _ _ _ := ⟨.refl _, id, .refl _, rfl, rfl, rfl, id⟩
  cadenceE22 s _ := ⟨.refl _, id, .refl _, rfl, rfl, rfl, id⟩
  cadenceGeometry s := ⟨.refl _, id, .refl _, rfl, rfl, rfl, id⟩
  planNone s := ⟨.refl _, id, .refl _, rfl, rfl, rfl, id⟩
  planRepair s _ _ _ _ _ := ⟨.refl _, id, .refl _, rfl, rfl, rfl, id⟩
  planFlags s _ _ := ⟨.refl _, id, .refl _, rfl, rfl, rfl, id⟩
  planFrame s _ _ := ⟨.refl _, id, .refl _, rfl, rfl, rfl, id⟩
  voidFields s fs := ⟨.refl _, id, voidFields_keeps _ fs, rfl, rfl, rfl, id⟩
  installWindows s := ⟨windowLoad_grows _ _ _, fun _ => installed_length s, .refl _, rfl, rfl, rfl, id⟩
  memoryGroup s _ := ⟨.refl _, id, .refl _, rfl, rfl, rfl, id⟩
  interval s _ := ⟨.refl _, id, .refl _, rfl, rfl, rfl, id⟩
  addition s := by
    unfold refreshAddition
    split
    · next h => exact ⟨.refl _, id, .refl _, rfl, rfl, rfl, fun _ => h⟩
    · exact ⟨raise_grows _ s, id, .refl _, rfl, rfl, rfl, id⟩
  outputRefused s := ⟨.refl _, id, .refl _, rfl, rfl, rfl, id⟩
  outputLoaded s _ := ⟨.refl _, id, .refl _, rfl, rfl, rfl, id⟩

/-- The same across a load of the ingest group. -/
theorem inner_closed : InnerClosed Inner := inner_core.inner (fun _ => ⟨.refl _, id, .refl _, rfl, rfl, rfl, id⟩) (fun _ _ => ⟨.refl _, id, .refl _, rfl, rfl, rfl, id⟩)

/-! ### The probe unit and the cadence detector -/

theorem leave_pending (u : ProbeUnit) (l : Nat) : (u.leave l).pending.length ≤ u.pending.length := by
  simpa [ProbeUnit.leave] using List.length_filter_le _ _

theorem settleLine_pending (u : ProbeUnit) (l : Nat) : (u.settleLine l).pending.length ≤ u.pending.length := by
  unfold ProbeUnit.settleLine
  split
  · exact Nat.le_refl _
  · split
    · exact leave_pending _ l
    · exact Nat.le_refl _

theorem afterLoss_pending (u : ProbeUnit) (l : Nat) : (u.afterLoss l).pending.length ≤ u.pending.length := by
  unfold ProbeUnit.afterLoss
  split
  · exact leave_pending _ l
  · exact settleLine_pending u l

theorem afterLosses_pending (u : ProbeUnit) (ls : List Nat) : (ls.foldl ProbeUnit.afterLoss u).pending.length ≤ u.pending.length := by
  induction ls generalizing u with
  | nil => exact Nat.le_refl _
  | cons l ls ih => exact Nat.le_trans (ih _) (afterLoss_pending u l)

theorem evicted_pending (u : ProbeUnit) (f : FieldNo) : (u.evicted f).pending.length ≤ u.pending.length := by
  unfold ProbeUnit.evicted
  split
  · exact Nat.le_trans (afterLosses_pending _ _) (by simp [ProbeUnit.dropFetches])
  · split
    · exact Nat.le_trans (afterLosses_pending _ _) (by simp [ProbeUnit.dropFetches])
    · exact Nat.le_refl _

theorem lineComplete_pending (u : ProbeUnit) (h : History) (g : Ring) (l : Nat) (k : u.pending.length ≤ Config.pendingProbes) :
    (u.lineComplete h g l).pending.length ≤ Config.pendingProbes := by
  unfold ProbeUnit.lineComplete
  split
  · split
    · exact k
    · split
      · next c =>
        simp only [ProbeUnit.setEntry, List.length_append, List.length_cons, List.length_nil]
        omega
      · exact k
  · exact k

theorem probeReturned_pending (u : ProbeUnit) : u.returned.pending.length ≤ u.pending.length := by
  unfold ProbeUnit.returned
  split
  · exact Nat.le_refl _
  · simp only
    split
    · exact leave_pending _ _
    · exact Nat.le_trans (settleLine_pending _ _) (by simp [ProbeUnit.setFetch])

theorem probeGrant_pending (u : ProbeUnit) (l : Nat) (role : ProbeRole) (ws : List Word) (f : Bool) :
    (u.grant l role ws f).pending.length = u.pending.length := by
  simp [ProbeUnit.grant, ProbeUnit.setFetch]

theorem phase_le (f : FieldNo) : FieldNo.phase f ≤ 1 := by
  unfold FieldNo.phase
  omega

theorem evidence22_le {cN cP : Option Nat} {pN pP f h : Nat} (hN : pN ≤ 1) (hP : pP ≤ 1)
    (e : evidence22 cN cP pN pP f = .consistent h) : h ≤ 1 := by
  unfold evidence22 at e
  split at e
  · split at e
    · split at e
      · cases e
        split <;> assumption
      · simp at e
    · simp at e
  · simp at e

theorem toVideo_inRange {c : Cadence} (n : FieldNo) (cause phase : Nat) (h : c.inRange) : (c.toVideo n cause phase).cadence.inRange :=
  ⟨h.1, h.2.1, by simp [Cadence.toVideo], h.2.2.2⟩

theorem nextEpisode_le {e : Nat} (h : e ≤ 65535) : nextEpisode e ≤ 65535 := by
  unfold nextEpisode
  split <;> omega

theorem count22_inRange {c : Cadence} {ev : Evidence22} (e22 : Nat) (h : c.inRange) (k : ∀ x, ev = .consistent x → x ≤ 1) :
    (c.count22 ev e22).inRange := by
  unfold Cadence.count22
  split
  · next x =>
    split
    · exact h
    · exact ⟨h.1, k x rfl, h.2.2⟩
  · exact h
  · exact h

theorem nextRepeats_le {rs : List FieldNo} (n : FieldNo) (h : rs.length ≤ 3) : (nextRepeats rs n).length ≤ 3 := by
  unfold nextRepeats
  split
  · split
    · simp; omega
    · simp; omega
  · simp

theorem cadenceVideo_inRange {c : Cadence} (g : IngestGroup) (n : FieldNo) (phase : Nat) {ev : Evidence22} (event : Bool)
    (h : c.inRange) (k : ∀ x, ev = .consistent x → x ≤ 1) : (c.video g n phase ev event).cadence.inRange := by
  have hc := count22_inRange g.e22 h k
  have hr : (if event then nextRepeats c.repeats n else c.repeats).length ≤ 3 := by
    split
    · exact nextRepeats_le n h.2.2.1
    · exact h.2.2.1
  unfold Cadence.video
  generalize (if event then nextRepeats c.repeats n else c.repeats) = rs at hr ⊢
  simp only
  split
  · exact ⟨nextEpisode_le hc.1, hc.2.1, by simp [lockAt], by simp [lockAt]⟩
  · split
    · exact ⟨nextEpisode_le hc.1, hc.2.1, by simp [lockAt], hc.2.2.2⟩
    · exact ⟨hc.1, hc.2.1, hr, hc.2.2.2⟩

theorem cadenceClose_inRange {c : Cadence} (g : IngestGroup) (r : FieldRecord) (p : Option FieldRecord) (h : c.inRange) :
    (c.close g r p).cadence.inRange := by
  unfold Cadence.close
  simp only
  split
  · exact toVideo_inRange _ _ _ h
  · have h1 : (if r.number = 1#32 then c.wrap else c).inRange := by
      split
      · exact ⟨h.1, by simp [Cadence.wrap], by simp [Cadence.wrap], h.2.2.2⟩
      · exact h
    have hp : (if r.number = 1#32 then 0 else FieldNo.phase (FieldNo.pred r.number)) ≤ 1 := by
      split
      · omega
      · exact phase_le _
    generalize hcc : (if r.number = 1#32 then c.wrap else c) = c1 at h1 ⊢
    split
    · exact cadenceVideo_inRange g _ _ _ h1 (fun x e => evidence22_le (phase_le _) hp e)
    · unfold Cadence.locked22
      split
      · exact toVideo_inRange _ _ _ h1
      · split
        · exact h1
        · exact toVideo_inRange _ _ _ h1
      · exact h1
    · unfold Cadence.locked32
      split
      · exact toVideo_inRange _ _ _ h1
      · exact ⟨h1.1, h1.2.1, h1.2.2.1, by simp only; omega⟩

theorem toVideo_c22 (c : Cadence) (n : FieldNo) (cause phase : Nat) : (c.toVideo n cause phase).cadence.c22 = 0 := rfl

/-- R54: the counter stays within E22. -/
theorem count22_le {c : Cadence} (ev : Evidence22) {e22 : Nat} (h : c.c22 ≤ e22) (k : 1 ≤ e22) : (c.count22 ev e22).c22 ≤ e22 := by
  unfold Cadence.count22
  split
  · split
    · exact Nat.min_le_left _ _
    · exact k
  · exact Nat.zero_le _
  · exact h

theorem cadenceVideo_c22 {c : Cadence} {g : IngestGroup} (n : FieldNo) (phase : Nat) (ev : Evidence22) (event : Bool)
    (h : c.c22 ≤ g.e22) (k : 1 ≤ g.e22) : (c.video g n phase ev event).cadence.c22 ≤ g.e22 := by
  have := count22_le ev h k
  unfold Cadence.video
  generalize (if event then nextRepeats c.repeats n else c.repeats) = rs
  simp only
  split
  · exact Nat.zero_le _
  · split <;> exact this

/-- R50: a close keeps c22 within E22. -/
theorem cadenceClose_c22 {c : Cadence} {g : IngestGroup} (r : FieldRecord) (p : Option FieldRecord) (h : c.c22 ≤ g.e22)
    (k : 1 ≤ g.e22) : (c.close g r p).cadence.c22 ≤ g.e22 := by
  have h1 : (if r.number = 1#32 then c.wrap else c).c22 ≤ g.e22 := by split <;> exact h
  unfold Cadence.close
  simp only
  generalize (if r.number = 1#32 then c.wrap else c) = c1 at h1 ⊢
  split
  · exact Nat.zero_le _
  · split
    · exact cadenceVideo_c22 _ _ _ _ h1 k
    · unfold Cadence.locked22
      split
      · exact Nat.zero_le _
      · split
        · exact h1
        · exact Nat.zero_le _
      · exact h1
    · unfold Cadence.locked32
      split
      · exact Nat.zero_le _
      · exact h1

/-- The work inside a take keeps the probe unit and the cadence detector in range. -/
theorem engines_core : CoreClosed (fun s t => s.enginesOk → t.enginesOk) where
  refl _ := id
  trans h k x := k (h x)
  raise _ _ := id
  schedule _ := id
  monitor _ _ := id
  history _ _ := id
  probeReset _ h := ⟨by simp [ProbeUnit.reset], h.2⟩
  probeEvicted _ f h := ⟨Nat.le_trans (evicted_pending _ f) h.1, h.2⟩
  probeLine _ x g l h := ⟨lineComplete_pending _ x g l h.1, h.2⟩
  probeAdmission _ x r h := ⟨by simp [ProbeUnit.admission], h.2⟩
  cadenceClose _ g r p hg h := ⟨h.1, cadenceClose_inRange g r p h.2.1, fun x hx => by
    rw [hg] at hx
    cases hx
    have := h.2.2 g hg
    exact ⟨this.1, cadenceClose_c22 r p this.2 (by omega)⟩⟩
  cadenceE22 _ n h := ⟨h.1, h.2.1, fun g hg => ⟨(h.2.2 g hg).1, Nat.le_trans (Nat.min_le_left _ _) (h.2.2 g hg).2⟩⟩
  cadenceGeometry _ h := ⟨h.1, ⟨h.2.1.1, by simp [Cadence.geometryChange, Cadence.reset], by simp [Cadence.geometryChange, Cadence.reset],
    by simp [Cadence.geometryChange, Cadence.reset]⟩, fun g hg => ⟨(h.2.2 g hg).1, Nat.zero_le _⟩⟩
  planNone _ := id
  planRepair _ _ _ _ _ _ := id
  planFlags _ _ _ := id
  planFrame _ _ _ := id
  voidFields _ _ := id
  installWindows _ := id
  memoryGroup _ _ := id
  interval _ _ := id
  addition s h := by
    rw [refreshAddition_eq]
    exact h
  outputRefused _ := id
  outputLoaded _ _ := id

/-- R168: E22 as loaded lies within 4..32. -/
theorem loadedE22_range (w : Word) : 4 ≤ loadedE22 w ∧ loadedE22 w ≤ 32 := by
  unfold loadedE22 orDefault clampNat
  split <;> omega

/-- What a geometry change leaves of the probe unit, the detector and the settings. -/
theorem geometryChange_engines (s : State) : (geometryChange s).cadence = s.cadence.geometryChange ∧
    (geometryChange s).settings = s.settings ∧
    ((geometryChange s).probe = s.probe ∨ (geometryChange s).probe = ProbeUnit.reset) := by
  have h1 : (resetMonitor s).cadence = s.cadence ∧ (resetMonitor s).settings = s.settings ∧ (resetMonitor s).probe = s.probe := by
    unfold resetMonitor; simp only; split <;> exact ⟨rfl, rfl, rfl⟩
  have h2 : ∀ s, (dropPlan s).cadence = s.cadence ∧ (dropPlan s).settings = s.settings ∧ (dropPlan s).probe = s.probe := by
    intro s; unfold dropPlan planToNone; simp only; split <;> exact ⟨rfl, rfl, rfl⟩
  have h3 : ∀ s, (emptyHistory s).cadence = s.cadence ∧ (emptyHistory s).settings = s.settings ∧
      ((emptyHistory s).probe = s.probe ∨ (emptyHistory s).probe = ProbeUnit.reset) := by
    intro s; unfold emptyHistory; split
    · exact ⟨rfl, rfl, .inl rfl⟩
    · exact ⟨rfl, rfl, .inr rfl⟩
  obtain ⟨a1, a2, a3⟩ := h3 (dropPlan (resetMonitor s))
  obtain ⟨b1, b2, b3⟩ := h2 (resetMonitor s)
  refine ⟨?_, (a2.trans b2).trans h1.2.1, ?_⟩
  · unfold geometryChange; simp only; rw [a1, b1, h1.1]
  · show (emptyHistory _).probe = _ ∨ (emptyHistory _).probe = _
    rw [b3, h1.2.2] at a3
    exact a3

/-- The same across a load of the ingest group: a new E22 lowers c22 to it, and a geometry change clears it (R61, R50). -/
theorem engines_closed : InnerClosed (fun s t => s.enginesOk → t.enginesOk) :=
  { engines_core with
    loadIngest := by
      intro s h
      unfold loadIngest
      split
      · exact h
      · have hr := loadedE22_range s.settings.ingestWords.e22
        unfold installIngest
        simp only
        split
        · obtain ⟨a, b, c⟩ := geometryChange_engines (raiseAll (adjustedConditions s.pageBase s.settings.ingestWords.adjusted)
            { s with settings := { s.settings with ingest := some s.settings.ingestWords.load, ingestPending := false } })
          refine ⟨?_, ?_, ?_⟩
          · rcases c with c | c
            · rw [c, raiseAll_probe]; exact h.1
            · rw [c]; exact Nat.zero_le _
          · rw [a, raiseAll_cadence]
            exact ⟨h.2.1.1, by simp [Cadence.geometryChange, Cadence.reset], by simp [Cadence.geometryChange, Cadence.reset],
              by simp [Cadence.geometryChange, Cadence.reset]⟩
          · intro g hg
            rw [b, raiseAll_settings] at hg
            cases hg
            rw [a]
            exact ⟨hr, Nat.zero_le _⟩
        · refine engines_core.stallAtLoad _ ?_
          refine ⟨?_, ?_, ?_⟩
          · rw [raiseAll_probe]; exact h.1
          · rw [raiseAll_cadence]; exact h.2.1
          · intro g hg
            simp only [raiseAll_settings] at hg
            cases hg
            exact ⟨hr, Nat.min_le_right _ _⟩ }

end Sys2Proof.Machine
end

