-- ==== Sys2Proof/Laws/Queues.lean ====
section
/-! SUPPORT. The queues of the ports: the position that a search finds, its replacement, the response that stands first, and what the
takes leave alone. -/

namespace Sys2Proof.Machine

/-- The first element that p accepts, where it is known. -/
theorem pickFirst_at {α : Type} {p : α → Bool} {before after : List α} {q : α} (h : ∀ x ∈ before, p x = false) (hq : p q = true) :
    pickFirst p (before ++ q :: after) = some (before, q, after) := by
  induction before with
  | nil => simp [pickFirst, hq]
  | cons x xs ih =>
    have hx := h x (by simp)
    simp [pickFirst, hx, ih (fun y hy => h y (by simp [hy]))]

/-- The parts of a list at the first element that p accepts. -/
theorem pickFirst_some {α : Type} {p : α → Bool} {l before after : List α} {q : α} (h : pickFirst p l = some (before, q, after)) :
    l = before ++ q :: after ∧ p q = true ∧ ∀ x ∈ before, p x = false := by
  induction l generalizing before with
  | nil => simp [pickFirst] at h
  | cons x xs ih =>
    unfold pickFirst at h
    split at h
    · next hx => cases h; simp [hx]
    · next hx =>
      split at h
      · next b y a hb =>
        cases h
        obtain ⟨e, hq, hn⟩ := ih hb
        refine ⟨by simp [e], hq, ?_⟩
        intro z hz
        rcases List.mem_cons.mp hz with rfl | hz
        · simpa using hx
        · exact hn z hz
      · simp at h

theorem find_at {α : Type} {p : α → Bool} {before after : List α} {q : α} (h : ∀ x ∈ before, p x = false) (hq : p q = true) :
    (before ++ q :: after).find? p = some q := by
  induction before with
  | nil => simp [hq]
  | cons x xs ih =>
    have hx := h x (by simp)
    simp only [List.cons_append, List.find?_cons, hx]
    exact ih (fun y hy => h y (by simp [hy]))

/-- The queue with its first position that p accepts replaced. -/
theorem replaceFirst_at {p : QueuePosition → Bool} {f : QueuePosition → Option QueuePosition} {before after : List QueuePosition}
    {q : QueuePosition} (h : ∀ x ∈ before, p x = false) (hq : p q = true) :
    replaceFirst p f (before ++ q :: after) = before ++ (f q).toList ++ after := by
  unfold replaceFirst
  rw [pickFirst_at h hq]
  simp only
  cases f q <;> simp

/-- A replaced queue: unchanged, or one position of it replaced or removed. -/
theorem replaceFirst_cases (p : QueuePosition → Bool) (f : QueuePosition → Option QueuePosition) (l : List QueuePosition) :
    replaceFirst p f l = l ∨ ∃ before q after, l = before ++ q :: after ∧ p q = true ∧
      replaceFirst p f l = before ++ (f q).toList ++ after := by
  cases h : pickFirst p l with
  | none =>
    left
    simp [replaceFirst, h]
  | some x =>
    obtain ⟨before, q, after⟩ := x
    obtain ⟨e, hq, hn⟩ := pickFirst_some h
    right
    exact ⟨before, q, after, e, hq, by rw [e]; exact replaceFirst_at hn hq⟩

/-- A replacement makes a queue no longer. -/
theorem replaceFirst_length (p : QueuePosition → Bool) (f : QueuePosition → Option QueuePosition) (l : List QueuePosition) :
    (replaceFirst p f l).length ≤ l.length := by
  rcases replaceFirst_cases p f l with h | ⟨b, q, a, e, _, h⟩
  · exact Nat.le_of_eq (by rw [h])
  · rw [h, e]
    cases f q <;> simp

/-- Whatever holds of every position and of the replacement holds of the replaced queue. -/
theorem replaceFirst_forall {P : QueuePosition → Prop} {p : QueuePosition → Bool} {f : QueuePosition → Option QueuePosition}
    {l : List QueuePosition} (h : ∀ q ∈ l, P q) (k : ∀ q ∈ l, p q = true → ∀ x, f q = some x → P x) :
    ∀ q ∈ replaceFirst p f l, P q := by
  rcases replaceFirst_cases p f l with e | ⟨b, q, a, e, hq, e2⟩
  · rw [e]
    exact h
  · rw [e2]
    intro x hx
    simp only [List.mem_append, Option.mem_toList] at hx
    rcases hx with (hx | hx) | hx
    · exact h x (by simp [e, hx])
    · exact k q (by simp [e]) hq x hx
    · exact h x (by simp [e, hx])

/-- Where nothing has the least key, nothing has a key. -/
theorem leastBy_none {α : Type} {key : α → Option Nat} {l : List α} (h : leastBy key l = none) : ∀ x ∈ l, key x = none := by
  induction l with
  | nil => simp
  | cons z zs ih =>
    unfold leastBy at h
    split at h
    · next hz =>
      intro x hx
      rcases List.mem_cons.mp hx with rfl | hx
      · exact hz
      · exact ih h x hx
    · simp at h
    · split at h <;> simp at h

/-- The element of least key: it is in the list and has a key no greater than any other. -/
theorem leastBy_some {α : Type} {key : α → Option Nat} {l : List α} {q : α} (h : leastBy key l = some q) :
    q ∈ l ∧ ∃ n, key q = some n ∧ ∀ x ∈ l, ∀ m, key x = some m → n ≤ m := by
  induction l generalizing q with
  | nil => simp [leastBy] at h
  | cons x xs ih =>
    unfold leastBy at h
    split at h
    · next hk =>
      obtain ⟨hm, n, hn, hl⟩ := ih h
      refine ⟨by simp [hm], n, hn, ?_⟩
      intro y hy m hym
      rcases List.mem_cons.mp hy with rfl | hy
      · simp [hk] at hym
      · exact hl y hy m hym
    · next k hk hb =>
      cases h
      refine ⟨by simp, k, hk, ?_⟩
      intro y hy m hym
      rcases List.mem_cons.mp hy with rfl | hy
      · rw [hk] at hym
        cases hym
        exact Nat.le_refl _
      · exfalso
        exact absurd hym (by simp [leastBy_none hb y hy])
    · next k y hk hb =>
      obtain ⟨hm, n, hn, hl⟩ := ih hb
      rw [hn] at h
      simp only [Option.getD_some] at h
      split at h
      · next hle =>
        cases h
        refine ⟨by simp, k, hk, ?_⟩
        intro z hz m hzm
        rcases List.mem_cons.mp hz with rfl | hz
        · rw [hk] at hzm
          cases hzm
          exact Nat.le_refl _
        · exact Nat.le_trans hle (hl z hz m hzm)
      · next hle =>
        cases h
        refine ⟨by simp [hm], n, hn, ?_⟩
        intro z hz m hzm
        rcases List.mem_cons.mp hz with rfl | hz
        · rw [hk] at hzm
          cases hzm
          omega
        · exact hl z hz m hzm

/-- What `find?` finds stands after elements that do not meet the test. -/
theorem find_split {α : Type} {p : α → Bool} {l : List α} {q : α} (h : l.find? p = some q) :
    p q = true ∧ ∃ b a, l = b ++ q :: a ∧ ∀ x ∈ b, p x = false := by
  refine ⟨List.find?_some h, ?_⟩
  induction l with
  | nil => cases h
  | cons y ys ih =>
    cases hy : p y with
    | true => rw [List.find?_cons, hy] at h; cases h; exact ⟨[], ys, rfl, by simp⟩
    | false =>
      rw [List.find?_cons, hy] at h
      obtain ⟨b, a, e, hb⟩ := ih h
      refine ⟨y :: b, a, by rw [e]; rfl, ?_⟩
      intro x hx; rcases List.mem_cons.1 hx with rfl | hx
      · exact hy
      · exact hb x hx

/-- The element of least key is the first with that key. -/
theorem leastBy_first {α : Type} {key : α → Option Nat} {l : List α} {q : α} {n : Nat} (h : leastBy key l = some q) (hn : key q = some n) :
   ∃ b a, l = b ++ q :: a ∧ ∀ x ∈ b, key x ≠ some n := by
  induction l generalizing q n with
  | nil => cases h
  | cons y ys ih =>
    unfold leastBy at h
    cases hk : key y with
    | none =>
      rw [hk] at h; simp only at h
      obtain ⟨b, a, e, hb⟩ := ih h hn
      refine ⟨y :: b, a, by rw [e]; rfl, ?_⟩
      intro x hx; rcases List.mem_cons.1 hx with rfl | hx
      · rw [hk]; simp
      · exact hb x hx
    | some k =>
      rw [hk] at h
      cases hl : leastBy key ys with
      | none => rw [hl] at h; simp only at h; cases h; exact ⟨[], ys, rfl, by simp⟩
      | some z =>
        rw [hl] at h; simp only at h
        split at h
        · cases h; exact ⟨[], ys, rfl, by simp⟩
        · next hlt =>
          cases h
          obtain ⟨b, a, e, hb⟩ := ih hl hn
          refine ⟨y :: b, a, by rw [e]; rfl, ?_⟩
          intro x hx; rcases List.mem_cons.1 hx with rfl | hx
          · rw [hk]; intro hc; cases hc; rw [hn] at hlt; simp at hlt
          · exact hb x hx

/-- A replacement that makes no position a taken output read raises their number nowhere. -/
theorem replaceFirst_count (p : QueuePosition → Bool) (f : QueuePosition → Option QueuePosition) (l : List QueuePosition)
    (h : ∀ q x, p q = true → f q = some x → x.progress.isOutput = true → q.progress.isOutput = true) :
    (replaceFirst p f l).countP (fun q => q.progress.isOutput) ≤ l.countP (fun q => q.progress.isOutput) := by
  rcases replaceFirst_cases p f l with e | ⟨b, q, a, e, hp, e2⟩
  · exact Nat.le_of_eq (by rw [e])
  · rw [e2, e]
    simp only [List.countP_append, List.countP_cons]
    cases hf : f q with
    | none => simp
    | some x =>
      simp only [Option.toList_some, List.countP_cons, List.countP_nil]
      have := h q x hp hf
      by_cases hx : x.progress.isOutput = true
      · simp [hx, this hx]; omega
      · simp [hx]

/-- A replacement raises the number of taken output reads by one at most. -/
theorem replaceFirst_count_succ (p : QueuePosition → Bool) (f : QueuePosition → Option QueuePosition) (l : List QueuePosition) :
    (replaceFirst p f l).countP (fun q => q.progress.isOutput) ≤ l.countP (fun q => q.progress.isOutput) + 1 := by
  rcases replaceFirst_cases p f l with e | ⟨b, q, a, e, hp, e2⟩
  · rw [e]; omega
  · rw [e2, e]; simp only [List.countP_append, List.countP_cons]
    cases f q
    · simp only [Option.toList_none, List.countP_nil]; omega
    · simp only [Option.toList_some, List.countP_cons, List.countP_nil]; split <;> split <;> omega

end Sys2Proof.Machine
end

