-- ==== Sys2Proof/Laws/Arbiter.lean ====
section
/-! SUPPORT. What the arbiter's choice says of the requester it grants, and what a grant does around the requester's own work. -/

namespace Sys2Proof.Machine

/-- The requester granted is waiting. -/
theorem grantee_waiting {s : State} {r : Requester} (h : s.grantee = some r) : s.waiting r = true := by
  unfold State.grantee at h
  split at h
  · next hu =>
    cases h
    simp [State.waiting, hu, Config.refreshUrgent]
  · split at h
    · next hc =>
      cases h
      exact hc
    · split at h
      · next x hx =>
        cases h
        have := List.find?_some hx
        simp at this
        exact this.1
      · exact List.find?_some h

/-- A grant that the arbiter makes. -/
theorem grantTo_next {r : Requester} {us : List Upset} {act : State → State} {s : State} (h : s.grantee = some r) :
    grantTo r us act s = .next (act ((disturb us s).countGrant r)) := by
  simp [grantTo, h]

/-- Waiting does not depend on what DRAM holds. -/
@[simp] theorem waiting_disturb (us : List Upset) (s : State) : (disturb us s).waiting = s.waiting := by
  funext r
  cases r <;> rfl

@[simp] theorem portBlocked_disturb (us : List Upset) (s : State) : (disturb us s).portBlocked = s.portBlocked := rfl

/-- The port of a name after the starvation counts of a grant. -/
@[simp] theorem port_countGrant (s : State) (r : Requester) (x : Port) : (s.countGrant r).port x = s.port x := by
  cases x <;> rfl

@[simp] theorem port_disturb (us : List Upset) (s : State) (x : Port) : (disturb us s).port x = s.port x := by
  cases x <;> rfl

end Sys2Proof.Machine
end

