-- ==== Sys2Proof/Laws/Ingest.lean ====
section
/-! SUPPORT. What the parts of a capture take do: the take of the next capture request, a refusal or a pass on the capture queue, the
line words of a write, the close of a field, an eviction and an admission. -/

namespace Sys2Proof.Machine

/-! ### The capture queue -/

/-- CAPTURE_REQUEST_TAKE takes the first untaken request. -/
theorem captureTake_next {before after : List QueuePosition} {q : QueuePosition} {s : State} (hp : s.phase = .running)
    (hq : s.capture.queue = before ++ q :: after) (hb : ∀ p ∈ before, p.progress ≠ .untaken) (hu : q.progress = .untaken) :
    exec .captureRequestTake s = .next (takeCapture q.request s) := by
  have hn : s.nextCapture = some q := by
    unfold State.nextCapture; rw [hq]
    exact find_at (fun x hx => by simp [QueuePosition.isUntaken, hb x hx]) (by simp [QueuePosition.isUntaken, hu])
  simp only [exec, execCaptureRequestTake, if_pos hp, hn]

/-- A capture write that passes keeps its position, taken. -/
theorem passWrite_capture {before after : List QueuePosition} {q : QueuePosition} {s : State} {ws : List WriteWord}
    (hq : s.capture.queue = before ++ q :: after) (hb : ∀ p ∈ before, p.progress ≠ .untaken) (hu : q.progress = .untaken)
    (hw : isWriteRequest q.request = true) :
    passRequest .capture captureTurn q.request ws s = { s with
      takes := s.takes + 1
      capture := { s.capture with
        queue := before ++ { q with progress := .writeTaken s.takes ws } :: after
        acks := s.capture.acks ++ [{ tag := q.request.tag, body := .writeStatus .ok }] } } := by
  simp only [passRequest, State.setPort, State.port, PortState.take, PortState.replace, PortState.acknowledge, hq]
  rw [replaceFirst_at (p := captureTurn) (fun x hx => by simp [captureTurn, QueuePosition.isUntaken, hb x hx])
    (by simp [captureTurn, QueuePosition.isUntaken, hu])]
  simp [becomes, passedProgress, passedAck, hw]

/-- A capture write that is refused leaves its position. -/
theorem refuseWrite_capture {before after : List QueuePosition} {q : QueuePosition} {s : State} {reason : Reason}
    (hp : s.phase = .running) (hq : s.capture.queue = before ++ q :: after) (hb : ∀ p ∈ before, p.progress ≠ .untaken)
    (hu : q.progress = .untaken) (hw : isWriteRequest q.request = true) :
    refuseRequest .capture captureTurn q.request reason s = { s with
      takes := s.takes + 1
      capture := { s.capture with
        queue := before ++ after, acks := s.capture.acks ++ [{ tag := q.request.tag, body := .writeStatus reason.status }] }
      cond := s.cond.occur 15 ((violation .capture q.request reason).record s.planner.frame) s.statusStands } := by
  simp only [refuseRequest, raise, State.setPort, State.port, hp, PortState.take, PortState.replace, PortState.acknowledge, hq]
  rw [replaceFirst_at (p := captureTurn) (fun x hx => by simp [captureTurn, QueuePosition.isUntaken, hb x hx])
    (by simp [captureTurn, QueuePosition.isUntaken, hu])]
  simp [refusedPosition, refusedAck, violation, Condition.code, hw]
  rfl

/-- What reaches the ingest monitor is a write. -/
theorem toMonitor_isWrite {r : Request} {s : State} (h : s.judge .capture r = .toMonitor) : isWriteRequest r = true := by
  cases hw : isWriteRequest r with
  | true => rfl
  | false =>
    exfalso
    have hp : ∀ reg, permission .capture false reg = .pass ∨ permission .capture false reg = .refuse .outputFromCapture := by
      intro reg; cases reg <;> simp [permission]
    unfold State.judge at h
    rw [hw] at h
    by_cases h1 : 4294967296 < endAddr r
    · rw [if_pos h1] at h; exact absurd h (by decide)
    · rw [if_neg h1] at h
      by_cases h2 : (! s.oneRegion r) = true
      · rw [if_pos h2] at h; exact absurd h (by decide)
      · rw [if_neg h2] at h
        rcases hp (s.region (firstAddr r)) with e | e
        · rw [e] at h; simp only at h
          by_cases h3 : s.dramSize < endAddr r
          · rw [if_pos h3] at h; exact absurd h (by decide)
          · rw [if_neg h3] at h; exact absurd h (by decide)
        · rw [e] at h; simp only at h; exact absurd h (by decide)

/-! ### Records -/

/-- A record with its line map forgotten but for its length. -/
abbrev FieldRecord.bare (r : FieldRecord) : FieldRecord := { r with lines := List.replicate r.lines.length LineEntry.fresh }

theorem find?_map_bare {p : FieldRecord → Bool} (h : ∀ x, p x.bare = p x) (l : List FieldRecord) :
    (l.map FieldRecord.bare).find? p = (l.find? p).map FieldRecord.bare := by
  induction l with
  | nil => rfl
  | cons x xs ih =>
    simp only [List.map_cons, List.find?_cons, h]
    split
    · rfl
    · exact ih

/-- Records that differ in their line maps only. -/
theorem bare_eq {x r : FieldRecord} (h : x.bare = r.bare) : x = { r with lines := x.lines } ∧ x.lines.length = r.lines.length := by
  cases x; cases r
  simp only [FieldRecord.bare, FieldRecord.mk.injEq] at h
  refine ⟨by simp_all, ?_⟩
  simpa using congrArg List.length h.2.2.2.2.2.2.2.2.1

/-- A record found after an update of a number's record. -/
theorem History.update_find (h : History) (n : FieldNo) (f : FieldRecord → FieldRecord) (r : FieldRecord)
    (hf : ∀ x, x.number = n → (f x).number = n) (hr : h.find n = some r) : (h.update n f).find n = some (f r) := by
  unfold History.find History.update at *
  generalize h.records = l at *
  induction l with
  | nil => simp at hr
  | cons x xs ih =>
    simp only [List.map_cons, List.find?_cons] at hr ⊢
    by_cases hx : x.number = n
    · simp [hx] at hr; subst hr; simp [hx, hf]
    · rw [if_neg hx]; simp only [hx, decide_false] at hr ⊢; exact ih hr

/-- The record of another number after an update. -/
theorem History.update_find_ne (h : History) (n m : FieldNo) (f : FieldRecord → FieldRecord)
    (hf : ∀ x, x.number = n → (f x).number = n) (hm : m ≠ n) : (h.update n f).find m = h.find m := by
  unfold History.find History.update
  simp only
  generalize h.records = l
  induction l with
  | nil => rfl
  | cons x xs ih =>
    simp only [List.map_cons, List.find?_cons]
    by_cases hx : x.number = n
    · rw [if_pos hx, hf x hx, hx]
      rw [show (Decidable.decide (n = m)) = false by simp [Ne.symm hm]]
      exact ih
    · rw [if_neg hx]
      split
      · rfl
      · exact ih

theorem FieldNo.pred_ne (n : FieldNo) : FieldNo.pred n ≠ n := by
  unfold FieldNo.pred
  split
  · next h => subst h; decide
  · intro h
    have := n.isLt
    bv_omega

/-! ### The line words of a write -/

/-- t differs from s in the line maps and the probe unit only. -/
structure LinesOnly (s t : State) : Prop where
  monitor : t.monitor = s.monitor
  next : t.history.next = s.history.next
  records : t.history.records.map FieldRecord.bare = s.history.records.map FieldRecord.bare
  rest : t = { s with history := t.history, probe := t.probe }

theorem LinesOnly.refl (s : State) : LinesOnly s s := ⟨rfl, rfl, rfl, rfl⟩

theorem LinesOnly.trans {s t u : State} (h : LinesOnly s t) (k : LinesOnly t u) : LinesOnly s u := by
  refine ⟨k.monitor.trans h.monitor, k.next.trans h.next, k.records.trans h.records, ?_⟩
  rw [k.rest, h.rest]

/-- Any search by what is not a line map finds the same record but for its line map. -/
theorem LinesOnly.found {s t : State} (h : LinesOnly s t) {p : FieldRecord → Bool} (hp : ∀ x, p x.bare = p x) :
    (t.history.records.find? p).map FieldRecord.bare = (s.history.records.find? p).map FieldRecord.bare := by
  rw [← find?_map_bare hp, ← find?_map_bare hp, h.records]

/-- The newest record stays the newest, but for its line map. -/
theorem LinesOnly.newest {s t : State} (h : LinesOnly s t) {r : FieldRecord} (hr : s.history.newest = some r) :
    ∃ x, t.history.newest = some x ∧ x = { r with lines := x.lines } ∧ x.lines.length = r.lines.length := by
  have := congrArg List.getLast? h.records
  rw [List.getLast?_map, List.getLast?_map] at this
  simp only [History.newest] at *
  rw [hr] at this
  cases hx : t.history.records.getLast? with
  | none => rw [hx] at this; cases this
  | some x =>
    rw [hx] at this
    exact ⟨x, rfl, bare_eq (by simpa using this)⟩

theorem changeLine_lines (r : FieldRecord) (line : Nat) (f : LineEntry → LineEntry) (s : State) :
    LinesOnly s (changeLine r line f s) := by
  refine ⟨rfl, rfl, ?_, rfl⟩
  simp only [changeLine, History.update, List.map_map]
  apply List.map_congr_left
  intro x _
  simp only [Function.comp]
  split
  · simp [FieldRecord.bare]
  · rfl

theorem lineWord_lines (g : Machine.Ring) (s : State) (w : AreaWord) : LinesOnly s (lineWord g s w) := by
  unfold lineWord
  split
  · exact .refl s
  · split
    · unfold pixelWrite; simp only
      split
      · exact (changeLine_lines _ _ _ s).trans ⟨rfl, rfl, rfl, rfl⟩
      · exact changeLine_lines _ _ _ s
    · split
      · exact changeLine_lines _ _ _ s
      · exact .refl s
    · exact changeLine_lines _ _ _ s
    · exact .refl s
    · exact .refl s
    · exact .refl s

/-- The line words of a write change line maps and the probe unit only. -/
theorem lineWords_lines (g : Machine.Ring) (ws : List AreaWord) (s : State) : LinesOnly s (lineWords g ws s) := by
  unfold lineWords
  induction ws generalizing s with
  | nil => exact .refl s
  | cons w ws ih => exact (lineWord_lines g s w).trans (ih _)

/-! ### Close, eviction, admission, measurement -/

/-- What a close leaves alone. -/
theorem closeField_fields (c : CloseCause) (s : State) :
    (closeField c s).store = s.store ∧ (closeField c s).planner = s.planner ∧ (closeField c s).memPort = s.memPort ∧
      (closeField c s).settings = s.settings ∧ (closeField c s).windows = s.windows ∧
      (closeField c s).monitor.timerRunning = s.monitor.timerRunning ∧
      (closeField c s).monitor.timerCount = s.monitor.timerCount := by
  unfold closeField; split <;> simp [closeRecord]

/-- What a close does to the next field number and the note. -/
theorem closeField_note (c : CloseCause) (s : State) :
    (closeField c s).history.next = s.history.next ∧
      (∀ n, s.monitor.note = some n → ∃ m, (closeField c s).monitor.note = some m ∧ m.captureCount = n.captureCount ∧
        m.parity = n.parity ∧ (s.history.filling = none → m = n) ∧
        (∀ x, s.history.filling = some x → s.settings.ingest.isSome = true → c ≠ .endMark → x.number = n.field →
          m.closedCut = true)) ∧
      (s.monitor.note = none → (closeField c s).monitor.note = none) := by
  unfold closeField; split
  · next r g hr hg =>
    refine ⟨by simp [closeRecord, History.update], fun n hn => ?_, fun hn => by simp [closeRecord, hn, noteAfterClose]⟩
    simp only [closeRecord, scheduleStatus_monitor, raiseAll_monitor, hn, noteAfterClose, Option.map_some]
    refine ⟨_, rfl, ?_, ?_, ?_, ?_⟩
    · split <;> rfl
    · split <;> rfl
    · intro h; rw [hr] at h; cases h
    · intro x hx _ hc hxn; rw [hr] at hx; cases hx
      rw [if_pos ⟨hc, hxn.symm⟩]
  · next h =>
    refine ⟨rfl, fun n hn => ⟨n, hn, rfl, rfl, fun _ => rfl, ?_⟩, id⟩
    intro x hx hi; cases hg : s.settings.ingest with
    | none => simp [hg] at hi
    | some g => exact absurd hg (h x g hx)

/-- An eviction leaves the next field number and the monitor alone. -/
theorem evictSlot_note (slot : Nat) (s : State) :
    (evictSlot slot s).history.next = s.history.next ∧ (evictSlot slot s).monitor = s.monitor := by
  unfold evictSlot; split
  · unfold evict repairPlan; simp only; split
    · exact ⟨rfl, rfl⟩
    · split <;> exact ⟨rfl, rfl⟩
  · exact ⟨rfl, rfl⟩

/-- What an admission leaves in the history and the monitor. -/
theorem admit_eq (g : Machine.Ring) (slot : Nat) (h : Header) (s : State) :
    (admitField g slot h s).history = s.history.append (admittedRecord s.history.next slot g.lines s.monitor.note h) ∧
      (admitField g slot h s).monitor = s.monitor.admission s.history.next h := by
  simp only [admitField]; exact ⟨by simp, by simp⟩

/-- What the end of a measurement leaves alone. -/
theorem endMeasurement_fields (s : State) :
    (endMeasurement s).store = s.store ∧ (endMeasurement s).planner = s.planner ∧ (endMeasurement s).memPort = s.memPort ∧
      (endMeasurement s).settings = s.settings ∧ (endMeasurement s).windows = s.windows := by
  unfold endMeasurement; split
  · unfold endMeasured; simp only; split <;> split <;> simp
  · simp

end Sys2Proof.Machine
end

