-- ==== Sys2Proof/Laws/Store.lean ====
section
/-! SUPPORT. What the operations of the line store do to each entry. -/

namespace Sys2Proof.Machine

/-- The entries after one entry changes. -/
theorem entry_modifyAt (st : LineStore) (f : StoreEntry → StoreEntry) (n m : Nat) (h : n < st.entries.length) :
    ({ st with entries := modifyAt f st.entries n } : LineStore).entry m = if m = n then f (st.entry n) else st.entry m := by
  simp only [LineStore.entry]
  rw [modifyAt_getD _ _ _ _ _ h]

/-- The entries after one fill is cut off. -/
theorem voidEntry_entry (st : LineStore) (n m : Nat) (h : n < st.entries.length) :
    (st.voidEntry n).entry m = if m = n
      then (if (st.entry n).useCount = 0 then StoreEntry.empty
        else { st.entry n with state := .void, fill := none, data := [] })
      else st.entry m :=
  entry_modifyAt (st.endFill n) _ n m h

theorem voidEntries_entry (ns : List Nat) (st : LineStore) (m : Nat) (hn : ns.Nodup) (h : ∀ n ∈ ns, n < st.entries.length) :
    (ns.foldl LineStore.voidEntry st).entry m = if m ∈ ns
      then (if (st.entry m).useCount = 0 then StoreEntry.empty
        else { st.entry m with state := .void, fill := none, data := [] })
      else st.entry m := by
  induction ns generalizing st with
  | nil => simp
  | cons n ns ih =>
    simp only [List.foldl_cons]
    rw [ih _ (List.nodup_cons.1 hn).2]
    · rw [voidEntry_entry _ _ _ (h n (by simp))]
      by_cases e : m = n
      · subst e; simp [(List.nodup_cons.1 hn).1]
      · simp [e]
    · intro k hk
      rw [(voidEntry_keeps st n).entries]
      exact h k (by simp [hk])

/-- The entries after the notice of some fields. -/
theorem voidFields_entry (st : LineStore) (fields : List FieldNo) (n : Nat) (h : n < st.entries.length) :
    (st.voidFields fields).entry n = if (st.entry n).fillsFor fields = true
      then (if (st.entry n).useCount = 0 then StoreEntry.empty
        else { st.entry n with state := .void, fill := none, data := [] })
      else st.entry n := by
  unfold LineStore.voidFields
  rw [voidEntries_entry _ st n (List.nodup_range.filter _) (by simp; intros; assumption)]
  simp [h]

/-- Lists that lose one element and then others, the empty ones taken out twice or once. -/
theorem erase_filter (ws : List (List Nat)) (n : Nat) (ns : List Nat) :
    (((ws.map (fun w => w.erase n)).filter (fun w => decide (w ≠ []))).map (fun w => ns.foldl List.erase w)).filter
        (fun w => decide (w ≠ [])) =
      (ws.map (fun w => (n :: ns).foldl List.erase w)).filter (fun w => decide (w ≠ [])) := by
  have h0 : ∀ ns : List Nat, ns.foldl List.erase ([] : List Nat) = [] := by
    intro ns; induction ns with
    | nil => rfl
    | cons a l ih => simpa using ih
  induction ws with
  | nil => rfl
  | cons w ws ih =>
    simp only [List.map_cons, List.filter_cons, List.foldl_cons] at ih ⊢
    by_cases h : w.erase n = []
    · rw [h, h0]; simpa using ih
    · rw [if_pos (by simp [h])]
      simp only [List.map_cons, List.filter_cons]
      rw [ih]

/-- R127, R129: the voiding of several entries, field by field. -/
theorem voidEntries_eq (ns : List Nat) (st : LineStore) : ns.foldl LineStore.voidEntry st = { st with
    entries := (ns.foldl LineStore.voidEntry st).entries, fillQueue := ns.foldl List.erase st.fillQueue
    inFlight := st.inFlight.filter (fun b => decide (b.entry ∉ ns))
    withdrawn := if ns = [] then st.withdrawn
      else (st.withdrawn.map (fun w => ns.foldl List.erase w)).filter (fun w => decide (w ≠ [])) } := by
  induction ns generalizing st with
  | nil =>
    have h : st.inFlight.filter (fun b => decide (b.entry ∉ ([] : List Nat))) = st.inFlight :=
      List.filter_eq_self.2 (fun b _ => decide_eq_true (fun h => nomatch h))
    simp only [List.foldl_nil, h, if_true]
  | cons n ns ih =>
    simp only [List.foldl_cons]
    rw [ih]
    simp only [LineStore.voidEntry, LineStore.endFill, List.filter_filter]
    congr 1
    · congr 1; funext b; rw [Bool.eq_iff_iff]; simp [and_comm]
    · by_cases h : ns = []
      · simp [h]
      · rw [if_neg h, if_neg (by simp)]
        exact erase_filter _ _ _

/-- R127, R129: the voiding of the fills of some fields leaves what FillsVoided says. -/
theorem voidFields_voided (fields : List FieldNo) (st : LineStore) : FillsVoided fields st (st.voidFields fields) := by
  unfold FillsVoided
  generalize hP : (List.range st.entries.length).filter (fun n => decide ((st.entry n).state = .filling) && _) = voided
  replace hP : voided = (List.range st.entries.length).filter (fun n => (st.entry n).fillsFor fields) := by
    rw [← hP]; congr 1; funext n
    unfold StoreEntry.fillsFor; cases (st.entry n).tag <;> simp
  subst hP
  refine ⟨(voidFields_keeps _ _).entries, fun n hn => ?_, fun n hn hv => ?_, fun h => ?_, fun h => ?_⟩
  · obtain ⟨h1, h2⟩ := List.mem_filter.1 hn
    rw [voidFields_entry _ _ _ (List.mem_range.1 h1), if_pos h2]
  · rw [voidFields_entry _ _ _ hn, if_neg (fun h => hv (List.mem_filter.2 ⟨List.mem_range.2 hn, h⟩))]
  · show List.foldl _ _ _ = _
    rw [h]; rfl
  · show List.foldl _ _ _ = _
    rw [voidEntries_eq, if_neg h]; rfl

/-- The entries and orders after a fill ends. -/
theorem complete_entry (st : LineStore) (n : Nat) (o : EntryState) (h : n < st.entries.length) :
    (st.complete n o).entry n = { st.entry n with state := o, fill := none } ∧ (∀ k, k ≠ n → (st.complete n o).entry k = st.entry k) ∧
      (st.complete n o).fillQueue = st.fillQueue.erase n ∧ (st.complete n o).lru = if (st.entry n).useCount = 0 then st.lru ++ [n] else st.lru := by
  refine ⟨?_, ?_, rfl, rfl⟩
  · show (modifyAt _ st.entries n).getD n StoreEntry.empty = _
    rw [modifyAt_getD _ _ _ _ _ h, if_pos rfl]; rfl
  · intro k hk
    show (modifyAt _ st.entries n).getD k StoreEntry.empty = _
    rw [modifyAt_getD _ _ _ _ _ h, if_neg hk]; rfl


/-! ### Room for the lines of a need set (R123) -/

/-- The store has an entry for each of n misses. -/
abbrev LineStore.room (st : LineStore) (n : Nat) : Prop :=
  n ≤ st.freeList.length + st.lru.length ∧ ∀ k ∈ st.lru, (st.entry k).state ≠ .empty

/-- The free list is as long as there are EMPTY entries. -/
theorem freeList_eq (st : LineStore) : st.freeList.length = st.entries.countP (fun e => decide (e.state = .empty)) := by
  unfold LineStore.freeList LineStore.entry
  have : ∀ (l : List StoreEntry), ((List.range l.length).filter (fun n => decide ((l.getD n StoreEntry.empty).state = .empty))).length = l.countP (fun e => decide (e.state = .empty)) := by
    intro l
    rw [← List.countP_eq_length_filter]
    have h : l = (List.range l.length).map (fun n => l.getD n StoreEntry.empty) := by
      apply List.ext_getElem
      · simp
      · intro i h1 h2; simp [List.getElem?_eq_getElem h1]
    conv => rhs; rw [h]
    rw [List.countP_map]; rfl
  exact this _

/-- How a count over the entries changes with one entry. -/
theorem countP_modifyAt (p : StoreEntry → Bool) (f : StoreEntry → StoreEntry) (l : List StoreEntry) (n : Nat) (h : n < l.length) :
   (modifyAt f l n).countP p + (if p (l.getD n StoreEntry.empty) then 1 else 0) = l.countP p + (if p (f (l.getD n StoreEntry.empty)) then 1 else 0) := by
  induction l generalizing n with
  | nil => simp at h
  | cons x xs ih =>
    cases n with
    | zero => simp [modifyAt, List.countP_cons]; omega
    | succ n =>
      simp at h
      have := ih n h
      simp [modifyAt, List.countP_cons] at this ⊢
      omega


/-- A change past the end of a list changes nothing. -/
theorem modifyAt_ge {α : Type} (f : α → α) (l : List α) (n : Nat) (h : l.length ≤ n) : modifyAt f l n = l := by
  induction l generalizing n with
  | nil => rfl
  | cons x xs ih =>
    cases n with
    | zero => simp at h
    | succ n => simp only [List.length_cons, Nat.add_le_add_iff_right] at h; simp [modifyAt, ih n h]

/-- One line of a need set is taken where there is room for it. -/
theorem takeLine_room {st : LineStore} {n : Nat} (h : st.room (n + 1)) (w : WantedLine) :
    ∃ x, st.takeLine w = some x ∧ x.1.room n ∧ (x.2.role, x.2.line, x.2.held) = (w.role, w.line, w.held) := by
  have herase : ∀ k, st.lru.length ≤ (st.lru.erase k).length + 1 := by
    intro k; rw [List.length_erase]; split <;> omega
  unfold LineStore.takeLine
  cases hl : st.lookup w.tag with
  | some k =>
    refine ⟨_, rfl, ⟨?_, ?_⟩, rfl⟩
    · have hk : k < st.entries.length := (List.findIdx?_eq_some_iff_getElem.1 hl).1
      have e := countP_modifyAt (fun e => decide (e.state = .empty)) (fun e => { e with useCount := e.useCount + 1 }) st.entries k hk
      have h1 := h.1
      rw [freeList_eq] at h1 ⊢
      have h2 := herase k
      simp only [LineStore.share]
      simp only at e
      omega
    · intro j hj
      have hk : k < st.entries.length := (List.findIdx?_eq_some_iff_getElem.1 hl).1
      have := h.2 j (List.mem_of_mem_erase hj)
      show ((modifyAt _ st.entries k).getD j StoreEntry.empty).state ≠ _
      rw [modifyAt_getD _ _ _ _ _ hk]
      split
      · next e => rw [← e]; exact this
      · exact this
  | none =>
    simp only [LineStore.victim]
    cases hv : st.entries.findIdx? (fun e => decide (e.state = .empty)) with
    | some k =>
      obtain ⟨hk, hke, _⟩ := List.findIdx?_eq_some_iff_getElem.1 hv
      have hke2 : (st.entry k).state = .empty := by
        simp only [LineStore.entry, List.getD_eq_getElem?_getD, List.getElem?_eq_getElem hk, Option.getD_some]; simpa using hke
      have hnot : k ∉ st.lru := fun hm => h.2 k hm hke2
      refine ⟨_, rfl, ⟨?_, ?_⟩, rfl⟩
      · have e := countP_modifyAt (fun e => decide (e.state = .empty)) (fun _ => { tag := some w.tag, state := .filling, useCount := 1, data := [], fill := some { base := w.base, width := w.width, granted := 0 } }) st.entries k hk
        have h1 := h.1
        rw [freeList_eq] at h1 ⊢
        simp only [LineStore.allocate, List.erase_of_not_mem hnot]
        rw [if_pos (by rw [decide_eq_true_eq]; exact hke2), if_neg (by simp)] at e
        omega
      · intro j hj
        have := h.2 j (List.mem_of_mem_erase hj)
        show ((modifyAt _ st.entries k).getD j StoreEntry.empty).state ≠ _
        rw [modifyAt_getD _ _ _ _ _ hk]
        split
        · simp
        · exact this
    | none =>
      have h0 : st.freeList.length = 0 := by
        rw [freeList_eq, List.countP_eq_zero]
        intro e he
        have := List.findIdx?_eq_none_iff.1 hv e he
        simpa using this
      have h1 := h.1
      cases hlru : st.lru with
      | nil => rw [hlru] at h1; simp at h1; omega
      | cons k rest =>
        refine ⟨_, rfl, ⟨?_, ?_⟩, rfl⟩
        · simp only [LineStore.allocate, hlru]
          rw [hlru] at h1
          simp at h1 ⊢
          omega
        · intro j hj
          have hj2 : j ∈ st.lru := List.mem_of_mem_erase hj
          have := h.2 j hj2
          show ((modifyAt _ st.entries k).getD j StoreEntry.empty).state ≠ _
          by_cases hk : k < st.entries.length
          · rw [modifyAt_getD _ _ _ _ _ hk]
            split
            · simp
            · exact this
          · rw [modifyAt_ge _ _ _ (by omega)]; exact this

/-- R123: the lines of a need set are taken where there is room for them. -/
theorem takeLines_room {st : LineStore} (ws : List WantedLine) (h : st.room ws.length) :
    ∃ x, st.takeLines ws = some x ∧ x.2.map (fun n => (n.role, n.line, n.held)) = ws.map (fun w => (w.role, w.line, w.held)) := by
  induction ws generalizing st with
  | nil => exact ⟨_, rfl, rfl⟩
  | cons w ws ih =>
    obtain ⟨⟨st1, l⟩, h1, h2, h3⟩ := takeLine_room h w
    obtain ⟨⟨st2, ls⟩, h4, h5⟩ := ih h2
    refine ⟨(st2, l :: ls), ?_, ?_⟩
    · simp only [LineStore.takeLines, h1, h4]
    · simp only [List.map_cons, h5]; simp only at h3; rw [h3]


/-! ### The frame start -/

/-- An output load leaves the line store alone. -/
theorem loadOutput_store (s : State) : (loadOutput s).store = s.store := by
  unfold loadOutput; simp only; split <;> simp

/-- A frame start leaves the line store alone. -/
theorem enterFrame_store (offset : Nat) (s : State) : (enterFrame offset s).store = s.store := by
  have hm : ∀ s, (markRow offset s).store = s.store := by
    intro s; unfold markRow; split
    · rfl
    · split <;> rfl
  have hl : ∀ s, (loadAtFrame s).store = s.store := by
    intro s; unfold loadAtFrame; split
    · exact loadOutput_store s
    · rfl
  unfold enterFrame
  rw [hm]
  split
  · unfold frameStart; simp only
    split
    · simp [beginFrame, hl]
    · exact hl s
  · rfl

/-- What else a frame start leaves alone. -/
theorem enterFrame_fields (offset : Nat) (s : State) : (enterFrame offset s).memPort = s.memPort ∧ (enterFrame offset s).monitor = s.monitor ∧ (enterFrame offset s).probe = s.probe ∧ (enterFrame offset s).cadence = s.cadence ∧ (enterFrame offset s).windows = s.windows := by
  have hm : ∀ s, markRow offset s = { s with planner := (markRow offset s).planner } := by
    intro s; unfold markRow; split
    · rfl
    · split <;> rfl
  have hl : ∀ s, (loadAtFrame s).memPort = s.memPort ∧ (loadAtFrame s).monitor = s.monitor ∧ (loadAtFrame s).probe = s.probe ∧ (loadAtFrame s).cadence = s.cadence ∧ (loadAtFrame s).windows = s.windows := by
    intro s; unfold loadAtFrame loadOutput; split
    · simp only; split <;> simp
    · exact ⟨rfl, rfl, rfl, rfl, rfl⟩
  unfold enterFrame
  rw [hm]
  split
  · unfold frameStart; simp only
    split
    · simp [beginFrame, hl]
    · exact hl s
  · exact ⟨rfl, rfl, rfl, rfl, rfl⟩


end Sys2Proof.Machine
end

