-- ==== Sys2Proof/Laws/Lawful.lean ====
section
/-! SUPPORT. The laws of the line store (R118, R120, R123, R129): every operation of the store keeps them, and where they hold the
store has an entry for every line that a take may miss. -/

namespace Sys2Proof.Machine

/-- The element of a changed list, wherever the change falls. -/
theorem modifyAt_getD_if {α : Type} (f : α → α) (l : List α) (n m : Nat) (d : α) :
    (modifyAt f l n).getD m d = if m = n ∧ n < l.length then f (l.getD n d) else l.getD m d := by
  by_cases h : n < l.length
  · rw [modifyAt_getD f l n m d h]
    simp [h]
  · rw [modifyAt_ge f l n (by omega), if_neg (fun x => h x.2)]

/-- A list that names each of its elements once is no longer than a list that names them all. -/
theorem length_le_of_nodup {α : Type} [BEq α] [LawfulBEq α] {l m : List α} (h : l.Nodup) (k : ∀ x ∈ l, x ∈ m) : l.length ≤ m.length := by
  induction l generalizing m with
  | nil => exact Nat.zero_le _
  | cons x l ih =>
    have hx := k x (by simp)
    have hn := List.nodup_cons.1 h
    have := ih (m := m.erase x) hn.2 (fun y hy => (List.mem_erase_of_ne (fun e => hn.1 (by rw [← e]; exact hy))).2 (k y (by simp [hy])))
    rw [List.length_erase_of_mem hx] at this
    have := List.length_pos_of_mem hx
    simp only [List.length_cons]
    omega

/-- The entries after one entry changes, wherever the change falls. -/
theorem entry_if (st : LineStore) (f : StoreEntry → StoreEntry) (n m : Nat) (st1 : LineStore)
    (h : st1.entries = modifyAt f st.entries n) :
    st1.entry m = if m = n ∧ n < st.entries.length then f (st.entry n) else st.entry m := by
  unfold LineStore.entry
  rw [h]
  exact modifyAt_getD_if f st.entries n m StoreEntry.empty

/-- An entry that is not EMPTY is one of the store's. -/
theorem entry_lt {st : LineStore} {n : Nat} (h : (st.entry n).state ≠ .empty) : n < st.entries.length := by
  rcases Nat.lt_or_ge n st.entries.length with k | k
  · exact k
  · exfalso
    apply h
    simp [LineStore.entry, List.getD_eq_getElem?_getD, List.getElem?_eq_none k, StoreEntry.empty]

/-- What stands in a store matched by a tag: it is not EMPTY, not VOID, and carries the tag. -/
theorem hit_iff (e : StoreEntry) (t : LineTag) :
    e.hit t = true ↔ (e.state = .filling ∨ e.state = .valid ∨ e.state = .poisoned) ∧ e.tag = some t := by
  simp [StoreEntry.hit]

theorem ended_iff (e : StoreEntry) : e.ended = true ↔ e.state = .valid ∨ e.state = .poisoned := by
  simp [StoreEntry.ended]

namespace LineStore.lawful

variable {st : LineStore} {U D : List Nat}

/-- The laws speak of how often each entry is used, and of fewer settled uses where fewer are asked of. -/
theorem congr {V E : List Nat} (h : st.lawful U D) (hU : ∀ n, V.count n = U.count n) (hD : ∀ n ∈ E, n ∈ D) : st.lawful V E where
  useCount n := by rw [h.useCount, hU]
  empty := h.empty
  void := h.void
  lruNodup := h.lruNodup
  lru := h.lru
  waited := h.waited
  filling := h.filling
  inFlight := h.inFlight
  settled n hn := by
    have := h.settled n (hD n hn)
    refine ⟨?_, this.2⟩
    rw [← List.count_pos_iff, hU, List.count_pos_iff]
    exact this.1
  tags := h.tags

/-- The store after either reset, with nothing held. -/
theorem reset : LineStore.reset.lawful [] [] := by
  have e : ∀ n, LineStore.reset.entry n = StoreEntry.empty := by
    intro n
    unfold LineStore.entry LineStore.reset
    simp only [List.getD_eq_getElem?_getD, List.getElem?_replicate]
    split <;> rfl
  constructor
  · intro n; rw [e]; rfl
  · intro n _; exact e n
  · intro n hn; rw [e] at hn; cases hn
  · exact List.nodup_nil
  · intro n
    constructor
    · intro hn; cases hn
    · intro hn; rw [e] at hn; cases hn.1
  · intro n hn; rw [e] at hn; cases hn
  · intro n hn; rw [e] at hn; cases hn
  · intro b hb; cases hb
  · intro n hn; cases hn
  · intro t m n hm; rw [e] at hm; rw [hit_iff] at hm; cases hm.2

/-! ### Lookup and allocation -/

/-- R122: a hit takes one use. -/
theorem share (h : st.lawful U D) {t : LineTag} {n : Nat} (hl : st.lookup t = some n) : (st.share n).lawful (n :: U) D := by
  have hn : n < st.entries.length := (List.findIdx?_eq_some_iff_getElem.1 hl).1
  have hit : (st.entry n).hit t = true := by
    have := (List.findIdx?_eq_some_iff_getElem.1 hl).2.1
    simpa [LineStore.entry, List.getD_eq_getElem?_getD, List.getElem?_eq_getElem hn] using this
  have hne : (st.entry n).state ≠ .empty := by
    rw [hit_iff] at hit
    rcases hit.1 with x | x | x <;> rw [x] <;> decide
  have hnv : (st.entry n).state ≠ .void := by
    rw [hit_iff] at hit
    rcases hit.1 with x | x | x <;> rw [x] <;> decide
  have e : ∀ m, (st.share n).entry m = if m = n then { st.entry n with useCount := (st.entry n).useCount + 1 } else st.entry m := by
    intro m
    rw [entry_if st _ n m (st.share n) rfl]
    simp [hn]
  have es : ∀ m, ((st.share n).entry m).state = (st.entry m).state := by
    intro m; rw [e]; split
    · next x => rw [x]
    · rfl
  have ef : ∀ m, ((st.share n).entry m).fill = (st.entry m).fill := by
    intro m; rw [e]; split
    · next x => rw [x]
    · rfl
  have et : ∀ m, ((st.share n).entry m).tag = (st.entry m).tag := by
    intro m; rw [e]; split
    · next x => rw [x]
    · rfl
  constructor
  · intro m
    rw [e, List.count_cons]
    split
    · next x => simp [x, h.useCount]
    · next x => simp [h.useCount, Ne.symm x]
  · intro m hm
    rw [es] at hm
    rw [e]
    split
    · next x => rw [x] at hm; exact absurd hm hne
    · exact h.empty m hm
  · intro m hm
    rw [es] at hm
    rw [e]
    split
    · next x => rw [x] at hm; exact absurd hm hnv
    · exact h.void m hm
  · exact h.lruNodup.erase n
  · intro m
    show m ∈ st.lru.erase n ↔ _
    rw [h.lruNodup.mem_erase_iff, h.lru, ended_iff, ended_iff, es, e]
    split
    · next x => simp [x]
    · next x => simp [x]
  · intro m hm hu
    rw [es] at hm
    rw [e] at hu
    split at hu
    · simp at hu
    · exact h.waited m hm hu
  · intro m hm
    rw [ef] at hm
    rw [es]
    exact h.filling m hm
  · intro b hb
    rw [es]
    exact h.inFlight b hb
  · intro m hm
    rw [es]
    exact ⟨List.mem_cons_of_mem _ (h.settled m hm).1, (h.settled m hm).2⟩
  · intro u a b ha hb
    rw [hit_iff, es, et, ← hit_iff] at ha hb
    exact h.tags u a b ha hb

/-- R122, R123: a miss gives the entry it takes to the line. -/
theorem allocate (h : st.lawful U D) {t : LineTag} {n : Nat} (base width : Nat) (hl : st.lookup t = none) (hv : st.victim = some n)
    (hn : n < st.entries.length) : (st.allocate n t base width).lawful (n :: U) D := by
  have miss : ∀ m, (st.entry m).hit t = false := by
    intro m
    rcases Nat.lt_or_ge m st.entries.length with k | k
    · have := List.findIdx?_eq_none_iff.1 hl _ (List.getElem_mem k)
      simpa [LineStore.entry, List.getD_eq_getElem?_getD, List.getElem?_eq_getElem k] using this
    · simp [LineStore.entry, List.getD_eq_getElem?_getD, List.getElem?_eq_none k, StoreEntry.empty, StoreEntry.hit]
  have hfree : (st.entry n).useCount = 0 ∧ (st.entry n).state ≠ .filling := by
    unfold LineStore.victim at hv
    split at hv
    · next k hk =>
      cases hv
      have := (List.findIdx?_eq_some_iff_getElem.1 hk).2.1
      have hs : (st.entry n).state = .empty := by
        simpa [LineStore.entry, List.getD_eq_getElem?_getD, List.getElem?_eq_getElem hn] using this
      rw [h.empty n hs]
      exact ⟨rfl, by decide⟩
    · have hm : n ∈ st.lru := List.mem_of_mem_head? hv
      have := (h.lru n).1 hm
      refine ⟨this.2, ?_⟩
      rcases (ended_iff _).1 this.1 with x | x <;> rw [x] <;> decide
  have hcount : U.count n = 0 := by rw [← h.useCount]; exact hfree.1
  have e : ∀ m, (st.allocate n t base width).entry m = if m = n then
      { tag := some t, state := .filling, useCount := 1, data := [], fill := some { base := base, width := width, granted := 0 } }
      else st.entry m := by
    intro m
    rw [entry_if st _ n m (st.allocate n t base width) rfl]
    simp [hn]
  constructor
  · intro m
    rw [e, List.count_cons]
    split
    · next x => simp [x, hcount]
    · next x => simp [h.useCount, Ne.symm x]
  · intro m hm
    rw [e] at hm ⊢
    split
    · next x => rw [if_pos x] at hm; cases hm
    · next x => rw [if_neg x] at hm; exact h.empty m hm
  · intro m hm
    rw [e] at hm ⊢
    split
    · next x => rw [if_pos x] at hm; cases hm
    · next x => rw [if_neg x] at hm; exact h.void m hm
  · exact h.lruNodup.erase n
  · intro m
    show m ∈ st.lru.erase n ↔ _
    rw [h.lruNodup.mem_erase_iff, h.lru, e]
    split
    · next x => simp [x, ended_iff]
    · next x => simp [x]
  · intro m hm hu
    rw [e] at hm hu
    split at hu
    · cases hu
    · next x => rw [if_neg x] at hm; exact h.waited m hm hu
  · intro m hm
    rw [e] at hm ⊢
    split
    · rfl
    · next x => rw [if_neg x] at hm; exact h.filling m hm
  · intro b hb
    rw [e]
    split
    · rfl
    · exact h.inFlight b hb
  · intro m hm
    have := h.settled m hm
    rw [e]
    split
    · next x =>
      rw [x, ← List.count_pos_iff, hcount] at this
      exact absurd this.1 (by decide)
    · exact ⟨List.mem_cons_of_mem _ this.1, this.2⟩
  · intro u a b ha hb
    rw [e] at ha hb
    by_cases xa : a = n <;> by_cases xb : b = n
    · rw [xa, xb]
    · rw [if_pos xa] at ha; rw [if_neg xb] at hb
      have hu : t = u := by simpa [hit_iff] using ha
      rw [← hu, miss] at hb; cases hb
    · rw [if_neg xa] at ha; rw [if_pos xb] at hb
      have hu : t = u := by simpa [hit_iff] using hb
      rw [← hu, miss] at ha; cases ha
    · rw [if_neg xa] at ha; rw [if_neg xb] at hb
      exact h.tags u a b ha hb

/-- An entry that a miss takes is one of the store's. -/
theorem victim_lt (h : st.lawful U D) {n : Nat} (hv : st.victim = some n) : n < st.entries.length := by
  unfold LineStore.victim at hv
  split at hv
  · next k hk => cases hv; exact (List.findIdx?_eq_some_iff_getElem.1 hk).1
  · have := (h.lru n).1 (List.mem_of_mem_head? hv)
    apply entry_lt
    rcases (ended_iff _).1 this.1 with x | x <;> rw [x] <;> decide

/-- R122: one line of a need set is taken. -/
theorem takeLine (h : st.lawful U D) {w : WantedLine} {st1 : LineStore} {l : NeedLine} (ht : st.takeLine w = some (st1, l)) :
    st1.lawful (l.entry :: U) D := by
  unfold LineStore.takeLine at ht
  split at ht
  · next n hn => cases ht; exact h.share hn
  · next hn =>
    split at ht
    · next n hv => cases ht; exact h.allocate _ _ hn hv (h.victim_lt hv)
    · cases ht

/-- R122: the lines of a need set are taken, each with one use. -/
theorem takeLines (h : st.lawful U D) {ws : List WantedLine} {st1 : LineStore} {ls : List NeedLine}
    (ht : st.takeLines ws = some (st1, ls)) : st1.lawful (ls.map (fun l => l.entry) ++ U) D ∧ ls.length = ws.length := by
  induction ws generalizing st st1 ls U with
  | nil =>
    simp only [LineStore.takeLines, Option.some.injEq, Prod.mk.injEq] at ht
    obtain ⟨rfl, rfl⟩ := ht
    exact ⟨h, rfl⟩
  | cons w ws ih =>
    simp only [LineStore.takeLines] at ht
    split at ht
    · cases ht
    · next st2 l h2 =>
      split at ht
      · cases ht
      · next st3 ls3 h3 =>
        simp only [Option.some.injEq, Prod.mk.injEq] at ht
        obtain ⟨rfl, rfl⟩ := ht
        obtain ⟨k, kl⟩ := ih (h.takeLine h2) h3
        refine ⟨k.congr (fun n => ?_) (fun n hn => hn), by simp [kl]⟩
        simp only [List.map_cons, List.cons_append, List.count_cons, List.count_append]
        omega

/-! ### The end of a fill -/

/-- What the end of an entry's fill leaves of the waiting lists for another entry. -/
theorem waits_endFill {n m : Nat} (hm : m ≠ n) (h : ∃ w ∈ st.withdrawn, m ∈ w) : ∃ w ∈ (st.endFill n).withdrawn, m ∈ w := by
  obtain ⟨w, hw, hx⟩ := h
  refine ⟨w.erase n, ?_, (List.mem_erase_of_ne hm).2 hx⟩
  simp only [LineStore.endFill, List.mem_filter, List.mem_map, decide_eq_true_eq]
  refine ⟨⟨w, hw, rfl⟩, ?_⟩
  intro e
  have := (List.mem_erase_of_ne hm).2 hx
  rw [e] at this
  cases this

/-- R127: the fill of a FILLING entry is cut off. -/
theorem voidEntry (h : st.lawful U D) {n : Nat} (hf : (st.entry n).state = .filling) : (st.voidEntry n).lawful U D := by
  have hn : n < st.entries.length := entry_lt (by rw [hf]; decide)
  have e : ∀ m, (st.voidEntry n).entry m = if m = n then
      (if (st.entry n).useCount = 0 then StoreEntry.empty else { st.entry n with state := .void, fill := none, data := [] })
      else st.entry m := fun m => voidEntry_entry st n m hn
  have notLru : n ∉ st.lru := by
    rw [h.lru, ended_iff, hf]
    simp
  have notSettled : ∀ m ∈ D, m ≠ n := by
    intro m hm x
    exact (h.settled m hm).2 (x ▸ hf)
  constructor
  · intro m
    rw [e]
    split
    · next x =>
      rw [x, ← h.useCount]
      split
      · next z => rw [z]; rfl
      · rfl
    · exact h.useCount m
  · intro m hm
    rw [e] at hm ⊢
    split
    · next x =>
      rw [if_pos x] at hm
      split
      · rfl
      · next z => rw [if_neg z] at hm; cases hm
    · next x => rw [if_neg x] at hm; exact h.empty m hm
  · intro m hm
    rw [e] at hm ⊢
    split
    · next x =>
      rw [if_pos x] at hm
      split
      · next z => rw [if_pos z] at hm; cases hm
      · next z => exact z
    · next x => rw [if_neg x] at hm; exact h.void m hm
  · exact h.lruNodup
  · intro m
    show m ∈ st.lru ↔ _
    rw [e]
    split
    · next x =>
      subst x
      constructor
      · intro k; exact absurd k notLru
      · intro k
        split at k
        · cases k.1
        · cases k.1
    · exact h.lru m
  · intro m hm hu
    rw [e] at hm hu
    split at hm
    · split at hm <;> cases hm
    · next x =>
      rw [if_neg x] at hu
      exact waits_endFill x (h.waited m hm hu)
  · intro m hm
    rw [e] at hm ⊢
    split
    · next x =>
      rw [if_pos x] at hm
      split at hm <;> cases hm
    · next x => rw [if_neg x] at hm; exact h.filling m hm
  · intro b hb
    have hb1 : b ∈ st.inFlight ∧ b.entry ≠ n := by
      simpa [LineStore.voidEntry, LineStore.endFill] using hb
    rw [e, if_neg hb1.2]
    exact h.inFlight b hb1.1
  · intro m hm
    rw [e, if_neg (notSettled m hm)]
    exact h.settled m hm
  · intro u a b ha hb
    have no : ∀ u, ((if (st.entry n).useCount = 0 then StoreEntry.empty
        else { st.entry n with state := .void, fill := none, data := [] }) : StoreEntry).hit u = false := by
      intro u
      split <;> simp [StoreEntry.hit, StoreEntry.empty]
    rw [e] at ha hb
    split at ha
    · rw [no] at ha; cases ha
    · split at hb
      · rw [no] at hb; cases hb
      · exact h.tags u a b ha hb

/-- R127: the fills of some fields are cut off. -/
theorem voidFields (h : st.lawful U D) (fs : List FieldNo) : (st.voidFields fs).lawful U D := by
  unfold LineStore.voidFields
  have hns : ∀ n ∈ (List.range st.entries.length).filter (fun n => (st.entry n).fillsFor fs), (st.entry n).state = .filling := by
    intro n hn
    have := (List.mem_filter.1 hn).2
    unfold StoreEntry.fillsFor at this
    split at this
    · simp at this; exact this.1
    · cases this
  have hnd : ((List.range st.entries.length).filter (fun n => (st.entry n).fillsFor fs)).Nodup := List.nodup_range.filter _
  generalize (List.range st.entries.length).filter _ = ns at hns hnd
  induction ns generalizing st with
  | nil => exact h
  | cons n ns ih =>
    have hf := hns n (by simp)
    apply ih (h.voidEntry hf)
    · intro m hm
      rw [voidEntry_entry st n m (entry_lt (by rw [hf]; decide)), if_neg]
      · exact hns m (by simp [hm])
      · intro x
        exact (List.nodup_cons.1 hnd).1 (x ▸ hm)
    · exact (List.nodup_cons.1 hnd).2

/-- R125, R126: the fill of a FILLING entry ends with the entry VALID or POISONED. -/
theorem complete (h : st.lawful U D) {n : Nat} {o : EntryState} (hf : (st.entry n).state = .filling) (ho : o = .valid ∨ o = .poisoned) :
    (st.complete n o).lawful U D := by
  have hn : n < st.entries.length := entry_lt (by rw [hf]; decide)
  obtain ⟨e1, e2, _, e4⟩ := complete_entry st n o hn
  have e : ∀ m, (st.complete n o).entry m = if m = n then { st.entry n with state := o, fill := none } else st.entry m := by
    intro m
    split
    · next x => rw [x]; exact e1
    · next x => exact e2 m x
  have notLru : n ∉ st.lru := by
    rw [h.lru, ended_iff, hf]
    simp
  have notSettled : ∀ m ∈ D, m ≠ n := by
    intro m hm x
    exact (h.settled m hm).2 (x ▸ hf)
  constructor
  · intro m
    rw [e]
    split
    · next x => rw [x]; exact h.useCount n
    · exact h.useCount m
  · intro m hm
    rw [e] at hm ⊢
    split
    · next x => rw [if_pos x] at hm; rcases ho with y | y <;> rw [y] at hm <;> cases hm
    · next x => rw [if_neg x] at hm; exact h.empty m hm
  · intro m hm
    rw [e] at hm ⊢
    split
    · next x => rw [if_pos x] at hm; rcases ho with y | y <;> rw [y] at hm <;> cases hm
    · next x => rw [if_neg x] at hm; exact h.void m hm
  · rw [e4]
    split
    · rw [List.nodup_append]
      refine ⟨h.lruNodup, by simp, ?_⟩
      intro a ha b hb x
      rw [List.mem_singleton] at hb
      exact notLru (hb ▸ x ▸ ha)
    · exact h.lruNodup
  · intro m
    rw [e4, e]
    by_cases x : m = n
    · subst x
      rw [if_pos rfl]
      by_cases z : (st.entry m).useCount = 0
      · simp [z, ended_iff, ho]
      · simp [z, notLru]
    · rw [if_neg x]
      split
      · simp [x, h.lru m]
      · exact h.lru m
  · intro m hm hu
    rw [e] at hm hu
    split at hm
    · rcases ho with y | y <;> rw [y] at hm <;> cases hm
    · next x =>
      rw [if_neg x] at hu
      exact waits_endFill x (h.waited m hm hu)
  · intro m hm
    rw [e] at hm ⊢
    split
    · next x => rw [if_pos x] at hm; cases hm
    · next x => rw [if_neg x] at hm; exact h.filling m hm
  · intro b hb
    have hb1 : b ∈ st.inFlight ∧ b.entry ≠ n := by
      simpa [LineStore.complete, LineStore.endFill] using hb
    rw [e, if_neg hb1.2]
    exact h.inFlight b hb1.1
  · intro m hm
    rw [e, if_neg (notSettled m hm)]
    exact h.settled m hm
  · intro u a b ha hb
    have same : ∀ u m, ((st.complete n o).entry m).hit u = true → (st.entry m).hit u = true := by
      intro u m hm
      rw [e] at hm
      split at hm
      · next x =>
        rw [hit_iff] at hm ⊢
        rw [x]
        exact ⟨.inl hf, hm.2⟩
      · exact hm
    exact h.tags u a b (same u a ha) (same u b hb)

/-! ### Bursts -/

/-- A change of one entry's fill or data that leaves its tag, state and use count. -/
theorem modify (h : st.lawful U D) (n : Nat) (f : StoreEntry → StoreEntry) (back : List FillReturn)
    (hs : ∀ e, (f e).tag = e.tag ∧ (f e).state = e.state ∧ (f e).useCount = e.useCount ∧ ((f e).fill.isSome = true → e.fill.isSome = true))
    (hz : (st.entry n).state ≠ .empty) (hb : ∀ b ∈ back, (st.entry b.entry).state = .filling) :
    ({ st with entries := modifyAt f st.entries n, inFlight := back } : LineStore).lawful U D := by
  have e : ∀ m, ({ st with entries := modifyAt f st.entries n, inFlight := back } : LineStore).entry m =
      if m = n ∧ n < st.entries.length then f (st.entry n) else st.entry m :=
    fun m => entry_if st f n m _ rfl
  have et : ∀ m, (({ st with entries := modifyAt f st.entries n, inFlight := back } : LineStore).entry m).tag = (st.entry m).tag := by
    intro m; rw [e]; split
    · next x => rw [x.1]; exact (hs _).1
    · rfl
  have es : ∀ m, (({ st with entries := modifyAt f st.entries n, inFlight := back } : LineStore).entry m).state = (st.entry m).state := by
    intro m; rw [e]; split
    · next x => rw [x.1]; exact (hs _).2.1
    · rfl
  have eu : ∀ m, (({ st with entries := modifyAt f st.entries n, inFlight := back } : LineStore).entry m).useCount =
      (st.entry m).useCount := by
    intro m; rw [e]; split
    · next x => rw [x.1]; exact (hs _).2.2.1
    · rfl
  constructor
  · intro m; rw [eu]; exact h.useCount m
  · intro m hm
    rw [es] at hm
    rw [e, if_neg]
    · exact h.empty m hm
    · intro x; exact hz (x.1 ▸ hm)
  · intro m hm
    rw [es] at hm; rw [eu]
    exact h.void m hm
  · exact h.lruNodup
  · intro m
    rw [ended_iff, es, eu, ← ended_iff]
    exact h.lru m
  · intro m hm hu
    rw [es] at hm; rw [eu] at hu
    exact h.waited m hm hu
  · intro m hm
    rw [es]
    apply h.filling m
    rw [e] at hm
    split at hm
    · next x => rw [x.1]; exact (hs _).2.2.2 hm
    · exact hm
  · intro b k; rw [es]; exact hb b k
  · intro m hm; rw [es]; exact h.settled m hm
  · intro u a b ha hb
    rw [hit_iff, es, et, ← hit_iff] at ha hb
    exact h.tags u a b ha hb

/-- R125: a burst of an outstanding fill is granted. -/
theorem grant (h : st.lawful U D) {n : Nat} {b : Burst} (ws : List Word) (f : Bool) (hp : st.presented = some (n, b)) :
    (st.grant n ws f).lawful U D := by
  have hf : (st.entry n).state = .filling := by
    unfold LineStore.presented at hp
    obtain ⟨m, _, hm⟩ := List.exists_of_findSome?_eq_some hp
    split at hm
    · cases hm
    · next x hx =>
      obtain ⟨y, _, hy⟩ := Option.map_eq_some_iff.1 hm
      cases hy
      exact h.filling _ (by rw [hx]; rfl)
  refine h.modify n _ _ (fun e => ⟨rfl, rfl, rfl, ?_⟩) (by rw [hf]; decide) ?_
  · cases e.fill <;> simp
  · intro x hx
    rcases List.mem_append.1 hx with k | k
    · exact h.inFlight x k
    · rw [List.mem_singleton.1 k]; exact hf

/-- R125, R126: the oldest granted burst returns. -/
theorem returned (h : st.lawful U D) : st.returned.lawful U D := by
  unfold LineStore.returned
  split
  · exact h
  · next b rest hb =>
    have hf : (st.entry b.entry).state = .filling := h.inFlight b (by rw [hb]; simp)
    have h1 : ({ st with inFlight := rest } : LineStore).lawful U D :=
      { h with inFlight := fun x hx => h.inFlight x (by rw [hb]; simp [hx]) }
    simp only
    split
    · exact h1.complete hf (.inr rfl)
    · have h2 : ({ ({ st with inFlight := rest } : LineStore) with
          entries := modifyAt (fun e => { e with data := e.data ++ b.words }) st.entries b.entry } : LineStore).lawful U D :=
        h1.modify b.entry (fun e => { e with data := e.data ++ b.words }) rest (fun e => ⟨rfl, rfl, rfl, id⟩) (by
          show (st.entry b.entry).state ≠ _; rw [hf]; decide) (fun x hx => h.inFlight x (by rw [hb]; simp [hx]))
      split
      · exact h2
      · split
        · refine h2.complete ?_ (.inl rfl)
          rw [entry_if st _ b.entry b.entry _ rfl]
          split
          · exact hf
          · exact hf
        · exact h2

/-! ### Release and withdrawal -/

/-- R130, R131: an entry loses one use; where it is FILLING a withdrawn read waits for it. -/
theorem releaseEntry {n : Nat} (h : st.lawful (n :: U) D) (hD : ∀ m ∈ D, m ∈ U)
    (hw : (st.entry n).state = .filling → ∃ w ∈ st.withdrawn, n ∈ w) : (st.releaseEntry n).lawful U D := by
  have hu : (st.entry n).useCount = U.count n + 1 := by rw [h.useCount, List.count_cons_self]
  have hother : ∀ m, m ≠ n → (st.entry m).useCount = U.count m := by
    intro m hm; rw [h.useCount, List.count_cons_of_ne (Ne.symm hm)]
  have hne : (st.entry n).state ≠ .empty := by
    intro x
    rw [h.empty n x] at hu
    cases hu
  have hn : n < st.entries.length := entry_lt hne
  have notLru : n ∉ st.lru := by
    rw [h.lru]
    intro x
    omega
  -- what is common to the forms: the entry changed by f, an LRU order that is right
  have key : ∀ (f : StoreEntry → StoreEntry) (lru : List Nat) (st1 : LineStore),
      st1 = { st with entries := modifyAt f st.entries n, lru := lru } →
      ((f (st.entry n) = StoreEntry.empty ∧ U.count n = 0 ∧ (st.entry n).state = .void) ∨
        (f (st.entry n) = { st.entry n with useCount := U.count n } ∧ ((st.entry n).state = .void → U.count n ≠ 0))) →
      lru.Nodup → (∀ m, m ≠ n → (m ∈ lru ↔ m ∈ st.lru)) →
      (n ∈ lru ↔ (f (st.entry n)).ended = true ∧ (f (st.entry n)).useCount = 0) → st1.lawful U D := by
    intro f lru st1 hst hf hnd hm hl
    have e : ∀ m, st1.entry m = if m = n then f (st.entry n) else st.entry m := by
      intro m
      rw [entry_if st f n m st1 (by rw [hst])]
      simp [hn]
    have hlru : st1.lru = lru := by rw [hst]
    have hwd : st1.withdrawn = st.withdrawn := by rw [hst]
    have hif : st1.inFlight = st.inFlight := by rw [hst]
    constructor
    · intro m
      rw [e]
      split
      · next x =>
        rw [x]
        rcases hf with y | y
        · rw [y.1, y.2.1]; rfl
        · rw [y.1]
      · next x => exact hother m x
    · intro m hs
      rw [e] at hs ⊢
      split
      · next x =>
        rw [if_pos x] at hs
        rcases hf with y | y
        · exact y.1
        · rw [y.1] at hs; exact absurd hs hne
      · next x => rw [if_neg x] at hs; exact h.empty m hs
    · intro m hs
      rw [e] at hs ⊢
      split
      · next x =>
        rw [if_pos x] at hs
        rcases hf with y | y
        · rw [y.1] at hs; cases hs
        · rw [y.1] at hs ⊢; exact y.2 hs
      · next x => rw [if_neg x] at hs; exact h.void m hs
    · rw [hlru]; exact hnd
    · intro m
      rw [hlru, e]
      split
      · next x => rw [x]; exact hl
      · next x => rw [hm m x]; exact h.lru m
    · intro m hs hz
      rw [e] at hs hz
      rw [hwd]
      split at hs
      · next x =>
        rw [x]
        rcases hf with y | y
        · rw [y.1] at hs; cases hs
        · rw [y.1] at hs; exact hw hs
      · next x => rw [if_neg x] at hz; exact h.waited m hs hz
    · intro m hs
      rw [e] at hs ⊢
      split
      · next x =>
        rw [if_pos x] at hs
        rcases hf with y | y
        · rw [y.1] at hs; cases hs
        · rw [y.1] at hs ⊢; exact h.filling n hs
      · next x => rw [if_neg x] at hs; exact h.filling m hs
    · intro b hb
      rw [hif] at hb
      have hbf := h.inFlight b hb
      rw [e]
      split
      · next x =>
        rw [x] at hbf
        rcases hf with y | y
        · rw [y.2.2] at hbf; cases hbf
        · rw [y.1]; exact hbf
      · exact hbf
    · intro m hm
      refine ⟨hD m hm, ?_⟩
      have := (h.settled m hm).2
      rw [e]
      split
      · next x =>
        rw [x] at this
        rcases hf with y | y
        · rw [y.1]; decide
        · rw [y.1]; exact this
      · exact this
    · intro u a b ha hb
      have same : ∀ u m, (st1.entry m).hit u = true → (st.entry m).hit u = true := by
        intro u m hm
        rw [e] at hm
        split at hm
        · next x =>
          rcases hf with y | y
          · rw [y.1] at hm; simp [StoreEntry.hit, StoreEntry.empty] at hm
          · rw [y.1] at hm; rw [x]; exact hm
        · exact hm
      exact h.tags u a b (same u a ha) (same u b hb)
  unfold LineStore.releaseEntry
  simp only
  split
  · next one =>
    have hz : U.count n = 0 := by omega
    have join : ∀ f : StoreEntry → StoreEntry, f (st.entry n) = { st.entry n with useCount := U.count n } →
        ((st.entry n).state = .valid ∨ (st.entry n).state = .poisoned) →
        ({ st with entries := modifyAt f st.entries n, lru := st.lru ++ [n] } : LineStore).lawful U D := by
      intro f hf hs
      refine key f _ _ rfl (.inr ⟨hf, ?_⟩) ?_ ?_ ?_
      · intro x; rw [x] at hs; rcases hs with y | y <;> cases y
      · rw [List.nodup_append]
        refine ⟨h.lruNodup, by simp, ?_⟩
        intro a ha b hb x
        rw [List.mem_singleton] at hb
        exact notLru (hb ▸ x ▸ ha)
      · intro m hm; simp [hm]
      · simp [hf, ended_iff, hs, hz]
    have stay : ∀ f : StoreEntry → StoreEntry, f (st.entry n) = { st.entry n with useCount := U.count n } →
        ¬ ((st.entry n).state = .valid ∨ (st.entry n).state = .poisoned) → (st.entry n).state ≠ .void →
        ({ st with entries := modifyAt f st.entries n } : LineStore).lawful U D := by
      intro f hf hs hv
      refine key f st.lru _ rfl (.inr ⟨hf, fun x => absurd x hv⟩) h.lruNodup (fun m _ => Iff.rfl) ?_
      simp [hf, ended_iff, hs, notLru]
    split
    · next x => exact join _ (by simp [hz]) (.inl x)
    · next x => exact join _ (by simp [hz]) (.inr x)
    · next x =>
      refine key _ st.lru _ rfl (.inl ⟨rfl, hz, x⟩) h.lruNodup (fun m _ => Iff.rfl) ?_
      simp [notLru, ended_iff, StoreEntry.empty]
    · next x => exact stay _ (by simp [hz]) (by simp [x]) (by simp [x])
    · next x => exact absurd x hne
  · next one =>
    refine key _ st.lru _ rfl (.inr ⟨by simp [hu], fun _ => by omega⟩) h.lruNodup (fun m _ => Iff.rfl) ?_
    have : ¬ (st.entry n).useCount - 1 = 0 := by omega
    simp [notLru, this]

/-- More withdrawn reads waiting keep the laws. -/
theorem wait (h : st.lawful U D) (ws : List (List Nat)) : ({ st with withdrawn := st.withdrawn ++ ws } : LineStore).lawful U D :=
  { h with
    waited := fun n hn hu =>
      let ⟨w, hw, hx⟩ := h.waited n hn hu
      ⟨w, List.mem_append.2 (.inl hw), hx⟩ }

/-- A release changes entries and the LRU order only. -/
theorem releaseEntry_frame (st : LineStore) (n : Nat) (ws : List (List Nat)) :
    (st.releaseEntry n).withdrawn = st.withdrawn ∧
      ({ st with withdrawn := ws } : LineStore).releaseEntry n = { st.releaseEntry n with withdrawn := ws } := by
  unfold LineStore.releaseEntry
  simp only
  split
  · next h =>
    have h1 : ((({ st with withdrawn := ws } : LineStore).entry n).useCount = 1) := h
    rw [if_pos h1]
    have hs : (({ st with withdrawn := ws } : LineStore).entry n).state = (st.entry n).state := rfl
    rw [hs]
    cases (st.entry n).state <;> exact ⟨rfl, rfl⟩
  · next h =>
    have h1 : ¬ ((({ st with withdrawn := ws } : LineStore).entry n).useCount = 1) := h
    rw [if_neg h1]
    exact ⟨rfl, rfl⟩

/-- No release makes an entry FILLING. -/
theorem releaseEntry_filling (st : LineStore) (n m : Nat) (h : ((st.releaseEntry n).entry m).state = .filling) :
    (st.entry m).state = .filling := by
  have key : ∀ (f : StoreEntry → StoreEntry) (st1 : LineStore), st1.entries = modifyAt f st.entries n →
      (∀ e, (f e).state = e.state ∨ (f e).state = .empty) → (st1.entry m).state = .filling → (st.entry m).state = .filling := by
    intro f st1 he hf hs
    rw [entry_if st f n m st1 he] at hs
    split at hs
    · next x =>
      rw [x.1]
      rcases hf (st.entry n) with y | y
      · rw [y] at hs; exact hs
      · rw [y] at hs; cases hs
    · exact hs
  unfold LineStore.releaseEntry at h
  simp only at h
  split at h
  · split at h
    · exact key _ _ (by rfl) (by intro e; exact .inl rfl) h
    · exact key _ _ (by rfl) (by intro e; exact .inl rfl) h
    · exact key _ _ (by rfl) (by intro e; exact .inr rfl) h
    · exact key _ _ (by rfl) (by intro e; exact .inl rfl) h
    · exact key _ _ (by rfl) (by intro e; exact .inl rfl) h
  · exact key _ _ (by rfl) (by intro e; exact .inl rfl) h

/-- R130: entries lose one use each, those FILLING being waited for. -/
theorem releaseEntries {ns : List Nat} (h : st.lawful (ns ++ U) D) (hD : ∀ m ∈ D, m ∈ U)
    (hw : ∀ n ∈ ns, (st.entry n).state = .filling → ∃ w ∈ st.withdrawn, n ∈ w) :
    (ns.foldl LineStore.releaseEntry st).lawful U D := by
  induction ns generalizing st with
  | nil => exact h
  | cons n ns ih =>
    refine ih (releaseEntry (U := ns ++ U) h (fun m hm => List.mem_append.2 (.inr (hD m hm))) (hw n (by simp))) ?_
    intro m hm hs
    rw [(releaseEntry_frame st n []).1]
    exact hw m (by simp [hm]) (releaseEntry_filling st n m hs)

/-- R130: a read's entries are released. -/
theorem release {need : List NeedLine} (h : st.lawful (need.map (fun l => l.entry) ++ U) D) (hD : ∀ m ∈ D, m ∈ U)
    (hw : ∀ l ∈ need, (st.entry l.entry).state ≠ .filling) : (st.release need).lawful U D := by
  refine releaseEntries h hD ?_
  intro n hn hs
  obtain ⟨l, hl, rfl⟩ := List.mem_map.1 hn
  exact absurd hs (hw l hl)

theorem releaseEntries_frame (st : LineStore) (ns : List Nat) (ws : List (List Nat)) :
    (ns.foldl LineStore.releaseEntry st).withdrawn = st.withdrawn ∧
      ns.foldl LineStore.releaseEntry ({ st with withdrawn := ws } : LineStore) =
        { ns.foldl LineStore.releaseEntry st with withdrawn := ws } := by
  induction ns generalizing st with
  | nil => exact ⟨rfl, rfl⟩
  | cons n ns ih =>
    simp only [List.foldl_cons]
    rw [(releaseEntry_frame st n ws).2]
    exact ⟨(ih _).1.trans (releaseEntry_frame st n ws).1, (ih _).2⟩

/-- R131: a read is withdrawn. -/
theorem withdraw {need : List NeedLine} (h : st.lawful (need.map (fun l => l.entry) ++ U) D) (hD : ∀ m ∈ D, m ∈ U) :
    (st.withdraw need).lawful U D := by
  have f := releaseEntries_frame st (need.map (fun l => l.entry))
  unfold LineStore.withdraw LineStore.release
  simp only
  split
  · next e =>
    refine releaseEntries h hD ?_
    intro n hn hs
    have : n ∈ (need.map (fun l => l.entry)).filter (fun n => decide ((st.entry n).state = .filling)) := by
      rw [List.mem_filter]
      exact ⟨hn, by simpa using hs⟩
    rw [e] at this
    cases this
  · rw [(f []).1, ← (f _).2]
    refine releaseEntries (h.wait _) hD ?_
    intro n hn hs
    refine ⟨_, List.mem_append.2 (.inr (List.mem_singleton.2 rfl)), ?_⟩
    rw [List.mem_filter]
    refine ⟨hn, ?_⟩
    have : (st.entry n).state = .filling := hs
    simp [this]

/-! ### Room (R123) -/

/-- Every entry is free, in the LRU order, held, or waited for by a withdrawn read. -/
theorem stands (h : st.lawful U D) (n : Nat) : (st.entry n).state = .empty ∨ n ∈ st.lru ∨ n ∈ U ∨ n ∈ st.withdrawn.flatten := by
  by_cases hu : (st.entry n).useCount = 0
  · cases hs : (st.entry n).state with
    | empty => exact .inl rfl
    | filling =>
      obtain ⟨w, hw, hx⟩ := h.waited n hs hu
      exact .inr (.inr (.inr (List.mem_flatten.2 ⟨w, hw, hx⟩)))
    | valid => exact .inr (.inl ((h.lru n).2 ⟨by rw [ended_iff, hs]; exact .inl rfl, hu⟩))
    | poisoned => exact .inr (.inl ((h.lru n).2 ⟨by rw [ended_iff, hs]; exact .inr rfl, hu⟩))
    | void => exact absurd hu (h.void n hs)
  · right; right; left
    rw [h.useCount] at hu
    exact List.count_pos_iff.1 (by omega)

/-- R123: the entries free or in the LRU order with those held or waited for are all of them. -/
theorem count (h : st.lawful U D) :
    st.entries.length ≤ st.freeList.length + st.lru.length + U.length + st.withdrawn.flatten.length := by
  have hsub : ∀ n ∈ List.range st.entries.length, n ∈ st.freeList ++ st.lru ++ U ++ st.withdrawn.flatten := by
    intro n hn
    simp only [List.mem_append]
    rcases h.stands n with x | x | x | x
    · refine .inl (.inl (.inl ?_))
      unfold LineStore.freeList
      rw [List.mem_filter]
      exact ⟨hn, by simpa using x⟩
    · exact .inl (.inl (.inr x))
    · exact .inl (.inr x)
    · exact .inr x
  have := length_le_of_nodup List.nodup_range hsub
  simpa [Nat.add_assoc] using this

/-- R123: a store of 64 entries has room for every line of a need set while at most 52 uses and waits stand. -/
theorem room (h : st.lawful U D) (hl : st.entries.length = Config.storeEntries) {n : Nat}
    (hn : n + U.length + st.withdrawn.flatten.length ≤ Config.storeEntries) : st.room n := by
  refine ⟨?_, ?_⟩
  · have := h.count
    omega
  · intro k hk
    rcases (ended_iff _).1 ((h.lru k).1 hk).1 with x | x <;> rw [x] <;> decide

/-- R123: no more entries have nonzero use counts than there are uses. -/
theorem held (h : st.lawful U D) : st.entries.countP (fun e => decide (e.useCount ≠ 0)) ≤ U.length := by
  have e : st.entries.countP (fun e => decide (e.useCount ≠ 0)) =
      ((List.range st.entries.length).filter (fun n => decide ((st.entry n).useCount ≠ 0))).length := by
    rw [← List.countP_eq_length_filter]
    have k : st.entries = (List.range st.entries.length).map (fun n => st.entry n) := by
      apply List.ext_getElem
      · simp
      · intro i h1 h2; simp [LineStore.entry, List.getElem?_eq_getElem h1]
    conv => lhs; rw [k]
    rw [List.countP_map]
    rfl
  rw [e]
  apply length_le_of_nodup (List.nodup_range.filter _)
  intro n hn
  have := (List.mem_filter.1 hn).2
  rw [h.useCount] at this
  exact List.count_pos_iff.1 (by simpa [Nat.pos_iff_ne_zero] using this)

end LineStore.lawful

end Sys2Proof.Machine
end

