-- ==== Sys2Proof/Laws/Loads.lean ====
section
/-! SUPPORT. What the loads of the four groups do: what stands after a plan drop, a geometry change or a window load, what an installed
window entry is, and what a group that passes its checks holds. -/

namespace Sys2Proof.Machine

/-! ### Plan drop, geometry change, window load -/

/-- A plan that goes to NONE leaves the windows and the settings. -/
theorem planToNone_keeps (s : State) : (planToNone s).windows = s.windows ∧ (planToNone s).settings = s.settings := by
  unfold planToNone; simp only; split <;> exact ⟨rfl, rfl⟩

/-- A geometry change leaves the windows and the settings. -/
theorem geometryChange_keeps (s : State) : (geometryChange s).windows = s.windows ∧ (geometryChange s).settings = s.settings := by
  have h1 : (resetMonitor s).windows = s.windows ∧ (resetMonitor s).settings = s.settings := by
    unfold resetMonitor; simp only; split <;> exact ⟨rfl, rfl⟩
  have h2 : ∀ s, (dropPlan s).windows = s.windows ∧ (dropPlan s).settings = s.settings := fun s => planToNone_keeps s
  have h3 : ∀ s, (emptyHistory s).windows = s.windows ∧ (emptyHistory s).settings = s.settings := by
    intro s; unfold emptyHistory; split <;> exact ⟨rfl, rfl⟩
  exact ⟨((h3 _).1.trans (h2 _).1).trans h1.1, ((h3 _).2.trans (h2 _).2).trans h1.2⟩

/-- A window load installs the table and clears the pending flag. -/
theorem loadWindow_fields (s : State) : (loadWindow s).windows = s.installed.map Prod.fst ∧
    (loadWindow s).settings = { s.settings with windowPending := false } := by
  have hg : ∀ (b : Bool) (u : State), (if b then geometryChange u else u).windows = u.windows ∧
      (if b then geometryChange u else u).settings = u.settings := by
    intro b u; cases b
    · exact ⟨rfl, rfl⟩
    · exact geometryChange_keeps u
  have hp : ∀ (b : Bool) (u : State), (if b then planToNone u else u).windows = u.windows ∧
      (if b then planToNone u else u).settings = u.settings := by
    intro b u; cases b
    · exact ⟨rfl, rfl⟩
    · exact planToNone_keeps u
  unfold loadWindow; simp only [raiseAll_windows, raiseAll_settings]
  exact ⟨((hp _ _).1.trans (hg _ _).1).trans rfl, ((hp _ _).2.trans (hg _ _).2).trans rfl⟩

/-- R143: an installed entry that is not OFF is aligned, lies in the address space and off the control page, and but for OUTPUT within
DRAM; and no entry before it has its kind where at most one may stand. -/
theorem installEntry_spec (d p : Nat) (before : List WindowEntry) (e : WindowEntry) :
    ((installEntry d p before e).1.kind ≠ .off →
      (installEntry d p before e).1.base % 65536 = 0 ∧ (installEntry d p before e).1.size % 65536 = 0 ∧
      65536 ≤ (installEntry d p before e).1.size ∧
      (installEntry d p before e).1.base + (installEntry d p before e).1.size ≤ 2 ^ 32 ∧
      ((installEntry d p before e).1.base + (installEntry d p before e).1.size ≤ p ∨
        p + 4096 ≤ (installEntry d p before e).1.base) ∧
      ((installEntry d p before e).1.kind ≠ .output →
        (installEntry d p before e).1.base + (installEntry d p before e).1.size ≤ d)) ∧
    ((installEntry d p before e).1.kind.unique = true → ∀ b ∈ before, b.kind ≠ (installEntry d p before e).1.kind) := by
  have h7 : align64K e.base % 65536 = 0 := by simp only [align64K]; omega
  have h8 : align64K e.size % 65536 = 0 := by simp only [align64K]; omega
  unfold installEntry
  simp only
  generalize align64K e.base = A at *
  generalize align64K e.size = B at *
  by_cases h0 : e.kind = .off
  · rw [if_pos h0]; refine ⟨fun h => absurd h0 h, fun h => ?_⟩; simp only at h; rw [h0] at h; cases h
  · rw [if_neg h0]
    by_cases h1 : B = 0
    · rw [if_pos h1]; refine ⟨fun h => absurd rfl h, fun h => by cases h⟩
    · rw [if_neg h1]
      by_cases h2 : 4294967296 < A + B
      · rw [if_pos h2]; refine ⟨fun h => absurd rfl h, fun h => by cases h⟩
      · rw [if_neg h2]
        by_cases h3 : A < p + 4096 ∧ p < A + B
        · rw [if_pos h3]; refine ⟨fun h => absurd rfl h, fun h => by cases h⟩
        · rw [if_neg h3]
          by_cases h4 : e.kind ≠ .output ∧ d < A + B
          · rw [if_pos h4]; refine ⟨fun h => absurd rfl h, fun h => by cases h⟩
          · rw [if_neg h4]
            by_cases h5 : e.kind.unique = true ∧ (before.any (fun b => decide (b.kind = e.kind))) = true
            · rw [if_pos h5]; refine ⟨fun h => absurd rfl h, fun h => by cases h⟩
            · rw [if_neg h5]
              have h6 : (if ({ base := A, size := B, kind := e.kind } : WindowEntry) = e then (e, 0)
                  else (({ base := A, size := B, kind := e.kind } : WindowEntry), 1)).1 = { base := A, size := B, kind := e.kind } := by
                split
                · next h => exact h.symm
                · rfl
              rw [h6]
              refine ⟨fun _ => ⟨h7, h8, by simp only; omega, by simp only; omega, by simp only; omega, ?_⟩, ?_⟩
              · intro hk; have := not_and.1 h4 hk; simp only; omega
              · intro hu b hb hbk
                exact h5 ⟨hu, by simp only [List.any_eq_true]; exact ⟨b, hb, by simpa using hbk⟩⟩

/-- Every installed window that is not OFF is aligned. -/
theorem installEntries_aligned (d p : Nat) (before es : List WindowEntry) :
    ∀ e ∈ (installEntries d p before es).map Prod.fst, e.kind ≠ .off → e.base % 65536 = 0 := by
  induction es generalizing before with
  | nil => intro e h; simp [installEntries] at h
  | cons x es ih =>
    intro e h
    simp only [installEntries, List.map_cons] at h
    rcases List.mem_cons.1 h with rfl | h
    · exact fun hk => ((installEntry_spec d p before x).1 hk).1
    · exact ih _ e h

/-! ### Records and windows -/

/-- A record has eight words (R180). -/
theorem record_length (c : Condition) (f : FieldNo) : (c.record f).length = 8 := by cases c <;> rfl

/-- A condition that occurs queues a record of eight words or none. -/
theorem raise_recordsOk (c : Condition) (s : State) (h : s.cond.recordsOk) : (raise c s).cond.recordsOk := by
  intro r hr
  unfold raise at hr; simp only at hr
  split at hr
  · exact h r hr
  · simp only [ConditionUnit.occur] at hr
    split at hr
    · rcases List.mem_append.1 hr with h1 | h1
      · exact h r h1
      · rw [List.mem_singleton.1 h1]; exact record_length _ _
    · exact h r hr

/-- The work inside a take keeps the records' lengths and the windows' alignment. -/
theorem ring_core : CoreClosed (fun s t => (s.cond.recordsOk → t.cond.recordsOk) ∧ (s.windowsOk → t.windowsOk)) where
  refl _ := ⟨id, id⟩
  trans h k := ⟨fun x => k.1 (h.1 x), fun x => k.2 (h.2 x)⟩
  raise c s := ⟨raise_recordsOk c s, id⟩
  schedule _ := ⟨id, id⟩
  monitor _ _ := ⟨id, id⟩
  history _ _ := ⟨id, id⟩
  probeReset _ := ⟨id, id⟩
  probeEvicted _ _ := ⟨id, id⟩
  probeLine _ _ _ _ := ⟨id, id⟩
  probeAdmission _ _ _ := ⟨id, id⟩
  cadenceClose _ _ _ _ _ := ⟨id, id⟩
  cadenceE22 _ _ := ⟨id, id⟩
  cadenceGeometry _ := ⟨id, id⟩
  planNone _ := ⟨id, id⟩
  planRepair _ _ _ _ _ _ := ⟨id, id⟩
  planFlags _ _ _ := ⟨id, id⟩
  planFrame _ _ _ := ⟨id, id⟩
  voidFields _ _ := ⟨id, id⟩
  installWindows s := by
    refine ⟨?_, fun _ => installEntries_aligned _ _ _ _⟩
    intro h
    show ConditionUnit.recordsOk (ConditionUnit.windowLoad _ _ _)
    unfold ConditionUnit.windowLoad
    split
    · exact h
    · intro r hr; cases hr
    · exact h
    · split
      · exact h
      · exact h
  memoryGroup _ _ := ⟨id, id⟩
  interval _ _ := ⟨id, id⟩
  addition s := by
    unfold refreshAddition; split
    · exact ⟨id, id⟩
    · exact ⟨raise_recordsOk _ s, id⟩
  outputRefused _ := ⟨id, id⟩
  outputLoaded _ _ := ⟨id, id⟩

/-- The same across a load of the ingest group. -/
theorem ring_closed : InnerClosed (fun s t => (s.cond.recordsOk → t.cond.recordsOk) ∧ (s.windowsOk → t.windowsOk)) := ring_core.inner (fun _ => ⟨id, id⟩) (fun _ _ => ⟨id, id⟩)

/-! ### The ingest group -/

/-- A stall expiry leaves the settings. -/
theorem expireStall_settings (s : State) : (expireStall s).settings = s.settings := by
  have hcf : ∀ c u, (closeField c u).settings = u.settings := by
    intro c u; unfold closeField; split <;> simp [closeRecord]
  have hem : ∀ u, (endMeasurement u).settings = u.settings := by
    intro u; unfold endMeasurement; split
    · unfold endMeasured; simp only; repeat' split
      all_goals rfl
    · rfl
  unfold expireStall; simp only
  split
  · rw [hcf]; rfl
  · split
    · rw [hem]; rfl
    · rfl

/-- An ingest group that is installed is the working group and no longer pending. -/
theorem installIngest_settings (g : IngestWords) (s : State) :
    (installIngest g s).settings = { s.settings with ingest := some g.load, ingestPending := false } := by
  unfold installIngest; simp only
  split
  · rw [(geometryChange_keeps _).2, raiseAll_settings]
  · unfold stallAtLoad; split
    · rw [expireStall_settings]; simp
    · simp

/-! ### The output group -/

/-- Every DEFAULT row sums to 256 (R111). -/
theorem default_sums : ∀ r ∈ defaultRows, r.sums := by
  intro r hr
  obtain ⟨p, hp, rfl⟩ := List.mem_map.1 hr
  simp only [CoefRow.sums, CoefRow.default]; omega

/-- The custom rows after a load sum to 256 where they did before (R112). -/
theorem rowsAfterLoad_sums (s : Settings) (c : Bool) (h : ∀ r ∈ s.customRows, r.sums) : ∀ r ∈ s.rowsAfterLoad c, r.sums := by
  simp only [Settings.rowsAfterLoad]
  split
  · intro r hr
    obtain ⟨p, hp', rfl⟩ := List.mem_map.1 hr
    simp only [Settings.loadedRow]
    split
    · next h => simp only [CoefRow.passes, Bool.and_eq_true, decide_eq_true_eq] at h; exact h.2
    · simp only [CoefRow.sums, CoefRow.default]; omega
  · exact h

/-- An output group that passes its checks is in range as loaded (R169). -/
theorem outputLoad_inRange (g : OutputWords) (hc : g.check = none) : g.load.inRange := by
  have hbox : g.boxCandidates = [] ↔ 2 ≤ evenDown g.wi.toNat ∧ 1 ≤ g.hi.toNat ∧ evenDown g.x0.toNat + evenDown g.wi.toNat ≤ g.wo.toNat ∧ g.y0.toNat + g.hi.toNat ≤ g.ho.toNat := by
    simp only [OutputWords.boxCandidates, List.append_eq_nil_iff]
    constructor
    · rintro ⟨⟨⟨h1, h2⟩, h3⟩, h4⟩
      refine ⟨?_, ?_, ?_, ?_⟩
      · by_cases h : evenDown g.wi.toNat < 2
        · simp [h] at h1
        · omega
      · by_cases h : g.hi.toNat < 1
        · rw [if_pos h] at h2; cases h2
        · omega
      · by_cases h : g.wo.toNat < evenDown g.x0.toNat + evenDown g.wi.toNat
        · simp [h] at h3
        · omega
      · by_cases h : g.ho.toNat < g.y0.toNat + g.hi.toNat
        · simp [h] at h4
        · omega
    · rintro ⟨h1, h2, h3, h4⟩
      refine ⟨⟨⟨if_neg (by omega), if_neg (by omega)⟩, if_neg (by omega)⟩, if_neg (by omega)⟩
  have hpass : (640 ≤ g.wo.toNat ∧ g.wo.toNat ≤ 2048 ∧ g.wo.toNat % 2 = 0) ∧ (240 ≤ g.ho.toNat ∧ g.ho.toNat ≤ 1080) ∧ g.boxCandidates = [] := by
    unfold OutputWords.check at hc
    by_cases h1 : (640 ≤ g.wo.toNat ∧ g.wo.toNat ≤ 2048 ∧ g.wo.toNat % 2 = 0)
    · rw [if_neg (not_not_intro h1)] at hc
      by_cases h2 : 240 ≤ g.ho.toNat ∧ g.ho.toNat ≤ 1080
      · rw [if_neg (not_not_intro h2)] at hc
        by_cases h3 : g.boxCandidates = []
        · exact ⟨h1, h2, h3⟩
        · rw [if_neg h3] at hc; cases hc
      · rw [if_pos h2] at hc; cases hc
    · rw [if_pos h1] at hc; cases hc
  obtain ⟨h1, h2, h3⟩ := hpass
  obtain ⟨h3, h4, h5, h6⟩ := hbox.1 h3
  have hpitch : ∀ p wo, (loadedPitch p wo % 64 = 0 ∧ wo * 4 ≤ loadedPitch p wo) := by
    intro p wo; simp only [loadedPitch]
    rcases Nat.le_total p (wo*4) with h | h
    · rw [Nat.max_eq_right h]; split <;> constructor <;> omega
    · rw [Nat.max_eq_left h]; split <;> constructor <;> omega
  have hfill : ∀ (w : Word) d, fillOk d → fillOk (loadedFill w d) := by
    intro w d hd; simp only [loadedFill, orDefault, clampNat, fillOk] at *; split <;> omega
  refine ⟨h1, h2, hpitch _ _, ⟨?_, ?_, h3, h5⟩, ⟨h4, h6⟩, hfill _ _ (by decide), hfill _ _ (by decide), ?_⟩
  · show evenDown _ % 2 = 0; simp only [evenDown]; omega
  · show evenDown _ % 2 = 0; simp only [evenDown]; omega
  · show g.low < loadedHigh g.low g.high; simp only [loadedHigh]; split <;> omega

end Sys2Proof.Machine
end

