-- ==== Sys2Proof/Laws/FieldHistory.lean ====
section
/-! SUPPORT. The laws of the field history and of the plan over it (R25, R31, R63): what a close, an eviction, an admission, a plan and a
geometry change leave of them. -/

namespace Sys2Proof.Machine

/-- The laws of a history under a slot count and a plan, each of them or none. -/
structure History.ok (h : History) (k : Option Nat) (p : Option Plan) : Prop where
  lawful : h.lawful k
  carries : ∀ x, p = some x → h.carries x
  referenced : ∀ r ∈ h.records, r.referenced = rolesIn p r.number

theorem historyOk_iff (s : State) : s.historyOk ↔ s.history.ok (s.settings.ingest.map (fun g => g.k)) s.planner.plan :=
  ⟨fun h => ⟨h.1, h.2.1, h.2.2⟩, fun h => ⟨h.1, h.2, h.3⟩⟩

/-- The laws speak of the history, the plan and the working slot count alone. -/
theorem historyOk_congr {s t : State} (h : s.historyOk) (hh : t.history = s.history) (hp : t.planner.plan = s.planner.plan)
    (hi : t.settings.ingest = s.settings.ingest) : t.historyOk := by
  rw [historyOk_iff, hh, hp, hi, ← historyOk_iff]
  exact h

theorem nodup_unique {α β : Type} {f : α → β} {l : List α} (h : (l.map f).Nodup) {a b : α} (ha : a ∈ l) (hb : b ∈ l) (e : f a = f b) :
    a = b := by
  induction l with
  | nil => cases ha
  | cons x l ih =>
    have hn := List.nodup_cons.1 h
    rcases List.mem_cons.1 ha with rfl | ka <;> rcases List.mem_cons.1 hb with rfl | kb
    · rfl
    · exact absurd (e ▸ List.mem_map_of_mem (f := f) kb) hn.1
    · exact absurd (e ▸ List.mem_map_of_mem (f := f) ka) hn.1
    · exact ih hn.2 ka kb

namespace History.ok

variable {h : History} {k : Option Nat} {p : Option Plan}

theorem bound (x : h.ok k p) {n : Nat} (e : k = some n) : ∀ r ∈ h.records, r.slot < n := by
  have := x.lawful.atMost
  rw [e] at this
  exact this.2

/-- Records changed in what is neither number, slot nor role, none becoming FILLING. -/
theorem map (x : h.ok k p) (g : FieldRecord → FieldRecord)
    (hg : ∀ r ∈ h.records, (g r).number = r.number ∧ (g r).slot = r.slot ∧ (g r).referenced = r.referenced ∧
      ((g r).state = .filling → r.state = .filling)) : ({ h with records := h.records.map g } : History).ok k p := by
  have hn : (h.records.map g).map (fun r => r.number) = h.records.map (fun r => r.number) := by
    rw [List.map_map]; exact List.map_congr_left (fun r hr => (hg r hr).1)
  have hs : (h.records.map g).map (fun r => r.slot) = h.records.map (fun r => r.slot) := by
    rw [List.map_map]; exact List.map_congr_left (fun r hr => (hg r hr).2.1)
  refine ⟨⟨?_, ?_, ⟨x.lawful.numbered.1, ?_⟩, ?_, ?_⟩, ?_, ?_⟩
  · rw [hs]; exact x.lawful.slotsApart
  · rw [hn]; exact x.lawful.numbersApart
  · intro r hr
    obtain ⟨q, hq, rfl⟩ := List.mem_map.1 hr
    rw [(hg q hq).1]; exact x.lawful.numbered.2 q hq
  · intro a ha b hb fa fb
    obtain ⟨qa, hqa, rfl⟩ := List.mem_map.1 ha
    obtain ⟨qb, hqb, rfl⟩ := List.mem_map.1 hb
    rw [x.lawful.oneFilling qa hqa qb hqb ((hg qa hqa).2.2.2 fa) ((hg qb hqb).2.2.2 fb)]
  · have := x.lawful.atMost
    cases k with
    | none => simp only at this ⊢; rw [this]; rfl
    | some n =>
      refine ⟨by simpa using this.1, ?_⟩
      intro r hr
      obtain ⟨q, hq, rfl⟩ := List.mem_map.1 hr
      rw [(hg q hq).2.1]; exact this.2 q hq
  · intro y hy
    refine ⟨(x.carries y hy).1, ?_⟩
    intro f hf
    obtain ⟨r, hr, e⟩ := (x.carries y hy).2 f hf
    exact ⟨g r, List.mem_map_of_mem hr, by rw [(hg r hr).1]; exact e⟩
  · intro r hr
    obtain ⟨q, hq, rfl⟩ := List.mem_map.1 hr
    rw [(hg q hq).2.2.1, (hg q hq).1]; exact x.referenced q hq

/-- One record changed in what is neither number, slot nor role, and not becoming FILLING. -/
theorem update (x : h.ok k p) (n : FieldNo) (f : FieldRecord → FieldRecord)
    (hf : ∀ r ∈ h.records, r.number = n → (f r).number = r.number ∧ (f r).slot = r.slot ∧ (f r).referenced = r.referenced ∧
      ((f r).state = .filling → r.state = .filling)) : (h.update n f).ok k p := by
  refine x.map _ ?_
  intro r hr
  split
  · next e => exact hf r hr e
  · exact ⟨rfl, rfl, rfl, id⟩

/-- A plan over present records, or none, with the referenced sets in step. -/
theorem reference {q : Option Plan} (x : h.lawful k) (hq : ∀ y, q = some y → h.carries y) : (h.reference q).ok k q := by
  have hn : (h.reference q).records.map (fun r => r.number) = h.records.map (fun r => r.number) := by
    simp [History.reference, List.map_map, Function.comp_def]
  have hs : (h.reference q).records.map (fun r => r.slot) = h.records.map (fun r => r.slot) := by
    simp [History.reference, List.map_map, Function.comp_def]
  refine ⟨⟨?_, ?_, ⟨x.numbered.1, ?_⟩, ?_, ?_⟩, ?_, ?_⟩
  · rw [hs]; exact x.slotsApart
  · rw [hn]; exact x.numbersApart
  · intro r hr
    obtain ⟨q, hq, rfl⟩ := List.mem_map.1 hr
    exact x.numbered.2 q hq
  · intro a ha b hb fa fb
    obtain ⟨qa, hqa, rfl⟩ := List.mem_map.1 ha
    obtain ⟨qb, hqb, rfl⟩ := List.mem_map.1 hb
    rw [x.oneFilling qa hqa qb hqb fa fb]
  · have := x.atMost
    cases k with
    | none => simp only at this ⊢; simp [History.reference, this]
    | some n =>
      refine ⟨by simpa [History.reference] using this.1, ?_⟩
      intro r hr
      obtain ⟨q, hq, rfl⟩ := List.mem_map.1 hr
      exact this.2 q hq
  · intro y hy
    refine ⟨(hq y hy).1, ?_⟩
    intro f hf
    obtain ⟨r, hr, e⟩ := (hq y hy).2 f hf
    exact ⟨_, List.mem_map_of_mem hr, e⟩
  · intro r hr
    obtain ⟨y, hy, rfl⟩ := List.mem_map.1 hr
    cases q <;> rfl

/-- A record leaves that the plan does not name. -/
theorem remove (x : h.lawful k) (n : FieldNo) : (h.remove n).lawful k := by
  have sub : (h.remove n).records.Sublist h.records := List.filter_sublist
  refine ⟨(sub.map _).nodup x.slotsApart, (sub.map _).nodup x.numbersApart, ⟨x.numbered.1, fun r hr => x.numbered.2 r (sub.mem hr)⟩,
    fun a ha b hb => x.oneFilling a (sub.mem ha) b (sub.mem hb), ?_⟩
  have := x.atMost
  cases k with
  | none => simp only at this ⊢; simp [History.remove, this]
  | some m => exact ⟨Nat.le_trans sub.length_le this.1, fun r hr => this.2 r (sub.mem hr)⟩

/-- A record is admitted in a free slot below the slot count, with a free number and no role, where none is FILLING. -/
theorem append (x : h.ok k p) {r : FieldRecord} {n : Nat} (hk : k = some n) (hs : r.slot < n) (hf : ∀ q ∈ h.records, q.slot ≠ r.slot)
    (hn : r.number = h.next) (hfree : ∀ q ∈ h.records, q.number ≠ h.next) (hno : ∀ q ∈ h.records, q.state ≠ .filling)
    (hr : r.referenced = Roles.empty) : (h.append r).ok k p := by
  have unnamed : rolesIn p r.number = Roles.empty := by
    unfold rolesIn
    split
    · next y =>
      have hc := x.carries y rfl
      have no : ∀ f ∈ y.names, f ≠ r.number := by
        intro f hf e
        obtain ⟨q, hq, e2⟩ := hc.2 f hf
        exact hfree q hq (by rw [e2, e, hn])
      have h1 : y.anchor.map (fun a => a.field) ≠ some r.number := by
        intro e
        exact no r.number (by simp [Plan.names, e]) rfl
      have h2 : y.partner.map (fun a => a.field) ≠ some r.number := by
        intro e
        exact no r.number (by simp [Plan.names, e]) rfl
      have h3 : y.anchor2 ≠ some r.number := by
        intro e
        exact no r.number (by simp [Plan.names, e]) rfl
      have h4 : y.partner2 ≠ some r.number := by
        intro e
        exact no r.number (by simp [Plan.names, e]) rfl
      simp only [Plan.rolesOf, h1, h2, h3, h4, decide_false, Roles.empty]
    · rfl
  have slots : ((h.records ++ [r]).map (fun r => r.slot)).Nodup := by
    rw [List.map_append, List.nodup_append]
    refine ⟨x.lawful.slotsApart, by simp, ?_⟩
    intro a ha b hb e
    obtain ⟨q, hq, rfl⟩ := List.mem_map.1 ha
    simp only [List.map_cons, List.map_nil, List.mem_singleton] at hb
    exact hf q hq (e.trans hb)
  have below : ∀ q ∈ h.records ++ [r], q.slot < n := by
    intro q hq
    rcases List.mem_append.1 hq with hq | hq
    · exact x.bound hk q hq
    · rw [List.mem_singleton.1 hq]; exact hs
  refine ⟨⟨slots, ?_, ⟨?_, ?_⟩, ?_, ?_⟩, ?_, ?_⟩
  · show ((h.records ++ [r]).map (fun r => r.number)).Nodup
    rw [List.map_append, List.nodup_append]
    refine ⟨x.lawful.numbersApart, by simp, ?_⟩
    intro a ha b hb e
    obtain ⟨q, hq, rfl⟩ := List.mem_map.1 ha
    simp only [List.map_cons, List.map_nil, List.mem_singleton] at hb
    exact hfree q hq (by rw [e, hb, hn])
  · show FieldNo.succ h.next ≠ 0
    have := x.lawful.numbered.1
    unfold FieldNo.succ
    split
    · decide
    · next e =>
      intro z
      apply e
      have : h.next.toNat < 2 ^ 32 := h.next.isLt
      bv_omega
  · intro q hq
    rcases List.mem_append.1 hq with hq | hq
    · exact x.lawful.numbered.2 q hq
    · rw [List.mem_singleton.1 hq, hn]; exact x.lawful.numbered.1
  · intro a ha b hb fa fb
    rcases List.mem_append.1 ha with ha | ha
    · exact absurd fa (hno a ha)
    · rcases List.mem_append.1 hb with hb | hb
      · exact absurd fb (hno b hb)
      · rw [List.mem_singleton.1 ha, List.mem_singleton.1 hb]
  · rw [hk]
    refine ⟨?_, below⟩
    have := length_le_of_nodup slots (m := List.range n) (by
      intro v hv
      obtain ⟨q, hq, rfl⟩ := List.mem_map.1 hv
      exact List.mem_range.2 (below q hq))
    simpa [History.append] using this
  · intro y hy
    refine ⟨(x.carries y hy).1, fun f hf => ?_⟩
    obtain ⟨q, hq, e⟩ := (x.carries y hy).2 f hf
    exact ⟨q, List.mem_append.2 (.inl hq), e⟩
  · intro q hq
    rcases List.mem_append.1 hq with hq | hq
    · exact x.referenced q hq
    · rw [List.mem_singleton.1 hq, hr, unnamed]

/-- No record, no plan. -/
theorem empty (x : h.next ≠ 0) : ({ h with records := [] } : History).ok k none := by
  refine ⟨⟨List.nodup_nil, List.nodup_nil, ⟨x, fun r hr => by cases hr⟩, fun a ha => (by cases ha), ?_⟩, fun y hy => (by cases hy), fun r hr => by cases hr⟩
  cases k with
  | none => rfl
  | some n => exact ⟨Nat.zero_le _, fun r hr => by cases hr⟩

/-- The plan repaired for a removed record names present records, but not that one. -/
theorem repaired (x : h.ok k p) {r : FieldRecord} (hr : r ∈ h.records) {y : Plan} (hy : p = some y) :
    (∀ z, y.repair r.referenced = some z → (h.remove r.number).carries z.1) ∧
      (y.repair r.referenced = none → (h.remove r.number).carries y) := by
  have hc := x.carries y hy
  have href : r.referenced = y.rolesOf r.number := by rw [x.referenced r hr, hy]; rfl
  -- a name that is not r's stays present
  have stays : ∀ z : Plan, z.names.Sublist y.names → r.number ∉ z.names → (h.remove r.number).carries z := by
    intro z hz hnot
    refine ⟨hz.nodup hc.1, fun f hf => ?_⟩
    obtain ⟨q, hq, e⟩ := hc.2 f (hz.mem hf)
    refine ⟨q, ?_, e⟩
    simp only [History.remove, List.mem_filter, decide_eq_true_eq]
    refine ⟨hq, fun e2 => hnot ?_⟩
    rw [← e2, e]; exact hf
  have nd := hc.1
  simp only [Plan.names] at nd
  have ha : (y.rolesOf r.number).anchor = true ↔ r.number ∈ (y.anchor.map (fun a => a.field)).toList := by simp [Plan.rolesOf]
  have hp : (y.rolesOf r.number).partner = true ↔ r.number ∈ (y.partner.map (fun a => a.field)).toList := by simp [Plan.rolesOf]
  have ha2 : (y.rolesOf r.number).anchor2 = true ↔ r.number ∈ y.anchor2.toList := by simp [Plan.rolesOf]
  have hp2 : (y.rolesOf r.number).partner2 = true ↔ r.number ∈ y.partner2.toList := by simp [Plan.rolesOf]
  rw [href]
  generalize hA : (y.anchor.map (fun a => a.field)).toList = A at nd ha
  generalize hP : (y.partner.map (fun a => a.field)).toList = P at nd hp
  generalize hA2 : y.anchor2.toList = A2 at nd ha2
  generalize hP2 : y.partner2.toList = P2 at nd hp2
  have hnames : y.names = A ++ P ++ A2 ++ P2 := by simp only [Plan.names, hA, hP, hA2, hP2]
  simp only [List.nodup_append, List.mem_append] at nd
  have apart : ∀ {L M : List FieldNo}, (∀ a ∈ L, ∀ b ∈ M, a ≠ b) → r.number ∈ L → r.number ∉ M := fun z a b => z _ a _ b rfl
  constructor
  · intro z hz
    unfold Plan.repair at hz
    split at hz
    · cases hz
      apply stays
      · simp [Plan.names]
      · simp [Plan.names]
    · next na =>
      rw [ha] at na
      split at hz
      · next hh =>
        rw [hp] at hh
        cases hz
        have e : ({ y with method := .spatial, partner := none, partner2 := none, partnerLost := true } : Plan).names = A ++ A2 := by
          simp [Plan.names, hA, hA2]
        apply stays
        · rw [e, hnames, List.append_assoc, List.append_assoc]
          exact List.Sublist.append (List.Sublist.refl _) ((List.sublist_append_left A2 P2).trans (List.sublist_append_right P _))
        · rw [e, List.mem_append]
          rintro (k | k)
          · exact na k
          · exact nd.1.2.2 _ (.inr hh) _ k rfl
      · next np =>
        rw [hp] at np
        split at hz
        · next hh =>
          rw [ha2] at hh
          cases hz
          have e : ({ y with anchor2 := none, motionLost := true } : Plan).names = A ++ P ++ P2 := by
            simp [Plan.names, hA, hP, hP2]
          apply stays
          · rw [e, hnames]
            exact List.Sublist.append (List.sublist_append_left _ _) (List.Sublist.refl _)
          · rw [e, List.mem_append, List.mem_append]
            rintro ((k | k) | k)
            · exact na k
            · exact np k
            · exact nd.2.2 _ (.inr hh) _ k rfl
        · next na2 =>
          rw [ha2] at na2
          split at hz
          · cases hz
            have e : ({ y with partner2 := none, motionLost := true } : Plan).names = A ++ P ++ A2 := by
              simp [Plan.names, hA, hP, hA2]
            apply stays
            · rw [e, hnames]
              exact List.sublist_append_left _ _
            · rw [e, List.mem_append, List.mem_append]
              rintro ((k | k) | k)
              · exact na k
              · exact np k
              · exact na2 k
          · cases hz
  · intro hz
    unfold Plan.repair at hz
    split at hz
    · cases hz
    · next na =>
      split at hz
      · cases hz
      · next np =>
        split at hz
        · cases hz
        · next na2 =>
          split at hz
          · cases hz
          · next np2 =>
            rw [ha] at na
            rw [hp] at np
            rw [ha2] at na2
            rw [hp2] at np2
            apply stays _ (List.Sublist.refl _)
            rw [hnames, List.mem_append, List.mem_append, List.mem_append]
            rintro (((k | k) | k) | k)
            · exact na k
            · exact np k
            · exact na2 k
            · exact np2 k

end History.ok

/-! ### Inside a take: all but an admission -/

/-- t keeps the laws of the history, numbers no record anew, and leaves the next number. -/
structure HistoryKeeps (s t : State) : Prop where
  ok : s.historyOk → t.historyOk
  next : t.history.next = s.history.next
  numbers : ∀ r ∈ t.history.records, ∃ q ∈ s.history.records, q.number = r.number

namespace HistoryKeeps

theorem of {s t : State} (hh : t.history = s.history) (hp : t.planner.plan = s.planner.plan)
    (hi : t.settings.ingest = s.settings.ingest) : HistoryKeeps s t :=
  ⟨fun x => historyOk_congr x hh hp hi, by rw [hh], fun r hr => ⟨r, by rw [← hh]; exact hr, rfl⟩⟩

theorem refl (s : State) : HistoryKeeps s s := .of rfl rfl rfl

theorem trans {s t u : State} (h : HistoryKeeps s t) (k : HistoryKeeps t u) : HistoryKeeps s u := by
  refine ⟨fun x => k.ok (h.ok x), k.next.trans h.next, fun r hr => ?_⟩
  obtain ⟨q, hq, e⟩ := k.numbers r hr
  obtain ⟨w, hw, e2⟩ := h.numbers q hq
  exact ⟨w, hw, e2.trans e⟩

theorem numberFree {s t : State} (h : HistoryKeeps s t) (x : s.numberFree) : t.numberFree := by
  intro r hr e
  obtain ⟨q, hq, e2⟩ := h.numbers r hr
  exact x q hq (by rw [e2, e, h.next])

/-- R13: a close. -/
theorem closeField (c : CloseCause) (s : State) : HistoryKeeps s (Machine.closeField c s) := by
  unfold Machine.closeField
  split
  · next r g hr hg =>
    have hm : r ∈ s.history.records := List.mem_of_find?_eq_some hr
    generalize hx : s.probe.settle (s.history.update r.number fun _ => r.close c g.w) (r.close c g.w) g.w = x
    generalize hy : s.cadence.close g ({ r.close c g.w with metrics := x.1 } : FieldRecord)
      ((s.history.update r.number fun _ => r.close c g.w).find (FieldNo.pred r.number)) = y
    have hh : (closeRecord c r g s).history = s.history.update r.number
        (fun _ => { r.close c g.w with metrics := x.1, label := y.label }) := by
      simp only [closeRecord, scheduleStatus_history, raiseAll_history, hx, hy]
    refine ⟨fun k => ?_, by rw [hh]; rfl, ?_⟩
    · rw [historyOk_iff] at k ⊢
      rw [hh]
      have hp : (closeRecord c r g s).planner = s.planner := by simp [closeRecord]
      have hi : (closeRecord c r g s).settings = s.settings := by simp [closeRecord]
      rw [hp, hi]
      apply k.update
      intro q hq e
      have : q = r := nodup_unique k.lawful.numbersApart hq hm e
      subst this
      refine ⟨rfl, rfl, rfl, ?_⟩
      intro z
      exfalso
      revert z
      show (if c = .endMark then FieldState.complete else FieldState.cut) = .filling → False
      split <;> exact fun z => by cases z
    · intro q hq
      rw [hh] at hq
      simp only [History.update, List.mem_map] at hq
      obtain ⟨w, hw, rfl⟩ := hq
      refine ⟨w, hw, ?_⟩
      split
      · next e => exact e
      · rfl
  · exact .refl s

/-- R33, R34, R76 to R78: an eviction. -/
theorem evict {r : FieldRecord} {s : State} (hr : r ∈ s.history.records) : HistoryKeeps s (Machine.evict r s) := by
  have hsub : ∀ q ∈ (s.history.remove r.number).records, ∃ w ∈ s.history.records, w.number = q.number :=
    fun q hq => ⟨q, (List.mem_filter.1 hq).1, rfl⟩
  unfold Machine.evict repairPlan
  simp only
  split
  · next hp =>
    refine ⟨fun k => ?_, rfl, hsub⟩
    rw [historyOk_iff] at k ⊢
    refine ⟨History.ok.remove k.lawful _, fun y hy => ?_, fun q hq => k.referenced q ((List.mem_filter.1 hq).1)⟩
    simp only at hy
    rw [hp] at hy
    cases hy
  · next y hy =>
    split
    · next hn =>
      refine ⟨fun k => ?_, rfl, hsub⟩
      rw [historyOk_iff] at k ⊢
      refine ⟨History.ok.remove k.lawful _, fun z hz => ?_, fun q hq => k.referenced q ((List.mem_filter.1 hq).1)⟩
      simp only at hz
      rw [hy] at hz
      cases hz
      exact (k.repaired hr hy).2 hn
    · next z hz =>
      refine ⟨fun k => ?_, rfl, ?_⟩
      · rw [historyOk_iff] at k ⊢
        refine History.ok.reference (q := some z.1) (History.ok.remove k.lawful r.number) ?_
        intro w hw
        cases hw
        exact (k.repaired hr hy).1 z hz
      · intro q hq
        obtain ⟨w, hw, rfl⟩ := List.mem_map.1 hq
        exact hsub w hw

theorem evictSlot (slot : Nat) (s : State) : HistoryKeeps s (Machine.evictSlot slot s) := by
  unfold Machine.evictSlot
  split
  · next r hr => exact .evict (List.mem_of_find?_eq_some hr)
  · exact .refl s

theorem endMeasured (count : Nat) (s : State) : HistoryKeeps s (Machine.endMeasured count s) := by
  unfold Machine.endMeasured
  simp only
  split <;> split <;> exact .of rfl rfl rfl

theorem endMeasurement (s : State) : HistoryKeeps s (Machine.endMeasurement s) := by
  unfold Machine.endMeasurement
  split
  · exact .endMeasured _ _
  · exact .refl s

theorem expireStall (s : State) : HistoryKeeps s (Machine.expireStall s) := by
  have h : ∀ m c, HistoryKeeps s (Machine.raise c { s with monitor := m }) := fun m c => .of rfl rfl rfl
  unfold Machine.expireStall
  simp only
  split
  · exact (h _ _).trans (.closeField _ _)
  · split
    · exact (h _ _).trans (.endMeasurement _)
    · exact h _ _

/-! ### Loads -/

theorem raiseAll (cs : List Condition) (s : State) : HistoryKeeps s (Machine.raiseAll cs s) := .of (by simp) (by simp) (by simp)

theorem refreshAddition (s : State) : HistoryKeeps s (Machine.refreshAddition s) := by
  unfold Machine.refreshAddition
  split <;> exact .of rfl rfl rfl

/-- R67: the plan goes to NONE. -/
theorem planToNone (s : State) : HistoryKeeps s (Machine.planToNone s) := by
  have h : HistoryKeeps s { s with planner := { s.planner with plan := none }, history := s.history.reference none } := by
    refine ⟨fun k => ?_, rfl, ?_⟩
    · rw [historyOk_iff] at k ⊢
      exact History.ok.reference (q := none) k.lawful (fun y hy => by cases hy)
    · intro q hq
      obtain ⟨w, hw, rfl⟩ := List.mem_map.1 hq
      exact ⟨w, hw, rfl⟩
  unfold Machine.planToNone
  simp only
  split
  · exact h.trans (.of rfl rfl rfl)
  · exact h

/-- R170: what a geometry change leaves, whatever the slot count was: no record, no plan. -/
theorem geometryChange {s : State} (h : s.history.next ≠ 0) :
    (Machine.geometryChange s).historyOk ∧ (Machine.geometryChange s).history.next = s.history.next ∧
      (Machine.geometryChange s).history.records = [] := by
  have h1 : (Machine.resetMonitor s).history = s.history := by
    unfold Machine.resetMonitor
    simp only
    split <;> rfl
  have h2 : ∀ u : State, (Machine.dropPlan u).history.next = u.history.next ∧ (Machine.dropPlan u).planner.plan = none := by
    intro u
    unfold Machine.dropPlan Machine.planToNone
    simp only
    split <;> exact ⟨rfl, rfl⟩
  have h3 : ∀ u : State, (Machine.emptyHistory u).history = ⟨[], u.history.next⟩ ∧ (Machine.emptyHistory u).planner = u.planner := by
    intro u
    unfold Machine.emptyHistory
    split
    · next e =>
      refine ⟨?_, rfl⟩
      cases hu : u.history with
      | mk rs nx => rw [hu] at e; simp only at e; rw [e]
    · exact ⟨rfl, rfl⟩
  have hh : (Machine.geometryChange s).history = ⟨[], s.history.next⟩ := by
    show (Machine.emptyHistory (Machine.dropPlan (Machine.resetMonitor s))).history = _
    rw [(h3 _).1, (h2 _).1, h1]
  have hp : (Machine.geometryChange s).planner.plan = none := by
    show (Machine.emptyHistory (Machine.dropPlan (Machine.resetMonitor s))).planner.plan = _
    rw [(h3 _).2, (h2 _).2]
  refine ⟨?_, by rw [hh], by rw [hh]⟩
  rw [historyOk_iff, hh, hp]
  exact History.ok.empty (h := s.history) h

/-- The same as a step that keeps the laws. -/
theorem ofGeometry {s t : State} (hn : t.history.next = s.history.next) : HistoryKeeps s (Machine.geometryChange t) := by
  refine ⟨fun k => ?_, ?_, ?_⟩
  · exact (geometryChange (by rw [hn]; exact k.1.numbered.1)).1
  · have h : ∀ u : State, (Machine.geometryChange u).history.next = u.history.next := by
      intro u
      have h1 : (Machine.resetMonitor u).history = u.history := by
        unfold Machine.resetMonitor
        simp only
        split <;> rfl
      have h2 : ∀ u : State, (Machine.dropPlan u).history.next = u.history.next := by
        intro u
        unfold Machine.dropPlan Machine.planToNone
        simp only
        split <;> rfl
      have h3 : ∀ u : State, (Machine.emptyHistory u).history.next = u.history.next := by
        intro u
        unfold Machine.emptyHistory
        split <;> rfl
      show (Machine.emptyHistory (Machine.dropPlan (Machine.resetMonitor u))).history.next = _
      rw [h3, h2, h1]
    rw [h, hn]
  · intro r hr
    have h3 : ∀ u : State, (Machine.emptyHistory u).history.records = [] := by
      intro u
      unfold Machine.emptyHistory
      split
      · next e => exact e
      · rfl
    have : (Machine.geometryChange t).history.records = [] := h3 _
    rw [this] at hr
    cases hr

theorem loadMemory (s : State) : HistoryKeeps s (Machine.loadMemory s) := by
  unfold Machine.loadMemory
  simp only
  split
  · refine HistoryKeeps.trans ?_ (.refreshAddition _)
    exact .of (by simp) (by simp) (by simp)
  · exact .of (by simp) (by simp) (by simp)

theorem loadWindow (s : State) : HistoryKeeps s (Machine.loadWindow s) := by
  have h1 : HistoryKeeps s (installWindows s) := .of rfl rfl rfl
  have hg : ∀ u : State, ∀ b : Bool, HistoryKeeps u (if b then Machine.geometryChange u else u) := by
    intro u b
    split
    · exact .ofGeometry rfl
    · exact .refl u
  have hp : ∀ u : State, ∀ b : Bool, HistoryKeeps u (if b then Machine.planToNone u else u) := by
    intro u b
    split
    · exact .planToNone u
    · exact .refl u
  exact h1.trans ((hg _ _).trans ((hp _ _).trans (.raiseAll _ _)))

theorem stallAtLoad (s : State) : HistoryKeeps s (Machine.stallAtLoad s) := by
  unfold Machine.stallAtLoad
  split
  · exact .expireStall s
  · exact .refl s

/-- R168: a load of the ingest group that is no geometry change leaves the slot count. -/
theorem installIngest (g : IngestWords) (s : State) : HistoryKeeps s (Machine.installIngest g s) := by
  unfold Machine.installIngest
  simp only
  split
  · exact .ofGeometry (by simp)
  · next h =>
    refine HistoryKeeps.trans ?_ (.stallAtLoad _)
    refine ⟨fun k => ?_, by simp, fun r hr => ⟨r, by simpa using hr, rfl⟩⟩
    rw [historyOk_iff] at k ⊢
    simp only [raiseAll_history, raiseAll_planner, raiseAll_settings, Option.map_some]
    have hk : s.settings.ingest.map (fun g => g.k) = some g.load.k := by
      unfold IngestGroup.changesGeometry at h
      split at h
      · exact absurd rfl h
      · next o ho =>
        rw [ho]
        simp only [Bool.or_eq_true, decide_eq_true_eq, not_or, ne_eq, Decidable.not_not] at h
        simp [h.1.1.2]
    rw [← hk]
    exact k

theorem loadIngest (s : State) : HistoryKeeps s (Machine.loadIngest s) := by
  unfold Machine.loadIngest
  split
  · exact .of rfl rfl rfl
  · exact .installIngest _ s

theorem loadOutput (s : State) : HistoryKeeps s (Machine.loadOutput s) := by
  unfold Machine.loadOutput
  simp only
  split
  · exact .of rfl rfl rfl
  · exact .of (by simp) (by simp) (by simp)

theorem holdRelease (s : State) : HistoryKeeps s (Machine.holdRelease s) := by
  have h1 : HistoryKeeps s (releaseMemory s) := by
    unfold releaseMemory
    split
    · exact .loadMemory s
    · exact .refl s
  have h2 : ∀ u, HistoryKeeps u (releaseWindow u) := by
    intro u
    unfold releaseWindow
    split
    · exact .loadWindow u
    · exact .refl u
  have h3 : ∀ u, HistoryKeeps u (releaseIngest u) := by
    intro u
    unfold releaseIngest
    split
    · exact .loadIngest u
    · exact .refl u
  have h4 : ∀ u, HistoryKeeps u (releaseOutput u) := by
    intro u
    unfold releaseOutput
    split
    · exact .loadOutput u
    · exact .refl u
  exact h1.trans ((h2 _).trans ((h3 _).trans (h4 _)))

/-! ### The words of a write -/

theorem changeLine (r : FieldRecord) (line : Nat) (f : LineEntry → LineEntry) (s : State) :
    HistoryKeeps s (Machine.changeLine r line f s) := by
  refine ⟨fun k => ?_, rfl, ?_⟩
  · rw [historyOk_iff] at k ⊢
    exact k.update _ _ (fun q _ _ => ⟨rfl, rfl, rfl, id⟩)
  · intro q hq
    simp only [Machine.changeLine, History.update, List.mem_map] at hq
    obtain ⟨w, hw, rfl⟩ := hq
    refine ⟨w, hw, ?_⟩
    split <;> rfl

theorem lineWords (g : Ring) (ws : List AreaWord) (s : State) : HistoryKeeps s (Machine.lineWords g ws s) := by
  have one : ∀ s w, HistoryKeeps s (lineWord g s w) := by
    intro s w
    unfold lineWord
    split
    · exact .refl s
    · split
      · unfold pixelWrite
        simp only
        split
        · exact (HistoryKeeps.changeLine _ _ _ s).trans (.of rfl rfl rfl)
        · exact .changeLine _ _ _ s
      · split
        · exact .changeLine _ _ _ s
        · exact .refl s
      · exact .changeLine _ _ _ s
      · exact .refl s
      · exact .refl s
      · exact .refl s
  unfold Machine.lineWords
  induction ws generalizing s with
  | nil => exact .refl s
  | cons w ws ih => exact (one s w).trans (ih _)

theorem endMark (ws : List AreaWord) (s : State) : HistoryKeeps s (Machine.endMark ws s) := by
  unfold Machine.endMark
  split
  · split
    · exact .closeField _ _
    · exact .refl s
  · exact .refl s

theorem rejectField (addr slot : Nat) (s : State) : HistoryKeeps s (Machine.rejectField addr slot s) := by
  have h : ∀ u, HistoryKeeps u (cutInSlot slot u) := by
    intro u
    unfold cutInSlot
    split
    · split
      · exact .closeField _ _
      · exact .refl u
    · exact .refl u
  have h1 : HistoryKeeps s (Machine.raise (.fieldRejected addr slot) s) := .of rfl rfl rfl
  exact h1.trans ((h _).trans (.evictSlot _ _))

end HistoryKeeps

/-! ### An admission -/

/-- A close leaves no field FILLING. -/
theorem closeField_noFilling {c : CloseCause} {s : State} (h : s.historyOk) :
    ∀ q ∈ (closeField c s).history.records, q.state ≠ .filling := by
  unfold closeField
  split
  · next r g hr hg =>
    have hm : r ∈ s.history.records := List.mem_of_find?_eq_some hr
    have hf : r.state = .filling := by simpa using List.find?_some hr
    intro q hq
    simp only [closeRecord, scheduleStatus_history, raiseAll_history, History.update, List.mem_map] at hq
    obtain ⟨w, hw, rfl⟩ := hq
    split
    · show (if c = .endMark then FieldState.complete else FieldState.cut) ≠ .filling
      split <;> decide
    · next e =>
      intro z
      exact e (by rw [h.1.oneFilling w hw r hm z hf])
  · next hn =>
    intro q hq z
    cases hi : s.settings.ingest with
    | none =>
      have := h.1.atMost
      rw [hi] at this
      simp only [Option.map_none] at this
      rw [this] at hq
      cases hq
    | some g =>
      cases hr : s.history.filling with
      | none =>
        have := List.find?_eq_none.1 hr q hq
        exact this (by simp [z])
      | some r => exact hn r g hr hi

/-- An eviction leaves the slot free, and no field FILLING that was not. -/
theorem evictSlot_free {slot : Nat} {s : State} (h : s.historyOk) (hno : ∀ q ∈ s.history.records, q.state ≠ .filling) :
    (∀ q ∈ (evictSlot slot s).history.records, q.slot ≠ slot) ∧ ∀ q ∈ (evictSlot slot s).history.records, q.state ≠ .filling := by
  unfold evictSlot
  split
  · next r hr =>
    have hm : r ∈ s.history.records := List.mem_of_find?_eq_some hr
    have hs : r.slot = slot := by simpa using List.find?_some hr
    have key : ∀ q ∈ (evict r s).history.records, ∃ w ∈ s.history.records, w.number ≠ r.number ∧ w.slot = q.slot ∧ w.state = q.state := by
      have base : ∀ q ∈ (s.history.remove r.number).records, ∃ w ∈ s.history.records, w.number ≠ r.number ∧ w.slot = q.slot ∧ w.state = q.state := by
        intro q hq
        simp only [History.remove, List.mem_filter, decide_eq_true_eq] at hq
        exact ⟨q, hq.1, hq.2, rfl, rfl⟩
      unfold evict repairPlan
      simp only
      split
      · exact base
      · split
        · exact base
        · intro q hq
          obtain ⟨w, hw, rfl⟩ := List.mem_map.1 hq
          exact base w hw
    constructor
    · intro q hq e
      obtain ⟨w, hw, hn, hs2, _⟩ := key q hq
      apply hn
      rw [nodup_unique h.1.slotsApart hw hm (by rw [hs2, e, hs])]
    · intro q hq
      obtain ⟨w, hw, _, _, hs2⟩ := key q hq
      rw [← hs2]
      exact hno w hw
  · next hr =>
    refine ⟨?_, hno⟩
    intro q hq e
    have := List.find?_eq_none.1 hr q hq
    exact this (by simp [e])

/-- R32: an admission keeps the laws. -/
theorem admitField_ok {g : Ring} {slot : Nat} {h : Header} {s : State} {n : Nat} (k : s.historyOk)
    (hk : s.settings.ingest.map (fun g => g.k) = some n) (hs : slot < n) (hf : ∀ q ∈ s.history.records, q.slot ≠ slot)
    (hfree : s.numberFree) (hno : ∀ q ∈ s.history.records, q.state ≠ .filling) : (admitField g slot h s).historyOk := by
  rw [historyOk_iff] at k ⊢
  have hset : (admitField g slot h s).settings = s.settings := by simp [admitField]
  have hpl : (admitField g slot h s).planner = s.planner := by simp [admitField]
  rw [(admit_eq g slot h s).1, hset, hpl]
  exact k.append hk hs hf rfl hfree hno rfl

theorem closeField_settings (c : CloseCause) (s : State) : (closeField c s).settings = s.settings := (closeField_fields c s).2.2.2.1

theorem evictSlot_settings (slot : Nat) (s : State) : (evictSlot slot s).settings = s.settings := by
  unfold evictSlot
  split
  · unfold evict repairPlan
    simp only
    split
    · rfl
    · split <;> rfl
  · rfl

/-- R5: an accepted opening burst keeps the laws while the next number is free. -/
theorem openField_ok {g : Ring} {slot : Nat} {ws : List AreaWord} {s : State} {n : Nat} (k : s.historyOk) (hfree : s.numberFree)
    (hk : s.settings.ingest.map (fun g => g.k) = some n) (hs : slot < n) : (openField g slot ws s).historyOk := by
  have h1 := HistoryKeeps.closeField (s.openingCause slot) s
  have h2 := HistoryKeeps.evictSlot slot (closeField (s.openingCause slot) s)
  have f := evictSlot_free (slot := slot) (h1.ok k) (closeField_noFilling k)
  refine (HistoryKeeps.lineWords g ws _).ok ?_
  refine admitField_ok (n := n) (h2.ok (h1.ok k)) ?_ hs f.1 ((h1.trans h2).numberFree hfree) f.2
  rw [evictSlot_settings, closeField_settings]
  exact hk

/-! ### A capture write -/

/-- The slot of a word of the ring is one of the ring's. -/
theorem slotOf_lt {g : Ring} {r : Request} {slot : Nat} (h : slotOf (g.areaWords r) = some slot) : slot < g.slots := by
  unfold slotOf at h
  split at h
  · cases h
  · next w rest hw =>
    have hm : w ∈ g.areaWords r := by rw [hw]; simp
    have : ∃ a, w.1 = g.area a := by
      have := (List.of_mem_zip (a := w.1) (b := w.2) hm).1
      obtain ⟨a, _, e⟩ := List.mem_map.1 this
      exact ⟨a, e.symm⟩
    obtain ⟨a, e⟩ := this
    rw [e] at h
    unfold Ring.area at h
    simp only at h
    split at h
    · cases h
    · next hlt =>
      split at h
      · cases h; omega
      · split at h
        · cases h; omega
        · split at h
          · cases h; omega
          · split at h
            · cases h; omega
            · cases h; omega

/-- The ring's slots are the working group's. -/
theorem ring_slots {s : State} {g : Ring} (h : s.ring = some g) : s.settings.ingest.map (fun g => g.k) = some g.slots := by
  unfold State.ring at h
  split at h
  · next i w hi hw =>
    split at h
    · cases h
      rw [hi]
      rfl
    · cases h
  · cases h

theorem endMeasurement_ring {s : State} {g g1 : Ring} (h : s.ring = some g) (h1 : (endMeasurement s).ring = some g1) : g1.slots = g.slots := by
  have a := ring_slots h
  have b := ring_slots h1
  rw [(endMeasurement_fields s).2.2.2.1, a] at b
  exact (Option.some.inj b).symm

/-- R4, R20: a write of the ring keeps the laws while the next number is free. -/
theorem ringWrite_ok {r : Request} {g : Ring} {s : State} (k : s.historyOk) (hfree : s.numberFree) (hg : s.ring = some g) :
    (ringWrite r g (g.areaWords r) s).1.historyOk := by
  have slotOk : ∀ slot, slotOf (g.areaWords r) = some slot → (slotWrite g (firstAddr r) slot (g.areaWords r) s).1.historyOk := by
    intro slot hslot
    unfold slotWrite
    split
    · exact openField_ok k hfree (ring_slots hg) (slotOf_lt hslot)
    · split
      · exact (HistoryKeeps.rejectField _ _ _).ok k
      · split
        · split <;> exact k
        · split
          · exact k
          · exact ((HistoryKeeps.lineWords _ _ _).trans (.endMark _ _)).ok k
  unfold ringWrite
  split
  · exact k
  · next slot hslot =>
    split
    · exact slotOk slot hslot
    · exact slotOk slot hslot
    · unfold acquiringWrite
      split
      · have km := HistoryKeeps.endMeasurement s
        unfold acquiringOpening
        simp only
        split
        · exact historyOk_congr (km.ok k) rfl rfl rfl
        · split
          · next g1 h1 =>
            exact openField_ok (km.ok k) (km.numberFree hfree) (ring_slots h1) (by rw [endMeasurement_ring hg h1]; exact slotOf_lt hslot)
          · exact km.ok k
        · exact km.ok k
        · exact km.ok k
      · split
        · exact historyOk_congr k rfl rfl rfl
        · have h1 : HistoryKeeps s (measureWords (g.areaWords r) s) := .of rfl rfl rfl
          have h2 : ∀ u, HistoryKeeps u (measureEnd slot (g.areaWords r) u) := by
            intro u
            unfold measureEnd
            split
            · split
              · exact .endMeasurement _
              · exact .refl u
            · exact .refl u
          exact (h1.trans (h2 _)).ok k
    · exact k

/-- R2 to R22, R165: a capture write in the FIELD_RING window keeps the laws while the next number is free. -/
theorem monitorWrite_ok {r : Request} {s : State} (k : s.historyOk) (hfree : s.numberFree) : (monitorWrite r s).1.historyOk := by
  unfold monitorWrite
  split
  · exact k
  · next g hg =>
    split
    · exact k
    · split
      · have h := HistoryKeeps.loadIngest s
        unfold judgeAgain
        split
        · exact h.ok k
        · next g1 hg1 =>
          split
          · exact ringWrite_ok (h.ok k) (h.numberFree hfree) hg1
          · exact h.ok k
      · exact ringWrite_ok k hfree hg

/-! ### A frame start -/

theorem FieldNo.pred_toNat {n : FieldNo} (h : n ≠ 0) :
    (FieldNo.pred n).toNat = if n.toNat = 1 then 4294967295 else n.toNat - 1 := by
  have hn : n.toNat ≠ 0 := fun e => h (BitVec.eq_of_toNat_eq e)
  have hl := n.isLt
  unfold FieldNo.pred
  by_cases e : n = 1#32
  · rw [if_pos e, e]; rfl
  · have : n.toNat ≠ 1 := fun x => e (BitVec.eq_of_toNat_eq x)
    rw [if_neg e, if_neg this]
    rw [BitVec.toNat_sub]
    simp only [BitVec.toNat_ofNat]
    omega

theorem FieldNo.pred_ne_zero {n : FieldNo} (h : n ≠ 0) : FieldNo.pred n ≠ 0 := by
  intro e
  have := FieldNo.pred_toNat h
  rw [e] at this
  have hn : n.toNat ≠ 0 := fun e => h (BitVec.eq_of_toNat_eq e)
  simp at this
  split at this <;> omega

theorem FieldNo.succ_ne (n : FieldNo) : FieldNo.succ n ≠ n := by
  unfold FieldNo.succ
  split
  · next h => subst h; decide
  · intro h
    have := n.isLt
    bv_omega

/-- A number and the three before it are four numbers. -/
theorem FieldNo.preds_apart {n : FieldNo} (h : n ≠ 0) :
    [n, FieldNo.pred n, FieldNo.pred (FieldNo.pred n), FieldNo.pred (FieldNo.pred (FieldNo.pred n))].Nodup := by
  have h1 := FieldNo.pred_ne_zero h
  have h2 := FieldNo.pred_ne_zero h1
  have t1 := FieldNo.pred_toNat h
  have t2 := FieldNo.pred_toNat h1
  have t3 := FieldNo.pred_toNat h2
  have hl := n.isLt
  have hn : n.toNat ≠ 0 := fun e => h (BitVec.eq_of_toNat_eq e)
  generalize FieldNo.pred (FieldNo.pred (FieldNo.pred n)) = c at *
  generalize FieldNo.pred (FieldNo.pred n) = b at *
  generalize FieldNo.pred n = a at *
  have ne : ∀ {x y : FieldNo}, x.toNat ≠ y.toNat → x ≠ y := fun z e => z (by rw [e])
  simp only [List.nodup_cons, List.mem_cons, List.not_mem_nil, or_false, not_or, List.nodup_nil, not_false_eq_true, and_true]
  refine ⟨⟨ne ?_, ne ?_, ne ?_⟩, ⟨ne ?_, ne ?_⟩, ne ?_⟩ <;> split at t1 <;> split at t2 <;> split at t3 <;> omega

theorem find_mem {h : History} {f : FieldNo} {r : FieldRecord} (e : h.find f = some r) : r ∈ h.records ∧ r.number = f :=
  ⟨List.mem_of_find?_eq_some e, by simpa using List.find?_some e⟩

theorem recordBefore_mem {f : FieldNo} {l : List FieldRecord} {a : FieldRecord} (h : recordBefore f l = some a) : a ∈ l := by
  induction l with
  | nil => cases h
  | cons x l ih =>
    cases l with
    | nil => cases h
    | cons y l =>
      unfold recordBefore at h
      split at h
      · cases h; simp
      · exact List.mem_cons_of_mem _ (ih h)

/-- R68: the anchor is a present record. -/
theorem anchorChoice_mem {h : History} {acq : Acquisition} {a : FieldRecord} {d : Bool} (e : h.anchorChoice acq = some (a, d)) :
    a ∈ h.records := by
  unfold History.anchorChoice at e
  split at e
  · cases e
  · split at e
    · cases e
    · next n hn =>
      split at e
      · next b hb =>
        cases e
        exact recordBefore_mem hb
      · cases e
        exact (List.mem_filter.1 (List.mem_of_getLast? hn)).1

/-- The names of a decision. -/
def Decision.names (d : Decision) : List FieldNo := (d.partner.map (fun a => a.field)).toList ++ d.anchor2.toList ++ d.partner2.toList

theorem presentClosed_mem {h : History} {f : FieldNo} (e : h.presentClosed f = true) : ∃ r ∈ h.records, r.number = f := by
  unfold History.presentClosed at e
  split at e
  · next r hr => exact ⟨r, (find_mem hr).1, (find_mem hr).2⟩
  · cases e

/-- R70 to R73: the roles decided for a present anchor name present records, each a different one. -/
theorem decide_carries {h : History} {a : FieldRecord} {o : Override} (ha : a ∈ h.records) (hn : a.number ≠ 0) :
    (a.number :: (h.decide a o).names).Nodup ∧ ∀ f ∈ a.number :: (h.decide a o).names, ∃ r ∈ h.records, r.number = f := by
  have spatial : (a.number :: Decision.spatial.names).Nodup ∧ ∀ f ∈ a.number :: Decision.spatial.names, ∃ r ∈ h.records, r.number = f := by
    refine ⟨by simp [Decision.names, Decision.spatial], ?_⟩
    intro f hf
    simp only [Decision.names, Decision.spatial, Option.map_none, Option.toList_none, List.append_nil, List.mem_singleton] at hf
    exact ⟨a, ha, hf.symm⟩
  unfold History.decide
  split
  · exact spatial
  · split
    · next p hp =>
      have hw : h.weavePartner a = some p := by
        split at hp
        · exact hp
        · cases hp
      have hpp : (p.field = FieldNo.succ a.number ∨ p.field = FieldNo.pred a.number) ∧ ∃ r ∈ h.records, r.number = p.field := by
        unfold History.weavePartner at hw
        split at hw
        · cases hw
        · split at hw
          · cases hw
          · next after wanted _ =>
            have hnum : (if after = true then FieldNo.succ a.number else FieldNo.pred a.number) = FieldNo.succ a.number ∨
                (if after = true then FieldNo.succ a.number else FieldNo.pred a.number) = FieldNo.pred a.number := by
              split
              · exact .inl rfl
              · exact .inr rfl
            simp only at hw
            generalize (if after = true then FieldNo.succ a.number else FieldNo.pred a.number) = num at hw hnum
            split at hw
            · cases hw
            · next q hq =>
              obtain ⟨_, e⟩ := Option.ite_none_right_eq_some.1 hw
              cases e
              exact ⟨hnum, ⟨q, (find_mem hq).1, (find_mem hq).2⟩⟩
      have hne : p.field ≠ a.number := by
        rcases hpp.1 with e | e <;> rw [e]
        · exact FieldNo.succ_ne _
        · exact FieldNo.pred_ne _
      refine ⟨by simp [Decision.names, Ne.symm hne], ?_⟩
      intro f hf
      simp only [Decision.names, Option.map_some, Option.toList_some, Option.toList_none, List.append_nil, List.mem_cons,
        List.not_mem_nil, or_false] at hf
      rcases hf with rfl | rfl
      · exact ⟨a, ha, rfl⟩
      · exact hpp.2
    · split
      · next hb =>
        have hd := FieldNo.preds_apart hn
        have h1 : ∃ r ∈ h.records, r.number = FieldNo.pred a.number := by
          unfold History.blends at hb
          split at hb
          · next q hq => exact ⟨q, (find_mem hq).1, (find_mem hq).2⟩
          · cases hb
        have sub : (a.number :: (h.blendDecision a).names).Sublist
            [a.number, FieldNo.pred a.number, FieldNo.pred (FieldNo.pred a.number), FieldNo.pred (FieldNo.pred (FieldNo.pred a.number))] := by
          simp only [Decision.names, History.blendDecision, Option.map_some, Option.toList_some]
          refine List.Sublist.cons_cons _ (List.Sublist.cons_cons _ ?_)
          split <;> split <;> simp
        refine ⟨sub.nodup hd, ?_⟩
        intro f hf
        simp only [Decision.names, History.blendDecision, Option.map_some, Option.toList_some, List.mem_cons, List.cons_append,
          List.nil_append, List.mem_append] at hf
        rcases hf with rfl | rfl | hf | hf
        · exact ⟨a, ha, rfl⟩
        · exact h1
        · split at hf
          · next c =>
            simp only [Option.toList_some, List.mem_singleton] at hf
            rw [hf]
            simp only [Bool.and_eq_true] at c
            exact presentClosed_mem c.1
          · cases hf
        · split at hf
          · next c =>
            simp only [Option.toList_some, List.mem_singleton] at hf
            rw [hf]
            simp only [Bool.and_eq_true] at c
            exact presentClosed_mem c.1
          · cases hf
      · exact spatial

/-- R63, R65: the plan of a frame start names present records, each a different one. -/
theorem chooseFrame_carries {s : State} (g : OutputGroup) (h : ∀ r ∈ s.history.records, r.number ≠ 0) :
    s.history.carries (s.chooseFrame g).plan := by
  unfold State.chooseFrame
  split
  · exact ⟨List.nodup_nil, fun f hf => by cases hf⟩
  · next a decided ha =>
    have hm := anchorChoice_mem ha
    have spatial : ∀ d : Decision, d = Decision.spatial → (a.number :: d.names).Nodup ∧ ∀ f ∈ a.number :: d.names, ∃ r ∈ s.history.records, r.number = f := by
      rintro d rfl
      refine ⟨by simp [Decision.names, Decision.spatial], ?_⟩
      intro f hf
      simp only [Decision.names, Decision.spatial, Option.map_none, Option.toList_none, List.append_nil, List.mem_singleton] at hf
      exact ⟨a, hm, hf.symm⟩
    have key : ∀ d : Decision, d = (if decided = true then s.history.decide a g.override else Decision.spatial) →
        (a.number :: d.names).Nodup ∧ ∀ f ∈ a.number :: d.names, ∃ r ∈ s.history.records, r.number = f := by
      intro d hd
      split at hd
      · rw [hd]; exact decide_carries hm (h a hm)
      · exact spatial d hd
    have h1 := key _ rfl
    have e : ∀ p : Plan, p.anchor = some { field := a.number, slot := a.slot, parity := a.parity } →
        p.partner = (if decided = true then s.history.decide a g.override else Decision.spatial).partner →
        p.anchor2 = (if decided = true then s.history.decide a g.override else Decision.spatial).anchor2 →
        p.partner2 = (if decided = true then s.history.decide a g.override else Decision.spatial).partner2 →
        p.names = a.number :: (if decided = true then s.history.decide a g.override else Decision.spatial).names := by
      intro p p1 p2 p3 p4
      simp [Plan.names, Decision.names, p1, p2, p3, p4]
    unfold History.carries
    rw [e _ rfl rfl rfl rfl]
    exact h1

/-- R65: a frame start keeps the laws. -/
theorem HistoryKeeps.enterFrame (offset : Nat) (s : State) : HistoryKeeps s (Machine.enterFrame offset s) := by
  have hl : ∀ s, HistoryKeeps s (loadAtFrame s) := by
    intro s
    unfold loadAtFrame
    split
    · exact .loadOutput s
    · exact .refl s
  have hb : ∀ g s, HistoryKeeps s (beginFrame g s) := by
    intro g s
    have hh : (beginFrame g s).history = s.history.reference (some (s.chooseFrame g).plan) := by simp [beginFrame]
    refine ⟨fun k => ?_, by rw [hh]; rfl, ?_⟩
    · have hp : (beginFrame g s).planner.plan = some (s.chooseFrame g).plan := by simp [beginFrame]
      have hi : (beginFrame g s).settings = s.settings := by simp [beginFrame]
      rw [historyOk_iff] at k ⊢
      rw [hh, hp, hi]
      refine History.ok.reference k.lawful ?_
      intro y hy
      cases hy
      exact chooseFrame_carries g k.lawful.numbered.2
    · intro q hq
      rw [hh] at hq
      obtain ⟨w, hw, rfl⟩ := List.mem_map.1 hq
      exact ⟨w, hw, rfl⟩
  have hm : ∀ s, HistoryKeeps s (markRow offset s) := by
    intro s
    unfold markRow
    split
    · exact .refl s
    · split
      · exact .of rfl rfl rfl
      · exact .refl s
  unfold Machine.enterFrame
  refine HistoryKeeps.trans ?_ (hm _)
  split
  · unfold frameStart
    simp only
    split
    · exact (hl s).trans (hb _ _)
    · exact hl s
  · exact .refl s

end Sys2Proof.Machine
end

