-- ==== Sys2Proof/Laws/HistorySteps.lean ====
section
/-! SUPPORT. The laws of the field history and of the plan across the operations that the commands are made of (R25, R31, R63). -/

namespace Sys2Proof.Machine

open Host (Outcome)

/-- Every next state that an outcome is has a property. -/
abbrev EveryNext (o : Outcome State Fault Refusal) (p : State → Prop) : Prop := ∀ t, o = .next t → p t

/-- A next state with the property. -/
theorem EveryNext.next {s : State} {p : State → Prop} (h : p s) : EveryNext (.next s) p := by intro t e; cases e; exact h

/-- A change of a port. -/
theorem setPort_keepsHistory (port : Port) (p : PortState) (s : State) : HistoryKeeps s (s.setPort port p) := by cases port <;> exact .of rfl rfl rfl

/-- A refusal (R146). -/
theorem refuseRequest_keepsHistory (port : Port) (turn : QueuePosition → Bool) (r : Request) (reason : Reason) (s : State) : HistoryKeeps s (refuseRequest port turn r reason s) := by
  cases port <;> exact .of rfl rfl rfl

/-- A request that passes (R147). -/
theorem passRequest_keepsHistory (port : Port) (turn : QueuePosition → Bool) (r : Request) (ws : List WriteWord) (s : State) : HistoryKeeps s (passRequest port turn r ws s) := by
  cases port <;> exact .of rfl rfl rfl

/-- A take on the capture port, where the next field number is free (R25). -/
theorem takeCapture_historyOk (r : Request) {s : State} (h : s.historyOk) (hf : s.numberFree) : (takeCapture r s).historyOk := by
  unfold takeCapture; split
  · exact (refuseRequest_keepsHistory _ _ _ _ _).ok h
  · exact (passRequest_keepsHistory _ _ _ _ _).ok h
  · have := monitorWrite_ok (r := r) h hf
    unfold finishMonitorWrite; split
    · exact (refuseRequest_keepsHistory _ _ _ _ _).ok this
    · exact (passRequest_keepsHistory _ _ _ _ _).ok this
  · exact h
  · exact h

/-- A take on the system port. -/
theorem takeSystem_keepsHistory (r : Request) (s : State) : HistoryKeeps s (takeSystem r s) := by
  unfold takeSystem; split
  · exact refuseRequest_keepsHistory _ _ _ _ _
  · exact passRequest_keepsHistory _ _ _ _ _
  · split
    · exact .of rfl rfl rfl
    · exact .refl s
  · exact .refl s
  · exact .refl s

/-- The take of an output read. -/
theorem takeOutputRead_keepsHistory (r : Request) (s : State) : EveryNext (takeOutputRead r s) (HistoryKeeps s) := by
  unfold takeOutputRead; split
  · next x hx =>
    apply EveryNext.next
    unfold takeOutput at hx; simp only at hx
    split at hx
    · cases hx
    · cases hx
      exact (HistoryKeeps.enterFrame _ s).trans (.of rfl rfl rfl)
  · intro t e; cases e

/-- A control-page write. -/
theorem takePageWrite_keepsHistory (r : Request) (s : State) : HistoryKeeps s (takePageWrite r s) := by
  unfold takePageWrite settingsWrite
  have h1 := passRequest_keepsHistory .system s.systemTurn r (writeWords r) s
  generalize passRequest .system s.systemTurn r (writeWords r) s = p at h1
  generalize pageWords s.pageBase r = ws
  refine h1.trans ?_
  have h3 : HistoryKeeps p (actImmediate ws { p with settings := p.settings.write ws }) := by
    unfold actImmediate
    have q1 : ∀ x : State, HistoryKeeps x (if touches ws 4 8 then actClear x else x) := by
      intro x; split <;> exact .of rfl rfl rfl
    have q2 : ∀ x : State, HistoryKeeps x (if touches ws 8 0xC then actReadIndex x else x) := by
      intro x; split <;> exact .of rfl rfl rfl
    have q3 : ∀ x : State, HistoryKeeps x (if touches ws 0xC 0x10 then actMask x else x) := by
      intro x; split <;> exact .of rfl rfl rfl
    have q0 : HistoryKeeps p { p with settings := p.settings.write ws } := .of rfl rfl rfl
    exact q0.trans ((q1 _).trans ((q2 _).trans (q3 _)))
  refine h3.trans ?_
  unfold actHold; split
  · exact .holdRelease _
  · exact .refl _

/-- A row of the control-page writes. -/
theorem takePageRow_keepsHistory (row : List PageWord → Settings → Bool) (s : State) : EveryNext (takePageRow row s) (HistoryKeeps s) := by
  unfold takePageRow; split
  · split
    · exact EveryNext.next (takePageWrite_keepsHistory _ s)
    · exact EveryNext.next (.refl s)
  · exact EveryNext.next (.refl s)

/-- A grant whose action keeps the laws. -/
theorem grantTo_keepsHistory (r : Requester) (us : List Upset) (act : State → State) (s : State)
   (k : ∀ u : State, HistoryKeeps u (act u)) : EveryNext (grantTo r us act s) (HistoryKeeps s) := by
  unfold grantTo; split
  · refine EveryNext.next (HistoryKeeps.trans ?_ (k _)); exact .of rfl rfl rfl
  · exact EveryNext.next (.refl s)

/-- The report of check errors (R155). -/
theorem raiseChecks_keepsHistory (r : Requester) (x : Transfer) (a : Nat) (cs : List CheckResult) (s : State) : HistoryKeeps s (raiseChecks r x a cs s) := by
  unfold raiseChecks; simp only
  split
  · exact .of rfl rfl rfl
  · split <;> exact .of rfl rfl rfl

/-- A grant to a port. -/
theorem grantPort_keepsHistory (port : Port) (rq : Requester) (s : State) : HistoryKeeps s (grantPort port rq s) := by
  unfold grantPort; split
  · exact .refl s
  · split
    · unfold grantWrite
      refine HistoryKeeps.trans ?_ (raiseChecks_keepsHistory _ _ _ _ _)
      cases port <;> exact .of rfl rfl rfl
    · unfold grantRead
      refine HistoryKeeps.trans ?_ (raiseChecks_keepsHistory _ _ _ _ _)
      cases port <;> exact .of rfl rfl rfl
    all_goals exact .refl s

/-- A grant to REPORT. -/
theorem grantReport_keepsHistory (c : ReportChoice) (act : State → State) (s : State)
   (k : ∀ u : State, HistoryKeeps u (act u)) : EveryNext (grantReport c act s) (HistoryKeeps s) := by
  unfold grantReport; split
  · exact grantTo_keepsHistory _ _ _ s k
  · exact EveryNext.next (.refl s)

/-- The return of a reload burst (R172). -/
theorem returnReload_keepsHistory (s : State) : HistoryKeeps s (returnReload s) := by
  unfold returnReload; split
  · split
    · exact .refl s
    · simp only; split
      · unfold reloadEnd; simp only; split
        · refine HistoryKeeps.trans ?_ (.holdRelease _); exact .of rfl rfl rfl
        · exact .of rfl rfl rfl
      · exact .of rfl rfl rfl
  · exact .refl s
  · exact .refl s

/-- The grant of a reload burst (R172). -/
theorem grantReload_keepsHistory (s : State) : HistoryKeeps s (grantReload s) := by
  unfold grantReload; split
  · split
    · refine HistoryKeeps.trans ?_ (raiseChecks_keepsHistory _ _ _ _ _); exact .of rfl rfl rfl
    · exact .refl s
  · exact .refl s
  · exact .refl s

/-- A tick. -/
theorem tick_keepsHistory (s : State) : HistoryKeeps s (tick s) := by
  have h1 : HistoryKeeps s (tickStall s) := by
    unfold tickStall; split
    · split
      · exact .expireStall s
      · exact .of rfl rfl rfl
    · exact .refl s
  have h2 : ∀ u, HistoryKeeps u (expireInterval u) := fun u => HistoryKeeps.trans (t := { u with memPort := { u.memPort with intervalCount := 0 } }) (.of rfl rfl rfl) (.refreshAddition _)
  refine h1.trans ?_
  unfold tick tickInterval; split
  · exact .refl _
  · split
    · exact h2 _
    · exact .of rfl rfl rfl

/-- An empty history with no plan has the laws (R36). -/
theorem historyOk_empty {s : State} (hh : s.history = History.reset) (hp : s.planner.plan = none) : s.historyOk := by
  rw [historyOk_iff, hh, hp]
  exact History.ok.empty (h := History.reset) (by decide)

end Sys2Proof.Machine
end

