-- ==== Sys2Proof/Laws/Sparse.lean ====
section
/-! SUPPORT. The sparse lists: reading back what was set, and the canonical form. -/

namespace Sys2Proof.Machine

/-- A list in canonical form without its first entry is in canonical form. -/
theorem sparseWf_tail {α : Type} [DecidableEq α] {d : α} {p : Nat × α} {l : List (Nat × α)} (h : sparseWf d (p :: l)) : sparseWf d l :=
  ⟨(List.pairwise_cons.mp h.1).2, fun q hq => h.2 q (List.mem_cons_of_mem p hq)⟩

/-- Every key of a canonical list after its first entry is above the first key. -/
theorem sparseWf_head {α : Type} [DecidableEq α] {d : α} {p : Nat × α} {l : List (Nat × α)} (h : sparseWf d (p :: l)) : ∀ q ∈ l, p.1 < q.1 :=
  (List.pairwise_cons.mp h.1).1

/-- The empty list is in canonical form. -/
theorem sparseWf_nil {α : Type} [DecidableEq α] (d : α) : sparseWf d ([] : List (Nat × α)) := ⟨List.Pairwise.nil, by simp⟩

/-- A key below every listed key reads as unlisted. -/
theorem sparseGet_below {α : Type} {d : α} {l : List (Nat × α)} {a : Nat} (h : ∀ p ∈ l, a < p.1) : sparseGet d l a = d := by
  induction l with
  | nil => rfl
  | cons p l ih =>
    have hp := h p (by simp)
    simp only [sparseGet]
    rw [if_neg (by omega)]
    exact ih (fun q hq => h q (by simp [hq]))

/-- What a set writes is listed at its own key or was listed before. -/
theorem mem_sparseSet {α : Type} [DecidableEq α] {d : α} {l : List (Nat × α)} {a : Nat} {v : α} {p : Nat × α} (h : p ∈ sparseSet d l a v) :
    p = (a, v) ∧ v ≠ d ∨ p ∈ l := by
  induction l with
  | nil =>
    unfold sparseSet at h
    split at h
    · simp at h
    · rename_i hv
      left
      exact ⟨by simpa using h, hv⟩
  | cons q l ih =>
    obtain ⟨k, w⟩ := q
    simp only [sparseSet] at h
    split at h
    · split at h
      · exact Or.inr h
      · rename_i hv
        rcases List.mem_cons.mp h with h | h
        · exact Or.inl ⟨h, hv⟩
        · exact Or.inr h
    · split at h
      · split at h
        · exact Or.inr (List.mem_cons_of_mem _ h)
        · rename_i hv
          rcases List.mem_cons.mp h with h | h
          · exact Or.inl ⟨h, hv⟩
          · exact Or.inr (List.mem_cons_of_mem _ h)
      · rcases List.mem_cons.mp h with h | h
        · exact Or.inr (h ▸ List.mem_cons_self)
        · rcases ih h with h | h
          · exact Or.inl h
          · exact Or.inr (List.mem_cons_of_mem _ h)

/-- A set keeps the canonical form. -/
theorem sparseSet_wf {α : Type} [DecidableEq α] {d : α} {l : List (Nat × α)} (a : Nat) (v : α) (h : sparseWf d l) : sparseWf d (sparseSet d l a v) := by
  induction l with
  | nil =>
    unfold sparseSet
    split
    · exact sparseWf_nil d
    · rename_i hv
      exact ⟨by simp, by simpa using hv⟩
  | cons q l ih =>
    obtain ⟨k, w⟩ := q
    have ht := sparseWf_tail h
    have hh := sparseWf_head h
    have hw : w ≠ d := h.2 (k, w) (by simp)
    simp only [sparseSet]
    split
    · rename_i hak
      split
      · exact h
      · rename_i hv
        refine ⟨List.pairwise_cons.mpr ⟨?_, h.1⟩, ?_⟩
        · intro p hp
          rcases List.mem_cons.mp hp with rfl | hp
          · exact hak
          · exact Nat.lt_trans hak (hh p hp)
        · intro p hp
          rcases List.mem_cons.mp hp with rfl | hp
          · exact hv
          · exact h.2 p hp
    · rename_i hak
      split
      · rename_i hk
        split
        · exact ht
        · rename_i hv
          refine ⟨List.pairwise_cons.mpr ⟨?_, ht.1⟩, ?_⟩
          · intro p hp
            have := hh p hp
            simp only at *
            omega
          · intro p hp
            rcases List.mem_cons.mp hp with rfl | hp
            · exact hv
            · exact ht.2 p hp
      · rename_i hk
        have hs := ih ht
        refine ⟨List.pairwise_cons.mpr ⟨?_, hs.1⟩, ?_⟩
        · intro p hp
          rcases mem_sparseSet hp with ⟨rfl, _⟩ | hp
          · simp only
            omega
          · exact hh p hp
        · intro p hp
          rcases List.mem_cons.mp hp with rfl | hp
          · exact hw
          · exact hs.2 p hp

/-- What a canonical list holds after a set. -/
theorem sparseGet_set {α : Type} [DecidableEq α] {d : α} {l : List (Nat × α)} (a : Nat) (v : α) (b : Nat) (h : sparseWf d l) :
    sparseGet d (sparseSet d l a v) b = if b = a then v else sparseGet d l b := by
  induction l with
  | nil =>
    unfold sparseSet
    split
    · rename_i hv
      simp [sparseGet, hv]
    · simp [sparseGet]
  | cons q l ih =>
    obtain ⟨k, w⟩ := q
    have ht := sparseWf_tail h
    have hh := sparseWf_head h
    simp only [sparseSet]
    split
    · rename_i hak
      have below : sparseGet d ((k, w) :: l) a = d := sparseGet_below (by
        intro p hp
        rcases List.mem_cons.mp hp with rfl | hp
        · exact hak
        · exact Nat.lt_trans hak (hh p hp))
      split
      · rename_i hv
        split
        · rename_i hb
          rw [hb, below, hv]
        · rfl
      · simp only [sparseGet]
    · rename_i hak
      split
      · rename_i hk
        split
        · rename_i hv
          by_cases hb : b = a
          · rw [if_pos hb, hb, hv]
            exact sparseGet_below (by
              intro p hp
              have := hh p hp
              simp only at this
              omega)
          · rw [if_neg hb]
            simp only [sparseGet]
            rw [if_neg (by omega)]
        · by_cases hb : b = a
          · simp [sparseGet, hb]
          · simp only [sparseGet]
            rw [if_neg hb, if_neg hb, if_neg (by omega)]
      · rename_i hk
        simp only [sparseGet]
        by_cases hbk : b = k
        · rw [if_pos hbk, if_pos hbk, if_neg (by omega)]
        · rw [if_neg hbk, if_neg hbk]
          exact ih ht

end Sys2Proof.Machine
end

