-- ==== Sys2Proof/Laws/Memory.lean ====
section
/-! SUPPORT. DRAM: every operation keeps the canonical form, and what a byte reads as after each of them. -/

namespace Sys2Proof.Machine

/-- DRAM that lists nothing is in canonical form. -/
theorem Memory.empty_wf : Memory.wf { bytes := [], flips := [] } := ⟨sparseWf_nil _, sparseWf_nil _⟩

/-- A stored word keeps the canonical form. -/
theorem Memory.writeRaw_wf {m : Memory} (i : Nat) (w : Word) (h : m.wf) : (m.writeRaw i w).wf :=
  ⟨sparseSet_wf _ _ (sparseSet_wf _ _ (sparseSet_wf _ _ (sparseSet_wf _ _ h.1))), h.2⟩

/-- A coded word keeps the canonical form. -/
theorem Memory.writeCoded_wf {m : Memory} (i : Nat) (w : Word) (h : m.wf) : (m.writeCoded i w).wf :=
  ⟨(Memory.writeRaw_wf i w h).1, sparseSet_wf _ _ h.2⟩

/-- R154: a word of a write burst keeps the canonical form. -/
theorem Memory.writeWord_wf {m : Memory} (i : Nat) (w : WriteWord) (h : m.wf) : (m.writeWord i w).1.wf := by
  unfold Memory.writeWord
  split
  · exact Memory.writeCoded_wf i w.data h
  · split
    · exact h
    · split
      · exact h
      · exact Memory.writeCoded_wf i _ h

/-- A write burst keeps the canonical form. -/
theorem Memory.writeBurst_wf {m : Memory} (i : Nat) (ws : List WriteWord) (h : m.wf) : (m.writeBurst i ws).1.wf := by
  induction ws generalizing m i with
  | nil => exact h
  | cons w ws ih => exact ih (i + 1) (Memory.writeWord_wf i w h)

/-- A burst of whole words keeps the canonical form. -/
theorem Memory.writeWhole_wf {m : Memory} (i : Nat) (ws : List Word) (h : m.wf) : (m.writeWhole i ws).wf := by
  induction ws generalizing m i with
  | nil => exact h
  | cons w ws ih => exact ih (i + 1) (Memory.writeCoded_wf i w h)

/-- A disturbance keeps the canonical form. -/
theorem Memory.disturb_wf {m : Memory} (u : Upset) (h : m.wf) : (m.disturb u).wf :=
  ⟨(Memory.writeRaw_wf _ _ h).1, sparseSet_wf _ _ h.2⟩

/-- Disturbances keep the canonical form. -/
theorem Memory.disturbAll_wf {m : Memory} (us : List Upset) (h : m.wf) : (m.disturbAll us).wf := by
  induction us generalizing m with
  | nil => exact h
  | cons u us ih => exact ih (Memory.disturb_wf u h)

/-- A byte after a stored word: one of the word's four bytes at its own addresses, else as before. -/
theorem Memory.readByte_writeRaw {m : Memory} (i : Nat) (w : Word) (a : Nat) (h : m.wf) :
    (m.writeRaw i w).readByte a =
      if a = 4 * i + 3 then w.extractLsb' 24 8
      else if a = 4 * i + 2 then w.extractLsb' 16 8
      else if a = 4 * i + 1 then w.extractLsb' 8 8
      else if a = 4 * i then w.extractLsb' 0 8
      else m.readByte a := by
  have h0 := h.1
  have h1 := sparseSet_wf (4 * i) (w.extractLsb' 0 8) h0
  have h2 := sparseSet_wf (4 * i + 1) (w.extractLsb' 8 8) h1
  have h3 := sparseSet_wf (4 * i + 2) (w.extractLsb' 16 8) h2
  simp only [Memory.readByte, Memory.writeRaw]
  rw [sparseGet_set _ _ _ h3, sparseGet_set _ _ _ h2, sparseGet_set _ _ _ h1, sparseGet_set _ _ _ h0]

/-- A byte outside a stored word is as before. -/
theorem Memory.readByte_writeRaw_of_outside {m : Memory} (i : Nat) (w : Word) (a : Nat) (h : m.wf)
    (ha : a < 4 * i ∨ 4 * i + 4 ≤ a) : (m.writeRaw i w).readByte a = m.readByte a := by
  rw [Memory.readByte_writeRaw i w a h]
  rw [if_neg (by omega), if_neg (by omega), if_neg (by omega), if_neg (by omega)]

/-- A byte outside a coded word is as before. -/
theorem Memory.readByte_writeCoded_of_outside {m : Memory} (i : Nat) (w : Word) (a : Nat) (h : m.wf)
    (ha : a < 4 * i ∨ 4 * i + 4 ≤ a) : (m.writeCoded i w).readByte a = m.readByte a :=
  Memory.readByte_writeRaw_of_outside i w a h ha

/-- A word read back after it was stored. -/
theorem Memory.readRaw_writeRaw {m : Memory} (i : Nat) (w : Word) (h : m.wf) : (m.writeRaw i w).readRaw i = w := by
  unfold Memory.readRaw
  rw [Memory.readByte_writeRaw i w _ h, Memory.readByte_writeRaw i w _ h, Memory.readByte_writeRaw i w _ h,
    Memory.readByte_writeRaw i w _ h]
  rw [if_pos rfl, if_neg (by omega), if_pos rfl, if_neg (by omega), if_neg (by omega), if_pos rfl, if_neg (by omega),
    if_neg (by omega), if_neg (by omega), if_pos rfl]
  apply BitVec.eq_of_getLsbD_eq
  intro j hj
  simp only [BitVec.getLsbD_append, BitVec.getLsbD_extractLsb']
  rcases Nat.lt_or_ge j 8 with h8 | h8
  · simp [h8]
  · rcases Nat.lt_or_ge j 16 with h16 | h16
    · have e : 8 + (j - 8) = j := by omega
      simp [show ¬ j < 8 by omega, show j - 8 < 8 by omega, e]
    · rcases Nat.lt_or_ge j 24 with h24 | h24
      · have e : 16 + (j - 16) = j := by omega
        simp [show ¬ j < 8 by omega, show ¬ j - 8 < 8 by omega, show j - 16 < 8 by omega, e, Nat.sub_sub]
      · have e : 24 + (j - 24) = j := by omega
        simp [show ¬ j < 8 by omega, show ¬ j - 8 < 8 by omega, show ¬ j - 16 < 8 by omega, show j - 24 < 8 by omega, e,
          Nat.sub_sub]

/-- Another word is not changed by a stored word. -/
theorem Memory.readRaw_writeRaw_of_ne {m : Memory} (i j : Nat) (w : Word) (h : m.wf) (hij : j ≠ i) :
    (m.writeRaw i w).readRaw j = m.readRaw j := by
  unfold Memory.readRaw
  rw [Memory.readByte_writeRaw_of_outside i w _ h (by omega), Memory.readByte_writeRaw_of_outside i w _ h (by omega),
    Memory.readByte_writeRaw_of_outside i w _ h (by omega), Memory.readByte_writeRaw_of_outside i w _ h (by omega)]

/-- A word written with its check code reads back clean. -/
theorem Memory.readChecked_writeCoded {m : Memory} (i : Nat) (w : Word) (h : m.wf) :
    (m.writeCoded i w).readChecked i = (w, .clean) := by
  have hf : (m.writeCoded i w).flipsAt i = 0 := by
    simp only [Memory.flipsAt, Memory.writeCoded]
    rw [sparseGet_set _ _ _ h.2, if_pos rfl]
  have hr : (m.writeCoded i w).readRaw i = w := Memory.readRaw_writeRaw i w h
  unfold Memory.readChecked
  simp only [hf, hr, if_true]

/-- Another word reads as before a coded write. -/
theorem Memory.readChecked_writeCoded_of_ne {m : Memory} (i j : Nat) (w : Word) (h : m.wf) (hij : j ≠ i) :
    (m.writeCoded i w).readChecked j = m.readChecked j := by
  have hf : (m.writeCoded i w).flipsAt j = m.flipsAt j := by
    simp only [Memory.flipsAt, Memory.writeCoded]
    rw [sparseGet_set _ _ _ h.2, if_neg hij]
  have hr : (m.writeCoded i w).readRaw j = m.readRaw j := Memory.readRaw_writeRaw_of_ne i j w h hij
  unfold Memory.readChecked
  simp only [hf, hr]

/-- R154: a byte outside the word a write names is as before. -/
theorem Memory.readByte_writeWord_of_outside {m : Memory} (i : Nat) (w : WriteWord) (a : Nat) (h : m.wf)
    (ha : a < 4 * i ∨ 4 * i + 4 ≤ a) : (m.writeWord i w).1.readByte a = m.readByte a := by
  unfold Memory.writeWord
  split
  · exact Memory.readByte_writeCoded_of_outside i _ a h ha
  · split
    · rfl
    · split
      · rfl
      · exact Memory.readByte_writeCoded_of_outside i _ a h ha

/-- A byte outside a write burst is as before. -/
theorem Memory.readByte_writeBurst_of_outside {m : Memory} (i : Nat) (ws : List WriteWord) (a : Nat) (h : m.wf)
    (ha : a < 4 * i ∨ 4 * (i + ws.length) ≤ a) : (m.writeBurst i ws).1.readByte a = m.readByte a := by
  induction ws generalizing m i with
  | nil => rfl
  | cons w ws ih =>
    simp only [List.length_cons] at ha
    simp only [Memory.writeBurst]
    rw [ih (i + 1) (Memory.writeWord_wf i w h) (by omega)]
    exact Memory.readByte_writeWord_of_outside i w a h (by omega)

/-- A byte outside a burst of whole words is as before. -/
theorem Memory.readByte_writeWhole_of_outside {m : Memory} (i : Nat) (ws : List Word) (a : Nat) (h : m.wf)
    (ha : a < 4 * i ∨ 4 * (i + ws.length) ≤ a) : (m.writeWhole i ws).readByte a = m.readByte a := by
  induction ws generalizing m i with
  | nil => rfl
  | cons w ws ih =>
    simp only [List.length_cons] at ha
    simp only [Memory.writeWhole]
    rw [ih (i + 1) (Memory.writeCoded_wf i w h) (by omega)]
    exact Memory.readByte_writeCoded_of_outside i w a h (by omega)

/-- A word above or below a burst of whole words reads as before. -/
theorem Memory.readChecked_writeWhole_of_outside {m : Memory} (i : Nat) (ws : List Word) (j : Nat) (h : m.wf)
    (hj : j < i ∨ i + ws.length ≤ j) : (m.writeWhole i ws).readChecked j = m.readChecked j := by
  induction ws generalizing m i with
  | nil => rfl
  | cons w ws ih =>
    simp only [List.length_cons] at hj
    simp only [Memory.writeWhole]
    rw [ih (i + 1) (Memory.writeCoded_wf i w h) (by omega)]
    exact Memory.readChecked_writeCoded_of_ne i j w h (by omega)

/-- A burst of whole words reads back word for word. -/
theorem Memory.readChecked_writeWhole {m : Memory} (i : Nat) (ws : List Word) (k : Nat) (h : m.wf) (hk : k < ws.length) :
    (m.writeWhole i ws).readChecked (i + k) = (ws.getD k 0, .clean) := by
  induction ws generalizing m i k with
  | nil => simp at hk
  | cons w ws ih =>
    simp only [Memory.writeWhole]
    cases k with
    | zero =>
      rw [Memory.readChecked_writeWhole_of_outside _ _ _ (Memory.writeCoded_wf i w h) (by omega)]
      simpa using Memory.readChecked_writeCoded i w h
    | succ k =>
      have := ih (i + 1) k (Memory.writeCoded_wf i w h) (by simpa using hk)
      rw [show i + (k + 1) = i + 1 + k by omega, this]
      simp

/-- The words of a write burst's length are its check results. -/
theorem Memory.writeBurst_length {m : Memory} (i : Nat) (ws : List WriteWord) : (m.writeBurst i ws).2.length = ws.length := by
  induction ws generalizing m i with
  | nil => rfl
  | cons w ws ih => simp [Memory.writeBurst, ih]

/-! ### Disturbances -/

/-- The stored word of a disturbed index. -/
theorem Memory.readRaw_disturb {m : Memory} (i : Nat) (f : Flips) (h : m.wf) :
    (m.disturb { index := i, flips := f }).readRaw i = m.readRaw i ^^^ f.extractLsb' 0 32 :=
  Memory.readRaw_writeRaw i (m.readRaw i ^^^ f.extractLsb' 0 32) h

/-- The flips of a disturbed index. -/
theorem Memory.flipsAt_disturb {m : Memory} (i : Nat) (f : Flips) (h : m.wf) :
    (m.disturb { index := i, flips := f }).flipsAt i = m.flipsAt i ^^^ f := by
  have := sparseGet_set (d := (0 : Flips)) i (m.flipsAt i ^^^ f) i h.2
  rw [if_pos rfl] at this
  exact this

/-- A word just written has no flips. -/
theorem Memory.flipsAt_writeCoded {m : Memory} (i : Nat) (w : Word) (h : m.wf) : (m.writeCoded i w).flipsAt i = 0 := by
  have := sparseGet_set (d := (0 : Flips)) i 0 i h.2
  rw [if_pos rfl] at this
  exact this

/-- The enabled bytes of a merge are the new word's, the others the old one's. -/
theorem mergeBytes_byte (old w : Word) (e : Enables) (i : Nat) (h : i < 4) :
    (mergeBytes old w e).extractLsb' (8 * i) 8 = if e.getLsbD i then w.extractLsb' (8 * i) 8 else old.extractLsb' (8 * i) 8 := by
  have key : ∀ a b c d : Byte, (a ++ b ++ c ++ d).extractLsb' 0 8 = d ∧ (a ++ b ++ c ++ d).extractLsb' 8 8 = c ∧
      (a ++ b ++ c ++ d).extractLsb' 16 8 = b ∧ (a ++ b ++ c ++ d).extractLsb' 24 8 = a := by
    intro a b c d
    refine ⟨?_, ?_, ?_, ?_⟩ <;>
    · apply BitVec.eq_of_getLsbD_eq
      intro j hj
      simp only [BitVec.getLsbD_extractLsb', BitVec.getLsbD_append, hj, decide_true, Bool.true_and]
      repeat' split
      all_goals first
        | omega
        | (congr 1; omega)
  unfold mergeBytes
  have hi : i = 0 ∨ i = 1 ∨ i = 2 ∨ i = 3 := by omega
  rcases hi with rfl | rfl | rfl | rfl
  · exact (key _ _ _ _).1
  · exact (key _ _ _ _).2.1
  · exact (key _ _ _ _).2.2.1
  · exact (key _ _ _ _).2.2.2

end Sys2Proof.Machine
end

