-- ==== Sys2Proof/Laws/BoundsSteps.lean ====
section
/-! SUPPORT. The bounds of the device across the operations that the commands are made of: takes, page writes, grants, returns, resets,
arrivals and withdrawals. -/

namespace Sys2Proof.Machine

open Host (Outcome)

/-- t differs from s by what keeps the bounds: the bus, the conditions, the store, the engines, the records and the windows. -/
abbrev WithinBounds (s t : State) : Prop := KeepsBus s t ∧ Inner s t ∧ (s.enginesOk → t.enginesOk) ∧ ((s.cond.recordsOk → t.cond.recordsOk) ∧ (s.windowsOk → t.windowsOk))

/-- Every change inside a take, a load, an expiry or a tick keeps the bounds. -/
theorem withinBounds_closed : InnerClosed WithinBounds := keepsBus_closed.and (inner_closed.and (engines_closed.and ring_closed))

/-- The bounds across such a change. -/
theorem WithinBounds.ok {s t : State} (k0 : WithinBounds s t) (h : s.boundsOk) : t.boundsOk := by
  obtain ⟨kb, ki, ke, kr, kw⟩ := k0
  obtain ⟨⟨h1, h2⟩, ⟨a1, a2, a3, a4, a5, a6, a7⟩, h4, h5, h6, h7, h8⟩ := h
  refine ⟨⟨?_, ?_⟩, ⟨?_, ?_, ?_, ?_, ?_, ?_, ?_⟩, ?_, ki.cond.ring h5, kr h6, kw h7, ke h8⟩
  · rw [kb.dram]; exact h1
  · rw [ki.copy]; exact h2
  · rw [kb.capture]; exact a1
  · rw [kb.system]; exact a2
  · exact ki.cond.queue a3
  · exact ki.refresh a4
  · rw [ki.starvation]; exact a5
  · exact ki.windows a6
  · rw [ki.store.entries]; exact a7
  · unfold State.countedOk State.counted at *; rw [kb.system]; have := ki.store.withdrawn; omega

/-- The bounds across a change of the ports within their capacities. -/
theorem ports_boundsOk {s t : State} (h : s.boundsOk) (hc : t.capture.queue.length ≤ 16) (hs : t.system.queue.length ≤ 8) (hk : t.counted ≤ 4)
    (he : t.store.entries.length = 64)
    (e : t = { s with capture := t.capture, system := t.system, takes := t.takes, store := t.store, phase := t.phase, pending := t.pending, straps := t.straps }) : t.boundsOk := by
  obtain ⟨⟨h1, h2⟩, ⟨a1, a2, a3, a4, a5, a6, a7⟩, h4, h5, h6, h7, h8⟩ := h
  rw [e]
  rw [e] at hc hs hk he
  exact ⟨⟨h1, h2⟩, ⟨hc, hs, a3, a4, a5, a6, he⟩, hk, h5, h6, h7, h8⟩

/-- The bounds across a change of a port that adds no position and no output read. -/
theorem setPort_boundsOk (port : Port) (p : PortState) {s : State} (h : s.boundsOk) (hl : p.queue.length ≤ (s.port port).queue.length)
   (hc : p.queue.countP (fun q => q.progress.isOutput) ≤ (s.port port).queue.countP (fun q => q.progress.isOutput)) : (s.setPort port p).boundsOk := by
  obtain ⟨⟨h1, h2⟩, ⟨a1, a2, a3, a4, a5, a6, a7⟩, h4, h5, h6, h7, h8⟩ := h
  cases port
  · exact ⟨⟨h1, h2⟩, ⟨Nat.le_trans hl a1, a2, a3, a4, a5, a6, a7⟩, h4, h5, h6, h7, h8⟩
  · refine ⟨⟨h1, h2⟩, ⟨a1, Nat.le_trans hl a2, a3, a4, a5, a6, a7⟩, ?_, h5, h6, h7, h8⟩
    unfold State.countedOk State.counted at *
    simp only [State.setPort, State.port] at *
    omega

/-- A change of a position that makes no output read of another adds none. -/
theorem replaceFirst_outputs (p : QueuePosition → Bool) (f : QueuePosition → Option QueuePosition) (l : List QueuePosition)
   (h : ∀ q x, p q = true → f q = some x → x.progress.isOutput = true → q.progress.isOutput = true) :
   (replaceFirst p f l).countP (fun q => q.progress.isOutput) ≤ l.countP (fun q => q.progress.isOutput) := by
  rcases replaceFirst_cases p f l with e | ⟨b, q, a, e, hp, e2⟩
  · exact Nat.le_of_eq (by rw [e])
  · rw [e2, e]
    simp only [List.countP_append, List.countP_cons]
    cases hf : f q with
    | none => simp
    | some x =>
      simp only [Option.toList_some, List.countP_cons, List.countP_nil]
      have := h q x hp hf
      by_cases hx : x.progress.isOutput = true
      · simp [hx, this hx]; omega
      · simp [hx]

/-- A take adds no position. -/
theorem take_length (p : PortState) (t : QueuePosition → Bool) (f : QueuePosition → Option QueuePosition) (g : BitVec 4) (a : AckBody) : (p.take t f g a).queue.length ≤ p.queue.length := replaceFirst_length _ _ _

/-- A change of a position adds none. -/
theorem replace_length (p : PortState) (t : QueuePosition → Bool) (f : QueuePosition → Option QueuePosition) : (p.replace t f).queue.length ≤ p.queue.length := replaceFirst_length _ _ _

/-- A take that makes no output read adds none. -/
theorem take_outputs (p : PortState) (t : QueuePosition → Bool) (f : QueuePosition → Option QueuePosition) (g : BitVec 4) (a : AckBody) (h : ∀ q x, t q = true → f q = some x → x.progress.isOutput = true → q.progress.isOutput = true) :
  (p.take t f g a).queue.countP (fun q => q.progress.isOutput) ≤ p.queue.countP (fun q => q.progress.isOutput) := replaceFirst_outputs _ _ _ h

/-- A change of a position that makes no output read adds none. -/
theorem replace_outputs (p : PortState) (t : QueuePosition → Bool) (f : QueuePosition → Option QueuePosition) (h : ∀ q x, t q = true → f q = some x → x.progress.isOutput = true → q.progress.isOutput = true) :
  (p.replace t f).queue.countP (fun q => q.progress.isOutput) ≤ p.queue.countP (fun q => q.progress.isOutput) := replaceFirst_outputs _ _ _ h

/-- The count of takes is under no bound. -/
theorem takes_boundsOk {s : State} (n : Nat) (h : s.boundsOk) : ({ s with takes := n } : State).boundsOk := h

/-- The bounds across a condition. -/
theorem raise_boundsOk (c : Condition) {s : State} (h : s.boundsOk) : (raise c s).boundsOk := WithinBounds.ok (withinBounds_closed.raise c s) h

/-- The bounds across a refusal (R146). -/
theorem refuseRequest_boundsOk (port : Port) (turn : QueuePosition → Bool) (r : Request) (reason : Reason) {s : State} (h : s.boundsOk) : (refuseRequest port turn r reason s).boundsOk := by
  unfold refuseRequest
  apply raise_boundsOk
  apply takes_boundsOk
  apply setPort_boundsOk port _ h
  · exact take_length _ _ _ _ _
  · apply take_outputs
    intro q x _ hf hx
    unfold refusedPosition at hf; split at hf
    · cases hf
    · cases hf; cases hx

/-- The bounds across a request that passes (R147). -/
theorem passRequest_boundsOk (port : Port) (turn : QueuePosition → Bool) (r : Request) (ws : List WriteWord) {s : State} (h : s.boundsOk) : (passRequest port turn r ws s).boundsOk := by
  unfold passRequest
  apply takes_boundsOk
  apply setPort_boundsOk port _ h
  · exact take_length _ _ _ _ _
  · apply take_outputs
    intro q x _ hf hx
    unfold becomes at hf; cases hf
    simp only [passedProgress] at hx; split at hx <;> cases hx

/-- The bounds across a take on the capture port. -/
theorem takeCapture_boundsOk (r : Request) {s : State} (h : s.boundsOk) : (takeCapture r s).boundsOk := by
  unfold takeCapture; split
  · exact refuseRequest_boundsOk _ _ _ _ h
  · exact passRequest_boundsOk _ _ _ _ h
  · have := WithinBounds.ok (withinBounds_closed.monitorWrite r s) h
    unfold finishMonitorWrite; split
    · exact refuseRequest_boundsOk _ _ _ _ this
    · exact passRequest_boundsOk _ _ _ _ this
  · exact h
  · exact h

/-- The bounds across a take on the system port. -/
theorem takeSystem_boundsOk (r : Request) {s : State} (h : s.boundsOk) : (takeSystem r s).boundsOk := by
  unfold takeSystem; split
  · exact refuseRequest_boundsOk _ _ _ _ h
  · exact passRequest_boundsOk _ _ _ _ h
  · split
    · refine setPort_boundsOk .system (s.system.replace s.systemTurn (becomes .held)) h (replace_length _ _ _) (replace_outputs _ _ _ ?_)
      intro q x _ hf hx; cases hf; cases hx
    · exact h
  · exact h
  · exact h

/-- A change of a position adds one output read at most. -/
theorem replaceFirst_outputs_one (p : QueuePosition → Bool) (f : QueuePosition → Option QueuePosition) (l : List QueuePosition) :
   (replaceFirst p f l).countP (fun q => q.progress.isOutput) ≤ l.countP (fun q => q.progress.isOutput) + 1 := by
  rcases replaceFirst_cases p f l with e | ⟨b, q, a, e, hp, e2⟩
  · rw [e]; omega
  · rw [e2, e]; simp only [List.countP_append, List.countP_cons]
    cases f q
    · simp only [Option.toList_none, List.countP_nil]; omega
    · simp only [Option.toList_some, List.countP_cons, List.countP_nil]; split <;> split <;> omega

/-- R129: the bounds across the take of an output read below the limit. -/
theorem takeOutputRead_boundsOk (r : Request) {s : State} (h : s.boundsOk) (hm : s.mustHold = false) : EveryNext (takeOutputRead r s) State.boundsOk := by
  unfold takeOutputRead; split
  · next x hx =>
    apply EveryNext.next
    unfold takeOutput at hx; simp only at hx
    split at hx
    · cases hx
    · next st need hst =>
      cases hx
      have k := withinBounds_closed.enterFrame (s.outputOffset r) s
      have ho := WithinBounds.ok k h
      have ke := takeLines_keeps hst
      have kb := k.1
      have hcount : s.counted < 4 := by
        unfold State.mustHold State.heldTurn at hm
        simp at hm
        by_cases hc : s.counted < Config.outputLimit
        · exact hc
        · have : Config.outputLimit ≤ s.counted := Nat.le_of_not_lt hc
          omega
      unfold placeOutput
      refine ports_boundsOk ho ?_ ?_ ?_ ?_ rfl
      · exact ho.2.1.1
      · exact Nat.le_trans (take_length _ _ _ _ _) ho.2.1.2.1
      · unfold State.counted at *
        have kw := k.2.1.store.withdrawn
        have kw2 := ke.withdrawn
        simp only [PortState.take, PortState.replace, PortState.acknowledge]
        rw [kb.system]
        refine Nat.le_trans (Nat.add_le_add (replaceFirst_outputs_one s.systemTurn _ s.system.queue) kw2) ?_
        omega
      · rw [show (64:Nat) = Config.storeEntries from rfl]; rw [← ho.2.1.2.2.2.2.2.2]; exact ke.entries
  · intro t e; cases e

/-- The bounds across a control-page write. -/
theorem takePageWrite_boundsOk (r : Request) {s : State} (h : s.boundsOk) : (takePageWrite r s).boundsOk := by
  unfold takePageWrite
  have h1 := passRequest_boundsOk .system s.systemTurn r (writeWords r) h
  generalize passRequest .system s.systemTurn r (writeWords r) s = p at h1
  generalize pageWords s.pageBase r = ws
  unfold settingsWrite
  have h2 : ({ p with settings := p.settings.write ws } : State).boundsOk := by
    obtain ⟨⟨h1, h2⟩, h3⟩ := h1
    refine ⟨⟨h1, ?_⟩, h3⟩
    show sparseWf 0 (ws.foldl copyWord p.settings.copy)
    clear h3 h1
    generalize p.settings.copy = c at h2
    induction ws generalizing c with
    | nil => exact h2
    | cons w ws ih => exact ih _ (sparseSet_wf _ _ h2)
  generalize ({ p with settings := p.settings.write ws } : State) = x at h2
  have h3 : (actImmediate ws x).boundsOk := by
    unfold actImmediate
    have q1 : ∀ x : State, x.boundsOk → (if touches ws 4 8 then actClear x else x).boundsOk := by
      intro x hx; split
      · obtain ⟨b1, ⟨a1, a2, a3, a4, a5, a6, a7⟩, b3, b4, b5, b6, b7⟩ := hx
        exact ⟨b1, ⟨a1, a2, a3, a4, a5, a6, a7⟩, b3, b4, b5, b6, b7⟩
      · exact hx
    have q2 : ∀ x : State, x.boundsOk → (if touches ws 8 0xC then actReadIndex x else x).boundsOk := by
      intro x hx; split
      · obtain ⟨b1, ⟨a1, a2, a3, a4, a5, a6, a7⟩, b3, b4, b5, b6, b7⟩ := hx
        refine ⟨b1, ⟨a1, a2, a3, a4, a5, a6, a7⟩, b3, ?_, b5, b6, b7⟩
        intro hc
        simp only [actReadIndex, ConditionUnit.setReadIndex] at hc ⊢
        split at hc
        · cases hc
        · next hn => exact ⟨(b4 hc).1, fun e => hn ⟨hc, e⟩⟩
      · exact hx
    have q3 : ∀ x : State, x.boundsOk → (if touches ws 0xC 0x10 then actMask x else x).boundsOk := by
      intro x hx; split
      · obtain ⟨b1, ⟨a1, a2, a3, a4, a5, a6, a7⟩, b3, b4, b5, b6, b7⟩ := hx
        exact ⟨b1, ⟨a1, a2, a3, a4, a5, a6, a7⟩, b3, b4, b5, b6, b7⟩
      · exact hx
    exact q3 _ (q2 _ (q1 _ h2))
  unfold actHold; split
  · exact WithinBounds.ok (withinBounds_closed.holdRelease _) h3
  · exact h3

/-- The bounds across a row of the control-page writes. -/
theorem takePageRow_boundsOk (row : List PageWord → Settings → Bool) {s : State} (h : s.boundsOk) : EveryNext (takePageRow row s) State.boundsOk := by
  unfold takePageRow; split
  · split
    · exact EveryNext.next (takePageWrite_boundsOk _ h)
    · exact EveryNext.next h
  · exact EveryNext.next h

/-- R153: a starvation count holds at 64. -/
theorem nextStarvation_le (n : Nat) (g w : Bool) : nextStarvation n g w ≤ Config.starved := by
  unfold nextStarvation; split
  · omega
  · split <;> omega

/-- The bounds across the counts of a grant (R153). -/
theorem countGrant_boundsOk (r : Requester) {s : State} (h : s.boundsOk) : (s.countGrant r).boundsOk := by
  obtain ⟨b1, ⟨a1, a2, a3, a4, a5, a6, a7⟩, b3, b4, b5, b6, b7⟩ := h
  exact ⟨b1, ⟨a1, a2, a3, a4, ⟨nextStarvation_le _ _ _, nextStarvation_le _ _ _, nextStarvation_le _ _ _, nextStarvation_le _ _ _, nextStarvation_le _ _ _⟩, a6, a7⟩, b3, b4, b5, b6, b7⟩

/-- The bounds across disturbances of DRAM. -/
theorem disturb_boundsOk (us : List Upset) {s : State} (h : s.boundsOk) : (disturb us s).boundsOk := by
  obtain ⟨⟨h1, h2⟩, h3⟩ := h
  exact ⟨⟨Memory.disturbAll_wf us h1, h2⟩, h3⟩

/-- The bounds across a grant whose action keeps them. -/
theorem grantTo_boundsOk (r : Requester) (us : List Upset) (act : State → State) {s : State} (h : s.boundsOk)
   (k : ∀ u : State, u.boundsOk → (act u).boundsOk) : EveryNext (grantTo r us act s) State.boundsOk := by
  unfold grantTo; split
  · exact EveryNext.next (k _ (countGrant_boundsOk r (disturb_boundsOk us h)))
  · exact EveryNext.next h

/-- The bounds across a canonical DRAM. -/
theorem dram_boundsOk {s : State} (m : Memory) (h : s.boundsOk) (hm : m.wf) : ({ s with dram := m } : State).boundsOk := by
  obtain ⟨⟨h1, h2⟩, h3⟩ := h
  exact ⟨⟨hm, h2⟩, h3⟩

/-- The bounds across the report of check errors (R155). -/
theorem raiseChecks_boundsOk (r : Requester) (x : Transfer) (a : Nat) (cs : List CheckResult) {s : State} (h : s.boundsOk) : (raiseChecks r x a cs s).boundsOk := by
  unfold raiseChecks; simp only
  split
  · apply raise_boundsOk; exact h
  · split
    · apply raise_boundsOk; exact h
    · exact h

/-- The bounds across a grant to a port. -/
theorem grantPort_boundsOk (port : Port) (rq : Requester) {s : State} (h : s.boundsOk) : (grantPort port rq s).boundsOk := by
  unfold grantPort; split
  · exact h
  · split
    · unfold grantWrite
      apply raiseChecks_boundsOk
      apply dram_boundsOk _ _ (Memory.writeBurst_wf _ _ h.1.1)
      apply setPort_boundsOk port _ h (replace_length _ _ _)
      apply replace_outputs; intro q x _ hf; cases hf
    · unfold grantRead
      apply raiseChecks_boundsOk
      apply setPort_boundsOk port _ h (replace_length _ _ _)
      apply replace_outputs; intro q x _ hf hx; cases hf; cases hx
    all_goals exact h

/-- The bounds across a store of as many entries and no more withdrawn reads. -/
theorem store_boundsOk {s : State} (st : LineStore) (h : s.boundsOk) (k : StoreKeeps s.store st) : ({ s with store := st } : State).boundsOk := by
  obtain ⟨b1, ⟨a1, a2, a3, a4, a5, a6, a7⟩, b3, b4, b5, b6, b7⟩ := h
  refine ⟨b1, ⟨a1, a2, a3, a4, a5, a6, k.entries.trans a7⟩, ?_, b4, b5, b6, b7⟩
  have := k.withdrawn
  unfold State.countedOk State.counted at *; simp only at *; omega

/-- The bounds across a probe unit with no more lines pending. -/
theorem probe_boundsOk {s : State} (u : ProbeUnit) (h : s.boundsOk) (k : u.pending.length ≤ s.probe.pending.length) : ({ s with probe := u } : State).boundsOk := by
  obtain ⟨b1, b2, b3, b4, b5, b6, b7⟩ := h
  exact ⟨b1, b2, b3, b4, b5, b6, Nat.le_trans k b7.1, b7.2⟩

/-- The bounds across a grant to REPORT. -/
theorem grantReport_boundsOk (c : ReportChoice) (act : State → State) {s : State} (h : s.boundsOk)
   (k : ∀ u : State, u.boundsOk → (act u).boundsOk) : EveryNext (grantReport c act s) State.boundsOk := by
  unfold grantReport; split
  · exact grantTo_boundsOk _ _ _ h k
  · exact EveryNext.next h

/-- The bounds across the choice of REPORT (R177). -/
theorem chooseReport_boundsOk (c : ReportChoice) {s : State} (h : s.boundsOk) : (chooseReport c s).boundsOk := by
  unfold chooseReport; split
  · next hc =>
    obtain ⟨b1, ⟨a1, a2, a3, a4, a5, a6, a7⟩, b3, b4, b5, b6, b7⟩ := h
    refine ⟨b1, ⟨a1, a2, a3, a4, a5, a6, a7⟩, b3, ?_, b5, b6, b7⟩
    intro he
    simp only at he
    have hp := hc.2.2
    cases he
    unfold ConditionUnit.presented at hp
    split at hp
    · next x hx => cases hp; exact b4 hx
    · unfold ConditionUnit.choice at hp; split at hp
      · next hh => exact hh
      · split at hp <;> cases hp
  · exact h

/-- The bounds across the grant of a record burst (R176). -/
theorem grantRecord_boundsOk {s : State} (h : s.boundsOk) : (grantRecord s).boundsOk := by
  unfold grantRecord; split
  · exact h
  · next record rest hq =>
    obtain ⟨⟨h1, h2⟩, ⟨a1, a2, a3, a4, a5, a6, a7⟩, b3, b4, b5, b6, b7⟩ := h
    refine ⟨⟨Memory.writeWhole_wf _ _ h1, h2⟩, ⟨a1, a2, ?_, a4, a5, a6, a7⟩, b3, ?_, ?_, b6, b7⟩
    · simp only [ConditionUnit.recordGranted, List.length_drop]; omega
    · intro hc; cases hc
    · intro r hr; exact b5 r (List.mem_of_mem_drop hr)

/-- The bounds across the grant of a status block (R178). -/
theorem grantStatus_boundsOk {s : State} (h : s.boundsOk) : (grantStatus s).boundsOk := by
  obtain ⟨⟨h1, h2⟩, ⟨a1, a2, a3, a4, a5, a6, a7⟩, b3, b4, b5, b6, b7⟩ := h
  refine ⟨⟨Memory.writeWhole_wf _ _ h1, h2⟩, ⟨a1, a2, a3, a4, a5, a6, a7⟩, b3, ?_, b5, b6, b7⟩
  intro hc; cases hc

/-- The pending copy stays canonical across a reload burst. -/
theorem copyBurst_wf (c : List (Nat × Word)) (n : Nat) (ws : List Word) (h : sparseWf (0 : Word) c) : sparseWf (0 : Word) (copyBurst c n ws) := by
  induction ws generalizing c n with
  | nil => exact h
  | cons w ws ih => exact ih _ _ (sparseSet_wf _ _ h)

/-- The phase is under no bound. -/
theorem phase_boundsOk {s : State} (p : Phase) (h : s.boundsOk) : ({ s with phase := p } : State).boundsOk := h

/-- The bounds across the end of the reload (R172). -/
theorem reloadEnd_boundsOk {x : State} (hx : x.boundsOk) : (reloadEnd x).boundsOk := by
  unfold reloadEnd; simp only
  have hy : ({ x with phase := .running, settings := x.settings.allPending, cond := { x.cond with mask := (x.settings.at 0x00C).extractLsb' 0 20 } } : State).boundsOk := by
    obtain ⟨⟨h1, h2⟩, ⟨a1, a2, a3, a4, a5, a6, a7⟩, b3, b4, b5, b6, b7⟩ := hx
    exact ⟨⟨h1, h2⟩, ⟨a1, a2, a3, a4, a5, a6, a7⟩, b3, b4, b5, b6, b7⟩
  split
  · exact WithinBounds.ok (withinBounds_closed.holdRelease _) hy
  · exact hy

/-- The bounds across the return of a reload burst (R172). -/
theorem returnReload_boundsOk {s : State} (h : s.boundsOk) : (returnReload s).boundsOk := by
  unfold returnReload; split
  · next r hr =>
    split
    · exact h
    · next words rest hf =>
      simp only
      have hx : ({ s with phase := .reloading { r with returned := r.returned + 1, inFlight := rest }, settings := { s.settings with copy := copyBurst s.settings.copy (32 * r.returned) words } } : State).boundsOk := by
        obtain ⟨⟨h1, h2⟩, h3⟩ := h
        exact ⟨⟨h1, copyBurst_wf _ _ _ h2⟩, h3⟩
      split
      · exact reloadEnd_boundsOk hx
      · exact hx
  · exact h
  · exact h

/-- The bounds across the grant of a reload burst (R172). -/
theorem grantReload_boundsOk {s : State} (h : s.boundsOk) : (grantReload s).boundsOk := by
  unfold grantReload; split
  · split
    · apply raiseChecks_boundsOk; exact h
    · exact h
  · exact h
  · exact h

/-- The bounds after power-on. -/
theorem powerOn_boundsOk (d : BitVec 2) (c : BitVec 3) (p : List Instr) : ({ (State.powerOn d c) with pending := p } : State).boundsOk := by
  refine ⟨⟨Memory.empty_wf, sparseWf_nil _⟩, ⟨Nat.zero_le _, Nat.zero_le _, Nat.zero_le _, Nat.zero_le _, (by decide : Starvation.bounded { fill := 0, system := 0, probe := 0, refresh := 0, report := 0 }), rfl, rfl⟩, by show State.counted _ ≤ 4; exact (by decide : (0:Nat) ≤ 4), ?_, ?_, ?_, ?_⟩
  · intro h; cases h
  · intro r h; cases h
  · intro e he hk
    have : e ∈ windowsOff := he
    rw [List.eq_of_mem_replicate this]; exact Nat.zero_mod _
  · exact ⟨Nat.zero_le _, (by decide : Cadence.reset.inRange), fun g hg => by cases hg⟩

/-- The bounds after the assertion of warm RESET. -/
theorem assertReset_boundsOk {s : State} (h : s.boundsOk) : (assertReset s).boundsOk := by
  obtain ⟨⟨h1, h2⟩, ⟨a1, a2, a3, a4, a5, a6, a7⟩, b3, b4, b5, b6, b7⟩ := h
  refine ⟨⟨h1, h2⟩, ⟨Nat.zero_le _, Nat.zero_le _, Nat.zero_le _, a4, ⟨Nat.zero_le _, Nat.zero_le _, Nat.zero_le _, a5.2.2.2.1, Nat.zero_le _⟩, rfl, rfl⟩, by show State.counted _ ≤ 4; exact (by decide : (0:Nat) ≤ 4), ?_, ?_, ?_, ?_⟩
  · intro h; cases h
  · intro r h; cases h
  · intro e he hk
    have : e ∈ windowsOff := he
    rw [List.eq_of_mem_replicate this]; exact Nat.zero_mod _
  · exact ⟨Nat.zero_le _, (by decide : Cadence.reset.inRange), fun g hg => by cases hg⟩

/-- An arrival adds one position and no output read. -/
theorem arrive_queue (p : PortState) (r : Request) : (p.arrive r).queue.length = p.queue.length + 1 ∧ (p.arrive r).queue.countP (fun q => q.progress.isOutput) = p.queue.countP (fun q => q.progress.isOutput) := by
  constructor
  · simp [PortState.arrive]
  · simp [PortState.arrive, Progress.isOutput]

/-- R129: a withdrawn read stays counted while its fills run, so the bounds stand. -/
theorem dropRead_boundsOk (tag : BitVec 4) (o : OutputRead) {s : State} (h : s.boundsOk) (hw : s.withdrawn tag = some o) : (dropRead tag o s).boundsOk := by
  obtain ⟨b1, ⟨a1, a2, a3, a4, a5, a6, a7⟩, b3, b4, b5, b6, b7⟩ := h
  unfold State.withdrawn at hw
  cases hf : s.system.queue.find? (QueuePosition.takenWith tag) with
  | none => rw [hf] at hw; cases hw
  | some q =>
    rw [hf] at hw
    simp only [Option.bind_some] at hw
    have hout : q.progress.isOutput = true := by
      unfold QueuePosition.withdrawable at hw
      split at hw
      · next e => rw [e]; rfl
      all_goals cases hw
    have hst : (s.store.withdraw o.need).entries.length = s.store.entries.length ∧ (s.store.withdraw o.need).withdrawn.length ≤ s.store.withdrawn.length + 1 := by
      have hr := release_keeps s.store o.need
      unfold LineStore.withdraw; simp only; split
      · exact ⟨hr.entries, Nat.le_trans hr.withdrawn (by omega)⟩
      · refine ⟨hr.entries, ?_⟩
        simp only [List.length_append, List.length_cons, List.length_nil]
        have := hr.withdrawn; omega
    have hq : (replaceFirst (QueuePosition.takenWith tag) (fun _ => none) s.system.queue).countP (fun q => q.progress.isOutput) + 1 ≤ s.system.queue.countP (fun q => q.progress.isOutput) := by
      obtain ⟨hp, b, a, e, hb⟩ := find_split hf
      rw [e, replaceFirst_at hb hp]
      simp only [List.countP_append, List.countP_cons, List.countP_nil, Option.toList_none, hout, if_true]
      omega
    refine ⟨b1, ⟨a1, ?_, a3, a4, a5, a6, hst.1.trans a7⟩, ?_, b4, b5, b6, b7⟩
    · exact Nat.le_trans (replace_length _ _ _) a2
    · unfold State.countedOk State.counted at *
      simp only [dropRead, PortState.replace]
      have := hst.2
      omega

end Sys2Proof.Machine
end

