-- ==== Sys2Proof/Laws/Need.lean ====
section
/-! SUPPORT. The need set (R121): what its insertion keeps, and the twelve lines that bound it. -/

namespace Sys2Proof.Machine

/-! ### Each line once -/

/-- A rank that tells apart the roles that one line number of it may have. -/
def tellsApart (rank : SourceRole × Nat → Nat) : Prop :=
  ∀ a b : SourceRole × Nat, rank a = rank b → a.2 = b.2 → (a.1 = .anchor ↔ b.1 = .anchor) → a = b

theorem drawRank_tellsApart (pA rows : Nat) (taps : List Nat) : tellsApart (drawRank pA rows taps) := by
  rintro ⟨ra, la⟩ ⟨rb, lb⟩ hr hl hk
  simp only at hl hk
  subst hl
  cases ra <;> cases rb <;> simp only [drawRank] at hr hk ⊢ <;> first | rfl | (exfalso; simp at hk; done) | (exfalso; revert hr; (repeat' split) <;> simp)

theorem drawBefore_iff (rank : SourceRole × Nat → Nat) (a b : SourceRole × Nat) : drawBefore rank a b = true ↔
    rank a < rank b ∨ (rank a = rank b ∧ (a.2 < b.2 ∨ (a.2 = b.2 ∧ a.1 = .anchor))) := by
  simp [drawBefore]

/-- What stands in a need set after an insertion. -/
theorem mem_insertDraw {rank : SourceRole × Nat → Nat} {d e : SourceRole × Nat} {l : List (SourceRole × Nat)} :
    e ∈ insertDraw rank d l ↔ e = d ∨ e ∈ l := by
  induction l with
  | nil => simp [insertDraw]
  | cons x l ih =>
    unfold insertDraw
    split
    · next h => subst h; simp
    · split
      · simp
      · simp [ih]
        constructor
        · rintro (h | h | h) <;> simp [h]
        · rintro (h | h | h) <;> simp [h]

/-- The order of a need set: each line before those after it. -/
abbrev inOrder (rank : SourceRole × Nat → Nat) (l : List (SourceRole × Nat)) : Prop :=
  l.Pairwise (fun a b => a ≠ b ∧ drawBefore rank b a = false)

/-- An insertion keeps the order. -/
theorem inOrder_insertDraw {rank : SourceRole × Nat → Nat} (hr : tellsApart rank) {d : SourceRole × Nat} {l : List (SourceRole × Nat)}
    (h : inOrder rank l) : inOrder rank (insertDraw rank d l) := by
  induction l with
  | nil => simp [insertDraw, inOrder]
  | cons x l ih =>
    have hx := List.pairwise_cons.1 h
    unfold insertDraw
    split
    · exact h
    · next ne =>
      split
      · next hb =>
        refine List.pairwise_cons.2 ⟨?_, h⟩
        intro y hy
        rw [drawBefore_iff] at hb
        rcases List.mem_cons.1 hy with rfl | hy
        · refine ⟨ne, ?_⟩
          rw [← Bool.not_eq_true, drawBefore_iff]
          rintro (k | ⟨k1, k | ⟨k, k2⟩⟩)
          · omega
          · omega
          · rcases hb with b | ⟨b, b1 | ⟨b1, b2⟩⟩
            · omega
            · omega
            · exact ne (hr _ _ b b1 ⟨fun _ => k2, fun _ => b2⟩)
        · have hy2 := (hx.1 y hy)
          have hy3 := hy2.2
          rw [← Bool.not_eq_true, drawBefore_iff] at hy3
          constructor
          · intro e
            apply hy3
            rw [← e]
            exact hb
          · rw [← Bool.not_eq_true, drawBefore_iff]
            intro k
            apply hy3
            rcases k with k | ⟨k, k1 | ⟨k1, k2⟩⟩ <;> rcases hb with b | ⟨b, b1 | ⟨b1, b2⟩⟩
            · exact .inl (by omega)
            · exact .inl (by omega)
            · exact .inl (by omega)
            · exact .inl (by omega)
            · exact .inr ⟨by omega, .inl (by omega)⟩
            · exact .inr ⟨by omega, .inl (by omega)⟩
            · exact .inl (by omega)
            · exact .inr ⟨by omega, .inl (by omega)⟩
            · exact .inr ⟨by omega, .inr ⟨by omega, k2⟩⟩
      · next hb =>
        refine List.pairwise_cons.2 ⟨?_, ih hx.2⟩
        intro y hy
        rcases mem_insertDraw.1 hy with rfl | hy
        · exact ⟨Ne.symm ne, by simpa using hb⟩
        · exact hx.1 y hy

/-- A need set is in order and names each drawn line, once. -/
theorem needDraws_spec (usable : SourceRole → Nat → Bool) (m : Method) (pA rows : Nat) (taps : List Nat) :
    inOrder (drawRank pA rows taps) (needDraws usable m pA rows taps) ∧
      ∀ d, d ∈ needDraws usable m pA rows taps ↔ ∃ r ∈ taps, d ∈ rowDraws usable m pA rows r := by
  have key : ∀ (ds acc : List (SourceRole × Nat)), inOrder (drawRank pA rows taps) acc →
      inOrder (drawRank pA rows taps) (ds.foldl (fun acc d => insertDraw (drawRank pA rows taps) d acc) acc) ∧
        ∀ d, d ∈ ds.foldl (fun acc d => insertDraw (drawRank pA rows taps) d acc) acc ↔ d ∈ ds ∨ d ∈ acc := by
    intro ds
    induction ds with
    | nil => intro acc h; exact ⟨h, by simp⟩
    | cons x ds ih =>
      intro acc h
      obtain ⟨a, b⟩ := ih _ (inOrder_insertDraw (drawRank_tellsApart pA rows taps) (d := x) h)
      refine ⟨a, fun d => ?_⟩
      simp only [List.foldl_cons]
      rw [b, mem_insertDraw]
      simp only [List.mem_cons]
      constructor
      · rintro (h | h | h) <;> simp [h]
      · rintro ((h | h) | h) <;> simp [h]
  obtain ⟨a, b⟩ := key (taps.flatMap (rowDraws usable m pA rows)) [] List.Pairwise.nil
  refine ⟨a, fun d => ?_⟩
  unfold needDraws
  rw [b]
  simp

theorem needDraws_nodup (usable : SourceRole → Nat → Bool) (m : Method) (pA rows : Nat) (taps : List Nat) :
    (needDraws usable m pA rows taps).Nodup := (needDraws_spec usable m pA rows taps).1.imp (fun h => h.1)

/-! ### At most twelve lines -/

/-- The lines that R121's table counts around the lower of two missing rows, m and m + 2: for each of the three anchor rows its own line
or what a nearest-line search gives for it, four partner lines, two partner-2 lines and three anchor-2 lines. -/
def needSuperset (usable : SourceRole → Nat → Bool) (pA rows m : Nat) : List (SourceRole × Nat) :=
  let l := fun r => lineAtRow pA r
  let x := fun r => if usable .anchor (l r) then l r else (nearestAnchor (usable .anchor) (rows / 2) (l r)).getD 0
  let p := lineAtRow (1 - pA) m
  [(.anchor, x (m - 1)), (.anchor, x (m + 1)), (.anchor, x (m + 3)), (.partner, p - 1), (.partner, p), (.partner, p + 1),
    (.partner, p + 2), (.partner2, p), (.partner2, p + 1), (.anchor2, l (m - 1)), (.anchor2, l (m + 1)), (.anchor2, l (m + 3))]

theorem partnerSide_some {ok : SourceRole → Nat → Bool} {pA q : Nat} {row : Option Nat} (h : partnerSide ok pA row = some q) :
    ∃ r, row = some r ∧ q = lineAtRow (1 - pA) r := by
  unfold partnerSide at h
  split at h
  · cases h
  · split at h
    · cases h; exact ⟨_, rfl, rfl⟩
    · cases h

/-- What an anchor row draws on stands there. -/
theorem plannedSource_superset {usable : SourceRole → Nat → Bool} {pA rows m r : Nat} (hp : pA ≤ 1) (hm : m % 2 = 1 - pA)
    (hr : r + 1 = m ∨ r = m + 1 ∨ r = m + 3 ∨ (r = 0 ∧ m = 0 ∧ rows ≤ 1)) {d : SourceRole × Nat} (hd : d ∈ (plannedSource usable pA rows r).draws) :
    d ∈ needSuperset usable pA rows m := by
  have hl : lineAtRow pA r = lineAtRow pA (m - 1) ∨ lineAtRow pA r = lineAtRow pA (m + 1) ∨ lineAtRow pA r = lineAtRow pA (m + 3) := by
    simp only [lineAtRow]; omega
  have side : ∀ q, partnerSide usable pA (rowAbove r) = some q ∨ partnerSide usable pA (rowBelow rows r) = some q →
      q = lineAtRow (1 - pA) m - 1 ∨ q = lineAtRow (1 - pA) m ∨ q = lineAtRow (1 - pA) m + 1 ∨ q = lineAtRow (1 - pA) m + 2 := by
    rintro q (h | h)
    · obtain ⟨k, hk, rfl⟩ := partnerSide_some h
      simp only [rowAbove, lineAtRow] at hk ⊢
      split at hk
      · cases hk
      · cases hk; omega
    · obtain ⟨k, hk, rfl⟩ := partnerSide_some h
      simp only [rowBelow, lineAtRow] at hk ⊢
      split at hk
      · cases hk; omega
      · cases hk
  have hpart : ∀ q, partnerSide usable pA (rowAbove r) = some q ∨ partnerSide usable pA (rowBelow rows r) = some q →
      ((SourceRole.partner, q) ∈ needSuperset usable pA rows m) := by
    intro q h
    rcases side q h with h | h | h | h <;> simp [needSuperset, h]
  have hx : ∀ q, (if usable .anchor (lineAtRow pA r) then lineAtRow pA r
      else (nearestAnchor (usable .anchor) (rows / 2) (lineAtRow pA r)).getD 0) = q → (SourceRole.anchor, q) ∈ needSuperset usable pA rows m := by
    rintro q rfl
    rcases hl with h | h | h <;> rw [h] <;> simp [needSuperset]
  unfold plannedSource at hd
  split at hd
  · next hu =>
    rw [List.mem_singleton.1 hd]
    exact hx _ (by simp [hu])
  · next hu =>
    unfold conceal at hd
    simp only at hd
    split at hd
    · next h1 h2 =>
      rcases List.mem_cons.1 hd with rfl | hd
      · exact hpart _ (.inl h1)
      · rw [List.mem_singleton.1 hd]; exact hpart _ (.inr h2)
    · next h1 h2 => rw [List.mem_singleton.1 hd]; exact hpart _ (.inl h1)
    · next h1 h2 => rw [List.mem_singleton.1 hd]; exact hpart _ (.inr h2)
    · split at hd
      · rw [List.mem_singleton.1 hd]
        rcases hl with h | h | h <;> rw [h] <;> simp [needSuperset]
      · split at hd
        · next n hn =>
          rw [List.mem_singleton.1 hd]
          exact hx _ (by simp [hu, hn])
        · cases hd

/-- What a row among four consecutive ones draws on stands there. -/
theorem rowDraws_superset {usable : SourceRole → Nat → Bool} {method : Method} {pA rows m r : Nat} (hp : pA ≤ 1) (hm : m % 2 = 1 - pA)
    (hr : m ≤ r + 1 ∧ r ≤ m + 3) {d : SourceRole × Nat} (hd : d ∈ rowDraws usable method pA rows r) : d ∈ needSuperset usable pA rows m := by
  unfold rowDraws at hd
  split at hd
  · next ha =>
    simp only [isAnchorRow, decide_eq_true_eq] at ha
    exact plannedSource_superset hp hm (by omega) hd
  · next ha =>
    simp only [isAnchorRow, decide_eq_true_eq] at ha
    have hrm : r = m ∨ r = m + 2 := by omega
    have ra : neighbourA r + 1 = m ∨ neighbourA r = m + 1 := by
      unfold neighbourA; split <;> omega
    have rb : neighbourB rows r + 1 = m ∨ neighbourB rows r = m + 1 ∨ neighbourB rows r = m + 3 ∨
        (neighbourB rows r = 0 ∧ m = 0 ∧ rows ≤ 1) := by
      unfold neighbourB; split <;> omega
    simp only [List.mem_append] at hd
    rcases hd with (hd | hd) | hd
    · exact plannedSource_superset hp hm (by omega) hd
    · exact plannedSource_superset hp hm rb hd
    · have hl : lineAtRow (1 - pA) r = lineAtRow (1 - pA) m ∨ lineAtRow (1 - pA) r = lineAtRow (1 - pA) m + 1 := by
        simp only [lineAtRow]; omega
      have hpt : (SourceRole.partner, lineAtRow (1 - pA) r) ∈ needSuperset usable pA rows m := by
        rcases hl with h | h <;> simp [needSuperset, h]
      have hpt2 : (SourceRole.partner2, lineAtRow (1 - pA) r) ∈ needSuperset usable pA rows m := by
        rcases hl with h | h <;> simp [needSuperset, h]
      have han2 : ∀ q, lineAtRow pA q = lineAtRow pA (m - 1) ∨ lineAtRow pA q = lineAtRow pA (m + 1) ∨ lineAtRow pA q = lineAtRow pA (m + 3) →
          (SourceRole.anchor2, lineAtRow pA q) ∈ needSuperset usable pA rows m := by
        intro q h
        rcases h with h | h | h <;> rw [h] <;> simp [needSuperset]
      unfold methodDraws at hd
      simp only at hd
      split at hd
      · split at hd
        · rw [List.mem_singleton.1 hd]; exact hpt
        · cases hd
      · split at hd
        · rcases List.mem_cons.1 hd with rfl | hd
          · exact hpt
          · rcases List.mem_append.1 hd with hd | hd
            · split at hd
              · rw [List.mem_singleton.1 hd]; exact hpt2
              · cases hd
            · split at hd
              · rcases List.mem_cons.1 hd with rfl | hd
                · exact han2 _ (by simp only [lineAtRow]; omega)
                · rw [List.mem_singleton.1 hd]; exact han2 _ (by simp only [lineAtRow]; omega)
              · cases hd
        · cases hd
      · cases hd
      · cases hd

/-- R121: the rows of four taps are four consecutive ones at most, so they draw on twelve lines at most. -/
theorem needDraws_length (usable : SourceRole → Nat → Bool) (method : Method) {pA rows t : Nat} {taps : List Nat} (hp : pA ≤ 1)
    (ht : ∀ r ∈ taps, t ≤ r ∧ r ≤ t + 3) : (needDraws usable method pA rows taps).length ≤ needLimit := by
  have hm : ∃ m, m % 2 = 1 - pA ∧ (m = t ∨ m = t + 1) := by
    by_cases h : t % 2 = 1 - pA
    · exact ⟨t, h, .inl rfl⟩
    · exact ⟨t + 1, by omega, .inr rfl⟩
  obtain ⟨m, hm, hmt⟩ := hm
  refine length_le_of_nodup (m := needSuperset usable pA rows m) (needDraws_nodup usable method pA rows taps) ?_
  intro d hd
  obtain ⟨r, hr, hd⟩ := ((needDraws_spec usable method pA rows taps).2 d).1 hd
  have := ht r hr
  exact rowDraws_superset hp hm (by omega) hd

/-- R110: the four taps lie in four consecutive rows. -/
theorem taps_near (src : Nat) (n : Int) : ∃ t, ∀ r ∈ taps src n, t ≤ r ∧ r ≤ t + 3 := by
  refine ⟨clampTap src (n - 1), ?_⟩
  intro r hr
  simp only [taps, List.mem_cons, List.not_mem_nil, or_false, clampTap, clampInt] at hr ⊢
  omega

end Sys2Proof.Machine
end

