-- ==== Sys2Proof/Laws/Draws.lean ====
section
/-! SUPPORT. What the rows of a read draw on (R84, R89): each source of an anchor row, and the lines of a method. -/

namespace Sys2Proof.Machine

/-- R89: a search upward from line l-1 finds the highest line below l that p accepts. -/
theorem upward_find (p : Nat → Bool) (l n : Nat) : (List.range l).reverse.find? p = some n ↔ n < l ∧ p n = true ∧
    ∀ k < l, n < k → p k = false := by
  induction l with
  | zero => simp
  | succ l ih =>
    rw [List.range_succ, List.reverse_append]
    simp only [List.reverse_cons, List.reverse_nil, List.nil_append, List.singleton_append, List.find?_cons]
    cases hp : p l with
    | true =>
      constructor
      · intro h; cases h; exact ⟨by omega, hp, fun k h1 h2 => by omega⟩
      · rintro ⟨h1, h2, h3⟩
        by_cases e : n = l
        · rw [e]
        · have := h3 l (by omega) (by omega); rw [hp] at this; cases this
    | false =>
      simp only [ih]
      constructor
      · rintro ⟨h1, h2, h3⟩; refine ⟨by omega, h2, fun k k1 k2 => ?_⟩
        by_cases e : k = l
        · rw [e, hp]
        · exact h3 k (by omega) k2
      · rintro ⟨h1, h2, h3⟩
        by_cases e : n = l
        · rw [e, hp] at h2; cases h2
        · exact ⟨by omega, h2, fun k k1 k2 => h3 k (by omega) k2⟩

theorem upward_find_none (p : Nat → Bool) (l : Nat) : (List.range l).reverse.find? p = none ↔ ∀ k < l, p k = false := by
  rw [List.find?_eq_none]; simp

/-- R89: a search downward finds the lowest line from l on that p accepts. -/
theorem downward_find (p : Nat → Bool) (m l n : Nat) : ((List.range m).drop l).find? p = some n ↔ l ≤ n ∧ n < m ∧ p n = true ∧
    ∀ k < n, l ≤ k → p k = false := by
  have h : (List.range m).drop l = List.range' l (m - l) := by
    rw [List.range_eq_range', List.drop_range']; simp
  rw [h]; clear h
  generalize hd : m - l = d
  induction d generalizing l with
  | zero => simp; intro h1 h2; omega
  | succ d ih =>
    rw [List.range'_succ, List.find?_cons]
    cases hp : p l with
    | true =>
      constructor
      · intro h; cases h; exact ⟨by omega, by omega, hp, fun k a b => by omega⟩
      · rintro ⟨h1, h2, h3, h4⟩
        by_cases e : n = l
        · rw [e]
        · have := h4 l (by omega) (by omega); rw [hp] at this; cases this
    | false =>
      simp only
      have hih := ih (l + 1) (by omega)
      refine Iff.trans hih ?_
      constructor
      · rintro ⟨h1, h2, h3, h4⟩
        refine ⟨by omega, h2, h3, fun k a b => ?_⟩
        by_cases e : k = l
        · rw [e, hp]
        · exact h4 k a (by omega)
      · rintro ⟨h1, h2, h3, h4⟩
        by_cases e : n = l
        · rw [e, hp] at h3; cases h3
        · exact ⟨by omega, h2, h3, fun k a b => h4 k a (by omega)⟩

/-- R89: the nearest line to a line that p does not accept: above it, else below it. -/
theorem nearestAnchor_iff (p : Nat → Bool) (m l n : Nat) : nearestAnchor p m l = some n ↔
    p n = true ∧ ((n < l ∧ ∀ k < l, n < k → p k = false) ∨ (l < n ∧ n < m ∧ ∀ k < n, k ≠ l → p k = false)) := by
  unfold nearestAnchor
  split
  · next x hx =>
    have h := (upward_find p l x).1 hx
    constructor
    · intro e; cases e; exact ⟨h.2.1, .inl ⟨h.1, h.2.2⟩⟩
    · rintro ⟨a, ⟨b, c⟩ | ⟨b, c, d⟩⟩
      · rw [← hx]; exact (upward_find p l n).2 ⟨b, a, c⟩
      · have := d x (by omega) (by omega); rw [h.2.1] at this; cases this
  · next hx =>
    have h := (upward_find_none p l).1 hx
    rw [downward_find]
    constructor
    · rintro ⟨a, b, c, d⟩
      refine ⟨c, .inr ⟨by omega, b, fun k k1 k2 => ?_⟩⟩
      by_cases hk : k < l
      · exact h k hk
      · exact d k k1 (by omega)
    · rintro ⟨a, ⟨b, c⟩ | ⟨b, c, d⟩⟩
      · have := h n b; rw [a] at this; cases this
      · exact ⟨by omega, c, a, fun k k1 k2 => d k k1 (by omega)⟩

theorem nearestAnchor_none (p : Nat → Bool) (m l : Nat) : nearestAnchor p m l = none → ∀ n, ¬ ((p n = true) ∧ (n < l ∨ (l < n ∧
    n < m))) := by
  unfold nearestAnchor
  split
  · intro h; cases h
  · next hx =>
    intro h n
    have h1 := (upward_find_none p l).1 hx
    rw [List.find?_eq_none] at h
    rintro ⟨a, b | ⟨b, c⟩⟩
    · rw [h1 n b] at a; cases a
    · refine h n ?_ a
      rw [List.mem_drop_iff_getElem]
      exact ⟨n - (l+1), by simp; omega, by simp; omega⟩

/-- R84: what an anchor row draws on. -/
theorem mem_plannedSource (us : SourceRole → Nat → Bool) (pA rows r : Nat) (d : SourceRole × Nat) :
    d ∈ (plannedSource us pA rows r).draws ↔
      (us .anchor ((r - pA) / 2) = true ∧ d = (.anchor, (r - pA) / 2)) ∨
        (¬ us .anchor ((r - pA) / 2) = true ∧ (((0 < r ∧ us .partner ((r - 1 - (1 - pA)) / 2) = true) ∧
            d = (.partner, (r - 1 - (1 - pA)) / 2)) ∨
           ((r + 1 < rows ∧ us .partner ((r + 1 - (1 - pA)) / 2) = true) ∧ d = (.partner, (r + 1 - (1 - pA)) / 2)) ∨
          (¬ (0 < r ∧ us .partner ((r - 1 - (1 - pA)) / 2) = true) ∧ ¬ (r + 1 < rows ∧ us .partner ((r + 1 - (1 - pA)) / 2) = true) ∧
             ((us .anchor2 ((r - pA) / 2) = true ∧ d = (.anchor2, (r - pA) / 2)) ∨
            (¬ us .anchor2 ((r - pA) / 2) = true ∧ d.1 = .anchor ∧ us .anchor d.2 = true ∧ ((d.2 < (r - pA) / 2 ∧
                ∀ k < (r - pA) / 2, d.2 < k → ¬ us .anchor k = true) ∨
        ((r - pA) / 2 < d.2 ∧ d.2 < rows / 2 ∧ ∀ k < d.2, k ≠ (r - pA) / 2 → ¬ us .anchor k = true))))))) := by
  have e0 : plannedSource us pA rows r = if us .anchor ((r - pA) / 2) = true then .line .anchor ((r - pA) / 2) else
      conceal us pA rows r := rfl
  rw [e0]
  by_cases ha : us .anchor ((r - pA) / 2) = true
  · rw [if_pos ha]; simp [RowSource.draws, ha]
  · rw [if_neg ha]
    simp only [ha, not_false_eq_true, true_and, false_and, false_or, Bool.false_eq_true]
    have e1 : conceal us pA rows r = match partnerSide us pA (rowAbove r), partnerSide us pA (rowBelow rows r) with
      | some p, some q => .average p q
      | some p, none => .line .partner p
      | none, some q => .line .partner q
      | none, none =>
        if us .anchor2 ((r - pA) / 2) = true then .line .anchor2 ((r - pA) / 2)
        else match nearestAnchor (us .anchor) (rows / 2) ((r - pA) / 2) with
          | some n => .line .anchor n
          | none => .fill := rfl
    rw [e1]
    have hU : partnerSide us pA (rowAbove r) = if 0 < r ∧ us .partner ((r - 1 - (1 - pA)) / 2) = true then some ((r - 1 - (1 - pA)) / 2) else none := by
      unfold partnerSide rowAbove
      by_cases h : r = 0
      · rw [if_pos h, if_neg (by omega)]
      · rw [if_neg h]
        show (if us .partner ((r - 1 - (1 - pA)) / 2) = true then some ((r - 1 - (1 - pA)) / 2) else none) = _
        by_cases k : us .partner ((r - 1 - (1 - pA)) / 2) = true
        · rw [if_pos k, if_pos ⟨by omega, k⟩]
        · rw [if_neg k, if_neg (fun q => k q.2)]
    have hD : partnerSide us pA (rowBelow rows r) = if r + 1 < rows ∧
        us .partner ((r + 1 - (1 - pA)) / 2) = true then some ((r + 1 - (1 - pA)) / 2) else none := by
      unfold partnerSide rowBelow
      by_cases h : r + 1 < rows
      · rw [if_pos h]
        show (if us .partner ((r + 1 - (1 - pA)) / 2) = true then some ((r + 1 - (1 - pA)) / 2) else none) = _
        by_cases k : us .partner ((r + 1 - (1 - pA)) / 2) = true
        · rw [if_pos k, if_pos ⟨h, k⟩]
        · rw [if_neg k, if_neg (fun q => k q.2)]
      · rw [if_neg h, if_neg (fun q => h q.1)]
    rw [hU, hD]
    by_cases h1 : (0 < r ∧ us .partner ((r - 1 - (1 - pA)) / 2) = true) <;> by_cases h2 : (r + 1 < rows ∧
        us .partner ((r + 1 - (1 - pA)) / 2) = true)
    · simp [h1, h2, RowSource.draws]
    · simp [h1, h2, RowSource.draws]
    · simp [h1, h2, RowSource.draws]
    · simp only [h1, h2, if_false, not_false_eq_true, true_and, false_and, false_or]
      by_cases h3 : us .anchor2 ((r - pA) / 2) = true
      · simp [h3, RowSource.draws]
      · rw [if_neg h3]
        simp only [h3, not_false_eq_true, true_and, false_and, false_or, Bool.false_eq_true]
        cases hn : nearestAnchor (us .anchor) (rows / 2) ((r - pA) / 2) with
        | none =>
          have := nearestAnchor_none _ _ _ hn
          simp only [RowSource.draws, List.not_mem_nil, false_iff]
          rintro ⟨_, b, c⟩
          rcases c with c | c
          · exact this d.2 ⟨b, .inl c.1⟩
          · exact this d.2 ⟨b, .inr ⟨c.1, c.2.1⟩⟩
        | some n =>
          simp only [RowSource.draws, List.mem_singleton]
          have hni := nearestAnchor_iff (us .anchor) (rows / 2) ((r - pA) / 2)
          constructor
          · intro e; subst e
            have := hni n |>.1 hn
            refine ⟨rfl, this.1, ?_⟩
            simpa using this.2
          · rintro ⟨e1, e2, e3⟩
            have := (hni d.2).2 ⟨e2, by simpa using e3⟩
            rw [hn] at this; cases this
            exact Prod.ext e1 rfl

/-- R84: an anchor row draws on usable lines only. -/
theorem plannedSource_usable (us : SourceRole → Nat → Bool) (pA rows r : Nat) (d : SourceRole × Nat) (h :
    d ∈ (plannedSource us pA rows r).draws) : us d.1 d.2 = true := by
  rw [mem_plannedSource] at h
  rcases h with ⟨a, rfl⟩ | ⟨_, ⟨a, rfl⟩ | ⟨a, rfl⟩ | ⟨_, _, ⟨a, rfl⟩ | ⟨_, a, b, _⟩⟩⟩
  · exact a
  · exact a.2
  · exact a.2
  · exact a
  · rw [a]; exact b

/-- R84: what a missing row draws on by the method. -/
theorem mem_methodDraws (us : SourceRole → Nat → Bool) (m : Method) (pA rows r : Nat) (d : SourceRole × Nat) :
   d ∈ methodDraws us m pA rows r ↔ ((m = .weave ∨ m = .blend) ∧ us .partner ((r - (1 - pA)) / 2) = true ∧
       (d = (.partner, (r - (1 - pA)) / 2) ∨
            (m = .blend ∧ ((us .partner2 ((r - (1 - pA)) / 2) = true ∧ d = (.partner2, (r - (1 - pA)) / 2)) ∨
              ((us .anchor2 ((neighbourA r - pA) / 2) = true ∧ us .anchor2 ((neighbourB rows r - pA) / 2) = true ∧
                  us .anchor ((neighbourA r - pA) / 2) = true ∧ us .anchor ((neighbourB rows r - pA) / 2) = true) ∧
                 (d = (.anchor2, (neighbourA r - pA) / 2) ∨ d = (.anchor2, (neighbourB rows r - pA) / 2))))))) := by
  generalize ha : (neighbourA r - pA) / 2 = a
  generalize hb : (neighbourB rows r - pA) / 2 = b
  generalize hc : (r - (1 - pA)) / 2 = c
  have e0 : methodDraws us m pA rows r = match m with
    | .weave => if us .partner c = true then [(.partner, c)] else []
    | .blend =>
      if us .partner c = true then (.partner, c) :: ((if us .partner2 c = true then [(.partner2, c)] else []) ++
        (if (us .anchor2 a && us .anchor2 b && us .anchor a && us .anchor b) = true then [(.anchor2, a), (.anchor2, b)] else []))
      else []
    | .spatial => []
    | .fill => [] := by subst ha hb hc; rfl
  rw [e0]
  cases m with
  | weave =>
    simp only [true_and, reduceCtorEq, false_and, or_false]
    split
    · next h => simp [h]
    · next h => simp [h]
  | blend =>
    simp only [or_true, true_and, reduceCtorEq]
    split
    · next h =>
      simp only [h, true_and, List.mem_cons, List.mem_append]
      apply or_congr Iff.rfl
      apply or_congr
      · split
        · next k => simp [k]
        · next k => simp [k]
      · split
        · next k => simp only [Bool.and_eq_true] at k; simp [k]
        · next k => simp only [Bool.and_eq_true, and_assoc] at k; simp [k]
    · next h => simp [h]
  | spatial => simp
  | fill => simp

/-- R84: a missing row draws on usable lines only. -/
theorem methodDraws_usable (us : SourceRole → Nat → Bool) (m : Method) (pA rows r : Nat) (d : SourceRole × Nat) (h :
    d ∈ methodDraws us m pA rows r) : us d.1 d.2 = true := by
  rw [mem_methodDraws] at h
  obtain ⟨_, a, rfl | ⟨_, ⟨b, rfl⟩ | ⟨b, rfl | rfl⟩⟩⟩ := h
  · exact a
  · exact b
  · exact b.1
  · exact b.2.1

end Sys2Proof.Machine
end

