-- ==== Sys2Proof/Laws/Effects.lean ====
section
/-! SUPPORT. What conditions, check errors and an ingest geometry change do: how the condition unit may change while conditions occur,
what check errors depend on, and that a geometry change leaves what GeometryChanged says. -/

namespace Sys2Proof.Machine

/-! ### The condition unit while conditions occur -/

/-- v is u after occurrences and schedulings, with a STATUS window standing or not: bits only set, records only join the queue, and
without a STATUS window neither a record nor a status write. -/
structure Occurs (stands : Bool) (u v : ConditionUnit) : Prop where
  rest : v = { u with occurred := v.occurred, queue := v.queue, statusPending := v.statusPending }
  bits : ∀ i, u.occurred.getLsbD i = true → v.occurred.getLsbD i = true
  queue : ∃ new, v.queue = u.queue ++ new
  scheduled : u.statusPending = true → v.statusPending = true
  silent : stands = false → v.queue = u.queue ∧ v.statusPending = u.statusPending

theorem Occurs.refl (b : Bool) (u : ConditionUnit) : Occurs b u u := ⟨rfl, fun _ h => h, ⟨[], by simp⟩, id, fun _ => ⟨rfl, rfl⟩⟩

theorem Occurs.trans {b : Bool} {u v w : ConditionUnit} (h : Occurs b u v) (k : Occurs b v w) : Occurs b u w := by
  refine ⟨?_, fun i x => k.bits i (h.bits i x), ?_, fun x => k.scheduled (h.scheduled x), fun x => ?_⟩
  · rw [k.rest, h.rest]
  · obtain ⟨m, hm⟩ := h.queue
    obtain ⟨n, hn⟩ := k.queue
    exact ⟨m ++ n, by rw [hn, hm, List.append_assoc]⟩
  · exact ⟨(k.silent x).1.trans (h.silent x).1, (k.silent x).2.trans (h.silent x).2⟩

/-- R174: one occurrence. -/
theorem raise_occurs (c : Condition) (s : State) : Occurs s.statusStands s.cond (raise c s).cond := by
  simp only [raise]; split
  · exact .refl _ _
  · refine ⟨rfl, fun i h => by simp [ConditionUnit.occur, h], ?_, fun h => by simp [ConditionUnit.occur, h], fun h => ?_⟩
    · simp only [ConditionUnit.occur]; split
      · exact ⟨_, rfl⟩
      · exact ⟨[], by simp⟩
    · simp [ConditionUnit.occur, h]

/-- Occurrences in order. -/
theorem raiseAll_occurs (cs : List Condition) (s : State) : Occurs s.statusStands s.cond (raiseAll cs s).cond := by
  induction cs generalizing s with
  | nil => exact .refl _ _
  | cons c cs ih => exact (raise_occurs c s).trans (ih (raise c s))

/-- R178: a scheduling. -/
theorem scheduleStatus_occurs (s : State) : Occurs s.statusStands s.cond (scheduleStatus s).cond :=
  ⟨rfl, fun _ h => h, ⟨[], by simp [scheduleStatus, ConditionUnit.schedule]⟩, fun h => by simp [scheduleStatus, ConditionUnit.schedule, h],
    fun h => by simp [scheduleStatus, ConditionUnit.schedule, h]⟩

/-- R174: an occurrence sets the bit of its code. -/
theorem raise_bit (c : Condition) {s : State} (h : s.phase ≠ .asserted) {i : Nat} (hi : i < 20) (he : c.code = i + 1) :
    (raise c s).cond.occurred.getLsbD i = true := by
  simp only [raise, if_neg h, ConditionUnit.occur, codeBit, he, Nat.add_sub_cancel]
  simp [hi]

/-- R174: one of several occurrences sets the bit of its code. -/
theorem raiseAll_bit {cs : List Condition} {s : State} (h : s.phase ≠ .asserted) {i : Nat} (hi : i < 20)
    (he : ∃ c ∈ cs, c.code = i + 1) : (raiseAll cs s).cond.occurred.getLsbD i = true := by
  induction cs generalizing s with
  | nil => obtain ⟨c, hc, _⟩ := he; cases hc
  | cons d cs ih =>
    obtain ⟨c, hc, e⟩ := he
    rcases List.mem_cons.1 hc with rfl | hc
    · exact (raiseAll_occurs cs (raise c s)).bits i (raise_bit c h hi e)
    · exact ih (s := raise d s) h ⟨c, hc, e⟩

/-- R174: what occurrences do to the condition unit depends on the phase, the windows and the frame number alone beside it. -/
theorem raiseAll_congr (cs : List Condition) {s u : State} (hc : u.cond = s.cond) (hp : u.phase = s.phase)
    (hw : u.windows = s.windows) (hf : u.planner.frame = s.planner.frame) : (raiseAll cs u).cond = (raiseAll cs s).cond := by
  induction cs generalizing s u with
  | nil => exact hc
  | cons c cs ih =>
    exact ih (s := raise c s) (u := raise c u) (by simp only [raise, hc, hp, hf, State.statusStands, State.window, hw]) hp hw hf

/-- R155, R156: what check errors do depends on the phase, the windows, the frame number, the condition unit and the memory port. -/
theorem raiseChecks_congr (r : Requester) (x : Transfer) (a : Nat) (cs : List CheckResult) {s u : State}
    (hp : u.phase = .asserted ↔ s.phase = .asserted) (hw : u.windows = s.windows) (hf : u.planner.frame = s.planner.frame)
    (hc : u.cond = s.cond) (hm : u.memPort = s.memPort) :
    (raiseChecks r x a cs u).cond = (raiseChecks r x a cs s).cond ∧
      (raiseChecks r x a cs u).memPort = (raiseChecks r x a cs s).memPort := by
  unfold raiseChecks
  simp only
  split
  · simp only [raise, hp, hc, hf, State.statusStands, State.window, hw, hm, and_self]
  · split
    · simp only [raise, hp, hc, hf, State.statusStands, State.window, hw, hm, and_self]
    · exact ⟨hc, hm⟩

/-! ### Closes, measured fields and stall expiries -/

theorem raiseAll_occurs_of (cs : List Condition) (u : State) {b : Bool} {c : ConditionUnit} (hs : u.statusStands = b)
    (hc : u.cond = c) : Occurs b c (raiseAll cs u).cond := by
  subst hs hc; exact raiseAll_occurs cs u

theorem raiseAll_stands (cs : List Condition) (s : State) : (raiseAll cs s).statusStands = s.statusStands := by
  simp [State.statusStands, State.window]

theorem Occurs.schedule {b : Bool} {u : ConditionUnit} {x : State} (h : Occurs b u x.cond) (hb : x.statusStands = b) :
    Occurs b u (scheduleStatus x).cond := h.trans (hb ▸ scheduleStatus_occurs x)

/-- R41, R48, R61: a close. -/
theorem closeField_occurs (c : CloseCause) (s : State) : Occurs s.statusStands s.cond (closeField c s).cond := by
  unfold closeField; split
  · unfold closeRecord
    simp only
    exact Occurs.schedule (raiseAll_occurs_of _ _ rfl rfl) (raiseAll_stands _ _)
  · exact .refl _ _

/-- R12, R13: the close of a field leaves what FieldClosed says. -/
theorem closeField_closes (c : CloseCause) {r : FieldRecord} {g : IngestGroup} {s : State} (hr : s.history.filling = some r)
    (hg : s.settings.ingest = some g) : ∃ r1, FieldClosed c.code r r1 g s (closeField c s) := by
  have e : closeField c s = closeRecord c r g s := by unfold closeField; rw [hr, hg]
  rw [e]
  refine ⟨{ r with
    lines := settleLines g.w r.tagsPresent r.lines, state := if c.code = 0 then .complete else .cut, stalled := decide (c.code = 4)
    metrics := _, label := _ }, rfl, ?_, ?_, ?_, ?_, ?_, ?_⟩
  · cases c <;> simp [closeRecord] <;> rfl
  · cases c <;> simp [closeRecord, noteAfterClose, CloseCause.code]
  · simp [closeRecord]
  · cases c <;> simp [closeRecord] <;> rfl
  · have hl : ∀ (x : FieldRecord) (p : Option ProbeReport) (d : Option Condition),
        closeConditions x c p d = (if c.code = 0 then [] else [.fieldCut x.number c.code x.slot]) ++
          (if ∃ e ∈ x.lines, e.final ≠ some .good then [.lineDamage x.number (damageOf x.lines)] else []) ++
          p.toList.map (fun p => .probeIncomplete x.number p) ++ d.toList := by
      intro x p d
      unfold closeConditions damaged
      simp only [List.any_eq_true, decide_eq_true_eq]
      cases c <;> cases p <;> rfl
    unfold closeRecord
    simp only [scheduleStatus, raiseAll_stands, hl]
    rw [raiseAll_congr (s := s)]
    · cases c <;> rfl
    all_goals rfl
  · simp only [closeRecord, scheduleStatus]; rw [raiseAll_eq]

/-- R15, R16: the end of a measured field. -/
theorem endMeasurement_occurs (s : State) : Occurs s.statusStands s.cond (endMeasurement s).cond := by
  unfold endMeasurement; split
  · unfold endMeasured; simp only; split <;> split
    all_goals first | exact .refl _ _ | exact Occurs.schedule (raise_occurs _ { s with monitor := _ }) rfl
  · exact .refl _ _

/-- R18: an expiry. -/
theorem expireStall_occurs (s : State) : Occurs s.statusStands s.cond (expireStall s).cond := by
  unfold expireStall; simp only
  have h : Occurs s.statusStands s.cond (raise (.ingestStall s.fillingField s.stallLimit (decide (s.fillingField ≠ 0)))
      { s with monitor := s.monitor.stopTimer }).cond := raise_occurs _ { s with monitor := s.monitor.stopTimer }
  have hs : (raise (.ingestStall s.fillingField s.stallLimit (decide (s.fillingField ≠ 0)))
      { s with monitor := s.monitor.stopTimer }).statusStands = s.statusStands := rfl
  generalize raise (.ingestStall s.fillingField s.stallLimit (decide (s.fillingField ≠ 0)))
      { s with monitor := s.monitor.stopTimer } = u at h hs ⊢
  split
  · exact h.trans (hs ▸ closeField_occurs _ _)
  · split
    · exact h.trans (hs ▸ endMeasurement_occurs _)
    · exact h

/-! ### The plan goes to NONE, and the ingest geometry change -/

/-- R67: a plan that goes to NONE, field by field. -/
theorem planToNone_eq (s : State) : planToNone s =
    { s with planner := { s.planner with plan := none }, history := s.history.reference none, cond := (planToNone s).cond } ∧
      Occurs s.statusStands s.cond (planToNone s).cond := by
  unfold planToNone; simp only; split
  · exact ⟨rfl, scheduleStatus_occurs { s with planner := { s.planner with plan := none }, history := s.history.reference none }⟩
  · exact ⟨rfl, .refl _ _⟩

/-- R170: a geometry change, field by field. -/
theorem geometryChange_eq (s : State) : geometryChange s =
    { s with
      monitor := { Monitor.reset with acquisition := acquisitionOf s.settings.ingest }
      planner := { s.planner with plan := none, laterRow := false, previousAnchor := 0 }
      history := { s.history with records := [] }
      probe := if s.history.records = [] then s.probe else ProbeUnit.reset
      store := if s.history.records = [] then s.store else s.store.voidFields (s.history.records.map (fun r => r.number))
      cadence := { Cadence.reset with episode := s.cadence.episode }
      cond := (geometryChange s).cond } ∧
      Occurs s.statusStands s.cond (geometryChange s).cond := by
  have h1 : resetMonitor s = { s with
      monitor := { Monitor.reset with acquisition := acquisitionOf s.settings.ingest }, cond := (resetMonitor s).cond } ∧
      Occurs s.statusStands s.cond (resetMonitor s).cond := by
    unfold resetMonitor; simp only; split
    · exact ⟨rfl, scheduleStatus_occurs { s with monitor := { Monitor.reset with acquisition := acquisitionOf s.settings.ingest } }⟩
    · exact ⟨rfl, .refl _ _⟩
  have h2 := planToNone_eq (resetMonitor s)
  have hs : (resetMonitor s).statusStands = s.statusStands := by rw [h1.1]; rfl
  have h3 : dropPlan (resetMonitor s) = { s with
      monitor := { Monitor.reset with acquisition := acquisitionOf s.settings.ingest }
      planner := { s.planner with plan := none, laterRow := false, previousAnchor := 0 }
      history := s.history.reference none, cond := (planToNone (resetMonitor s)).cond } := by
    unfold dropPlan; simp only
    rw [h2.1, h1.1]
  have hc : (geometryChange s).cond = (planToNone (resetMonitor s)).cond := by
    unfold geometryChange emptyHistory; simp only; rw [h3]; split <;> rfl
  refine ⟨?_, by rw [hc]; exact h1.2.trans (hs ▸ h2.2)⟩
  rw [hc]
  unfold geometryChange emptyHistory
  simp only; rw [h3]
  by_cases hr : s.history.records = []
  · rw [if_pos (by simp [History.reference, hr])]
    simp only [hr, if_true, History.reference, List.map_nil, Cadence.geometryChange]
  · rw [if_neg (by simpa [History.reference] using hr)]
    simp only [hr, if_false, History.reference, List.map_map, Cadence.geometryChange]
    rfl

/-- R35, R170: a geometry change leaves what GeometryChanged says. -/
theorem geometryChange_changes (s : State) : GeometryChanged s (geometryChange s) := by
  have h := (geometryChange_eq s).1
  refine ⟨?_, ?_, ?_, ?_, ?_, ?_⟩
  · rw [h]; rfl
  · rw [h]
  · rw [h]
  · rw [h]; rfl
  · intro hr; rw [h]; simp only [hr, if_true, and_self]
  · intro hr; rw [h]; simp only [hr, if_false, true_and]
    exact voidFields_voided _ _

end Sys2Proof.Machine
end

