-- ==== Sys2Proof/Laws/Page.lean ====
section
/-! SUPPORT. A control-page write: where its words lie, which offsets it touches, what the pending copy holds after it, and what the
immediate words do. -/

namespace Sys2Proof.Machine

/-- A request that the settings unit takes starts in the control page. -/
theorem toSettings_inPage {s : State} {r : Request} (h : s.judge .system r = .toSettings) : s.pageBase ≤ firstAddr r := by
  have hperm : permission .system (isWriteRequest r) (s.region (firstAddr r)) = .toSettings := by
    unfold State.judge at h
    by_cases h1 : 4294967296 < endAddr r
    · rw [if_pos h1] at h; cases h
    · rw [if_neg h1] at h
      by_cases h2 : (! s.oneRegion r) = true
      · rw [if_pos h2] at h; cases h
      · rw [if_neg h2] at h
        cases hp : permission .system (isWriteRequest r) (s.region (firstAddr r)) with
        | pass => rw [hp] at h; simp only at h; by_cases h3 : s.dramSize < endAddr r
                  · rw [if_pos h3] at h; cases h
                  · rw [if_neg h3] at h; cases h
        | refuse x => rw [hp] at h; cases h
        | toMonitor => rw [hp] at h; cases h
        | toOutput => rw [hp] at h; cases h
        | toSettings => rfl
  have : s.region (firstAddr r) = .controlPage := by
    generalize isWriteRequest r = b at hperm
    cases hr : s.region (firstAddr r) <;> cases b <;> rw [hr] at hperm <;> first | rfl | cases hperm
  unfold State.region at this
  by_cases hc : s.pageBase ≤ firstAddr r ∧ firstAddr r < s.pageBase + 4096
  · exact hc.1
  · rw [if_neg hc] at this
    cases hf : s.windows.find? (fun e => e.contains (firstAddr r)) with
    | none => rw [hf] at this; cases this
    | some e => rw [hf] at this; simp only at this; cases he : e.kind <;> rw [he] at this <;> cases this

/-- What the immediate words of a write do, by which of the clear word, the read index and the mask it touches (R163). -/
theorem actImmediate_eq (A B C : Bool) (x : State) : 
   (let s1 := if A then actClear x else x
    let s2 := if B then actReadIndex s1 else s1
    if C then actMask s2 else s2) = { x with
      memPort := { x.memPort with firstFault := if A = true ∧ (x.settings.at 4).getLsbD 31 = true then none else x.memPort.firstFault }
      cond := { x.cond with
        occurred := if A then x.cond.occurred &&& ~~~ (x.settings.at 4).extractLsb' 0 20 else x.cond.occurred
        readIndex := if B then (x.settings.at 8).extractLsb' 0 6 else x.cond.readIndex
        chosen := if B = true ∧ x.cond.chosen = some .record ∧ x.cond.writeIndex + 1 = (x.settings.at 8).extractLsb' 0 6 then none else x.cond.chosen
        mask := if C then (x.settings.at 12).extractLsb' 0 20 else x.cond.mask
        statusPending := x.cond.statusPending || (x.statusStands && (A || B || C)) } } := by
  cases A <;> cases B <;> cases C <;> simp [actClear, actReadIndex, actMask, ConditionUnit.clear, ConditionUnit.setReadIndex, ConditionUnit.setMask, State.statusStands, State.window]

/-- The bytes of the pending copy after the words of a write from a word index up (R161). -/
theorem copyWords_byte (base : Nat) (ws : List WriteWord) (start : Nat) (c : List (Nat × Word)) (hc : sparseWf (0 : Word) c) (i j : Nat) (hj : j < 4) :
   (sparseGet (0 : Word) ((ws.zipIdx start).foldl (fun c w => copyWord c { offset := base + 4 * w.2, word := w.1 }) c) i).extractLsb' (8 * j) 8 =
     match ws[i - base / 4 - start]? with
        | some w => if base / 4 + start ≤ i ∧ w.enables.getLsbD j = true then w.data.extractLsb' (8 * j) 8
            else (sparseGet (0 : Word) c i).extractLsb' (8 * j) 8
        | none => (sparseGet (0 : Word) c i).extractLsb' (8 * j) 8 := by
  induction ws generalizing start c with
  | nil => simp
  | cons w ws ih =>
    have hw := sparseSet_wf ((base + 4 * start) / 4) (mergeBytes (sparseGet 0 c ((base + 4 * start) / 4)) w.data w.enables) hc
    simp only [List.zipIdx_cons, List.foldl_cons]
    rw [ih (start + 1) (copyWord c { offset := base + 4 * start, word := w }) hw]
    have hidx : (base + 4 * start) / 4 = base / 4 + start := by omega
    have hg : ∀ b, sparseGet (0:Word) (copyWord c { offset := base + 4 * start, word := w }) b = if b = base / 4 + start then mergeBytes (sparseGet 0 c b) w.data w.enables else sparseGet 0 c b := by
      intro b
      simp only [copyWord]; rw [sparseGet_set _ _ _ hc, hidx]
      split
      · next e => rw [e]
      · rfl
    rw [hg]
    by_cases hi : i < base / 4 + start
    · have h0 : i - base / 4 - start = 0 := by omega
      have h1 : i - base / 4 - (start + 1) = 0 := by omega
      rw [if_neg (by omega), h0, h1]
      simp only [List.getElem?_cons_zero]
      rw [if_neg (by omega)]
      split
      · rw [if_neg (by omega)]
      · rfl
    · by_cases he : i = base / 4 + start
      · have h0 : i - base / 4 - start = 0 := by omega
        have h1 : i - base / 4 - (start + 1) = 0 := by omega
        rw [if_pos he, h0, h1]
        simp only [List.getElem?_cons_zero]
        have hm := mergeBytes_byte (sparseGet 0 c i) w.data w.enables j hj
        have : (match ws[0]? with
        | some w_1 => if base / 4 + (start + 1) ≤ i ∧ w_1.enables.getLsbD j = true then w_1.data.extractLsb' (8 * j) 8
            else (mergeBytes (sparseGet (0 : Word) c i) w.data w.enables).extractLsb' (8 * j) 8
        | none => (mergeBytes (sparseGet (0 : Word) c i) w.data w.enables).extractLsb' (8 * j) 8) = (mergeBytes (sparseGet (0 : Word) c i) w.data w.enables).extractLsb' (8 * j) 8 := by
          split
          · rw [if_neg (by omega)]
          · rfl
        rw [this, hm]
        by_cases hen : w.enables.getLsbD j = true
        · rw [if_pos hen, if_pos ⟨by omega, hen⟩]
        · rw [if_neg hen, if_neg (fun h => hen h.2)]
      · have h0 : i - base / 4 - start = (i - base / 4 - (start + 1)) + 1 := by omega
        rw [if_neg he, h0, List.getElem?_cons_succ]
        split
        · next x hx =>
          by_cases hen : x.enables.getLsbD j = true
          · rw [if_pos ⟨by omega, hen⟩, if_pos ⟨by omega, hen⟩]
          · rw [if_neg (fun h => hen h.2), if_neg (fun h => hen h.2)]
        · rfl

/-- The words of a control-page write with their offsets. -/
theorem pageWords_eq (base : Nat) (r : Request) (words : List WriteWord) (hb : r.body = .write words) (h : base ≤ firstAddr r) :
    pageWords base r = (words.zipIdx).map (fun w => ({ offset := (firstAddr r - base) + 4 * w.2, word := w.1 } : PageWord)) := by
  have hc : r.count = words.length := by unfold Request.count; rw [hb]
  apply List.ext_getElem
  · simp [pageWords, wordAddrs, writeWords, hb, hc]
  · intro n h1 h2
    simp [pageWords, wordAddrs, writeWords, hb]
    omega

/-- Which offsets a write touches. -/
theorem touches_iff (base : Nat) (words : List WriteWord) (lo past : Nat) :
    touches ((words.zipIdx).map (fun w => ({ offset := base + 4 * w.2, word := w.1 } : PageWord))) lo past = true ↔ ∃ i < words.length, lo ≤ base + 4 * i ∧ base + 4 * i < past := by
  simp only [touches, List.any_eq_true, List.mem_map, Bool.and_eq_true, decide_eq_true_eq]
  constructor
  · rintro ⟨x, ⟨⟨w, i⟩, hm, rfl⟩, h1, h2⟩
    have := List.mem_zipIdx hm
    exact ⟨i, by omega, h1, h2⟩
  · rintro ⟨i, hi, h1, h2⟩
    refine ⟨_, ⟨(words[i], i), ?_, rfl⟩, h1, h2⟩
    rw [List.mem_zipIdx_iff_getElem?]; simp [hi]

end Sys2Proof.Machine
end

