-- ==== Sys2Proof/Laws/PerInstr.lean ====
section
/-! SUPPORT. A law of every command, one lemma per constructor: a well-formed command carries 1 to 32 data words where it carries any,
and disturbs only words of the 32-bit byte address space. -/

namespace Sys2Proof.Laws

/-- The data words a command carries: those of a request (R134) or of a part of a response. -/
def wordCount : Instr → Option Nat
  | .captureArrival r => some r.count
  | .systemArrival r => some r.count
  | .outputReadData n => some n
  | .passThroughReadResponse _ n => some n
  | _ => none

/-- The disturbances a command carries. -/
def upsetsOf : Instr → List Upset
  | .captureBurstGrant us => us
  | .systemBurstGrant us => us
  | .fillBurstReturn (.grant us) => us
  | .probeBurstReturn (.grant us) => us
  | .reloadBurstReturn (.grant us) => us
  | _ => []

/-- A well-formed command carries 1 to 32 words where it carries any, and its disturbances lie in the address space. -/
def Carried.Statement (i : Instr) : Prop :=
  i.wf = true → (∀ n, wordCount i = some n → 1 ≤ n ∧ n ≤ 32) ∧ ∀ u ∈ upsetsOf i, u.index < 2 ^ 30

/-- A command that carries neither words nor disturbances. -/
theorem carriesNothing {i : Instr} (hw : wordCount i = none) (hu : upsetsOf i = []) : Carried.Statement i := by
  intro _
  simp [hw, hu]

/-- A command that carries words only. -/
theorem carriesWords {i : Instr} {n : Nat} (hw : wordCount i = some n) (hu : upsetsOf i = [])
    (h : i.wf = true → 1 ≤ n ∧ n ≤ 32) : Carried.Statement i := by
  intro hi
  simpa [hw, hu] using h hi

/-- A list of well-formed disturbances lies in the address space. -/
theorem upsets_inSpace {us : List Upset} (h : us.all Upset.wf = true) : ∀ u ∈ us, u.index < 2 ^ 30 := by
  intro u hu
  have := List.all_eq_true.mp h u hu
  simp [Upset.wf] at this
  exact this.1

/-- A burst part whose disturbances the command carries. -/
theorem carriesPart {i : Instr} {p : BurstPart} (hw : wordCount i = none)
    (hu : upsetsOf i = match p with | .grant us => us | .ret => []) (h : i.wf = p.wf) : Carried.Statement i := by
  intro hi
  rw [h] at hi
  cases p with
  | ret => simp [hw, hu]
  | grant us => exact ⟨by simp [hw], by simpa [hu] using upsets_inSpace hi⟩

namespace Carried

theorem powerOn (d : BitVec 2) (c : BitVec 3) : Statement (.powerOn d c) := carriesNothing rfl rfl
theorem warmResetAssert : Statement .warmResetAssert := carriesNothing rfl rfl
theorem resetRelease (d : BitVec 2) (c : BitVec 3) : Statement (.resetRelease d c) := carriesNothing rfl rfl
theorem reloadBurstReturn (p : BurstPart) : Statement (.reloadBurstReturn p) := carriesPart rfl (by cases p <;> rfl) rfl
theorem captureArrival (r : Request) : Statement (.captureArrival r) :=
  carriesWords rfl rfl (by simp [Instr.wf, Request.wf])
theorem captureRequestTake : Statement .captureRequestTake := carriesNothing rfl rfl
theorem stallTimerExpiry : Statement .stallTimerExpiry := carriesNothing rfl rfl
theorem systemArrival (r : Request) : Statement (.systemArrival r) :=
  carriesWords rfl rfl (by simp [Instr.wf, Request.wf])
theorem systemRequestTake : Statement .systemRequestTake := carriesNothing rfl rfl
theorem outputReadTake : Statement .outputReadTake := carriesNothing rfl rfl
theorem controlPageWrite : Statement .controlPageWrite := carriesNothing rfl rfl
theorem holdWordWrite : Statement .holdWordWrite := carriesNothing rfl rfl
theorem clearOccurredBits : Statement .clearOccurredBits := carriesNothing rfl rfl
theorem clearFirstFaultRecord : Statement .clearFirstFaultRecord := carriesNothing rfl rfl
theorem reportReadIndexWrite : Statement .reportReadIndexWrite := carriesNothing rfl rfl
theorem reportMaskWrite : Statement .reportMaskWrite := carriesNothing rfl rfl
theorem withdrawal (t : BitVec 4) : Statement (.withdrawal t) := carriesNothing rfl rfl
theorem outputReadData (n : Nat) : Statement (.outputReadData n) :=
  carriesWords rfl rfl (by simp [Instr.wf, responseCountWf])
theorem passThroughReadResponse (x : Port) (n : Nat) : Statement (.passThroughReadResponse x n) :=
  carriesWords rfl rfl (by simp [Instr.wf, responseCountWf])
theorem refusedReadResponse (x : Port) : Statement (.refusedReadResponse x) := carriesNothing rfl rfl
theorem captureBurstGrant (us : List Upset) : Statement (.captureBurstGrant us) :=
  carriesPart (p := .grant us) rfl rfl rfl
theorem systemBurstGrant (us : List Upset) : Statement (.systemBurstGrant us) :=
  carriesPart (p := .grant us) rfl rfl rfl
theorem fillBurstReturn (p : BurstPart) : Statement (.fillBurstReturn p) := carriesPart rfl (by cases p <;> rfl) rfl
theorem probeBurstReturn (p : BurstPart) : Statement (.probeBurstReturn p) := carriesPart rfl (by cases p <;> rfl) rfl
theorem refreshGrant : Statement .refreshGrant := carriesNothing rfl rfl
theorem recordBurstGrant (p : ReportPart) : Statement (.recordBurstGrant p) := carriesNothing rfl rfl
theorem statusBlockGrant (p : ReportPart) : Statement (.statusBlockGrant p) := carriesNothing rfl rfl
theorem refreshIntervalExpiry : Statement .refreshIntervalExpiry := carriesNothing rfl rfl
theorem refreshReqEdge : Statement .refreshReqEdge := carriesNothing rfl rfl

end Carried

end Sys2Proof.Laws
end

