-- ==== Sys2Proof/Laws/Picture.lean ====
section
/-! SUPPORT. The ranges of samples: reconstructed samples within 0..1023, output words within 4..1019. -/

namespace Sys2Proof.Machine

/-- A 10-bit field of a word. -/
theorem bits10_le (w : Word) (lo : Nat) : bits w lo 10 ≤ 1023 := by
  have : bits w lo 10 < 1024 := Nat.mod_lt _ (by omega)
  omega

/-- The rounded mean of two samples is a sample. -/
theorem mean2_le {a b : Nat} (ha : a ≤ 1023) (hb : b ≤ 1023) : mean2 a b ≤ 1023 := by simp only [mean2]; omega

/-- The spatial estimate of six samples is a sample. -/
theorem edgeEstimate_le {aL a aR bL b bR : Nat} (h1 : aL ≤ 1023) (h2 : a ≤ 1023) (h3 : aR ≤ 1023) (h4 : bL ≤ 1023)
    (h5 : b ≤ 1023) (h6 : bR ≤ 1023) : edgeEstimate aL a aR bL b bR ≤ 1023 := by
  simp only [edgeEstimate]; split
  · exact mean2_le h2 h5
  · split
    · exact mean2_le h1 h6
    · exact mean2_le h3 h4

/-- The blend of two samples is a sample. -/
theorem blendSample_le {t s w : Nat} (ht : t ≤ 1023) (hs : s ≤ 1023) (hw : w ≤ 16) : blendSample t s w ≤ 1023 := by
  simp only [blendSample]
  have h1 : t * (16 - w) ≤ 1023 * (16 - w) := Nat.mul_le_mul_right _ ht
  have h2 : s * w ≤ 1023 * w := Nat.mul_le_mul_right _ hs
  omega

/-- A blend weight is at most 16. -/
theorem blendWeight_le (m tLo tHi : Nat) : blendWeight m tLo tHi ≤ 16 := by
  simp only [blendWeight]
  split
  · omega
  · split
    · omega
    · have : (m - tLo) * 16 / (tHi - tLo) < 16 := by
        rw [Nat.div_lt_iff_lt_mul (by omega)]
        omega
      omega

/-- A horizontal stage clamps into 4..1019. -/
theorem filterTaps_fillOk (c : CoefRow) (f : Nat → Nat) (ts : List Nat) : fillOk (filterTaps c f ts 4 1019) := by
  unfold filterTaps filter4 clampInt fillOk; omega

theorem lumaOut_fillOk (g : Snapshot) (p : Picture) (row x : Nat) : fillOk (g.lumaOut p row x) := by
  unfold Snapshot.lumaOut; exact filterTaps_fillOk _ _ _

theorem chromaOut_fillOk (g : Snapshot) (p : Picture) (row x : Nat) : fillOk (g.chromaOut p row x) := by
  unfold Snapshot.chromaOut; exact filterTaps_fillOk _ _ _

/-- A word of samples in range is in range. -/
theorem outputWord_ok {y c : Nat} (hy : fillOk y) (hc : fillOk c) : sampleWordOk (outputWord y c) := by
  obtain ⟨h1, h2⟩ := hy
  obtain ⟨h3, h4⟩ := hc
  have e : (outputWord y c).toNat = c + y * 65536 := by
    simp only [outputWord, word, BitVec.toNat_ofNat]
    omega
  refine ⟨?_, ?_, ?_, ?_⟩
  · simp only [fillOk, lumaOf, bits, e]; omega
  · simp only [fillOk, chromaOf, bits, e]; omega
  · apply BitVec.eq_of_toNat_eq; simp [BitVec.extractLsb'_toNat, e, Nat.shiftRight_eq_div_pow]; omega
  · apply BitVec.eq_of_toNat_eq; simp [BitVec.extractLsb'_toNat, e, Nat.shiftRight_eq_div_pow]; omega

/-- The words produced for a read in range are in range. -/
theorem produce_ok {o : OutputRead} (st : LineStore) (n : Nat) (ho : o.inRange) : ∀ w ∈ o.produce st n, sampleWordOk w := by
  intro w hwm
  unfold OutputRead.produce at hwm
  split at hwm
  · have := List.eq_of_mem_replicate hwm; rw [this]; exact outputWord_ok ho.1 ho.2.1
  · next p hp =>
    obtain ⟨a, _, rfl⟩ := List.mem_map.1 hwm
    simp only [Plan.outputWordAt]
    cases p.pictureAt o.offset a
    · rw [if_neg (by simp)]; exact outputWord_ok (ho.2.2.1 p hp).1 (ho.2.2.1 p hp).2.1
    · rw [if_pos rfl]; exact outputWord_ok (lumaOut_fillOk _ _ _ _) (chromaOut_fillOk _ _ _ _)

theorem produced_ok {o : OutputRead} (st : LineStore) (n : Nat) (ho : o.inRange) : ∀ w ∈ o.produced st n, sampleWordOk w := by
  unfold OutputRead.produced; split
  · next ws h => exact ho.2.2.2 ws h
  · exact produce_ok st n ho

end Sys2Proof.Machine
end

