-- ==== Sys2Proof/Laws/Probe.lean ====
section
/-! SUPPORT. The probe unit: what the loss of a reference leaves (R47), what is presented (R44), and the record before the newest. -/

namespace Sys2Proof.Machine

/-! ### The loss of a reference (R47) -/

/-- R47: whether the pending line of a number leaves the pending list: for want of a reference, or because its fetches have returned. -/
def linesEnd (rem : Bool) (l : List PendingProbe) (n : Nat) : Bool :=
  match l.find? (fun q => decide (q.line = n)) with
  | some q => rem || q.fetches.all (fun f => decide (f.width ≤ f.words.length))
  | none => false

/-- R47: a table entry after the loss of a reference. -/
def entryAfter (rem : Bool) (l : List PendingProbe) (e : ProbeEntry) : ProbeEntry :=
  match l.find? (fun q => decide (q.line = e.line)) with
  | some q =>
    if rem then { e with status := .invalid .referenceLost }
    else if linesEnd rem l e.line then { e with status := .done, repeatSum := q.repeatSum, combSum := q.combSum }
    else e
  | none => e

/-- R47: the probe unit after the loss has reached the pending lines of some numbers. -/
def afterLosses (rem : Bool) (u : ProbeUnit) (ls : List Nat) : ProbeUnit :=
  { u with
    table := u.table.map (fun e => if e.line ∈ ls then entryAfter rem u.pending e else e)
    pending := u.pending.filter (fun q => ! (decide (q.line ∈ ls) && linesEnd rem u.pending q.line))
    inFlight := u.inFlight.filter (fun q => ! (decide (q.line ∈ ls) && linesEnd rem u.pending q.line)) }

theorem entryAfter_line (rem : Bool) (K : List PendingProbe) (e : ProbeEntry) : (entryAfter rem K e).line = e.line := by
  unfold entryAfter; split
  · split
    · rfl
    · split <;> rfl
  · rfl

theorem afterLosses_congr (rem : Bool) (u : ProbeUnit) (ls ms : List Nat) (h : ∀ n, n ∈ ls ↔ n ∈ ms) :
    afterLosses rem u ls = afterLosses rem u ms := by
  unfold afterLosses; simp only [h]

theorem afterLosses_find (rem : Bool) (u : ProbeUnit) (ls : List Nat)
    (l : Nat) : (afterLosses rem u ls).pending.find? (fun q => decide (q.line = l)) =
    if l ∈ ls ∧ linesEnd rem u.pending l = true then none else u.pending.find? (fun q => decide (q.line = l)) := by
  unfold afterLosses; simp only
  generalize he : (fun n => linesEnd rem u.pending n) = en
  have : ∀ n, linesEnd rem u.pending n = en n := fun n => by rw [← he]
  simp only [this]
  clear this he
  generalize u.pending = K
  induction K with
  | nil => simp
  | cons x xs ih =>
    simp only [List.filter_cons, List.find?_cons]
    by_cases hx : x.line = l
    · subst hx
      by_cases hc : x.line ∈ ls ∧ en x.line = true
      · rw [if_pos hc] at ih ⊢
        simp only [hc.1, hc.2, decide_true, Bool.and_self, Bool.not_true, Bool.false_eq_true, if_false]; exact ih
      · rw [if_neg hc]
        have : (!(decide (x.line ∈ ls) && en x.line)) = true := by
          simp only [Bool.not_eq_true', Bool.and_eq_false_iff, decide_eq_false_iff_not]
          by_cases h1 : x.line ∈ ls
          · right; simpa [h1] using hc
          · exact .inl h1
        rw [if_pos this]; simp
    · rw [decide_eq_false hx]
      split
      · rw [List.find?_cons, decide_eq_false hx]; exact ih
      · exact ih

/-- R47: one line more. -/
theorem afterLosses_step (rem : Bool) (u : ProbeUnit) (ls : List Nat) (l : Nat) (hr : u.noReference = rem)
    (hl : ∃ q ∈ u.pending, q.line = l) :
    (afterLosses rem u ls).afterLoss l = afterLosses rem u (l :: ls) := by
  obtain ⟨q, hq⟩ : ∃ q, u.pending.find? (fun q => decide (q.line = l)) = some q := by
    obtain ⟨q, hq, hlq⟩ := hl
    cases hf : u.pending.find? (fun q => decide (q.line = l)) with
    | some x => exact ⟨x, rfl⟩
    | none => exact absurd hlq (by simpa using List.find?_eq_none.1 hf q hq)
  have hnr : (afterLosses rem u ls).noReference = rem := hr
  unfold ProbeUnit.afterLoss
  rw [hnr]
  cases rem with
  | true =>
    rw [if_pos rfl]
    have he : linesEnd true u.pending l = true := by unfold linesEnd; rw [hq]; rfl
    unfold ProbeUnit.setEntry ProbeUnit.leave afterLosses
    simp only [List.map_map, List.filter_filter]
    congr 1
    · apply List.map_congr_left; intro e _
      simp only [Function.comp]
      by_cases h : e.line = l
      · subst h
        have : entryAfter true u.pending e = { e with status := .invalid .referenceLost } := by unfold entryAfter; rw [hq]; rfl
        simp only [List.mem_cons, true_or, if_true, this]
        split <;> rw [if_pos rfl]
      · have h2 : (if e.line ∈ ls then entryAfter true u.pending e else e).line = e.line := by
          split
          · exact entryAfter_line _ _ _
          · rfl
        rw [h2, if_neg h]; simp [h]
    · apply List.filter_congr; intro x _
      by_cases h : x.line = l
      · subst h; simp [he]
      · simp [h]
    · apply List.filter_congr; intro x _
      by_cases h : x.line = l
      · simp [h, he]
      · simp [h]
  | false =>
    rw [if_neg (by decide)]
    unfold ProbeUnit.settleLine
    rw [afterLosses_find, hq]
    by_cases h1 : l ∈ ls
    · have hV : afterLosses false u (l :: ls) = afterLosses false u ls :=
        afterLosses_congr _ _ _ _ (fun n => by simp; intro e; rw [e]; exact h1)
      rw [hV]
      by_cases h2 : linesEnd false u.pending l = true
      · rw [if_pos ⟨h1, h2⟩]
      · rw [if_neg (fun h => h2 h.2)]
        simp only
        rw [if_neg]
        intro hc; apply h2; unfold linesEnd; rw [hq]; simpa [PendingProbe.complete] using hc
    · rw [if_neg (fun h => h1 h.1)]
      simp only
      have hen : linesEnd false u.pending l = q.complete := by unfold linesEnd; rw [hq]; simp [PendingProbe.complete]
      cases hc : q.complete with
      | true =>
        rw [hc] at hen
        rw [if_pos rfl]
        unfold ProbeUnit.setEntry ProbeUnit.leave afterLosses
        simp only [List.map_map, List.filter_filter]
        congr 1
        · apply List.map_congr_left; intro e _
          simp only [Function.comp]
          by_cases h : e.line = l
          · subst h
            have : entryAfter false u.pending e = { e with status := .done, repeatSum := q.repeatSum, combSum := q.combSum } :=
                by unfold entryAfter; rw [hq]; simp [hen]
            simp only [h1, if_false, List.mem_cons, true_or, if_true, this]
          · have h2 : (if e.line ∈ ls then entryAfter false u.pending e else e).line = e.line := by
              split
              · exact entryAfter_line _ _ _
              · rfl
            rw [h2, if_neg h]; simp [h]
        · apply List.filter_congr; intro x _
          by_cases h : x.line = l
          · subst h; simp [hen]
          · simp [h]
        · apply List.filter_congr; intro x _
          by_cases h : x.line = l
          · simp [h, hen]
          · simp [h]
      | false =>
        rw [hc] at hen
        rw [if_neg (by decide)]
        unfold afterLosses
        congr 1
        · apply List.map_congr_left; intro e _
          by_cases h : e.line = l
          · subst h
            have : entryAfter false u.pending e = e := by unfold entryAfter; rw [hq]; simp [hen]
            simp [this]
          · simp [h]
        · apply List.filter_congr; intro x _
          by_cases h : x.line = l
          · simp [h, hen]
          · simp [h]
        · apply List.filter_congr; intro x _
          by_cases h : x.line = l
          · simp [h, hen]
          · simp [h]

theorem afterLosses_fold (rem : Bool) (u : ProbeUnit) (hr : u.noReference = rem) (ms : List Nat)
    (hm : ∀ l ∈ ms, ∃ q ∈ u.pending, q.line = l) (ls : List Nat) :
    ms.foldl ProbeUnit.afterLoss (afterLosses rem u ls) = afterLosses rem u (ms ++ ls) := by
  induction ms generalizing ls with
  | nil => rfl
  | cons m ms ih =>
    rw [List.foldl_cons, afterLosses_step rem u ls m hr (hm m (by simp)), ih (fun l h => hm l (by simp [h]))]
    exact afterLosses_congr _ _ _ _ (fun n => by simp; constructor <;> (rintro (h | h | h) <;> simp [h]))

theorem afterLosses_nil (rem : Bool) (u : ProbeUnit) : afterLosses rem u [] = u := by
  have h1 : ∀ {α : Type} (l : List α), l.filter (fun _ => true) = l := fun l => List.filter_eq_self.2 (fun _ _ => rfl)
  unfold afterLosses; simp [h1]

/-- R47: all pending lines after the loss of a reference. -/
theorem ProbeUnit.afterLoss_all (u : ProbeUnit) : (u.pending.map (fun p => p.line)).foldl ProbeUnit.afterLoss u =
   { u with
      table := u.table.map (entryAfter u.noReference u.pending)
      pending := u.pending.filter (fun q => ! linesEnd u.noReference u.pending q.line)
      inFlight := u.inFlight.filter (fun q => ! linesEnd u.noReference u.pending q.line) } := by
  have := afterLosses_fold u.noReference u rfl (u.pending.map (fun p => p.line)) (fun l h => by simpa using h) []
  rw [afterLosses_nil] at this
  rw [this, List.append_nil]
  unfold afterLosses
  have hx : ∀ n, n ∉ u.pending.map (fun p => p.line) → u.pending.find? (fun q => decide (q.line = n)) = none := by
    intro n h; rw [List.find?_eq_none]; intro x hx; simp; intro e; exact h (List.mem_map.2 ⟨x, hx, e⟩)
  congr 1
  · apply List.map_congr_left; intro e _
    split
    · rfl
    · next h => unfold entryAfter; rw [hx _ h]
  · apply List.filter_congr; intro x hxm
    have : x.line ∈ u.pending.map (fun p => p.line) := List.mem_map.2 ⟨x, hxm, rfl⟩
    simp [this]
  · apply List.filter_congr; intro x _
    by_cases h : x.line ∈ u.pending.map (fun p => p.line)
    · simp [h]
    · have : linesEnd u.noReference u.pending x.line = false := by unfold linesEnd; rw [hx _ h]
      simp [this]

/-! ### What is presented (R44), and the newest record (R37) -/

theorem findSome?_first {α β : Type} (f : α → Option β) (l : List α) (b : β) : l.findSome? f = some b ↔ ∃ l1 a l2, l = l1 ++ a :: l2 ∧
    (∀ x ∈ l1, f x = none) ∧ f a = some b := by
  induction l with
  | nil => simp
  | cons x xs ih =>
    rw [List.findSome?_cons]
    cases hx : f x with
    | some c =>
      constructor
      · intro h; cases h; exact ⟨[], x, xs, rfl, by simp, hx⟩
      · rintro ⟨l1, a, l2, h1, h2, h3⟩
        cases l1 with
        | nil => cases h1; rw [hx] at h3; exact h3
        | cons y ys => cases h1; rw [h2 x (by simp)] at hx; cases hx
    | none =>
      simp only [ih]
      constructor
      · rintro ⟨l1, a, l2, h1, h2, h3⟩
        refine ⟨x :: l1, a, l2, by rw [h1]; rfl, ?_, h3⟩
        intro y hy; rcases List.mem_cons.1 hy with rfl | hy; exact hx; exact h2 y hy
      · rintro ⟨l1, a, l2, h1, h2, h3⟩
        cases l1 with
        | nil => cases h1; rw [hx] at h3; cases h3
        | cons y ys => cases h1; exact ⟨ys, a, l2, rfl, fun z hz => h2 z (by simp [hz]), h3⟩

/-- R44: what the PROBE requester presents: the next burst of the oldest pending line's first fetch that is not granted whole. -/
theorem ProbeUnit.presented_iff (u : ProbeUnit) (l : Nat) (role : ProbeRole) (b : Burst) : u.presented = some (l, role, b) ↔
    ∃ (pb pa : List PendingProbe) (p : PendingProbe) (fb fa : List ProbeFetch) (f : ProbeFetch), u.pending = pb ++ p :: pa ∧
      (∀ x ∈ pb, ∀ y ∈ x.fetches, y.width ≤ y.granted) ∧ p.fetches = fb ++ f :: fa ∧ (∀ y ∈ fb, y.width ≤ y.granted) ∧
      f.granted < f.width ∧ l = p.line ∧ role = f.role ∧
      b = { addr := f.base + 4 * f.granted, count := min 32 (f.width - f.granted) } := by
  unfold ProbeUnit.presented
  have hn : ∀ (y : ProbeFetch) (l : Nat), ((nextBurst y.base y.width y.granted).map (fun b => (l, y.role, b))) = none ↔
      y.width ≤ y.granted := by
    intro y l; unfold nextBurst; split <;> simp <;> omega
  have hs : ∀ (y : ProbeFetch) (l' : Nat), ((nextBurst y.base y.width y.granted).map (fun b => (l', y.role, b))) = some (l, role, b) ↔
      y.granted < y.width ∧ l = l' ∧ role = y.role ∧ b = { addr := y.base + 4 * y.granted, count := min 32 (y.width - y.granted) } := by
    intro y l'; unfold nextBurst; split
    · next h => simp only [Option.map_some, Option.some.injEq, Prod.mk.injEq, h, true_and, Config.burstWords]
                constructor
                · rintro ⟨a, b, c⟩; exact ⟨a.symm, b.symm, c.symm⟩
                · rintro ⟨a, b, c⟩; exact ⟨a.symm, b.symm, c.symm⟩
    · next h => simp [h]
  rw [findSome?_first]
  constructor
  · rintro ⟨pb, p, pa, h1, h2, h3⟩
    rw [findSome?_first] at h3
    obtain ⟨fb, f, fa, k1, k2, k3⟩ := h3
    rw [hs] at k3
    refine ⟨pb, pa, p, fb, fa, f, h1, ?_, k1, fun y hy => (hn _ _).1 (k2 y hy), k3.1, k3.2.1, k3.2.2.1, k3.2.2.2⟩
    intro x hx y hy
    have := List.findSome?_eq_none_iff.1 (h2 x hx) y hy
    exact (hn _ _).1 this
  · rintro ⟨pb, pa, p, fb, fa, f, h1, h2, k1, k2, k3⟩
    refine ⟨pb, p, pa, h1, ?_, ?_⟩
    · intro x hx; rw [List.findSome?_eq_none_iff]; intro y hy; exact (hn _ _).2 (h2 x hx y hy)
    · rw [findSome?_first]; exact ⟨fb, f, fa, k1, fun y hy => (hn _ _).2 (k2 y hy), (hs _ _).2 k3⟩

/-- R37: the record before the newest is the last of the others, where no other carries its number. -/
theorem recordBefore_newest (l : List FieldRecord) (n : FieldRecord) (h : ∀ x ∈ l, x.number ≠ n.number) :
    recordBefore n.number (l ++ [n]) = l.getLast? := by
  induction l with
  | nil => rfl
  | cons a l ih =>
    cases l with
    | nil => simp [recordBefore]
    | cons b l =>
      have : recordBefore n.number (a :: b :: (l ++ [n])) = recordBefore n.number (b :: (l ++ [n])) := by
        rw [recordBefore, if_neg (h b (by simp))]
      show recordBefore n.number (a :: b :: (l ++ [n])) = _
      rw [this]
      have := ih (fun x hx => h x (by simp [hx]))
      simp only [List.cons_append] at this
      rw [this]; simp [List.getLast?_cons_cons]

end Sys2Proof.Machine
end

