-- ==== Sys2Proof/Laws/Uses.lean ====
section
/-! SUPPORT. The line store with the output reads that hold its entries (R118, R123, R129 to R131): what the work inside a take, a change
of the system queue, a take of lines, a release and a withdrawal leave of the store's laws. -/

namespace Sys2Proof.Machine

/-! ### What a position holds -/

theorem settledHolds_sub {q : QueuePosition} {n : Nat} (h : n ∈ q.settledHolds) : n ∈ q.holds := by
  unfold QueuePosition.settledHolds at h
  unfold QueuePosition.holds
  cases e : q.progress <;> rw [e] at h <;> simp only [List.not_mem_nil] at h
  split at h
  · exact h
  · cases h

theorem settled_sub {l : List QueuePosition} {n : Nat} (h : n ∈ l.flatMap QueuePosition.settledHolds) :
    n ∈ l.flatMap QueuePosition.holds := by
  obtain ⟨q, hq, h⟩ := List.mem_flatMap.1 h
  exact List.mem_flatMap.2 ⟨q, hq, settledHolds_sub h⟩

theorem settledHolds_nil {q : QueuePosition} (h : q.holds = []) : q.settledHolds = [] :=
  List.eq_nil_iff_forall_not_mem.2 fun n hn => by
    have := settledHolds_sub hn
    rw [h] at this
    cases this

/-- Only a taken output read holds entries. -/
theorem holds_nil {q : QueuePosition} (h : q.progress.isOutput = false) : q.holds = [] := by
  unfold QueuePosition.holds
  split <;> first | rfl | (next e => rw [e] at h; cases h)

/-- The reads in flight hold twelve entries each at most. -/
theorem uses_length {l : List QueuePosition} (h : ∀ q ∈ l, q.holds.length ≤ needLimit) :
    (l.flatMap QueuePosition.holds).length ≤ needLimit * l.countP (fun q => q.progress.isOutput) := by
  induction l with
  | nil => exact Nat.zero_le _
  | cons q l ih =>
    have h1 := ih (fun x hx => h x (by simp [hx]))
    have h2 := h q (by simp)
    simp only [List.flatMap_cons, List.length_append, List.countP_cons]
    cases e : q.progress.isOutput with
    | false => rw [holds_nil e]; simpa using h1
    | true =>
      simp only [if_true, Nat.mul_add, Nat.mul_one]
      omega

theorem flatten_length {l : List (List Nat)} {n : Nat} (h : ∀ w ∈ l, w.length ≤ n) : l.flatten.length ≤ n * l.length := by
  induction l with
  | nil => exact Nat.zero_le _
  | cons w l ih =>
    have h1 := ih (fun x hx => h x (by simp [hx]))
    have h2 := h w (by simp)
    simp only [List.flatten_cons, List.length_append, List.length_cons, Nat.mul_add]
    omega

/-! ### The withdrawn reads' waits -/

/-- No withdrawn read waits for more than twelve entries. -/
abbrev LineStore.waitsOk (st : LineStore) : Prop := ∀ w ∈ st.withdrawn, w.length ≤ needLimit

theorem endFill_waitsOk {st : LineStore} (n : Nat) (h : st.waitsOk) : (st.endFill n).waitsOk := by
  intro w hw
  obtain ⟨x, hx, rfl⟩ := List.mem_map.1 (List.mem_filter.1 hw).1
  exact Nat.le_trans (List.length_erase_le) (h x hx)

theorem voidFields_waitsOk {st : LineStore} (fs : List FieldNo) (h : st.waitsOk) : (st.voidFields fs).waitsOk := by
  unfold LineStore.voidFields
  generalize (List.range st.entries.length).filter _ = ns
  induction ns generalizing st with
  | nil => exact h
  | cons n ns ih => exact ih (st := st.voidEntry n) (endFill_waitsOk n h)

theorem returned_waitsOk {st : LineStore} (h : st.waitsOk) : st.returned.waitsOk := by
  have k : ∀ (u : LineStore) n o, u.waitsOk → (u.complete n o).waitsOk := fun u n o x => endFill_waitsOk n x
  unfold LineStore.returned
  split
  · exact h
  · simp only
    split
    · exact k _ _ _ h
    · split
      · exact h
      · split
        · exact k _ _ _ h
        · exact h

theorem release_withdrawn (st : LineStore) (need : List NeedLine) : (st.release need).withdrawn = st.withdrawn :=
  (LineStore.lawful.releaseEntries_frame st _ []).1

theorem withdraw_waitsOk {st : LineStore} {need : List NeedLine} (h : st.waitsOk) (hn : need.length ≤ needLimit) :
    (st.withdraw need).waitsOk := by
  unfold LineStore.withdraw
  simp only
  split
  · intro w hw
    rw [release_withdrawn] at hw
    exact h w hw
  · intro w hw
    rw [release_withdrawn] at hw
    rcases List.mem_append.1 hw with hw | hw
    · exact h w hw
    · rw [List.mem_singleton.1 hw]
      refine Nat.le_trans (List.length_filter_le _ _) ?_
      simpa using hn

theorem takeLines_withdrawn {st st1 : LineStore} {ws : List WantedLine} {ls : List NeedLine} (h : st.takeLines ws = some (st1, ls)) :
    st1.withdrawn = st.withdrawn := by
  have one : ∀ {st st1 : LineStore} {w : WantedLine} {l : NeedLine}, st.takeLine w = some (st1, l) → st1.withdrawn = st.withdrawn := by
    intro st st1 w l h
    unfold LineStore.takeLine at h
    split at h
    · cases h; rfl
    · split at h
      · cases h; rfl
      · cases h
  induction ws generalizing st ls with
  | nil => simp [LineStore.takeLines] at h; rw [h.1]
  | cons w ws ih =>
    simp only [LineStore.takeLines] at h
    split at h
    · cases h
    · next st2 l h2 =>
      split at h
      · cases h
      · next st3 ls3 h3 =>
        cases h
        exact (ih h3).trans (one h2)

/-! ### Inside a take -/

/-- What the work inside a take leaves of the store's laws. -/
structure StoreInner (s t : State) : Prop where
  system : t.system = s.system
  lawful : ∀ U D, s.store.lawful U D → t.store.lawful U D
  waits : s.store.waitsOk → t.store.waitsOk

theorem StoreInner.of {s t : State} (h : t.system = s.system) (k : t.store = s.store) : StoreInner s t :=
  ⟨h, fun _ _ x => by rw [k]; exact x, fun x => by rw [k]; exact x⟩

theorem storeInner_core : CoreClosed StoreInner where
  refl _ := .of rfl rfl
  trans h k := ⟨k.system.trans h.system, fun U D x => k.lawful U D (h.lawful U D x), fun x => k.waits (h.waits x)⟩
  raise _ _ := .of rfl rfl
  schedule _ := .of rfl rfl
  monitor _ _ := .of rfl rfl
  history _ _ := .of rfl rfl
  probeReset _ := .of rfl rfl
  probeEvicted _ _ := .of rfl rfl
  probeLine _ _ _ _ := .of rfl rfl
  probeAdmission _ _ _ := .of rfl rfl
  cadenceClose _ _ _ _ _ := .of rfl rfl
  cadenceE22 _ _ := .of rfl rfl
  cadenceGeometry _ := .of rfl rfl
  planNone _ := .of rfl rfl
  planRepair _ _ _ _ _ _ := .of rfl rfl
  planFlags _ _ _ := .of rfl rfl
  planFrame _ _ _ := .of rfl rfl
  voidFields _ fs := ⟨rfl, fun _ _ x => x.voidFields fs, fun x => voidFields_waitsOk fs x⟩
  installWindows _ := .of rfl rfl
  memoryGroup _ _ := .of rfl rfl
  interval _ _ := .of rfl rfl
  addition s := .of (refreshAddition_keeps s).system (refreshAddition_store s)
  outputRefused _ := .of rfl rfl
  outputLoaded _ _ := .of rfl rfl

/-- The same across a load of the ingest group. -/
theorem storeInner_closed : InnerClosed StoreInner := storeInner_core.inner (fun _ => .of rfl rfl) (fun _ _ => .of rfl rfl)

theorem StoreInner.storeOk {s t : State} (k : StoreInner s t) (h : s.storeOk) : t.storeOk := by
  unfold State.storeOk State.uses State.settledUses at *
  rw [k.system]
  exact ⟨k.lawful _ _ h.1, h.2.1, k.waits h.2.2⟩

/-! ### Changes of the system queue -/

/-- The store's laws speak of the system queue and the store alone. -/
theorem storeOk_congr {s t : State} (h : s.storeOk) (hq : t.system.queue = s.system.queue) (hs : t.store = s.store) : t.storeOk := by
  unfold State.storeOk State.uses State.settledUses at *
  rw [hq, hs]
  exact h

/-- A position that holds no entry gives way to positions that hold none. -/
theorem storeOk_swap {s t : State} (h : s.storeOk) {b a l : List QueuePosition} {q : QueuePosition}
    (hq : s.system.queue = b ++ q :: a) (hn : q.holds = []) (ht : t.system.queue = b ++ l ++ a) (hl : ∀ x ∈ l, x.holds = [])
    (hs : t.store = s.store) : t.storeOk := by
  have f : l.flatMap QueuePosition.holds = [] := by
    rw [List.flatMap_eq_nil_iff]; exact hl
  have g : l.flatMap QueuePosition.settledHolds = [] := by
    rw [List.flatMap_eq_nil_iff]; exact fun x hx => settledHolds_nil (hl x hx)
  obtain ⟨h1, h2, h3⟩ := h
  refine ⟨?_, ?_, by rw [hs]; exact h3⟩
  · rw [hs]
    unfold State.uses State.settledUses at *
    rw [hq] at h1
    rw [ht]
    simpa [List.flatMap_append, f, g, hn, settledHolds_nil hn] using h1
  · intro x hx
    rw [ht] at hx
    rw [hq] at h2
    simp only [List.mem_append] at hx
    rcases hx with (hx | hx) | hx
    · exact h2 x (by simp [hx])
    · rw [hl x hx]; exact Nat.zero_le _
    · exact h2 x (by simp [hx])

/-- The same for the first position that p accepts. -/
theorem storeOk_replace {s t : State} (h : s.storeOk) {p : QueuePosition → Bool} {f : QueuePosition → Option QueuePosition}
    (ht : t.system.queue = replaceFirst p f s.system.queue) (hp : ∀ q, p q = true → q.holds = [])
    (hf : ∀ q x, p q = true → f q = some x → x.holds = []) (hs : t.store = s.store) : t.storeOk := by
  rcases replaceFirst_cases p f s.system.queue with e | ⟨b, q, a, e, hq, e2⟩
  · exact storeOk_congr h (ht.trans e) hs
  · refine storeOk_swap h e (hp q hq) (ht.trans e2) ?_ hs
    intro x hx
    exact hf q x hq (by simpa using hx)

/-- An arrival holds no entry. -/
theorem storeOk_arrive {s : State} (h : s.storeOk) (r : Request) : ({ s with system := s.system.arrive r } : State).storeOk := by
  obtain ⟨h1, h2, h3⟩ := h
  refine ⟨?_, ?_, h3⟩
  · unfold State.uses State.settledUses at *
    simpa [PortState.arrive, List.flatMap_append, QueuePosition.holds, QueuePosition.settledHolds] using h1
  · intro q hq
    rcases List.mem_append.1 hq with hq | hq
    · exact h2 q hq
    · rw [List.mem_singleton.1 hq]; exact Nat.zero_le _

/-! ### Takes, releases and withdrawals -/

/-- R122: a position that holds no entry takes the lines of its read. -/
theorem storeOk_take {s t : State} (h : s.storeOk) {b a : List QueuePosition} {q x : QueuePosition} {ws : List WantedLine}
    {need : List NeedLine} (hq : s.system.queue = b ++ q :: a) (hn : q.holds = []) (ht : t.system.queue = b ++ x :: a)
    (hx : x.holds = need.map (fun l => l.entry)) (hx2 : x.settledHolds = []) (hw : ws.length ≤ needLimit)
    (hl : s.store.takeLines ws = some (t.store, need)) : t.storeOk := by
  obtain ⟨h1, h2, h3⟩ := h
  obtain ⟨k1, k2⟩ := h1.takeLines hl
  refine ⟨?_, ?_, ?_⟩
  · refine k1.congr (fun n => ?_) (fun n hn2 => ?_)
    · unfold State.uses
      rw [hq, ht]
      simp only [List.flatMap_append, List.flatMap_cons, hn, hx, List.count_append, List.nil_append]
      omega
    · unfold State.settledUses at *
      rw [ht] at hn2
      rw [hq]
      simpa [List.flatMap_append, hx2, settledHolds_nil hn] using hn2
  · intro y hy
    rw [ht] at hy
    rw [hq] at h2
    simp only [List.mem_append, List.mem_cons] at hy
    rcases hy with hy | hy | hy
    · exact h2 y (by simp [hy])
    · rw [hy, hx, List.length_map, k2]; exact hw
    · exact h2 y (by simp [hy])
  · rw [takeLines_withdrawn hl]; exact h3

/-- A position leaves and its entries are released or withdrawn. -/
theorem storeOk_leave {s t : State} (h : s.storeOk) {b a : List QueuePosition} {q : QueuePosition} {need : List NeedLine}
    (hq : s.system.queue = b ++ q :: a) (hn : q.holds = need.map (fun l => l.entry)) (ht : t.system.queue = b ++ a)
    (hs : (t.store = s.store.release need ∧ ∀ l ∈ need, (s.store.entry l.entry).state ≠ .filling) ∨ t.store = s.store.withdraw need) :
    t.storeOk := by
  obtain ⟨h1, h2, h3⟩ := h
  have hlen : need.length ≤ needLimit := by
    have := h2 q (by rw [hq]; simp)
    rw [hn] at this
    simpa using this
  have h4 : s.store.lawful (need.map (fun l => l.entry) ++ t.uses) t.settledUses := by
    refine h1.congr (fun n => ?_) (fun n hn2 => ?_)
    · unfold State.uses
      rw [hq, ht]
      simp only [List.flatMap_append, List.flatMap_cons, hn, List.count_append]
      omega
    · unfold State.settledUses at *
      rw [ht] at hn2
      rw [hq]
      simp only [List.flatMap_append, List.flatMap_cons, List.mem_append] at hn2 ⊢
      rcases hn2 with x | x <;> simp [x]
  have hD : ∀ m ∈ t.settledUses, m ∈ t.uses := fun m hm => settled_sub hm
  refine ⟨?_, ?_, ?_⟩
  · rcases hs with ⟨e, hf⟩ | e
    · rw [e]; exact h4.release hD hf
    · rw [e]; exact h4.withdraw hD
  · intro y hy
    rw [ht] at hy
    rw [hq] at h2
    exact h2 y (by simp only [List.mem_append, List.mem_cons] at hy ⊢; rcases hy with x | x <;> simp [x])
  · rcases hs with ⟨e, _⟩ | e
    · intro w hw
      rw [e, release_withdrawn] at hw
      exact h3 w hw
    · rw [e]; exact withdraw_waitsOk h3 hlen

/-- A read whose data have been produced holds its entries on. -/
theorem storeOk_produced {s t : State} (h : s.storeOk) {b a : List QueuePosition} {q x : QueuePosition}
    (hq : s.system.queue = b ++ q :: a) (ht : t.system.queue = b ++ x :: a) (hx : x.holds = q.holds)
    (hf : ∀ n ∈ q.holds, (s.store.entry n).state ≠ .filling) (hs : t.store = s.store) : t.storeOk := by
  obtain ⟨h1, h2, h3⟩ := h
  have hu : t.uses = s.uses := by
    unfold State.uses
    rw [hq, ht]
    simp [List.flatMap_append, hx]
  refine ⟨?_, ?_, by rw [hs]; exact h3⟩
  · rw [hs, hu]
    refine { h1 with settled := ?_ }
    intro n hn
    refine ⟨by rw [← hu]; exact settled_sub hn, ?_⟩
    unfold State.settledUses at hn
    rw [ht] at hn
    simp only [List.flatMap_append, List.flatMap_cons, List.mem_append] at hn
    rcases hn with k | k | k
    · exact (h1.settled n (by unfold State.settledUses; rw [hq]; simp only [List.flatMap_append, List.mem_append]; exact .inl k)).2
    · exact hf n (by rw [← hx]; exact settledHolds_sub k)
    · exact (h1.settled n (by
        unfold State.settledUses; rw [hq]
        simp only [List.flatMap_append, List.flatMap_cons, List.mem_append]; exact .inr (.inr k))).2
  · intro y hy
    rw [ht] at hy
    rw [hq] at h2
    simp only [List.mem_append, List.mem_cons] at hy
    rcases hy with hy | hy | hy
    · exact h2 y (by simp [hy])
    · rw [hy, hx]; exact h2 q (by simp)
    · exact h2 y (by simp [hy])

/-- Nothing held by an empty queue. -/
theorem storeOk_reset {s : State} (hq : s.system.queue = []) (hs : s.store = LineStore.reset) : s.storeOk := by
  refine ⟨?_, ?_, ?_⟩
  · unfold State.uses State.settledUses
    rw [hq, hs]
    exact LineStore.lawful.reset
  · rw [hq]; intro q h; cases h
  · rw [hs]; intro w h; cases h

/-! ### Room (R123) -/

/-- R121: a need set holds twelve lines at most. -/
theorem wantedLines_length (s : State) (offset count : Nat) : (s.wantedLines offset count).length ≤ needLimit := by
  unfold State.wantedLines
  split
  · next p g _ _ =>
    refine Nat.le_trans (List.length_filterMap_le _ _) ?_
    have hp : (match p.anchor with
      | some a => a.parity.toNat
      | none => 0) ≤ 1 := by
      split
      · next a _ => cases a.parity <;> decide
      · exact Nat.zero_le _
    have hr : ∃ t, ∀ r ∈ p.neededRows offset count, t ≤ r ∧ r ≤ t + 3 := by
      unfold Plan.neededRows
      split
      · exact taps_near _ _
      · exact ⟨0, fun r hr => by cases hr⟩
    obtain ⟨t, ht⟩ := hr
    exact needDraws_length _ _ hp ht
  · exact Nat.zero_le _

/-- R123: where fewer than four output reads are counted, the store has room for a need set. -/
theorem storeOk_room {s : State} (h : s.storeOk) (hl : s.store.entries.length = Config.storeEntries) (hc : s.counted < Config.outputLimit) :
    s.store.room needLimit := by
  obtain ⟨h1, h2, h3⟩ := h
  apply h1.room hl
  have a := uses_length h2
  have b := flatten_length h3
  unfold State.counted at hc
  unfold State.uses
  simp only [needLimit, Config.outputLimit, Config.storeEntries] at *
  omega

/-- R123: at most 48 entries have nonzero use counts. -/
theorem storeOk_held {s : State} (h : s.storeOk) (hc : s.countedOk) : s.store.entries.countP (fun e => decide (e.useCount ≠ 0)) ≤ 48 := by
  have a := uses_length h.2.1
  have b := h.1.held
  unfold State.countedOk State.counted at hc
  unfold State.uses at b
  simp only [needLimit, Config.outputLimit] at *
  omega

end Sys2Proof.Machine
end

