-- ==== Sys2Proof/Laws/UseSteps.lean ====
section
/-! SUPPORT. The laws of the line store across the operations that the commands are made of: takes, page writes, grants, returns,
responses and withdrawals (R118 to R131). -/

namespace Sys2Proof.Machine

open Host (Outcome)

/-- An outcome is a next state that has a property. -/
abbrev AnswersNext (o : Outcome State Fault Refusal) (p : State → Prop) : Prop := ∃ t, o = .next t ∧ p t

/-- A next state with the property. -/
theorem AnswersNext.next {s : State} {p : State → Prop} (h : p s) : AnswersNext (.next s) p := ⟨s, rfl, h⟩

/-- A change of a port at a position that holds no entry keeps the laws of the store. -/
theorem setPort_storeOk (port : Port) (f : QueuePosition → Option QueuePosition) (turn : QueuePosition → Bool) (p : PortState) {s : State} (h : s.storeOk)
   (hp : p.queue = replaceFirst turn f (s.port port).queue) (h1 : ∀ q, turn q = true → q.holds = []) (h2 : ∀ q x, turn q = true → f q = some x → x.holds = []) : (s.setPort port p).storeOk := by
  cases port
  · exact storeOk_congr h rfl rfl
  · exact storeOk_replace h (p := turn) (f := f) hp h1 h2 rfl

/-- The position the system port comes to holds no entry. -/
theorem systemTurn_holds {s : State} : ∀ q, s.systemTurn q = true → q.holds = [] := by
  intro q hq; apply holds_nil
  unfold State.systemTurn at hq; split at hq
  · simp [QueuePosition.isHeld] at hq; rw [hq]; rfl
  · simp [QueuePosition.isUntaken] at hq; rw [hq]; rfl

/-- The position the capture port comes to holds no entry. -/
theorem captureTurn_holds : ∀ q, captureTurn q = true → q.holds = [] := by
  intro q hq; apply holds_nil
  simp [captureTurn, QueuePosition.isUntaken] at hq; rw [hq]; rfl

/-- A position taken and not yet granted holds no entry. -/
theorem isUngranted_holds {o : Nat} : ∀ q : QueuePosition, QueuePosition.isUngranted o q = true → q.holds = [] := by
  intro q hq; apply holds_nil
  simp [QueuePosition.isUngranted] at hq
  cases e : q.progress <;> rw [e] at hq <;> first | rfl | (simp [Progress.ungranted] at hq)

/-- The laws of the store across a refusal (R146). -/
theorem refuseRequest_storeOk (port : Port) (turn : QueuePosition → Bool) (ht : ∀ q, turn q = true → q.holds = []) (r : Request) (reason : Reason) {s : State} (h : s.storeOk) : (refuseRequest port turn r reason s).storeOk := by
  unfold refuseRequest
  refine show State.storeOk _ from ?_
  refine setPort_storeOk port (refusedPosition s.takes reason) turn _ h rfl ht ?_
  intro q x _ hf
  unfold refusedPosition at hf; split at hf
  · cases hf
  · cases hf; rfl

/-- The laws of the store across a request that passes (R147). -/
theorem passRequest_storeOk (port : Port) (turn : QueuePosition → Bool) (ht : ∀ q, turn q = true → q.holds = []) (r : Request) (ws : List WriteWord) {s : State} (h : s.storeOk) : (passRequest port turn r ws s).storeOk := by
  unfold passRequest
  refine setPort_storeOk port (becomes (passedProgress s.takes r ws)) turn _ h rfl ht ?_
  intro q x _ hf
  unfold becomes at hf; cases hf
  apply holds_nil
  simp only [passedProgress]; split <;> rfl

/-- The laws of the store across a take on the capture port. -/
theorem takeCapture_storeOk (r : Request) {s : State} (h : s.storeOk) : (takeCapture r s).storeOk := by
  unfold takeCapture; split
  · exact refuseRequest_storeOk _ _ captureTurn_holds _ _ h
  · exact passRequest_storeOk _ _ captureTurn_holds _ _ h
  · have := (storeInner_closed.monitorWrite r s).storeOk h
    unfold finishMonitorWrite; split
    · exact refuseRequest_storeOk _ _ captureTurn_holds _ _ this
    · exact passRequest_storeOk _ _ captureTurn_holds _ _ this
  · exact h
  · exact h

/-- The laws of the store across a take on the system port. -/
theorem takeSystem_storeOk (r : Request) {s : State} (h : s.storeOk) : (takeSystem r s).storeOk := by
  unfold takeSystem; split
  · exact refuseRequest_storeOk _ _ systemTurn_holds _ _ h
  · exact passRequest_storeOk _ _ systemTurn_holds _ _ h
  · split
    · refine setPort_storeOk .system (becomes .held) s.systemTurn _ h rfl systemTurn_holds ?_
      intro q x _ hf; cases hf; rfl
    · exact h
  · exact h
  · exact h

/-- R123: the take of an output read always finds its entries, and keeps the laws of the store. -/
theorem takeOutputRead_storeOk {s : State} (h : s.deviceOk) {q : QueuePosition} (hn : s.nextSystem = some q) (hm : s.mustHold = false) : AnswersNext (takeOutputRead q.request s) State.storeOk := by
  have hso : s.storeOk := h.2
  have hle : s.store.entries.length = 64 := h.1.2.1.2.2.2.2.2.2
  have hcount : s.counted < 4 := by
    unfold State.mustHold State.heldTurn at hm
    simp at hm
    by_cases hc : s.counted < Config.outputLimit
    · exact hc
    · have : Config.outputLimit ≤ s.counted := Nat.le_of_not_lt hc
      omega
  unfold takeOutputRead takeOutput
  simp only
  have k := storeInner_closed.enterFrame (s.outputOffset q.request) s
  have kin := inner_closed.enterFrame (s.outputOffset q.request) s
  generalize enterFrame (s.outputOffset q.request) s = s1 at k kin
  have ho := k.storeOk hso
  have hroom : s1.store.room needLimit := by
    apply storeOk_room ho
    · rw [kin.store.entries]; exact hle
    · unfold State.counted at *; rw [k.system]; have := kin.store.withdrawn; simp only [Config.outputLimit] at *; omega
  have hlen := wantedLines_length s1 (s.outputOffset q.request) q.request.count
  obtain ⟨⟨st, need⟩, hst, _⟩ := takeLines_room (s1.wantedLines (s.outputOffset q.request) q.request.count) ⟨by have := hroom.1; omega, hroom.2⟩
  rw [hst]
  apply AnswersNext.next
  obtain ⟨hp, b, a, e, hb⟩ := find_split hn
  unfold placeOutput
  refine storeOk_take ho (b := b) (a := a) (q := q) (ws := s1.wantedLines (s.outputOffset q.request) q.request.count) (need := need) (x := { q with progress := .outputTaken s1.takes (({ s1 with store := st } : State).takenRead (s.outputOffset q.request) need) }) ?_ (systemTurn_holds q hp) ?_ ?_ ?_ hlen hst
  · rw [k.system]; exact e
  · simp only [PortState.take, PortState.acknowledge, PortState.replace, k.system, e]
    rw [replaceFirst_at hb hp]
    simp [becomes]
  · rfl
  · rfl

/-- The laws of the store across a control-page write. -/
theorem takePageWrite_storeOk (r : Request) {s : State} (h : s.storeOk) : (takePageWrite r s).storeOk := by
  unfold takePageWrite
  have h1 := passRequest_storeOk .system s.systemTurn systemTurn_holds r (writeWords r) h
  generalize passRequest .system s.systemTurn r (writeWords r) s = p at h1
  generalize pageWords s.pageBase r = ws
  unfold settingsWrite
  have h2 : ({ p with settings := p.settings.write ws } : State).storeOk := h1
  generalize ({ p with settings := p.settings.write ws } : State) = x at h2
  have h3 : (actImmediate ws x).storeOk := by
    unfold actImmediate
    have q1 : ∀ x : State, x.storeOk → (if touches ws 4 8 then actClear x else x).storeOk := by
      intro x hx; split
      · exact hx
      · exact hx
    have q2 : ∀ x : State, x.storeOk → (if touches ws 8 0xC then actReadIndex x else x).storeOk := by
      intro x hx; split
      · exact hx
      · exact hx
    have q3 : ∀ x : State, x.storeOk → (if touches ws 0xC 0x10 then actMask x else x).storeOk := by
      intro x hx; split
      · exact hx
      · exact hx
    exact q3 _ (q2 _ (q1 _ h2))
  unfold actHold; split
  · exact (storeInner_closed.holdRelease _).storeOk h3
  · exact h3

/-- The laws of the store across a row of the control-page writes. -/
theorem takePageRow_storeOk (row : List PageWord → Settings → Bool) {s : State} (h : s.storeOk) : AnswersNext (takePageRow row s) State.storeOk := by
  unfold takePageRow; split
  · split
    · exact AnswersNext.next (takePageWrite_storeOk _ h)
    · exact AnswersNext.next h
  · exact AnswersNext.next h

/-- The laws of the store across a grant whose action keeps them. -/
theorem grantTo_storeOk (r : Requester) (us : List Upset) (act : State → State) {s : State} (h : s.storeOk)
   (k : ∀ u : State, u.storeOk → (act u).storeOk) : AnswersNext (grantTo r us act s) State.storeOk := by
  unfold grantTo; split
  · exact AnswersNext.next (k _ h)
  · exact AnswersNext.next h

/-- The laws of the store across the report of check errors (R155). -/
theorem raiseChecks_storeOk (r : Requester) (x : Transfer) (a : Nat) (cs : List CheckResult) {s : State} (h : s.storeOk) : (raiseChecks r x a cs s).storeOk := by
  unfold raiseChecks; simp only
  split
  · exact h
  · split
    · exact h
    · exact h

/-- The laws of the store across a grant to a port. -/
theorem grantPort_storeOk (port : Port) (rq : Requester) {s : State} (h : s.storeOk) : (grantPort port rq s).storeOk := by
  unfold grantPort; split
  · exact h
  · split
    · next order ws _ =>
      unfold grantWrite
      apply raiseChecks_storeOk
      exact setPort_storeOk port (fun _ => none) (QueuePosition.isUngranted order) _ h rfl isUngranted_holds (by intro q x _ hf; cases hf)
    · next order _ =>
      unfold grantRead
      apply raiseChecks_storeOk
      exact setPort_storeOk port (becomes (.readGranted order _ _ 0)) (QueuePosition.isUngranted order) _ h rfl isUngranted_holds (by intro q x _ hf; cases hf; rfl)
    all_goals exact h

/-- The laws of the store across a grant to REPORT. -/
theorem grantReport_storeOk (c : ReportChoice) (act : State → State) {s : State} (h : s.storeOk)
   (k : ∀ u : State, u.storeOk → (act u).storeOk) : AnswersNext (grantReport c act s) State.storeOk := by
  unfold grantReport; split
  · exact grantTo_storeOk _ _ _ h k
  · exact AnswersNext.next h

/-- The laws of the store across the choice of REPORT (R177). -/
theorem chooseReport_storeOk (c : ReportChoice) {s : State} (h : s.storeOk) : (chooseReport c s).storeOk := by
  unfold chooseReport; split <;> exact h

/-- The laws of the store across the return of a reload burst (R172). -/
theorem returnReload_storeOk {s : State} (h : s.storeOk) : (returnReload s).storeOk := by
  unfold returnReload; split
  · split
    · exact h
    · simp only; split
      · unfold reloadEnd; simp only; split
        · exact (storeInner_closed.holdRelease _).storeOk h
        · exact h
      · exact h
  · exact h
  · exact h

/-- The laws of the store across the grant of a reload burst (R172). -/
theorem grantReload_storeOk {s : State} (h : s.storeOk) : (grantReload s).storeOk := by
  unfold grantReload; split
  · split
    · apply raiseChecks_storeOk; exact h
    · exact h
  · exact h
  · exact h

/-- R131: the laws of the store across a withdrawal. -/
theorem dropRead_storeOk (tag : BitVec 4) (o : OutputRead) {s : State} (h : s.storeOk) (hw : s.withdrawn tag = some o) : (dropRead tag o s).storeOk := by
  unfold State.withdrawn at hw
  cases hf : s.system.queue.find? (QueuePosition.takenWith tag) with
  | none => rw [hf] at hw; cases hw
  | some q =>
    rw [hf] at hw
    simp only [Option.bind_some] at hw
    have hout : q.holds = o.need.map (fun l => l.entry) := by
      unfold QueuePosition.withdrawable at hw
      split at hw
      · next e => split at hw
                  · cases hw; simp [QueuePosition.holds, e]
                  · cases hw
      all_goals cases hw
    obtain ⟨hp, b, a, e, hb⟩ := find_split hf
    refine storeOk_leave h (b := b) (a := a) (q := q) (need := o.need) e hout ?_ (.inr rfl)
    simp only [dropRead, PortState.replace]
    rw [e, replaceFirst_at hb hp]; simp

/-- The laws of the store across the grant of a fill burst. -/
theorem grantFill_storeOk {u : State} (hu : u.storeOk) : (grantFill u).storeOk := by
  unfold grantFill; split
  · exact hu
  · next n b hp =>
    apply raiseChecks_storeOk
    exact ⟨hu.1.grant _ _ hp, hu.2.1, hu.2.2⟩

/-- R130: the laws of the store across the return of words of an output read. -/
theorem outputReadData_storeOk (count : Nat) {s : State} (h : s.storeOk) : AnswersNext (execOutputReadData count s) State.storeOk := by
  unfold execOutputReadData; split
  · split
    · next q hq =>
      split
      · next order o ho =>
        split
        · next hr =>
          apply AnswersNext.next
          obtain ⟨b, a, e, hb⟩ := leastBy_first (n := order) hq (by rw [ho]; rfl)
          have hq1 : QueuePosition.isRead order q = true := by simp [QueuePosition.isRead, ho, Progress.readOrder]
          have hq2 : ∀ x ∈ b, QueuePosition.isRead order x = false := fun x hx => by simp [QueuePosition.isRead, hb x hx]
          have hh : q.holds = o.need.map (fun l => l.entry) := by simp [QueuePosition.holds, ho]
          have nf : ∀ n ∈ q.holds, (s.store.entry n).state ≠ .filling := by
            intro n hn
            unfold OutputRead.ready at hr
            rw [Bool.or_eq_true] at hr
            rcases hr with hr | hr
            · refine (h.1.settled n ?_).2
              unfold State.settledUses; rw [e]
              simp only [List.flatMap_append, List.flatMap_cons, List.mem_append]
              refine .inr (.inl ?_)
              simp only [QueuePosition.settledHolds, ho, hr, if_true]
              rw [← hh]; exact hn
            · rw [hh] at hn
              obtain ⟨l, hl, rfl⟩ := List.mem_map.1 hn
              simp only [LineStore.anyFilling, Bool.not_eq_true', List.any_eq_false, decide_eq_true_eq] at hr
              exact hr l hl
          unfold returnOutput; simp only
          split
          · refine storeOk_leave h (b := b) (a := a) (q := q) (need := o.need) e hh ?_ (.inl ⟨rfl, ?_⟩)
            · simp only [PortState.respond, PortState.replace]
              rw [e, replaceFirst_at hq2 hq1]; simp
            · intro l hl
              exact nf _ (by rw [hh]; exact List.mem_map_of_mem hl)
          · refine storeOk_produced h (b := b) (a := a) (q := q) (x := { q with progress := .outputTaken order { o with words := some (o.produced s.store q.request.count), returned := o.returned + count } }) e ?_ ?_ nf rfl
            · simp only [PortState.respond, PortState.replace]
              rw [e, replaceFirst_at hq2 hq1]; simp [becomes]
            · rw [hh]; rfl
        · exact AnswersNext.next h
      all_goals exact AnswersNext.next h
    · exact AnswersNext.next h
  · exact AnswersNext.next h

/-- The laws of the store where the read that responds holds no entry. -/
theorem swapRead_storeOk (port : Port) (p : PortState) {s : State} (h : s.storeOk) {q : QueuePosition} {order : Nat} {f : QueuePosition → Option QueuePosition}
   (hq : (s.port port).firstResponse = some q) (ho : q.progress.readOrder = some order) (hn : q.holds = []) (hf : ∀ x, f q = some x → x.holds = [])
   (hp : p.queue = replaceFirst (QueuePosition.isRead order) f (s.port port).queue) : (s.setPort port p).storeOk := by
  cases port
  · exact storeOk_congr h rfl rfl
  · obtain ⟨b, a, e, hb⟩ := leastBy_first (n := order) hq ho
    have e : s.system.queue = b ++ q :: a := e
    refine storeOk_swap h e hn (l := (f q).toList) ?_ (by intro x hx; exact hf x (by simpa using hx)) rfl
    show p.queue = _
    rw [hp]
    show replaceFirst _ _ s.system.queue = _
    rw [e, replaceFirst_at (fun x hx => by simp [QueuePosition.isRead, hb x hx]) (by simp [QueuePosition.isRead, ho])]

end Sys2Proof.Machine
end

