-- ==== Sys2Proof/Tests/Slice0.lean ====
section
/-! SUPPORT. Tests: the checks of WellFormed on ill-formed terms, one or two small theorems for each command, and for each statement
with hypotheses a witness that meets them, clause by clause. -/

namespace Sys2Proof.Tests

set_option Elab.async false

open Sys2Proof.Machine
open Host (Outcome)

/-! ### Small states -/

/-- What a command leaves of a state, the state itself where it answers no next state. -/
def after (c : Instr) (s : State) : State :=
  match exec c s with
  | .next t => t
  | .fault _ => s
  | .refused _ => s

/-- A whole word of a write. -/
def whole (d : Word) : WriteWord := { data := d, enables := 15 }
/-- A write request of whole words. -/
def wr (addr : Word) (ws : List Word) : Request := { addr := addr, body := .write (ws.map whole), tag := 3 }
/-- A read request. -/
def rd (addr : Word) (n : Nat) : Request := { addr := addr, body := .read n, tag := 5 }
/-- A queue position. -/
def pos (r : Request) (p : Progress) : QueuePosition := { request := r, progress := p }

/-- Four windows: FIELD_RING, OUTPUT, STATUS, GUARD. -/
def table : List WindowEntry :=
  [{ base := 0x10000, size := 0x80000, kind := .fieldRing }, { base := 0x100000, size := 0x100000, kind := .output },
    { base := 0x200000, size := 0x10000, kind := .status }, { base := 0x210000, size := 0x10000, kind := .guard }] ++
    List.replicate 4 { base := 0, size := 0, kind := .off }

/-- An ingest group of four slots of 120 lines of 256 words. -/
def group : IngestGroup :=
  { w := 256, l := 120, k := 4, slotPitch := 130624, linePitch := 1088, stallLimit := 21, e22 := 8, allow22 := true, allow32 := true
    floorF := 8, thresholdR := 4 }

/-- An output group of 640 by 240 with the box over all of it. -/
def raster : OutputGroup :=
  { wo := 640, ho := 240, pitch := 2560, x0 := 0, y0 := 0, wi := 640, hi := 240, fillY := 64, fillC := 512, tLo := 16, tHi := 64
    override := .auto, custom := false }

/-- The device with its windows and groups working. -/
def live : State :=
  { State.reset with
    windows := table
    settings := { Settings.powerOn with ingest := some group, output := some raster } }

/-- The device with one capture position. -/
def cap (q : QueuePosition) (s : State) : State := { s with capture := { s.capture with queue := [q] } }
/-- The device with one system position. -/
def sys (q : QueuePosition) (s : State) : State := { s with system := { s.system with queue := [q] } }
/-- The device with an untaken capture request. -/
def capNew (r : Request) (s : State) : State := cap (pos r .untaken) s
/-- The device with an untaken system request. -/
def sysNew (r : Request) (s : State) : State := sys (pos r .untaken) s

/-- An opening burst into slot 0: capture count 7, BOTTOM, tags present. -/
def opening : Request := wr 0x10000 [7, 3]
/-- The device with that field FILLING. -/
def filling : State := after .captureRequestTake (capNew opening live)
/-- The end mark of that field. -/
def mark : Request := wr 0x10010 [7]

/-- A record with every line GOOD. -/
def goodRecord (n : FieldNo) (slot : Nat) (p : Parity) (label : Option CadenceLabel) (m : Option Metrics) : FieldRecord :=
  { number := n, slot := slot, captureCount := n, parity := p, tagsPresent := false, state := .complete, stalled := false
    continuity := { first := false, gap := false, parityRepeat := false, afterCut := false }
    lines := List.replicate 120 { LineEntry.fresh with extent := 256, final := some .good }, metrics := m, label := label
    referenced := Roles.empty }

/-- The device with some records. -/
def holding (rs : List FieldRecord) : State := { live with history := { records := rs, next := 9 } }

/-- Two closed fields. -/
def twoFields : State := holding [goodRecord 1 0 .top none none, goodRecord 2 1 .bottom none none]

/-- An output read of four words of row 0. -/
def firstRow : Request := rd 0x100000 4
/-- The device after the take of that read: one fill for each line it needs. -/
def reading : State := after .outputReadTake (sysNew firstRow twoFields)

/-! ### Well-formedness -/

theorem test_request_of_no_words_is_ill_formed : (Instr.captureArrival (rd 0 0)).wf = false := by decide
theorem test_request_of_33_words_is_ill_formed : (Instr.systemArrival (rd 0 33)).wf = false := by decide
theorem test_request_of_32_words_is_well_formed : (Instr.systemArrival (rd 0 32)).wf = true := by decide
theorem test_write_of_no_words_is_ill_formed : (Instr.captureArrival (wr 0 [])).wf = false := by decide
theorem test_write_of_33_words_is_ill_formed : (Instr.captureArrival (wr 0 (List.replicate 33 0))).wf = false := by decide
theorem test_upset_outside_the_address_space_is_ill_formed :
    (Instr.captureBurstGrant [{ index := 1073741824, flips := 1 }]).wf = false := by decide
theorem test_upset_without_flips_is_ill_formed : (Instr.systemBurstGrant [{ index := 0, flips := 0 }]).wf = false := by decide
theorem test_upset_of_the_last_word_is_well_formed :
    (Instr.captureBurstGrant [{ index := 1073741823, flips := 1 }]).wf = true := by decide
theorem test_ill_formed_upset_of_a_part_is_ill_formed :
    (Instr.fillBurstReturn (.grant [{ index := 0, flips := 0 }])).wf = false ∧
      (Instr.probeBurstReturn (.grant [{ index := 0, flips := 0 }])).wf = false ∧
      (Instr.reloadBurstReturn (.grant [{ index := 1073741824, flips := 1 }])).wf = false := by decide
theorem test_response_of_no_words_is_ill_formed : (Instr.outputReadData 0).wf = false ∧
    (Instr.passThroughReadResponse .capture 0).wf = false := by decide
theorem test_response_of_33_words_is_ill_formed : (Instr.outputReadData 33).wf = false ∧
    (Instr.passThroughReadResponse .system 33).wf = false := by decide

/-! ### Commands -/

theorem test_powerOn : (after (.powerOn 2 5) live).straps = { dsize := 2, cpage := 5 } ∧ (after (.powerOn 2 5) live).windows = windowsOff ∧
    (after (.powerOn 2 5) live).dramSize = 2147483648 ∧ (after (.powerOn 2 5) live).pageBase = 0x5000000 := by decide
theorem test_warmResetAssert : (after .warmResetAssert filling).phase = .asserted ∧
    (after .warmResetAssert filling).history.records = [] ∧ (after .warmResetAssert filling).capture.queue = [] := by decide +kernel
theorem test_resetRelease : (after (.resetRelease 1 2) (after .warmResetAssert live)).phase =
    .reloading { granted := 0, returned := 0, inFlight := [] } := by decide
theorem test_resetRelease_outside_reset : exec (.resetRelease 1 2) live = .next live := rfl
theorem test_reloadBurstReturn_grant :
    (after (.reloadBurstReturn (.grant [])) (after (.resetRelease 0 0) (after .warmResetAssert live))).phase =
      .reloading { granted := 1, returned := 0, inFlight := [List.replicate 32 0] } := by decide +kernel
theorem test_reloadBurstReturn_last : (after (.reloadBurstReturn .ret)
    { live with phase := .reloading { granted := 32, returned := 31, inFlight := [List.replicate 32 0] } }).phase = .running := by
  decide +kernel
theorem test_captureArrival : (after (.captureArrival opening) live).capture.queue = [pos opening .untaken] := by decide
theorem test_captureArrival_full : (after (.captureArrival opening)
    { live with capture := { live.capture with queue := List.replicate 16 (pos opening .untaken) } }).capture.queue.length = 16 := by
  decide
theorem test_captureRequestTake_opens : filling.history.records.map (fun r => (r.number, r.slot, r.captureCount, r.parity, r.state)) =
    [(1, 0, 7, .bottom, .filling)] ∧ filling.monitor.timerRunning = true := by decide +kernel
theorem test_captureRequestTake_closes : (after .captureRequestTake (capNew mark filling)).history.records.map (fun r => (r.state,
    countState r.lines .missing)) = [(.complete, 120)] := by decide +kernel
theorem test_stallTimerExpiry : (after .stallTimerExpiry filling).history.records.map (fun r => (r.state, r.stalled)) = [(.cut, true)] ∧
    (after .stallTimerExpiry filling).cond.occurred = 0x0001f#20 &&& (after .stallTimerExpiry filling).cond.occurred := by
  decide +kernel
theorem test_systemArrival : (after (.systemArrival firstRow) live).system.queue = [pos firstRow .untaken] := by decide
theorem test_systemRequestTake_refuses : (after .systemRequestTake (sysNew (wr 0x210000 [1]) live)).system.acks =
    [{ tag := 3, body := .writeStatus .accessError }] ∧
      (after .systemRequestTake (sysNew (wr 0x210000 [1]) live)).cond.occurred = 0x4000#20 := by decide +kernel
theorem test_systemRequestTake_passes : (after .systemRequestTake (sysNew (wr 0x300000 [1]) live)).system.queue =
    [pos (wr 0x300000 [1]) (.writeTaken 0 [whole 1])] := by decide +kernel
theorem test_outputReadTake_fills : reading.planner.frame = 1 ∧ reading.store.fillQueue.length = 2 ∧
    reading.system.acks = [{ tag := 5, body := .readClass true }] := by decide +kernel
theorem test_outputReadTake_without_fields : (after .outputReadTake (sysNew firstRow live)).system.acks =
    [{ tag := 5, body := .readClass false }] := by decide +kernel
theorem test_controlPageWrite : (after .controlPageWrite (sysNew (wr 0x14 [99]) live)).settings.at 0x14 = 99 ∧
    (after .controlPageWrite (sysNew (wr 0x14 [99]) live)).settings.memoryPending = true := by decide +kernel
theorem test_holdWordWrite : (after .holdWordWrite (sysNew (wr 0 [0])
    { live with settings := { live.settings with copy := [(5, 99)], memoryPending := true } })).settings.memory =
      { coupled := false, interval := 100 } := by decide +kernel
theorem test_clearOccurredBits : (after .clearOccurredBits (sysNew (wr 4 [6])
    { live with cond := { live.cond with occurred := 7 } })).cond.occurred = 1#20 := by decide +kernel
theorem test_clearFirstFaultRecord : (after .clearFirstFaultRecord (sysNew (wr 4 [0x80000000]) { live with memPort := { live.memPort with
    firstFault := some { addr := 0, requester := .fill, transfer := .read, multi := false } } })).memPort.firstFault = none := by
  decide +kernel
theorem test_reportReadIndexWrite : (after .reportReadIndexWrite (sysNew (wr 8 [65]) live)).cond.readIndex = 1#6 := by decide +kernel
theorem test_reportMaskWrite : (after .reportMaskWrite (sysNew (wr 12 [0x100003]) live)).cond.mask = 3#20 := by decide +kernel
theorem test_withdrawal : (after (.withdrawal 5) reading).system.queue = [] ∧ (after (.withdrawal 5) reading).counted = 1 := by
  decide +kernel
theorem test_outputReadData : ((after (.outputReadData 4) (after .outputReadTake (sysNew firstRow live))).system.responses) =
    [{ tag := 5, status := .ok, words := List.replicate 4 (outputWord 64 512), last := true }] := by decide +kernel
theorem test_passThroughReadResponse : (after (.passThroughReadResponse .capture 1)
    (cap (pos (rd 0 2) (.readGranted 0 [8, 9] true 0)) live)).capture.responses =
      [{ tag := 5, status := .dataError, words := [8], last := false }] := by decide +kernel
theorem test_refusedReadResponse : (after (.refusedReadResponse .system) (sys (pos (rd 0 2) (.readRefused 0 .addressError)) live)).system =
    { queue := [], acks := [], responses := [{ tag := 5, status := .addressError, words := [], last := true }] } := by decide +kernel
theorem test_captureBurstGrant : (after (.captureBurstGrant []) (cap (pos (wr 0x300000 [0x04030201]) (.writeTaken 0 [whole 0x04030201]))
    live)).dram.bytes = [(0x300000, 1), (0x300001, 2), (0x300002, 3), (0x300003, 4)] := by decide +kernel
theorem test_systemBurstGrant : (after (.systemBurstGrant [{ index := 0xC0000, flips := 1 }]) (sys (pos (rd 0x300000 1) (.readTaken 0))
    live)).system.queue = [pos (rd 0x300000 1) (.readGranted 0 [0] false 0)] := by decide +kernel
theorem test_fillBurstReturn : (after (.fillBurstReturn .ret) (after (.fillBurstReturn (.grant [])) reading)).store.entries.head?.map
    (fun e => e.data.length) = some 32 := by decide +kernel
theorem test_probeBurstReturn : (after (.probeBurstReturn .ret) { live with probe := { live.probe with
    inFlight := [{ line := 2, role := .own, words := [], failed := true }]
    table := [{ line := 2, status := .pending, repeatSum := 0, combSum := 0 }] } }).probe.table =
      [{ line := 2, status := .invalid .checkFailed, repeatSum := 0, combSum := 0 }] := by decide +kernel
theorem test_refreshGrant : (after .refreshGrant { live with memPort := { live.memPort with refreshPending := 8 } }).memPort.refreshPending =
    7 := by decide +kernel
theorem test_recordBurstGrant_chooses : (after (.recordBurstGrant .choose) { live with cond := { live.cond with
    queue := [List.replicate 8 1], readIndex := 5 } }).cond.chosen = some .record := by decide +kernel
theorem test_recordBurstGrant_writes : (after (.recordBurstGrant .grant) { live with cond := { live.cond with
    queue := [List.replicate 8 1], readIndex := 5 } }).dram.readRaw (0x200120 / 4) = 1 := by decide +kernel
theorem test_statusBlockGrant_chooses : (after (.statusBlockGrant .choose) { live with cond := { live.cond with
    statusPending := true } }).cond.chosen = some .status := by decide +kernel
theorem test_statusBlockGrant_writes : (after (.statusBlockGrant .grant) { live with cond := { live.cond with
    statusPending := true } }).dram.readRaw ((0x200000 + 56) / 4) = 1 := by decide +kernel
theorem test_refreshIntervalExpiry : (after .refreshIntervalExpiry live).memPort.refreshPending = 1 := by decide +kernel
theorem test_refreshReqEdge : (after .refreshReqEdge live).memPort.refreshPending = 0 ∧ (after .refreshReqEdge
    { live with settings := { live.settings with memory := { coupled := true, interval := 210 } } }).memPort.refreshPending = 1 := by
  decide +kernel

/-! ### Witnesses: the step, resets and ports

Each theorem shows, clause by clause, a state and operands that meet the hypotheses of the statement it is named after. -/

/-- The stall timer running with a count. -/
def timed (n : Nat) : State := { live with monitor := { live.monitor with timerRunning := true, timerCount := n } }
/-- The interval timer with a count, and a number of pending refreshes. -/
def interval (n refresh : Nat) : State := { live with memPort := { live.memPort with intervalCount := n, refreshPending := refresh } }
/-- COUPLED refresh. -/
def coupledState (refresh : Nat) : State :=
  { interval 0 refresh with settings := { live.settings with memory := { coupled := true, interval := 210 } } }
/-- A phase. -/
def inPhase (p : Phase) : State := { live with phase := p }

theorem witness_StepRunsFrontCommand :
    ({ live with pending := [.refreshGrant, .refreshReqEdge] } : State).pending = .refreshGrant :: [.refreshReqEdge] := rfl

theorem witness_StepWithNoCommandCountsOneTick : live.pending = [] ∧ live.monitor.timerRunning = false ∧
    ((timed 2097150).monitor.timerRunning = true ∧ (timed 2097150).monitor.timerCount + 1 < 2 ^ (timed 2097150).stallLimit) ∧
    (2 ^ (timed 2097151).stallLimit ≤ (timed 2097151).monitor.timerCount + 1 ∧ (timed 2097151).phase ≠ .asserted) ∧
    (coupledState 0).settings.memory.coupled = true ∧
    ((interval 208 0).settings.memory.coupled = false ∧
      (interval 208 0).memPort.intervalCount + 1 < (interval 208 0).settings.memory.interval) ∧
    (interval 209 8).settings.memory.interval ≤ (interval 209 8).memPort.intervalCount + 1 ∧
    (coupledState 0).pending = [] ∧ (timed 2097151).pending = [] ∧ (interval 209 8).pending = [] := by decide +kernel

theorem witness_WarmResetAssertionDiscardsRequestsAndKeepsDram :
    (after .warmResetAssert (interval 0 1)).grantee = some .refresh := by decide +kernel

/-- The reload with so many bursts granted and returned. -/
def reload (granted returned : Nat) (inFlight : List (List Word)) : State :=
  inPhase (.reloading { granted := granted, returned := returned, inFlight := inFlight })

theorem witness_ReleaseReloadsThePendingCopy : (inPhase .asserted).phase = .asserted ∧
    ((reload 0 0 []).grantee = some .system ∧ (reload 31 31 []).grantee = some .system) ∧
    (∃ i < 32, (((reload 31 31 []).dram.disturbAll [{ index := 992, flips := 3 }]).readChecked ((reload 31 31 []).pageBase / 4 + 32 * 31 + i)).2 =
      .failed) ∧
    (reload 32 30 [[1], [2]]).phase = .reloading { granted := 32, returned := 30, inFlight := [[1], [2]] } ∧
    sparseWf (0 : Word) (reload 32 30 [[1], [2]]).settings.copy := by decide +kernel

/-- The last return of a reload whose page holds only this hold word. -/
def lastReturn (hold : Word) : State :=
  { reload 32 31 [List.replicate 32 0] with settings := { live.settings with copy := if hold = 0 then [] else [(0, hold)] } }

theorem witness_ReloadEndLoadsOrHoldsTheGroups :
    (lastReturn 0).history.filling = none ∧ (lastReturn 0).planner.plan = none ∧ sparseWf (0 : Word) (lastReturn 0).settings.copy ∧
    sparseWf (0 : Word) (lastReturn 1).settings.copy ∧
    (after (.reloadBurstReturn .ret) (lastReturn 0)).settings.at 0 = 0 ∧
    (after (.reloadBurstReturn .ret) (lastReturn 1)).settings.at 0 ≠ 0 := by decide +kernel

/-- Both queues with a number of positions. -/
def queued (n m : Nat) : State :=
  { live with
    capture := { live.capture with queue := List.replicate n (pos opening .untaken) }
    system := { live.system with queue := List.replicate m (pos firstRow .untaken) } }

theorem witness_ArrivalTakesTheNewestPosition : opening.wf = true ∧ (rd 0 1).wf = true ∧ (rd 0 32).wf = true ∧
    (queued 15 7).phase ≠ .asserted ∧ (queued 15 7).capture.queue.length < 16 ∧ (queued 15 7).system.queue.length < 8 ∧
    16 ≤ (queued 16 8).capture.queue.length ∧ 8 ≤ (queued 16 8).system.queue.length ∧ (inPhase .asserted).phase = .asserted := by
  decide +kernel

/-- A queue with a taken read before a request and an untaken one behind it. -/
def among (r : Request) : List QueuePosition := [pos (rd 0x300000 1) (.readTaken 0)] ++ pos r .untaken :: [pos firstRow .untaken]
/-- Both ports with that queue. -/
def both (r : Request) : State :=
  { live with capture := { live.capture with queue := among r }, system := { live.system with queue := among r } }

theorem witness_RefusedRequestChangesNothingElse : (both opening).phase = .running ∧
    (∀ p ∈ [pos (rd 0x300000 1) (.readTaken 0)], p.progress ≠ .untaken ∧ (both opening).systemTurn p = false) ∧
    (both opening).systemTurn (pos opening .untaken) = true ∧
    (both (wr 0x210000 [1])).judge .capture (wr 0x210000 [1]) = .refuse .writeToGuard ∧
    (both firstRow).judge .capture firstRow = .refuse .outputFromCapture ∧
    (both opening).judge .system opening = .refuse .ringWriteFromSystem ∧
    (both (rd 0x20000000 1)).judge .system (rd 0x20000000 1) = .refuse .beyondDram := by decide +kernel

theorem witness_PassedRequestWaitsForItsGrant : (both (wr 0x300000 [1])).phase = .running ∧
    (∀ p ∈ [pos (rd 0x300000 1) (.readTaken 0)], p.progress ≠ .untaken ∧ (both (wr 0x300000 [1])).systemTurn p = false) ∧
    (both (wr 0x300000 [1])).systemTurn (pos (wr 0x300000 [1]) .untaken) = true ∧
    (both (wr 0x300000 [1])).judge .capture (wr 0x300000 [1]) = .pass ∧
    (both (rd 0x1FFFFFFC 1)).judge .system (rd 0x1FFFFFFC 1) = .pass := by decide +kernel

/-- A taken output read of no lines. -/
def taken (order : Nat) (deferred : Bool) : QueuePosition :=
  pos firstRow (.outputTaken order
    { deferred := deferred, plan := none, offset := 0, fillY := 64, fillC := 512, need := [], words := none, returned := 0 })

/-- So many counted output reads before one in some progress. -/
def counting (n : Nat) (p : Progress) : State :=
  { live with system := { live.system with queue := (List.range n).map (fun i => taken i false) ++ [pos firstRow p] } }

theorem witness_OutputReadOverTheLimitIsHeld : 4 ≤ (counting 4 .untaken).counted ∧
    (∀ p ∈ (List.range 4).map (fun i => taken i false), p.progress ≠ .untaken) ∧
    (counting 4 .untaken).judge .system firstRow = .toOutput ∧ (counting 3 .held).counted < 4 ∧
    (∀ p ∈ (List.range 3).map (fun i => taken i false), p.progress ≠ .held) := by decide +kernel

theorem witness_RouterJudgesInTheOrderOfItsSteps : 2 ^ 32 < endAddr (rd 0xFFFFFFFC 2) ∧ endAddr (rd 0xFFFFFFFC 1) ≤ 2 ^ 32 ∧
    (∃ a ∈ wordAddrs (rd 0x1FFFFC 2), live.region a ≠ live.region (firstAddr (rd 0x1FFFFC 2))) ∧
    (∀ a ∈ wordAddrs (rd 0x1FFFFC 1), live.region a = live.region (firstAddr (rd 0x1FFFFC 1))) ∧
    permission .capture false (live.region (firstAddr (rd 0x1FFFFC 1))) ≠ .pass ∧
    permission .system true (live.region (firstAddr (wr 0x1FFFFFFC [1]))) = .pass ∧
    endAddr (wr 0x1FFFFFFC [1]) = live.dramSize ∧ live.dramSize < endAddr (wr 0x1FFFFFFC [1, 2]) ∧
    live.judge .system (wr 0x1FFFFFFC [1]) = .pass ∧ isWriteRequest (wr 0x1FFFFFFC [1]) = true := by decide +kernel

theorem witness_WithdrawalDropsADeferredRead :
    (∀ p ∈ [pos (rd 0x300000 1) .untaken], p.progress.taken = true → p.request.tag ≠ firstRow.tag) ∧
    (∀ q order o, ({ live with system := { live.system with queue := [taken 0 false] } } : State).system.queue.find?
        (fun p => p.progress.taken && decide (p.request.tag = 5)) = some q → q.progress = .outputTaken order o →
      o.deferred = false ∨ o.returned ≠ 0) ∧
    (∀ q order o, live.system.queue.find? (fun p => p.progress.taken && decide (p.request.tag = 5)) = some q →
      q.progress = .outputTaken order o → o.deferred = false ∨ o.returned ≠ 0) := by
  refine ⟨by decide, ?_, ?_⟩
  · intro q order o h hq
    cases h
    cases hq
    exact .inl rfl
  · intro q order o h
    cases h

theorem witness_ResponsesFollowTakeOrder : ({ live.system with queue := [taken 4 true, taken 1 false, taken 2 true] } : PortState).firstResponse =
    some (taken 1 false) := by decide +kernel

theorem witness_OutputReadReturnsItsWordsInOrder :
    (counting 1 .untaken).system.firstResponse = some (taken 0 false) ∧
    (∀ p ∈ [pos (rd 0x300000 1) .untaken], p.progress.readOrder ≠ some 0) ∧
    (0 + 3 < (List.replicate 4 (outputWord 64 512)).length ∧ (List.replicate 4 (outputWord 64 512)).length ≤ 0 + 4) := by decide +kernel

theorem witness_PortReadsReturnTheirWordsOrStatus :
    ((cap (pos (rd 0 2) (.readGranted 0 [8, 9] false 0)) live).port .capture).firstResponse =
      some (pos (rd 0 2) (.readGranted 0 [8, 9] false 0)) ∧
    ((sys (pos (rd 0 2) (.readRefused 0 .accessError)) live).port .system).firstResponse =
      some (pos (rd 0 2) (.readRefused 0 .accessError)) ∧
    (∀ p ∈ [pos opening .untaken], p.progress.readOrder ≠ some 0) := by decide +kernel

/-! ### Witnesses: field ingest -/

/-- A line entry with an extent and a recorded tag, if any. -/
def entry (e : Nat) (overlong : Bool) (tag : Option Word) : LineEntry :=
  { extent := e, overlong := overlong, tagWritten := tag.isSome, tag := tag.getD 0, final := none }

theorem witness_FinalLineStateIsTheFirstWhoseTestHolds :
    [finalState 256 true 5 (entry 0 true none), finalState 256 true 5 (entry 1 false none), finalState 256 true 5 (entry 1 false (some 6)),
      finalState 256 true 5 (entry 1 false (some 0x2005)), finalState 256 true 5 (entry 1 false (some 0x1005)),
      finalState 256 true 5 (entry 191 false (some 5)), finalState 256 false 5 (entry 192 false none),
      finalState 256 true 5 (entry 255 true (some 5)), finalState 256 true 5 (entry 256 true (some 5)),
      finalState 256 true 5 (entry 256 false (some 5))] =
    [.missing, .slipped, .slipped, .slipped, .dropout, .short, .held, .held, .overlong, .good] := by decide +kernel

/-- The ring of the live device. -/
def ring : Ring := { base := 0x10000, slots := 4, slotPitch := 130624, linePitch := 1088, width := 256, lines := 120 }

theorem witness_PixelPartExtendsAJoinedPrefix : (∃ r, filling.history.filling = some r ∧ 119 < r.lines.length) ∧
    255 + [whole 1].length ≤ ring.width ∧ 0 + (List.replicate 32 (whole 1)).length ≤ ring.width ∧ filling.ring = some ring := by
  refine ⟨?_, by decide, by decide, by decide +kernel⟩
  cases h : filling.history.filling with
  | none => exact absurd h (by decide +kernel)
  | some r =>
    have : filling.history.filling.map (fun r => r.lines.length) = some 120 := by decide +kernel
    rw [h] at this
    have e : r.lines.length = 120 := by simpa using this
    exact ⟨r, rfl, by omega⟩

theorem witness_OpeningBurstAdmitsANewField :
    ((capNew opening live).judge .capture opening = .toMonitor ∧ (capNew opening live).ring = some ring ∧
      spansSlots (ring.areaWords opening) = false ∧ slotOf (ring.areaWords opening) = some 0 ∧
      covers (ring.areaWords opening) 0 = true ∧ covers (ring.areaWords opening) 1 = true ∧
      (capNew opening live).loadsAtOpening = false ∧ (capNew opening live).monitor.acquisition = .off) ∧
    live.monitor.note = none ∧
    (filling.monitor.note = some { field := 1, captureCount := 7, parity := .bottom, closedCut := false } ∧
      filling.history.filling.map (fun r => r.number) = some 1 ∧
      (capNew (wr 0x2FE40 [8, 0]) filling).judge .capture (wr 0x2FE40 [8, 0]) = .toMonitor ∧
      slotOf (ring.areaWords (wr 0x2FE40 [8, 0])) = some 1) ∧
    (after .captureRequestTake (capNew mark filling)).history.filling = none := by decide +kernel

theorem witness_EndMarkClosesTheFillingField :
    (capNew mark filling).phase = .running ∧ (capNew mark filling).judge .capture mark = .toMonitor ∧
    (capNew mark filling).ring = some ring ∧ (capNew mark filling).settings.ingest = some group ∧
    spansSlots (ring.areaWords mark) = false ∧ slotOf (ring.areaWords mark) = some 0 ∧ covers (ring.areaWords mark) 0 = false ∧
    covers (ring.areaWords mark) 4 = true ∧ coveredValue (ring.areaWords mark) 4 = 7 ∧
    filling.history.filling.isSome = true ∧ filling.history.ofSlot 0 = filling.history.filling ∧
    filling.history.find 1 = filling.history.filling ∧ (capNew mark filling).monitor.acquisition = .off := by decide +kernel

theorem witness_MonitorRefusesOrTrimsTheWrite :
    (spansSlots (ring.areaWords (wr 0x2FE3C [1, 2])) = true ∧ live.judge .capture (wr 0x2FE3C [1, 2]) = .toMonitor) ∧
    (spansSlots (ring.areaWords mark) = false ∧ covers (ring.areaWords mark) 0 = false ∧
      slotOf (ring.areaWords mark) = some 0 ∧
      ((after .captureRequestTake (capNew mark filling)).history.ofSlot 0).map (fun r => r.state) = some .complete) ∧
    (slotOf (ring.areaWords (wr 0x10040 [1])) = some 0 ∧ live.history.ofSlot 0 = none ∧
      covers (ring.areaWords (wr 0x10040 [1])) 0 = false ∧ (∃ w ∈ ring.areaWords (wr 0x10040 [1]), w.1.isLine = true)) ∧
    (filling.monitor.acquisition ≠ .acquiring ∧ filling.loadsAtOpening = false ∧
      (ring.areaWords (wr 0x10444 [1, 2])).map (fun w => w.1) = [.padding 0 0, .padding 0 0]) := by decide +kernel

theorem witness_StallExpiryCutsTheFillingField : filling.monitor.timerRunning = true ∧ filling.phase ≠ .asserted ∧
    filling.history.filling.map (fun r => decide (r.number ≠ 0)) = some true ∧ filling.settings.ingest = some group ∧
    filling.history.find 1 = filling.history.filling := by decide +kernel

/-- A monitor that has measured fields with a previous count. -/
def measured (n : Nat) (p : Option Nat) : State :=
  { live with monitor := { live.monitor with acquisition := .acquiring, measuredFields := n, previousCount := p } }

theorem witness_MeasurementEndAcquiresOrFails : (measured 1 (some 119)).phase ≠ .asserted ∧
    ((measured 1 (some 119)).monitor.previousCount = some 119 ∧ 119 ≤ 120 + 1 ∧ 120 ≤ 119 + 1 ∧ 120 ≤ max 119 120 ∧ max 119 120 ≤ 320) ∧
    ((measured 1 (some 320)).monitor.previousCount = some 320 ∧ max 320 321 = 321 ∧ max 118 119 < 120) ∧
    (∀ p, (measured 6 (some 200)).monitor.previousCount = some p → 198 + 1 < p ∨ p + 1 < 198) ∧
    (∀ p, (measured 7 none).monitor.previousCount = some p → 198 + 1 < p ∨ p + 1 < 198) ∧
    8 ≤ (measured 7 none).monitor.measuredFields + 1 ∧ (measured 6 (some 200)).monitor.measuredFields + 1 < 8 := by
  refine ⟨by decide, by decide, by decide, ?_, ?_, by decide, by decide⟩
  · intro p h
    cases h
    decide
  · intro p h
    cases h

/-! ### Witnesses: history, probes and cadence -/

/-- A probe unit with references, a table and pending lines. -/
def prober (comb rep : Option FieldNo) (table : List ProbeEntry) (pending : List PendingProbe) : ProbeUnit :=
  { ProbeUnit.reset with
    field := some { number := 3, slot := 2, parity := .top }, combRef := comb, repeatRef := rep, table := table, pending := pending }
/-- A probe-table entry. -/
def line (n : Nat) (s : ProbeStatus) : ProbeEntry := { line := n, status := s, repeatSum := 0, combSum := 0 }
/-- A fetch of one line of a width with its words. -/
def fetch (width : Nat) (words : List Word) : ProbeFetch :=
  { role := .own, line := 2, base := 0x20000, width := width, held := none, granted := words.length, words := words }

theorem witness_EvictionRemovesOneRecordWithItsNotices :
    (∀ f, ({ reading with probe := prober (some 1) (some 2) [] [] } : State).probe.combRef = some f →
      ({ reading with probe := prober (some 1) (some 2) [] [] } : State).probe.repeatRef ≠ some f) ∧
    (∀ f, reading.probe.combRef = some f → reading.probe.repeatRef ≠ some f) ∧
    (reading.store.entry 0).fillsFor [1] = true ∧ (reading.store.entry 0).useCount = 1 ∧
    ((after (.withdrawal 5) reading).store.entry 0).fillsFor [1] = true ∧ ((after (.withdrawal 5) reading).store.entry 0).useCount = 0 ∧
    (reading.store.entry 63).fillsFor [1] = false ∧ reading.probe.combRef ≠ some 1 ∧ reading.probe.repeatRef ≠ some 1 := by
  refine ⟨?_, ?_, by decide +kernel⟩
  · intro f h
    cases h
    decide
  · intro f h
    exact absurd h (by rw [show reading.probe.combRef = none by decide +kernel]; exact fun e => nomatch e)

theorem witness_CompletedLineStartsItsProbeLine :
    (∀ e ∈ (prober none none [line 2 .notRun] []).table, e.line = 2 → e.status ≠ .waiting) ∧
    (∃ e ∈ (prober none none [line 2 .waiting] []).table, e.line = 2 ∧ e.status = .waiting) ∧
    (prober (some 1) none [] [{ line := 6, fetches := [] }]).pending.length < 2 ∧
    2 ≤ (prober (some 1) none [] [{ line := 6, fetches := [] }, { line := 10, fetches := [] }]).pending.length := by decide +kernel

/-- A device whose probe unit has one pending line and perhaps a burst in flight. -/
def probing (f : ProbeFetch) (b : List ProbeReturn) : State :=
  { live with probe := { prober (some 1) none [line 2 .pending] [{ line := 2, fetches := [f] }] with inFlight := b } }
/-- A granted probe burst of line 2. -/
def burst (words : List Word) (failed : Bool) : ProbeReturn := { line := 2, role := .own, words := words, failed := failed }

theorem witness_ProbeBurstsFetchAndSettleLines :
    ((probing (fetch 256 []) []).grantee = some .probe ∧
      (probing (fetch 256 []) []).probe.presented = some (2, .own, { addr := 0x20000, count := 32 })) ∧
    ((probing (fetch 256 []) [burst [] true]).probe.inFlight = [burst [] true]) ∧
    ((({ (probing (fetch 2 [1]) []).probe with inFlight := [] } : ProbeUnit).setFetch 2 .own
        (fun f => { f with words := f.words ++ [5] })).pending.find? (fun p => decide (p.line = 2)) =
      some { line := 2, fetches := [{ fetch 2 [1] with words := [1, 5] }] } ∧
      (∀ f ∈ [{ fetch 2 [1] with words := [1, 5] }], f.width ≤ f.words.length)) ∧
    (∃ f ∈ [{ fetch 3 [1] with words := [1, 5] }], f.words.length < f.width) := by decide +kernel

theorem witness_MetricsFollowTheLinesThatCount : ProbeUnit.reset.measured = false ∧
    ({ ProbeUnit.reset with combLost := true } : ProbeUnit).measured = true ∧ (prober (some 1) none [] []).measured = true ∧
    ((((prober (some 1) none ((List.range 15).map (fun i => line (4 * i + 2) .done)) []).table.map ProbeEntry.atClose).filter
      ((prober (some 1) none [] []).countsLine (holding [goodRecord 1 0 .top none none]).history
        (goodRecord 2 1 .bottom none none))).length = 15 ∧ ((120 + 1) / 4 + 1) / 2 = 15) ∧
    ((((prober (some 1) none ((List.range 14).map (fun i => line (4 * i + 2) .done)) []).table.map ProbeEntry.atClose).filter
      ((prober (some 1) none [] []).countsLine (holding [goodRecord 1 0 .top none none]).history
        (goodRecord 2 1 .bottom none none))).length < 15) := by decide +kernel

/-- A record that is not CONTINUOUS. -/
def gapRecord : FieldRecord :=
  { goodRecord 3 2 .top none none with continuity := { first := false, gap := true, parityRepeat := false, afterCut := false } }
/-- A locked detector. -/
def locked (m : CadenceMode) (next : Nat) : Cadence := { Cadence.reset with mode := m, episode := 65535, c22 := 8, nextPosition := next }

theorem witness_ContinuityComesBeforeEvidence : gapRecord.continuous = false ∧
    ({ goodRecord 3 2 .top none none with state := .cut } : FieldRecord).state = .cut ∧ Cadence.reset.mode = .video ∧
    (locked .locked22 0).mode ≠ .video := by decide +kernel

/-- A record with metrics. -/
def metered (n : FieldNo) (rep comb : Option Nat) : FieldRecord :=
  goodRecord n 0 .top none (some { repeatMetric := rep, combMetric := comb })
/-- A detector in VIDEO mode. -/
def video (c22 ph22 : Nat) (repeats : List FieldNo) : Cadence := { Cadence.reset with c22 := c22, ph22 := ph22, repeats := repeats }

theorem witness_VideoModeCountsAndLocks :
    ((video 7 0 [2, 7]).inRange ∧ (video 7 0 [2, 7]).mode = .video ∧ (metered 12 (some 1) none).continuous = true ∧
      (metered 12 (some 1) none).state ≠ .cut) ∧
    (repeatEvent (some 1) (some 100) 4 8 = true ∧ (video 7 0 [2, 7]).repeats.getLast? = some 7 ∧ (12 : FieldNo).toNat = (7 : FieldNo).toNat + 5 ∧
      2 ≤ (video 7 0 [2, 7]).repeats.length ∧ group.allow32 = true) ∧
    (evidence22 (some 1) (some 100) 0 1 8 = .consistent 0 ∧ 0 < (video 7 0 []).c22 ∧ min group.e22 (7 + 1) = group.e22 ∧
      group.allow22 = true) ∧
    (evidence22 (some 1) (some 100) 1 0 8 = .consistent 1 ∧ evidence22 (some 9) (some 10) 0 1 8 = .inconsistent ∧
      evidence22 none (some 10) 0 1 8 = .absent ∧ repeatEvent none (some 100) 4 8 = false) ∧
    ((video 0 1 [2]).inRange ∧ repeatEvent (some 1) (some 100) 4 8 = true ∧ (video 0 1 [2]).repeats.getLast? = some 2 ∧
      ¬ 2 ≤ (video 0 1 [2]).repeats.length) := by decide +kernel

theorem witness_LockedModesHoldOrBreakOnEvidence :
    ((metered 12 none none).continuous = true ∧ (metered 12 none none).state ≠ .cut ∧ (locked .locked22 0).mode = .locked22 ∧
      (locked .locked32 2).mode = .locked32) ∧
    (evidence22 none none 0 1 8 = .absent ∧ evidence22 (some 1) (some 100) 0 1 8 = .consistent (locked .locked22 0).ph22) ∧
    evidence22 (some 9) (some 10) 0 1 8 = .inconsistent ∧
    (¬ (((locked .locked32 2).nextPosition = 2 ∧ rEvidence none 8 = true ∧ repeatEvent none none 4 8 = false) ∨
      ((locked .locked32 2).nextPosition ≠ 2 ∧ repeatEvent none none 4 8 = true))) ∧
    ((locked .locked32 2).nextPosition = 2 ∧ rEvidence (some 8) 8 = true ∧ repeatEvent (some 9) (some 8) 4 8 = false) ∧
    ((locked .locked32 4).nextPosition ≠ 2 ∧ repeatEvent (some 4) (some 16) 4 8 = true) := by decide +kernel

/-! ### Witnesses: frames -/

/-- A 2:2 label of episode 1. -/
def label (p : Position32) : Option CadenceLabel := some { episode := 1, position := p }
/-- Fields 1 to n of alternating parity, with no label. -/
def fields (n : Nat) : State :=
  holding ((List.range n).map (fun i => goodRecord (BitVec.ofNat 32 (i + 1)) i (if i % 2 = 0 then .top else .bottom) none none))
/-- A woven pair. -/
def woven : State := holding [goodRecord 1 0 .top (label .lead) none, goodRecord 2 1 .bottom (label .trail) none]
/-- The live device with a previous anchor. -/
def anchored (p : FieldNo) (s : State) : State := { s with planner := { s.planner with previousAnchor := p } }

theorem witness_FrameStartChoosesAnchorAndMethod :
    ((measured 0 none).monitor.acquisition = .acquiring ∧ live.history.newestClosed = none ∧
      ({ live with monitor := { live.monitor with acquisition := .failed } } : State).monitor.acquisition = .failed) ∧
    ((fields 1).monitor.acquisition ≠ .acquiring ∧ (fields 1).monitor.acquisition ≠ .failed ∧
      (fields 1).history.newestClosed.map (fun r => r.number) = some 1 ∧ (fields 1).history.before 1 = none) ∧
    ((woven.history.before 2).map (fun r => r.number) = some 1 ∧ raster.override ≠ .spatialOnly ∧ raster.override = .auto ∧
      (woven.history.weavePartner (goodRecord 1 0 .top (label .lead) none)).isSome = true) ∧
    (((fields 4).history.before 4).map (fun r => r.number) = some 3 ∧
      (fields 4).history.weavePartner (goodRecord 3 2 .top none none) = none ∧
      (fields 4).history.find (FieldNo.pred 3) = some (goodRecord 2 1 .bottom none none) ∧
      (goodRecord 3 2 .top none none).continuous = true ∧ (goodRecord 2 1 .bottom none none).state ≠ .filling ∧
      (goodRecord 2 1 .bottom none none).parity ≠ (goodRecord 3 2 .top none none).parity) ∧
    ((anchored 0 (fields 4)).planner.previousAnchor = 0 ∧
      ([3, 2, 1, 0x80000003, 0x80000004] : List FieldNo).map (fun p =>
        if p.toNat ≤ 3 then 3 - p.toNat else 3 + (2 ^ 32 - 1) - p.toNat) = [0, 1, 2, 2 ^ 31 - 1, 2 ^ 31 - 2] ∧
      3 + (2 ^ 32 - 1) - (0x80000002 : FieldNo).toNat = 2 ^ 31) := by decide +kernel

/-- An open plan with every role. -/
def plan : Plan :=
  { method := .blend, repeated := false, anchor := some { field := 4, slot := 3, parity := .bottom }
    partner := some { field := 3, after := false }, anchor2 := some 2, partner2 := some 1, anchorLost := false, partnerLost := false
    motionLost := false, snapshot := takeSnapshot 256 240 raster defaultRows }
/-- The device with that plan open. -/
def planned (s : State) : State := { s with planner := { s.planner with plan := some plan, frame := 1 } }

theorem witness_LostReferencesRepairThePlan : (planned live).planner.plan = some plan ∧
    (plan.rolesOf 4).anchor = true ∧ ((plan.rolesOf 3).anchor = false ∧ (plan.rolesOf 3).partner = true) ∧
    ((plan.rolesOf 2).anchor = false ∧ (plan.rolesOf 2).partner = false ∧ (plan.rolesOf 2).anchor2 = true) ∧
    ((plan.rolesOf 1).anchor2 = false ∧ (plan.rolesOf 1).partner2 = true) ∧ plan.rolesOf 5 = Roles.empty := by decide +kernel

theorem witness_OutputReadTakeServesTheReadUnderItsPlan :
    (let s := sysNew firstRow twoFields;
      s.phase = .running ∧ s.judge .system firstRow = .toOutput ∧ s.mustHold = false ∧ s.startsFrame (s.outputOffset firstRow) = true ∧
      ((enterFrame 0 s).wantedLines 0 4).length = 2 ∧ 2 ≤ s.store.freeList.length + s.store.lru.length ∧
      (∀ n ∈ s.store.lru, (s.store.entry n).state ≠ .empty) ∧ s.settings.output = some raster ∧ s.settings.outputPending = false) ∧
    (let s := sysNew firstRow (planned (fields 4));
      s.judge .system firstRow = .toOutput ∧ s.mustHold = false ∧ s.startsFrame 0 = false ∧
      ((enterFrame 0 s).wantedLines 0 4).length ≤ s.store.freeList.length + s.store.lru.length) := by decide +kernel

/-! ### Witnesses: reconstruction and scaling -/

theorem witness_EstimateWeightAndBlendFollowTheirTables :
    (let dist := fun (x y : Nat) => max x y - min x y;
      (dist 5 5 ≤ dist 1 9 ∧ dist 5 5 ≤ dist 2 9) ∧ (dist 1 1 < dist 5 9 ∧ dist 1 1 ≤ dist 3 4) ∧
        (dist 3 3 < dist 5 9 ∧ dist 3 3 < dist 1 2)) ∧
    (16 < 64 ∧ 16 ≤ 16 ∧ (16 < 17 ∧ 17 < 64) ∧ (16 < 63 ∧ 63 < 64) ∧ 64 ≤ 64) ∧ (0 ≤ 16 ∧ 16 ≤ 16) := by decide

/-- A resolved line with data. -/
def source (role : SourceRole) (l : Nat) (s : EntryState) : ResolvedLine :=
  { role := role, line := l, state := s, held := none, data := List.replicate 256 0x00100020 }
/-- A picture of 240 rows from some lines, the anchor TOP. -/
def picture (method : Method) (lines : List ResolvedLine) : Picture := plan.picture lines |> fun p => { p with method := method, parity := 0 }

theorem witness_RowsTakeTheirSourcesInOrder :
    (picture .blend []).parity ≤ 1 ∧
    (10 % 2 = (picture .blend [source .anchor 5 .valid]).parity ∧ (picture .blend [source .anchor 5 .valid]).has .anchor 5 = true) ∧
    ((picture .blend [source .anchor 5 .void]).has .anchor 5 = false ∧ (picture .blend [source .anchor 5 .void]).ownVoid 5 = true) ∧
    (let p := picture .blend [source .partner 4 .valid, source .partner 5 .valid];
      p.has .anchor 5 = false ∧ p.ownVoid 5 = false ∧ 0 < 10 ∧ p.has .partner 4 = true ∧ 10 + 1 < p.rows ∧ p.has .partner 5 = true) ∧
    ((picture .blend [source .partner 0 .valid]).has .partner 0 = true ∧ 0 + 1 < (picture .blend []).rows) ∧
    (picture .blend [source .anchor2 5 .valid]).has .anchor2 5 = true ∧
    ((picture .blend [source .anchor 3 .valid]).has .anchor 3 = true ∧ (picture .blend [source .anchor 3 .valid]).has .anchor 4 = false) ∧
    ((picture .blend [source .anchor 7 .valid]).has .anchor 7 = true ∧
      ∀ k < 7, (picture .blend [source .anchor 7 .valid]).has .anchor k = false) ∧
    (∀ k < (picture .blend []).rows / 2, (picture .blend []).has .anchor k = false) ∧
    (11 % 2 ≠ (picture .weave []).parity ∧ (picture .weave [source .partner 5 .valid]).method = .weave ∧
      (picture .weave [source .partner 5 .valid]).has .partner 5 = true) ∧
    (picture .blend [source .partner 5 .valid]).method = .blend ∧ (picture .spatial []).method = .spatial := by decide +kernel

theorem witness_AxisPositionsStayWithinTheSource : (1 ≤ 240 ∧ 239 < 240) ∧ (1 ≤ 1 ∧ 0 < 1) ∧
    (256 % 2 = 0 ∧ 640 % 2 = 0 ∧ 2 ≤ 640) ∧ (256 % 2 = 0 ∧ 2 % 2 = 0 ∧ 2 ≤ 2) := by decide

theorem witness_SamplesStayInRange : ((picture .blend []).fillY ≤ 1023 ∧ (picture .blend []).fillC ≤ 1023) ∧
    ((∀ r ∈ live.settings.customRows, r.sums) ∧ raster.inRange ∧ live.settings.output = some raster ∧ live.planner.plan = none ∧
      live.system.queue = []) ∧
    (∃ t, exec (.outputReadData 4) live = .next t) := ⟨by decide +kernel, by decide +kernel, live, rfl⟩

/-! ### Witnesses: the line store and the memory port -/

/-- An entry of a line of field 1. -/
def held (st : EntryState) (uses : Nat) (fill : Option Fill) : StoreEntry :=
  { tag := some { slot := 0, field := 1, line := 7 }, state := st, useCount := uses, data := [], fill := fill }
/-- A store of a few entries. -/
def store (es : List StoreEntry) (lru : List Nat) : LineStore := { entries := es, lru := lru, fillQueue := [], inFlight := [], withdrawn := [] }
/-- A line a read wants. -/
def want (f : FieldNo) : WantedLine :=
  { role := .anchor, line := 7, tag := { slot := 0, field := f, line := 7 }, held := none, base := 0x10040, width := 256 }

theorem witness_LookupsShareOrAllocateAnEntry :
    ((store [StoreEntry.empty, held .valid 0 none] [1]).lookup (want 1).tag = some 1 ∧
      1 < (store [StoreEntry.empty, held .valid 0 none] [1]).entries.length) ∧
    ((store [held .valid 1 none, StoreEntry.empty] []).lookup (want 2).tag = none ∧
      ((store [held .valid 1 none, StoreEntry.empty] []).entry 1).state = .empty ∧
      ∀ k < 1, ((store [held .valid 1 none, StoreEntry.empty] []).entry k).state ≠ .empty) ∧
    ((store [held .poisoned 0 none, held .valid 0 none] [1, 0]).lookup (want 2).tag = none ∧
      (∀ k < 2, ((store [held .poisoned 0 none, held .valid 0 none] [1, 0]).entry k).state ≠ .empty) ∧
      (store [held .poisoned 0 none, held .valid 0 none] [1, 0]).lru.head? = some 1) ∧
    (∀ st ∈ [EntryState.valid, .poisoned, .void, .filling], ((store [held st 1 none] []).entry 0).useCount = 1 ∧
      ((store [held st 1 none] []).entry 0).state = st) ∧
    2 ≤ ((store [held .filling 2 none] []).entry 0).useCount := by decide +kernel

/-- The device with one line being filled to some word. -/
def fillTo (granted : Nat) (data : List Word) (b : List FillReturn) : State :=
  { live with store := { store [{ held .filling 1 (some { base := 0x10040, width := 34, granted := granted }) with data := data }] [] with
    fillQueue := [0], inFlight := b } }
/-- A granted fill burst. -/
def fillBurst (words : List Word) (failed : Bool) : FillReturn := { entry := 0, words := words, failed := failed }

theorem witness_FillBurstsFetchIntoTheEntry :
    ((fillTo 0 [] []).grantee = some .fill ∧ (fillTo 0 [] []).store.presented = some (0, { addr := 0x10040, count := 32 })) ∧
    ((fillTo 32 [] []).grantee = some .fill ∧ (fillTo 32 [] []).store.presented = some (0, { addr := 0x100C0, count := 2 })) ∧
    ((fillTo 32 [] [fillBurst [] true]).store.inFlight = [fillBurst [] true] ∧
      0 < (fillTo 32 [] [fillBurst [] true]).store.entries.length ∧
      ((fillTo 32 [] [fillBurst [] true]).store.entry 0).fill.isSome = true) ∧
    (∀ n ∈ [0, 1], ((fillTo 32 [] [fillBurst (List.replicate (33 - n) 0) false]).store.entry 0).data.length +
      (fillBurst (List.replicate (33 - n) 0) false).words.length < 34) ∧
    34 ≤ ((fillTo 34 (List.replicate 32 0) [fillBurst [1, 2] false]).store.entry 0).data.length +
      (fillBurst [1, 2] false).words.length := by decide +kernel

/-- The device with requesters waiting: a capture write, a fill, a system write, a refresh and a status write, each if asked for. -/
def busy (capture fill system refresh report : Bool) (v : Starvation) : State :=
  let write := pos (wr 0x300000 [1]) (.writeTaken 0 [whole 1])
  { fillTo (if fill then 0 else 34) [] [] with
    capture := { live.capture with queue := if capture then [write] else [] }
    system := { live.system with queue := if system then [write] else [] }
    memPort := { live.memPort with starvation := v, refreshPending := if refresh then 1 else 0 }
    cond := { live.cond with statusPending := report } }
/-- No requester has waited. -/
def fresh : Starvation := { fill := 0, system := 0, probe := 0, refresh := 0, report := 0 }
/-- A queue of five capture requests that are not taken closes PROBE's gate, and four leave it open. -/
def gated (n : Nat) : State :=
  { probing (fetch 256 []) [] with capture := { live.capture with queue := List.replicate n (pos opening .untaken) } }

theorem witness_ArbiterTakesTheFirstThatHolds :
    (interval 0 8).memPort.refreshPending = 8 ∧
    ((busy true true true true true { fresh with fill := 64 }).memPort.refreshPending ≠ 8 ∧
      (busy true true true true true { fresh with fill := 64 }).waiting .capture = true) ∧
    ((busy false true true true true { fresh with refresh := 64, report := 64 }).waiting .capture = false ∧
      [Requester.fill, .system, .probe, .refresh, .report] = [.fill, .system, .probe] ++ .refresh :: [.report] ∧
      (busy false true true true true { fresh with refresh := 64, report := 64 }).waiting .refresh = true ∧
      (busy false true true true true { fresh with refresh := 64, report := 64 }).memPort.starvation.count .refresh = 64 ∧
      ∀ x ∈ [Requester.fill, .system, .probe],
        (busy false true true true true { fresh with refresh := 64, report := 64 }).memPort.starvation.count x ≠ 64) ∧
    ((busy false false true true true { fresh with system := 63 }).waiting .system = true ∧
      (∀ x ∈ [Requester.fill, .system, .probe, .refresh, .report],
        (busy false false true true true { fresh with system := 63 }).memPort.starvation.count x ≠ 64) ∧
      (busy false false true true true { fresh with system := 63 }).waiting .fill = false) ∧
    (∀ r ∈ [Requester.refresh, .capture, .fill, .system, .probe, .report], (busy false false false false false fresh).waiting r = false) ∧
    ({ fresh with fill := 64 } : Starvation).bounded := by decide +kernel

/-- A taken write and a read taken after it on each port, at an address behind or before the write's. -/
def behind (addr : Word) : State :=
  { live with
    capture := { live.capture with queue := [pos (rd addr 1) (.readTaken 2)] }
    system := { live.system with queue := [pos (wr 0x300004 [1]) (.writeTaken 1 [whole 1])] } }

theorem witness_GrantedReadsWaitForEarlierWrites :
    ((behind 0x300000).phase = .running ∧ (behind 0x300000).grantee = some .capture ∧ (behind 0x300008).grantee = some .capture ∧
      (behind 0x300000).capture.head = some (pos (rd 0x300000 1) (.readTaken 2)) ∧
      (behind 0x300000).pendingWrites.map (fun w => (w.order, w.first, w.past)) = [(1, 0x300004, 0x300008)]) ∧
    (behind 0x300004).grantee = some .system ∧
    ((busy false true true false false fresh).grantee = some .fill ∧
      (busy false true true false false fresh).pendingWrites.map (fun w => (w.order, w.first, w.past)) = [(0, 0x300000, 0x300004)] ∧
      (busy false true true false false fresh).store.presented = some (0, { addr := 0x10040, count := 32 })) ∧
    ((gated 4).grantee = some .probe ∧ (gated 4).probe.presented = some (2, .own, { addr := 0x20000, count := 32 })) ∧
    (gated 5).grantee = none := by decide +kernel

/-- DRAM with a word at index 4 and flips of its stored image. -/
def dramWith (f : Flips) : Memory := ((live.dram.writeCoded 4 0x04030201).disturb { index := 4, flips := f })

theorem witness_EnablesDecideTheWordWritten : (dramWith 0).wf ∧ (dramWith 1).wf ∧ (dramWith 3).wf ∧
    (∀ e ∈ [1#4, 14#4], e ≠ 15#4 ∧ e ≠ 0#4) ∧ ((dramWith 3).readChecked 4).2 = .failed ∧
    ((dramWith 1).readChecked 4).2 = .corrected ∧ ((dramWith 0).readChecked 4).2 = .clean ∧ (dramWith 0).bytes.length = 4 := by
  decide +kernel

theorem witness_ChecksCorrectOneBitAndFailMore : live.dram.wf ∧ flipCount 1 = 1 ∧ flipCount 0x4000000000 = 1 ∧ 2 ≤ flipCount 3 ∧
    2 ≤ flipCount 0x7fffffffff := by decide +kernel

theorem witness_CheckErrorsFillTheFirstFaultRecord : live.phase ≠ .asserted ∧ (inPhase (.reloading ⟨0, 0, []⟩)).phase ≠ .asserted ∧
    (∀ c ∈ [CheckResult.clean, .clean], c = .clean) ∧
    (.failed ∉ [CheckResult.clean, .corrected] ∧ .corrected ∈ [CheckResult.clean, .corrected]) ∧
    .failed ∈ [CheckResult.corrected, .failed] ∧ live.memPort.firstFault = none := by decide +kernel

theorem witness_GrantedWriteReachesDram : (busy true true false false false fresh).phase = .running ∧
    (busy true true false false false fresh).dram.wf ∧ (busy true true false false false fresh).grantee = some .capture ∧
    ((busy true true false false false fresh).port .capture).head = some (pos (wr 0x300000 [1]) (.writeTaken 0 [whole 1])) ∧
    (busy false false true false false fresh).grantee = some .system ∧
    ((busy false false true false false fresh).port .system).head = some (pos (wr 0x300000 [1]) (.writeTaken 0 [whole 1])) := by
  decide +kernel

theorem witness_GrantedReadTakesItsWordsFromDram :
    ((sys (pos (rd 0x300000 2) (.readTaken 5)) live).grantee = some .system ∧
      ((sys (pos (rd 0x300000 2) (.readTaken 5)) live).port .system).head = some (pos (rd 0x300000 2) (.readTaken 5))) ∧
    ((behind 0x300000).grantee = some .capture ∧
      ((behind 0x300000).port .capture).head = some (pos (rd 0x300000 1) (.readTaken 2))) ∧
    (∀ p ∈ [pos opening .untaken, taken 1 false], p.progress.ungranted ≠ some 5) := by decide +kernel

theorem witness_RefreshesArePendingUntilGranted : (interval 0 1).grantee = some .refresh ∧ (interval 0 8).grantee = some .refresh ∧
    (interval 0 7).memPort.refreshPending < 8 ∧ (interval 0 8).memPort.refreshPending ≤ 8 ∧ (interval 0 8).phase ≠ .asserted ∧
    (interval 0 8).settings.memory.coupled = false ∧ (coupledState 7).memPort.refreshPending < 8 ∧
    (coupledState 8).memPort.refreshPending = 8 ∧ (coupledState 8).settings.memory.coupled = true := by decide +kernel

/-! ### Witnesses: conditions and reports -/

/-- The device with records queued, ring indices, a pending status write, and what REPORT has chosen. -/
def reporting (n : Nat) (write read : BitVec 6) (status : Bool) (chosen : Option ReportChoice) : State :=
  { live with cond := { live.cond with
    queue := List.replicate n (List.replicate 8 1), writeIndex := write, readIndex := read, statusPending := status, chosen := chosen } }

theorem witness_OccurrenceSetsItsBitAndMayQueueARecord : live.phase ≠ .asserted ∧ (∃ w ∈ live.windows, w.kind = .status) ∧
    ∀ w ∈ State.reset.windows, w.kind ≠ .status := by decide +kernel

theorem witness_ReportChoosesTheOldestRecordFirst : live.phase ≠ .asserted ∧ live.statusStands = true ∧
    ((reporting 1 63 1 true none).cond.queue ≠ [] ∧ (reporting 1 63 1 true none).cond.writeIndex + 1 ≠ 1 ∧
      (reporting 1 63 1 true none).cond.chosen = none) ∧
    (reporting 0 0 1 true none).cond.queue = [] ∧
    ((reporting 1 63 0 true none).cond.writeIndex + 1 = 0 ∧ (reporting 1 63 0 true none).cond.statusPending = true) := by
  decide +kernel

theorem witness_RecordGrantWritesTheNextRingPosition :
    (reporting 2 63 1 true (some .record)).dram.wf ∧ (reporting 2 63 1 true (some .record)).grantee = some .report ∧
    (reporting 2 63 1 true (some .record)).cond.presented = some .record ∧
    (reporting 2 63 1 true (some .record)).cond.queue = List.replicate 8 1 :: [List.replicate 8 1] ∧
    (reporting 2 63 1 true (some .record)).cond.recordsOk ∧ (reporting 2 63 1 true (some .record)).windowsOk ∧
    (reporting 2 63 1 true (some .record)).cond.ringOk := by decide +kernel

theorem witness_StatusGrantWritesTheBlock : (reporting 1 63 0 true (some .status)).dram.wf ∧
    (reporting 1 63 0 true (some .status)).grantee = some .report ∧
    (reporting 1 63 0 true (some .status)).cond.presented = some .status ∧ (reporting 1 63 0 true (some .status)).windowsOk := by
  decide +kernel

/-! ### Witnesses: the control page, settings and invariants -/

/-- A device whose system port comes to a control-page write with a request behind it. -/
def paging (addr : Word) (ws : List Word) : State := sys (pos (rd 0x300000 1) (.readTaken 0)) live |> fun s =>
  { s with system := { s.system with queue := s.system.queue ++ pos (wr addr ws) .untaken :: [pos firstRow .untaken] } }
/-- What the first premises of PageWritesActAtTheirTake ask of it. -/
def pages (addr : Word) (ws : List Word) : Bool :=
  decide ((paging addr ws).phase = .running) && !(paging addr ws).systemTurn (pos (rd 0x300000 1) (.readTaken 0)) &&
    (paging addr ws).systemTurn (pos (wr addr ws) .untaken) && decide ((paging addr ws).judge .system (wr addr ws) = .toSettings)

theorem witness_PageWritesActAtTheirTake :
    sparseWf (0 : Word) live.settings.copy ∧
    (pages 0x000 [0] = true ∧ pages 0x000 [1] = true ∧ pages 0x004 [0xFFFFF] = true ∧ pages 0x004 [0x80000000] = true ∧
      pages 0x004 [0] = true ∧ pages 0x008 [63] = true ∧ pages 0x00C [0xFFFFF] = true ∧ pages 0x010 [1, 210] = true ∧
      pages 0xFFC [1] = true ∧ pages 0x000 (List.replicate 32 0) = true) ∧
    ((after .holdWordWrite (paging 0x000 [0])).settings.at 0 = 0 ∧ (after .holdWordWrite (paging 0x000 [1])).settings.at 0 = 1) ∧
    (((after .clearOccurredBits (paging 0x004 [0xFFFFF])).settings.at 4).extractLsb' 0 20 ≠ 0 ∧
      ((after .clearFirstFaultRecord (paging 0x004 [0x80000000])).settings.at 4).getLsbD 31 = true ∧
      (after .controlPageWrite (paging 0x004 [0])).takes = 1) := by decide +kernel

/-- The device with a word of the pending copy. -/
def copied (l : List (Nat × Word)) : State := { live with settings := { live.settings with copy := l } }

theorem witness_HoldReleaseLoadsMemoryAndWindows : live.phase ≠ .asserted ∧ (copied [(5, 99)]).settings.at 0x014 = 99 ∧
    (copied [(5, 65536)]).settings.at 0x014 = 65536 ∧
    (loadWindow (copied [(16, 0x10000), (17, 0x10000), (18, 1)])).windows.map (fun e => e.kind) = .fieldRing :: List.replicate 7 .off := by
  decide +kernel

/-- The words of an ingest group that passes every size check at its limits. -/
def ingestCopy : List (Nat × Word) := [(64, 256), (65, 120), (66, 4), (67, 130624), (68, 1088)]
/-- The words of an output group that passes every size check at its limits. -/
def outputCopy : List (Nat × Word) := [(128, 640), (129, 240), (130, 2560), (133, 640), (134, 240)]

theorem witness_RefusedGroupsLeaveTheWorkingValues :
    (live.window .fieldRing = some { base := 0x10000, size := 0x80000, kind := .fieldRing } ∧
      (loadIngest (copied ingestCopy)).settings.ingest.isSome = true) ∧
    ((loadIngest { copied ((64, 254) :: ingestCopy.drop 1) with windows := table }).settings.ingest = live.settings.ingest ∧
      (loadIngest (copied ((64, 254) :: ingestCopy.drop 1))).cond.occurred.getLsbD 16 = true) ∧
    (State.reset.window .fieldRing = none ∧ State.reset.phase ≠ .asserted) ∧
    ((loadOutput (copied outputCopy)).settings.output.map (fun g => (g.wo, g.ho, g.wi, g.hi)) = some (640, 240, 640, 240) ∧
      (loadOutput (copied outputCopy)).cond.occurred.getLsbD 16 = false) ∧
    (loadOutput (copied ((128, 638) :: outputCopy.drop 1))).cond.occurred.getLsbD 16 = true := by decide +kernel

/-- The state at reset meets the invariants of the device. -/
theorem reset_deviceOk : State.reset.deviceOk := ⟨powerOn_boundsOk 0 0 [], storeOk_reset rfl rfl⟩

/-- The state at reset with a command waiting, which is a step that changes it. -/
theorem witness_StepKeepsTheDeviceInBounds :
    let s : State := { State.reset with pending := [.captureArrival opening] }
    s.deviceOk ∧ s.historyOk ∧ s.numberFree ∧ (∃ t, step s = .next t ∧ t.capture.queue = [pos opening .untaken]) ∧
      ∃ t, step State.reset = .next t := by
  refine ⟨⟨powerOn_boundsOk 0 0 _, storeOk_reset rfl rfl⟩, historyOk_empty rfl rfl, by decide, ⟨_, rfl, rfl⟩, _, rfl⟩

theorem witness_StepKeepsTheOutputInRange : State.reset.outputOk ∧ ∃ t, step State.reset = .next t := by
  refine ⟨⟨?_, by decide +kernel, ?_, fun q h => by cases h⟩, _, rfl⟩
  · intro g h
    cases h
  · intro p h
    cases h

theorem witness_PowerOnAndResetMeetTheInvariants : State.reset.deviceOk ∧ ∃ t, exec .warmResetAssert State.reset = .next t :=
  ⟨reset_deviceOk, _, rfl⟩

/-! ### Witnesses of the clauses: ports and ingest -/

/-- An address lies outside an entry, as RouterJudgesInTheOrderOfItsSteps says it. -/
abbrev outside (a : Nat) (e : WindowEntry) : Prop := e.kind = .off ∨ a < e.base ∨ e.base + e.size ≤ a

theorem witness_RouterJudges_regions : live.pageBase = 0 ∧
    (∀ a ∈ [0, 4095], live.pageBase ≤ a ∧ a < live.pageBase + 4096) ∧
    (∀ x ∈ [(0, 0x10000), (0, 0x8FFFC), (1, 0x100000), (1, 0x1FFFFC), (2, 0x200000), (2, 0x20FFFC), (3, 0x210000), (3, 0x21FFFC)],
      (∀ e ∈ live.windows.take x.1, outside x.2 e) ∧ ∃ e, live.windows[x.1]? = some e ∧ ¬ outside x.2 e) ∧
    (∀ a ∈ [4096, 0xFFFC, 0x90000, 0x220000], ∀ e ∈ live.windows, outside a e) := by
  refine ⟨by decide, by decide, ?_, by decide⟩
  intro x hx
  refine ⟨by revert x; decide, ?_⟩
  simp only [List.mem_cons, List.not_mem_nil, or_false] at hx
  rcases hx with h | h | h | h | h | h | h | h <;> subst h <;> exact ⟨_, rfl, by decide⟩

theorem witness_WithdrawalDrops_deferred : (∀ p ∈ [taken 0 false], p.request.tag = firstRow.tag) ∧
    (∀ p ∈ [pos (rd 0x300000 1) .untaken], p.progress.taken = true → p.request.tag ≠ firstRow.tag) ∧
    ∃ o, (taken 3 true).progress = .outputTaken 3 o ∧ o.deferred = true ∧ o.returned = 0 := ⟨by decide, by decide, _, rfl, rfl, rfl⟩

theorem witness_ResponsesFollowTakeOrder_commands :
    (let s : State := { live with system := { live.system with queue := [taken 4 false, taken 1 false, pos (rd 0x300000 1) (.readTaken 7)] } };
      (after (.outputReadData 3) s).system.responses.map (fun x => (x.words.length, x.last)) = [(3, false)] ∧
      (after (.outputReadData 4) s).system.queue = [taken 4 false, pos (rd 0x300000 1) (.readTaken 7)] ∧
      after (.refusedReadResponse .system) s = s) ∧
    (let s := cap (pos (rd 0 2) (.readGranted 0 [8, 9] false 1)) live;
      (after (.passThroughReadResponse .capture 1) s).capture.responses = [{ tag := 5, status := .ok, words := [9], last := true }]) ∧
    (let s := cap (pos (rd 0 2) (.readRefused 0 .addressError)) live;
      (after (.refusedReadResponse .capture) s).capture.responses =
        [{ tag := 5, status := .addressError, words := [], last := true }]) := by decide +kernel

/-- A line write of the filling slot. -/
def lineWrite : Request := wr 0x10040 [1, 2]
/-- A field without tags. -/
def untagged : State := after .captureRequestTake (capNew (wr 0x10000 [7, 1]) live)

theorem witness_PixelPart_command_and_tag :
    (let s := capNew lineWrite filling;
      s.phase = .running ∧ s.judge .capture lineWrite = .toMonitor ∧ s.ring = some ring ∧ spansSlots (ring.areaWords lineWrite) = false ∧
      slotOf (ring.areaWords lineWrite) = some 0 ∧ s.monitor.acquisition = .off ∧ covers (ring.areaWords lineWrite) 0 = false ∧
      covers (ring.areaWords lineWrite) 4 = false ∧ (s.history.ofSlot 0).map (fun r => r.state) = some .filling) ∧
    filling.history.filling.map (fun r => r.tagsPresent) = some true ∧
    untagged.history.filling.map (fun r => r.tagsPresent) = some false ∧
    (ring.areaWords (wr 0x1043C [1, 5, 9])).map (fun w => w.1) = [.pixel 0 0 255, .tag 0 0, .padding 0 0] ∧
    (after .captureRequestTake (capNew (wr 0x1043C [1, 5, 9]) filling)).history.filling.map (fun r => r.lines.head?) =
      some (some { extent := 0, overlong := true, tagWritten := true, tag := 5, final := none }) := by decide +kernel

/-- The device measuring fields, with a measurement of slot 0 or none. -/
def acquiring (m : Option Measurement) : State :=
  { measured 1 (some 119) with monitor := { (measured 1 (some 119)).monitor with measurement := m } }
/-- A measurement of slot 0 with one line of full extent at line 119. -/
def measuring : Measurement := { slot := 0, captureCount := 7, extents := List.replicate 119 0 ++ [256] }
/-- What the premises of the take clauses ask of a write to a slot, the ring being that of the live device. -/
def monitored (r : Request) (slot : Nat) (s : State) : Bool :=
  decide ((capNew r s).phase = .running) && decide ((capNew r s).judge .capture r = .toMonitor) &&
    decide ((capNew r s).ring = some ring) && !spansSlots (ring.areaWords r) && decide (slotOf (ring.areaWords r) = some slot)

theorem witness_MeasurementEnd_takes :
    (monitored opening 0 (acquiring (some measuring)) = true ∧ monitored opening 0 (acquiring none) = true ∧
      monitored lineWrite 0 (acquiring (some measuring)) = true ∧ monitored mark 0 (acquiring (some measuring)) = true ∧
      monitored (wr 0x2FE80 [1]) 1 (acquiring (some measuring)) = true ∧ monitored (wr 0x10000 [7]) 0 (acquiring none) = true) ∧
    (covers (ring.areaWords opening) 0 = true ∧ covers (ring.areaWords opening) 1 = true ∧
      (acquiring none).loadsAtOpening = false ∧ (acquiring none).monitor.acquisition = .acquiring) ∧
    (covers (ring.areaWords (wr 0x10000 [7])) 0 = true ∧ covers (ring.areaWords (wr 0x10000 [7])) 1 = false) ∧
    (covers (ring.areaWords mark) 0 = false ∧ covers (ring.areaWords mark) 4 = true ∧
      coveredValue (ring.areaWords mark) 4 = measuring.captureCount) ∧
    (covers (ring.areaWords lineWrite) 0 = false ∧ covers (ring.areaWords lineWrite) 4 = false) ∧
    (monitored opening 0 { live with monitor := { live.monitor with acquisition := .failed } } = true) ∧
    measuredCount measuring.extents = 120 ∧ 119 < measuring.extents.length ∧
    (after .captureRequestTake (capNew mark (acquiring (some measuring)))).monitor.acquisition = .acquired := by decide +kernel

theorem witness_MonitorRefusesOrTrims_while_acquiring :
    (let s := capNew opening (acquiring (some measuring));
      s.monitor.acquisition = .acquiring ∧ (after .captureRequestTake s).monitor.acquisition = .acquired ∧
      s.loadsAtOpening = false ∧ (after .captureRequestTake s).monitor.acquiredL = 120 ∧
      (after .captureRequestTake s).history.filling.isSome = true) ∧
    (let s := capNew lineWrite { live with monitor := { live.monitor with acquisition := .failed } };
      spansSlots (ring.areaWords lineWrite) = false ∧ s.monitor.acquisition = .failed ∧
      (after .captureRequestTake s).capture.queue ≠ []) := by decide +kernel

/-! ### Witnesses of the clauses: probes, frames and rows -/

/-- Fetched lines of 48 words of one luma: the line itself and its references. -/
def sums (roles : List (ProbeRole × Nat)) : PendingProbe :=
  { line := 2, fetches := roles.map (fun r => { fetch 48 (List.replicate 48 (BitVec.ofNat 32 (r.2 * 65536))) with role := r.1 }) }

theorem witness_ProbeBursts_sums :
    ((sums [(.own, 9), (.repeatRef, 4)]).repeatSum, (sums [(.own, 9), (.repeatRef, 4)]).combSum) = (20, 0) ∧
    ((sums [(.own, 9), (.combUpper, 4), (.combLower, 6)]).repeatSum, (sums [(.own, 9), (.combUpper, 4), (.combLower, 6)]).combSum) =
      (0, 24) ∧
    (sums [(.own, 9), (.combBoth, 4)]).combSum = 40 ∧ (sums [(.own, 5), (.combUpper, 4), (.combLower, 6)]).combSum = 0 ∧
    (sums [(.own, 1023), (.combBoth, 0)]).combSum = 4092 ∧
    (∀ r ∈ [ProbeRole.own, .combUpper, .combLower], ((sums [(.own, 9), (.combUpper, 4), (.combLower, 6)]).fetch r).isSome = true) ∧
    (sums [(.own, 9), (.combUpper, 4), (.combLower, 6)]).fetch .combBoth = none := by decide +kernel

theorem witness_FrameStart_snapshot :
    (live.settings.ingest = some group ∧ 0 < group.w ∧ live.knownL = 120) ∧
    (measured 0 none).knownL = 0 ∧ State.reset.settings.ingest = none ∧
    ((fields 4).chooseFrame raster).plan.snapshot = takeSnapshot 256 240 raster defaultRows := by decide +kernel

/-- A blend of 240 rows over some lines, every line present carrying luma 16 but those of a luma given. -/
def moving (lines : List (SourceRole × Nat × Nat)) : Picture :=
  picture .blend (lines.map (fun l => { source l.1 l.2.1 .valid with data := List.replicate 256 (BitVec.ofNat 32 (l.2.2 * 65536)) }))

theorem witness_RowsTakeTheirSources_motion :
    (moving [(.partner, 5, 40), (.partner2, 5, 10), (.anchor, 5, 7), (.anchor, 6, 9), (.anchor2, 5, 7), (.anchor2, 6, 4)]).motion 11 3 = 30 ∧
    (moving [(.partner, 5, 40), (.partner2, 5, 10), (.anchor, 5, 7)]).motion 11 3 = 30 ∧
    (moving [(.partner, 5, 40), (.anchor, 5, 7), (.anchor, 6, 9), (.anchor2, 5, 7), (.anchor2, 6, 4)]).motion 11 3 = 3 ∧
    (moving [(.partner, 5, 40)]).motion 11 3 = 1023 ∧
    (moving [(.anchor, 119, 7), (.anchor2, 119, 4)]).motion 239 3 = 3 := by decide +kernel

/-! ### The order of a need set and the groups loaded -/

/-- R121: a concealment substitute stands behind every other line: here the partner's line 3 for the anchor's unusable line 3. -/
theorem test_concealment_substitutes_come_last :
    needDraws (fun role l => decide (role = .partner ∨ l ≠ 3)) .weave 0 16 [2, 3, 4, 6] =
      [(.anchor, 1), (.anchor, 2), (.partner, 1), (.partner, 2), (.partner, 3)] := by decide +kernel

theorem witness_HoldRelease_window_entries :
    ((loadWindow (copied [(16, 0x1FFFF), (17, 0x1FFFF), (18, 1), (20, 0), (21, 0x10000), (22, 3), (24, 0x30000), (25, 0x10000), (26, 1),
        (28, 0x30000), (29, 0x10000), (30, 4), (32, 0x40000), (33, 0x10000), (34, 4), (36, 0xFFFF0000), (37, 0x10000), (38, 2),
        (40, 0x1FFF0000), (41, 0x20000), (42, 3)])).windows.map (fun e => if e.kind = .off then (0, 0, e.kind) else (e.base, e.size, e.kind))) =
      [(0x10000, 0x10000, .fieldRing), (0, 0, .off), (0, 0, .off), (0x30000, 0x10000, .guard), (0x40000, 0x10000, .guard),
        (0xFFFF0000, 0x10000, .output), (0, 0, .off), (0, 0, .off)] := by decide +kernel

theorem witness_RefusedGroups_ladder_and_rows :
    ([0x000, 0xF00, 0x101, 0x002, 0xF03] : List Word).map ladder = [2, 32, 8, 36, 192] ∧
    (loadOutput (copied (outputCopy ++ [(140, 1), (192, 0x01000000)]))).settings.customRows.take 2 =
      [{ c0 := 0, c1 := 256, c2 := 0, c3 := 0 }, { c0 := 0, c1 := 240, c2 := 16, c3 := 0 }] ∧
    ((loadOutput (copied outputCopy)).settings.output.map (fun g => (g.pitch, g.fillY, g.tLo, g.tHi, g.custom))) =
      some (2560, 64, 16, 64, false) := by decide +kernel

/-! ### Witnesses of the clauses: openings, loads and their effects -/

theorem witness_PixelPart_unmatched_mark :
    monitored (wr 0x10010 [8]) 0 filling = true ∧ covers (ring.areaWords (wr 0x10010 [8])) 0 = false ∧
    covers (ring.areaWords (wr 0x10010 [8])) 4 = true ∧ coveredValue (ring.areaWords (wr 0x10010 [8])) 4 = 8 ∧
    filling.history.filling.map (fun r => (r.slot, r.captureCount)) = some (0, 7) ∧
    (after .captureRequestTake (capNew (wr 0x10010 [8]) filling)).history = filling.history := by decide +kernel

theorem witness_OpeningBurst_rejected :
    (let q := wr 0x10000 [7];
      covers (ring.areaWords q) 0 = true ∧ covers (ring.areaWords q) 1 = false ∧ live.monitor.acquisition = .off ∧
      (monitored q 0 live = true ∧ live.history.ofSlot 0 = none) ∧
      (monitored q 0 twoFields = true ∧ twoFields.history.ofSlot 0 = some (goodRecord 1 0 .top none none) ∧
        twoFields.history.filling = none ∧ (after .captureRequestTake (capNew q twoFields)).history.records.length = 1) ∧
      (monitored q 0 filling = true ∧ filling.history.filling.isSome = true ∧ filling.history.ofSlot 0 = filling.history.filling ∧
        filling.history.filling.map (fun r => filling.history.find r.number) = some filling.history.filling ∧
        (after .captureRequestTake (capNew q filling)).history.records = [])) := by decide +kernel

/-- A device whose copy holds a passing ingest group, and perhaps more, still to be loaded. -/
def pendingIngest (more : List (Nat × Word)) : State :=
  { copied (ingestCopy ++ more) with settings := { (copied (ingestCopy ++ more)).settings with ingestPending := true } }

theorem witness_OpeningBurst_loads :
    (let s := capNew opening (pendingIngest []);
      monitored opening 0 (pendingIngest []) = true ∧ s.loadsAtOpening = true ∧ s.settings.at 0 = 0 ∧
      (loadIngest s).ring = some ring ∧ (loadIngest s).settings.ingestPending = false ∧
      covers (ring.areaWords opening) 0 = true ∧ covers (ring.areaWords opening) 1 = true) := by decide +kernel

/-- A device whose copy holds a passing output group and a hold word, the group pending. -/
def pendingOutput (hold : Word) : State :=
  let s := copied [(0, hold), (128, 1024), (129, 240), (130, 4096), (133, 640), (134, 240)]
  { s with settings := { s.settings with outputPending := true } }

/-- What OUTPUT_READ_TAKE of the first row meets, and the width its frame start leaves. -/
def startsWith (hold : Word) (wo : Nat) : Bool :=
  let s := sysNew firstRow (pendingOutput hold)
  decide (s.phase = .running) && decide (s.judge .system firstRow = .toOutput) && !s.mustHold &&
    s.startsFrame (s.outputOffset firstRow) && s.settings.outputPending && decide (s.settings.at 0 = hold) &&
    decide (((enterFrame 0 s).wantedLines 0 4).length ≤ s.store.freeList.length) && decide (s.store.lru = []) &&
    decide ((enterFrame 0 s).settings.output.map (fun g => g.wo) = some wo)

theorem witness_OutputReadTake_loads : startsWith 0 1024 = true ∧ startsWith 1 640 = true := by decide +kernel

theorem witness_HoldRelease_window_effects :
    (let s := copied [(16, 0x10000), (17, 0x70000), (18, 1)];
      windowChanged (s.window .fieldRing) ((loadWindow s).window .fieldRing) = true ∧ s.history.records = []) ∧
    (let s := { copied [] with history := twoFields.history };
      windowChanged (s.window .fieldRing) ((loadWindow s).window .fieldRing) = true ∧ s.history.records ≠ [] ∧
      (loadWindow s).history.records = []) ∧
    (let s := copied [(16, 0x10000), (17, 0x80000), (18, 1)];
      windowChanged (s.window .fieldRing) ((loadWindow s).window .fieldRing) = false ∧
      windowChanged (s.window .output) ((loadWindow s).window .output) = true ∧
      s.window .status ≠ none ∧ (loadWindow s).window .status = none ∧
      (loadWindow (loadWindow s)).window .status = none) ∧
    (let s := copied [(20, 0x40000), (21, 0x10000), (22, 3)];
      (s.window .status).map (fun e => e.base) ≠ some 0x40000 ∧
      ((loadWindow s).window .status).map (fun e => e.base) = some 0x40000 ∧ (loadWindow s).cond.statusPending = true) := by
  decide +kernel

theorem witness_RefusedGroups_installs :
    (let o := (loadIngest (copied ingestCopy)).settings.ingest;
      o.map (fun g => (g.w, g.l, g.k, g.slotPitch, g.linePitch)) =
        some (group.w, group.l, group.k, group.slotPitch, group.linePitch) ∧ live.settings.ingest = some group) ∧
    ((loadIngest (copied (ingestCopy ++ [(69, 17)]))).settings.ingest.map (fun g => g.stallLimit) = some 18 ∧
      (loadIngest (copied (ingestCopy ++ [(69, 17)]))).cond.occurred.getLsbD 15 = true) ∧
    (loadIngest (copied ((64, 256) :: ingestCopy.drop 2))).settings.ingest.map (fun g => g.l) = some 0 ∧
    (let s := { copied (ingestCopy ++ [(69, 18)]) with monitor := (timed (2 ^ 18)).monitor };
      s.monitor.timerRunning = true ∧ 2 ^ 18 ≤ s.monitor.timerCount ∧ (loadIngest s).monitor.timerRunning = false) := by
  decide +kernel

/-! ### Witnesses of the clauses: output words, sources and the probe unit -/

/-- A taken read of row 0 or another offset under a plan of a method, one anchor line VALID in entry 0. -/
def shown (method : Method) (offset : Nat) : OutputRead :=
  { deferred := false, plan := some { plan with method := method }, offset := offset, fillY := 64, fillC := 512
    need := [{ role := .anchor, line := 0, entry := 0, held := none }], words := none, returned := 0 }
/-- A store whose entry 0 holds a line of luma 32 and chroma 16. -/
def lit : LineStore :=
  store [{ tag := none, state := .valid, useCount := 1, data := List.replicate 256 0x00200010, fill := none }] []

theorem witness_OutputReadReturns_words :
    (shown .spatial 0).produce lit 1 = [0x00200010] ∧ (shown .fill 0).produce lit 1 = [0x00400200] ∧
    (shown .spatial (240 * 2560)).produce lit 1 = [0x00400200] ∧ (shown .spatial (2560 - 4)).produce lit 2 = [0x00200010, 0x00400200] ∧
    ({ shown .spatial 0 with plan := none } : OutputRead).produce lit 1 = [0x00400200] := by decide +kernel

theorem witness_RowsTakeTheirSources_estimates :
    (11 % 2 ≠ (picture .blend []).parity ∧ 2 ≤ (picture .blend []).rows ∧ 239 < (picture .blend []).rows ∧ 0 < (picture .blend []).width ∧
      255 < (picture .blend []).width) ∧
    (0 % 2 ≠ ({ picture .blend [] with parity := 1 } : Picture).parity ∧ (239 : Nat) % 2 ≠ (picture .blend []).parity) ∧
    ((picture .spatial [source .anchor 5 .valid, source .anchor 6 .valid]).spatialLuma 11 255 = 16 ∧
      (picture .spatial [source .anchor 5 .valid, source .anchor 6 .valid]).spatialChroma 11 255 = 32) ∧
    (picture .blend [source .anchor 5 .void]).ownVoid 5 = true := by decide +kernel

theorem witness_OutputReadTake_wants :
    ((enterFrame 0 (sysNew firstRow woven)).wantedLines 0 4).map (fun w => (w.role, w.line, w.base)) =
      [(.anchor, 0, 0x10040), (.anchor, 1, 0x10480), (.partner, 0, 0x2FE80)] ∧
    (enterFrame 0 (sysNew firstRow woven)).ring = some ring ∧
    live.wantedLines 0 4 = [] ∧ (enterFrame 0 (sysNew firstRow woven)).wantedLines (240 * 2560) 4 = [] := by decide +kernel

/-- The device before field 3, which follows two continuous fields. -/
def third : State :=
  { twoFields with
    history := { twoFields.history with next := 3 }
    monitor := { twoFields.monitor with note := some { field := 2, captureCount := 6, parity := .top, closedCut := false } } }

theorem witness_OpeningBurst_sets_up_the_probe_unit :
    (let q := wr 0x4FC80 [7, 3];
      monitored q 2 third = true ∧ covers (ring.areaWords q) 0 = true ∧ covers (ring.areaWords q) 1 = true ∧
      third.monitor.acquisition = .off ∧ third.loadsAtOpening = false ∧ (∀ x ∈ third.history.records, x.number ≠ 3) ∧
      (let p := (after .captureRequestTake (capNew q third)).probe;
        p.combRef = some 2 ∧ p.repeatRef = some 1 ∧ p.table.map (fun e => e.line) = probeLines 120 ∧ p.field.map (fun f => f.number) = some 3)) ∧
    filling.probe.combRef = none ∧ filling.probe.repeatRef = none := by decide +kernel

theorem witness_PixelPart_completes_a_line :
    (let s := { filling with history := { filling.history with records := filling.history.records.map (fun r =>
        { r with lines := r.lines.map (fun e => { e with extent := 254 }) }) } };
      (∃ r, s.history.filling = some r ∧ (r.lines.getD 2 LineEntry.fresh).extent = 254 ∧ 2 < r.lines.length) ∧ 254 + 2 ≤ ring.width ∧
      ((lineWords ring [(Area.pixel 0 2 254, whole 1), (Area.pixel 0 2 255, whole 1)] s).probe.table.find?
        (fun e => decide (e.line = 2))).map (fun e => e.status) = some .notRun) := by
  refine ⟨⟨_, rfl, by decide +kernel, by decide +kernel⟩, by decide +kernel, by decide +kernel⟩

theorem witness_CompletedLine_fetches :
    (let u := prober (some 1) (some 2) [line 2 .waiting] [];
      (∃ f, u.field = some f ∧ f.parity = .top ∧ (u.fetches twoFields.history ring f 2).map (fun x => (x.role, x.line)) =
        [(.own, 2), (.repeatRef, 2), (.combUpper, 1), (.combLower, 2)] ∧
        (u.fetches twoFields.history ring { f with parity := .bottom } 119).map (fun x => (x.role, x.line)) =
          [(.own, 119), (.repeatRef, 119), (.combBoth, 119)])) ∧ 2 < ring.lines ∧ 119 < ring.lines := by
  refine ⟨⟨_, rfl, by decide +kernel⟩, by decide⟩

theorem witness_Eviction_loses_references :
    (let done := fetch 1 [5];
      let lost := fun (u : ProbeUnit) => (evict (goodRecord 1 0 .top none none) { live with probe := u }).probe;
      let comb := { fetch 9 [] with role := .combUpper };
      let pending : List PendingProbe := [{ line := 2, fetches := [done, comb] }, { line := 6, fetches := [fetch 9 [], comb] }];
      let table := [line 2 .pending, line 6 .pending];
      ((lost (prober (some 1) (some 2) table pending)).table.map (fun e => e.status) = [.done, .pending] ∧
        (lost (prober (some 1) (some 2) table pending)).pending = [{ line := 6, fetches := [fetch 9 []] }]) ∧
      ((lost (prober (some 1) none table pending)).table.map (fun e => e.status) =
          [.invalid .referenceLost, .invalid .referenceLost] ∧ (lost (prober (some 1) none table pending)).pending = []) ∧
      (lost (prober (some 2) (some 1) table pending)).pending = pending) := by decide +kernel

theorem witness_ProbeBursts_other_line :
    (probing (fetch 256 []) [{ burst [1] false with line := 6 }]).probe.inFlight = [{ burst [1] false with line := 6 }] ∧
    (probing (fetch 256 []) []).probe.pending.find? (fun p => decide (p.line = 6)) = none := by decide +kernel

/-! ### Witnesses of the clauses: closes, evictions, withdrawals, loads and the status block -/

theorem witness_OpeningBurst_cuts_and_evicts :
    (let first := wr 0x10000 [9, 1];
      let next := wr 0x2FE40 [9, 1];
      (monitored first 0 filling = true ∧ monitored next 1 filling = true ∧ filling.loadsAtOpening = false ∧
        filling.settings.ingest = some group ∧ filling.history.filling.map (fun x => x.slot) = some 0 ∧
        filling.monitor.note.map (fun n => (n.captureCount, n.parity)) = some (7, .bottom)) ∧
      ((after .captureRequestTake (capNew first filling)).history.records.map (fun r => (r.number, r.state)) = [(2, .filling)]) ∧
      (let t := after .captureRequestTake (capNew next filling);
        t.history.records.map (fun r => (r.number, r.state)) = [(1, .cut), (2, .filling)] ∧
        t.cond.occurred.getLsbD 1 = true ∧ t.cond.occurred.getLsbD 4 = true ∧ t.cond.occurred.getLsbD 5 = true) ∧
      (monitored next 1 twoFields = true ∧ twoFields.history.filling = none ∧ twoFields.monitor.note = none ∧
        (twoFields.history.ofSlot 1).isSome = true ∧ (after .captureRequestTake (capNew next twoFields)).history.records.map
          (fun r => r.number) = [1, 9])) := by decide +kernel

theorem witness_EndMark_conditions :
    (let t := after .captureRequestTake (capNew mark filling);
      t.history.newest.map (fun r => (r.state, r.metrics, r.lines.map (fun e => e.final))) =
        some (.complete, none, List.replicate 120 (some .missing)) ∧
      t.cond.occurred.getLsbD 1 = false ∧ t.cond.occurred.getLsbD 3 = true ∧ t.cond.statusPending = true) := by decide +kernel

theorem witness_StallExpiry_measuring :
    (let s := fun (m : Option Measurement) => { acquiring m with monitor := { (acquiring m).monitor with timerRunning := true } };
      ((s (some measuring)).monitor.timerRunning = true ∧ (s (some measuring)).history.filling = none ∧
        (s (some measuring)).monitor.acquisition = .acquiring ∧ (s (some measuring)).monitor.measurement = some measuring ∧
        (after .stallTimerExpiry (s (some measuring))).monitor.acquisition = .acquired) ∧
      ((s none).monitor.measurement = none ∧ (after .stallTimerExpiry (s none)).monitor.acquisition = .acquiring) ∧
      ((timed 5).history.filling = none ∧ (timed 5).monitor.acquisition = .off ∧
        (after .stallTimerExpiry (timed 5)).cond.occurred = 4)) := by decide +kernel

theorem witness_Eviction_repairs_and_voids :
    (let s := { planned (fields 4) with store := { store [held .filling 0 none, held .filling 1 none] [] with
        fillQueue := [1, 0], inFlight := [fillBurst [1] false], withdrawn := [[0, 1], [0]] } };
      let r := { goodRecord 1 0 .top none none with referenced := plan.rolesOf 1 };
      (s.store.entry 0).fillsFor [1] = true ∧ (s.store.entry 1).fillsFor [2] = false ∧
      (evict r s).planner.plan.map (fun p => (p.method, p.partner2, p.motionLost)) = some (.blend, none, true) ∧
      (evict r s).cond.occurred.getLsbD 13 = true ∧
      (evict r s).store = { store [StoreEntry.empty, held .void 1 none] [] with
        fillQueue := [], inFlight := [], withdrawn := [] } ∧
      (evict (goodRecord 2 1 .bottom none none) s).store = s.store ∧
      (evict (goodRecord 2 1 .bottom none none) s).planner = s.planner) := by decide +kernel

theorem witness_Withdrawal_waits_for_fills :
    (reading.system.queue.map (fun q => match q.progress with
        | .outputTaken _ o => (o.deferred, o.returned, o.need.map (fun n => n.entry))
        | _ => (false, 0, []))) = [(true, 0, [0, 1])] ∧
    reading.counted = 1 ∧ (after (.withdrawal 5) reading).counted = 1 ∧
    (after (.withdrawal 5) reading).store.withdrawn = [[0, 1]] ∧
    (after (.withdrawal 5) (sys (taken 0 true) live)).counted = 0 ∧ live.store.release [] = live.store ∧
    (let s := fillTo 32 [] [fillBurst [] true];
      (after (.fillBurstReturn .ret) { s with store := { s.store with withdrawn := [[0, 1], [0]] } }).store.withdrawn = [[1]]) := by
  decide +kernel

theorem witness_HoldRelease_memory_timer :
    (let s := fun (coupled : Bool) (count pending : Nat) (copy : List (Nat × Word)) => { copied copy with
        settings := { (copied copy).settings with memory := { coupled := coupled, interval := 210 } }
        memPort := { live.memPort with intervalCount := count, refreshPending := pending } };
      let seen := fun (x : State) => ((loadMemory x).memPort.intervalCount, (loadMemory x).memPort.refreshPending,
        (loadMemory x).cond.occurred.getLsbD 15, (loadMemory x).cond.occurred.getLsbD 19);
      seen (s false 150 0 [(5, 150)]) = (0, 1, false, false) ∧ seen (s false 149 7 [(5, 150)]) = (149, 7, false, false) ∧
      seen (s false 209 8 [(5, 99)]) = (0, 8, true, true) ∧ seen (s false 205 7 [(5, 210)]) = (205, 7, false, false) ∧
      seen (s true 0 8 [(5, 100)]) = (0, 8, false, false) ∧ seen (s false 200 8 [(4, 1), (5, 65536)]) = (0, 8, true, false)) := by
  decide +kernel

theorem witness_StatusGrant_words :
    (let s := { planned live with memPort := { live.memPort with
        firstFault := some { addr := 0x1234, requester := .probe, transfer := .reload, multi := true } } };
      (([3, 4, 5, 6, 8, 9, 10].map (fun i => (statusBlock s 1).getD i 0)) =
        [0x00020403, 0x1234, 0x00780000, 0, 0x00030002, 4, 3]) ∧
      ([3, 4, 8, 9, 10].map (fun i => (statusBlock live 1).getD i 0)) = [0, 0, 0, 0, 0] ∧
      (statusBlock (measured 0 none) 1).getD 5 0 = 1) := by decide +kernel

end Sys2Proof.Tests
end

section
/-! The final state of a line (R14): its tests as the spec words them, and the state one entry of the table at a time. -/

namespace Sys2Proof.Machine

section FinalLineState

variable {w : Nat} {tags : Bool} {l : Nat} {e : LineEntry}

/-- A field at the low end of a word is the word's remainder. -/
theorem bits_zero (v : Word) (n : Nat) : bits v 0 n = v.toNat % 2 ^ n := by
  rw [bits, Nat.pow_zero, Nat.div_one]

theorem LineEntry.slipped_eq_true_iff :
    e.slipped l = true ↔ e.tagWritten = false ∨ e.tag.toNat % 1024 ≠ l ∨ e.tag.getLsbD 13 = true := by
  simp [LineEntry.slipped, bits_zero, or_assoc]

/-- R14: the usable final states are the last three of the table. -/
theorem LineState.usable_eq_true_iff (f : LineState) :
    f.usable = true ↔ f = .held ∨ f = .overlong ∨ f = .good := by
  cases f <;> simp [LineState.usable]

/-- R14: a line with no pixel words is MISSING, whatever its tag says. -/
theorem finalState_of_extent_eq_zero (he : e.extent = 0) : finalState w tags l e = .missing :=
  if_pos he

theorem finalState_of_slipped (he : e.extent ≠ 0) (hs : (tags && e.slipped l) = true) :
    finalState w tags l e = .slipped := by
  rw [finalState, if_neg he, if_pos hs]

theorem finalState_of_dropout (he : e.extent ≠ 0) (hs : ¬ (tags && e.slipped l) = true)
    (hd : (tags && e.tag.getLsbD 12) = true) : finalState w tags l e = .dropout := by
  rw [finalState, if_neg he, if_neg hs, if_pos hd]

/-- R14: where neither test of the tag holds, the extent and the OVERLONG mark alone decide. -/
theorem finalState_of_tag_clean (he : e.extent ≠ 0) (hs : ¬ (tags && e.slipped l) = true)
    (hd : ¬ (tags && e.tag.getLsbD 12) = true) :
    finalState w tags l e =
      if e.extent < 3 * w / 4 then .short else if e.extent < w then .held
      else if e.overlong then .overlong else .good := by
  rw [finalState, if_neg he, if_neg hs, if_neg hd]

end FinalLineState

/-- Settles O17: the table of R14 read from the top. A whole line is past the bound of SHORT, as 3w/4 ≤ w. -/
theorem finalLineStateIsTheFirstWhoseTestHolds : Obligations.FinalLineStateIsTheFirstWhoseTestHolds := by
  intro w tags l e slipped dropout
  have hslip : (tags && e.slipped l) = true ↔ slipped := by
    rw [Bool.and_eq_true, LineEntry.slipped_eq_true_iff]
  have hdrop : (tags && e.tag.getLsbD 12) = true ↔ dropout := by rw [Bool.and_eq_true]
  have clean (hs : ¬ slipped) (hd : ¬ dropout) (he : 0 < e.extent) :=
    finalState_of_tag_clean (w := w) (Nat.ne_of_gt he) (mt hslip.mp hs) (mt hdrop.mp hd)
  have whole (hw : e.extent = w) : ¬ e.extent < 3 * w / 4 := by omega
  refine ⟨finalState_of_extent_eq_zero, fun he hs => finalState_of_slipped he (hslip.mpr hs),
    fun he hs hd => finalState_of_dropout he (mt hslip.mp hs) (hdrop.mpr hd), ?short, ?held, ?overlong, ?good,
    LineState.usable_eq_true_iff⟩
  case short =>
    intro hs hd he hlt
    rw [clean hs hd he, if_pos hlt]
  case held =>
    intro hs hd he hge hlt
    rw [clean hs hd he, if_neg (Nat.not_lt.mpr hge), if_pos hlt]
  case overlong =>
    intro hs hd he hw ho
    rw [clean hs hd he, if_neg (whole hw), if_neg (Nat.not_lt.mpr (Nat.le_of_eq hw.symm)), if_pos ho]
  case good =>
    intro hs hd he hw ho
    rw [clean hs hd he, if_neg (whole hw), if_neg (Nat.not_lt.mpr (Nat.le_of_eq hw.symm)), if_neg (by rw [ho]; exact Bool.false_ne_true)]

end Sys2Proof.Machine
end

section
/-! The weave partner (R59, R71): the partner table, and what the weave test asks of the record it names. -/

namespace Sys2Proof.Machine

section WeavePartner

variable {h : History} {a : FieldRecord} {label : CadenceLabel} {after : Bool} {wanted : Position32} {p : PartnerRole}

theorem FieldRecord.closed_eq_true_iff (r : FieldRecord) : r.closed = true ↔ r.state ≠ .filling :=
  decide_eq_true_iff

/-- There are two parities, so being the other one is being different. -/
theorem Parity.eq_other_iff_ne (x y : Parity) : x = y.other ↔ x ≠ y := by
  cases x <;> cases y <;> decide

theorem weavePartner_of_unlabelled (hl : a.label = none) : h.weavePartner a = none := by
  simp only [History.weavePartner, hl]

theorem weavePartner_of_no_row (hl : a.label = some label) (ht : partnerTable label.position = none) :
    h.weavePartner a = none := by
  simp only [History.weavePartner, hl, ht]

/-- R71: under a row of the partner table, the weave test is the record of the partner's number meeting its four conditions. -/
theorem weavePartner_of_row (hl : a.label = some label) (ht : partnerTable label.position = some (after, wanted)) :
    h.weavePartner a = some p ↔
      p.after = after ∧ p.field = (if after then FieldNo.succ a.number else FieldNo.pred a.number) ∧
      ∃ r, h.find p.field = some r ∧ r.state ≠ .filling ∧ r.parity ≠ a.parity ∧
        r.label = some { episode := label.episode, position := wanted } ∧
        (if after then r.continuous else a.continuous) = true := by
  simp only [History.weavePartner, hl, ht]
  generalize (if after = true then FieldNo.succ a.number else FieldNo.pred a.number) = number
  obtain ⟨field, side⟩ := p
  cases hf : h.find number with
  | none =>
    constructor
    · exact nofun
    · rintro ⟨_, rfl, r, hr, _⟩
      cases hf.symm.trans hr
  | some r =>
    simp only [Option.ite_none_right_eq_some, FieldRecord.closed_eq_true_iff, Parity.eq_other_iff_ne]
    constructor
    · rintro ⟨qualifies, named⟩
      cases named
      exact ⟨rfl, rfl, r, hf, qualifies⟩
    · rintro ⟨rfl, rfl, r', hr, qualifies⟩
      cases hf.symm.trans hr
      exact ⟨qualifies, rfl⟩

end WeavePartner

/-- Settles O32: the seven rows of R59 are those of `partnerTable`; an anchor without a label or a row has no partner, and under
a row the weave test is `weavePartner_of_row`. -/
theorem weavePartnerFollowsThePartnerTable : Obligations.WeavePartnerFollowsThePartnerTable := by
  refine ⟨⟨rfl, rfl, rfl, rfl, rfl, rfl, rfl⟩, fun h a p => ⟨fun hw => ?tested, ?named⟩⟩
  case tested =>
    cases hl : a.label with
    | none => simp [weavePartner_of_unlabelled hl] at hw
    | some label =>
      cases ht : partnerTable label.position with
      | none => simp [weavePartner_of_no_row hl ht] at hw
      | some row =>
        obtain ⟨after, wanted⟩ := row
        obtain ⟨rfl, field, r, qualifies⟩ := (weavePartner_of_row hl ht).mp hw
        exact ⟨label, wanted, r, rfl, ht, field, qualifies⟩
  case named =>
    rintro ⟨label, wanted, r, hl, ht, field, qualifies⟩
    exact (weavePartner_of_row hl ht).mpr ⟨rfl, field, r, qualifies⟩

end Sys2Proof.Machine
end

section
/-! The repair of a plan (R76 to R79): the plan each lost role leaves, with the roles released, and what the repair makes of the state. -/

namespace Sys2Proof.Machine

section PlanRepair

variable {p : Plan} {roles : Roles} {f : FieldNo} {s : State}

/-- R79: the released set has one bit for each role released with the lost one. -/
theorem releasedBits_eq (partner anchor2 partner2 : Bool) :
    releasedBits partner anchor2 partner2 =
      (if partner then 1 else 0) + (if anchor2 then 2 else 0) + (if partner2 then 4 else 0) := by
  cases partner <;> cases anchor2 <;> cases partner2 <;> rfl

/-- R79: no other role is released where only partner-2 may be. -/
theorem releasedBits_partner2 (partner2 : Bool) : releasedBits false false partner2 = if partner2 then 4 else 0 :=
  (releasedBits_eq false false partner2).trans (Nat.zero_add _)

/-- R76: the loss of the anchor clears every role. -/
theorem Plan.repair_of_anchor (ha : roles.anchor = true) :
    p.repair roles = some
      ({ p with method := .fill, anchor := none, partner := none, anchor2 := none, partner2 := none, anchorLost := true }, 1,
        releasedBits p.partner.isSome p.anchor2.isSome p.partner2.isSome) :=
  if_pos ha

/-- R77: the loss of the partner clears partner-2 with it, and keeps anchor-2. -/
theorem Plan.repair_of_partner (ha : roles.anchor = false) (hp : roles.partner = true) :
    p.repair roles = some
      ({ p with method := .spatial, partner := none, partner2 := none, partnerLost := true }, 2,
        releasedBits false false p.partner2.isSome) := by
  rw [Plan.repair, if_neg (ne_true_of_eq_false ha), if_pos hp]

/-- R78: the loss of anchor-2 keeps the method and the other roles. -/
theorem Plan.repair_of_anchor2 (ha : roles.anchor = false) (hp : roles.partner = false) (ha2 : roles.anchor2 = true) :
    p.repair roles = some ({ p with anchor2 := none, motionLost := true }, 3, 0) := by
  rw [Plan.repair, if_neg (ne_true_of_eq_false ha), if_neg (ne_true_of_eq_false hp), if_pos ha2]

/-- R78: the loss of partner-2 keeps the method and the other roles. -/
theorem Plan.repair_of_partner2 (ha : roles.anchor = false) (hp : roles.partner = false) (ha2 : roles.anchor2 = false)
    (hp2 : roles.partner2 = true) : p.repair roles = some ({ p with partner2 := none, motionLost := true }, 4, 0) := by
  rw [Plan.repair, if_neg (ne_true_of_eq_false ha), if_neg (ne_true_of_eq_false hp), if_neg (ne_true_of_eq_false ha2),
    if_pos hp2]

/-- R79: an empty referenced set asks for no repair. -/
theorem Plan.repair_empty (p : Plan) : p.repair Roles.empty = none := rfl

/-- R79: the plan is replaced and the referenced sets follow it before REFERENCE_LOST is raised. -/
theorem repairPlan_of_repair {p1 : Plan} {role released : Nat} (hplan : s.planner.plan = some p)
    (hrepair : p.repair roles = some (p1, role, released)) :
    repairPlan f roles s =
      raise (.referenceLost f role p.method p1.method released)
        { s with planner := { s.planner with plan := some p1 }, history := s.history.reference (some p1) } := by
  simp only [repairPlan, hplan, hrepair, lostCondition]

/-- R79: where the plan asks for no repair the eviction's notice does nothing. -/
theorem repairPlan_of_repair_none (hplan : s.planner.plan = some p) (hrepair : p.repair roles = none) :
    repairPlan f roles s = s := by
  simp only [repairPlan, hplan, hrepair]

end PlanRepair

/-- Settles O34: the roles of the referenced set are taken in the order of `Plan.repair`, and `repairPlan` installs the plan each leaves. -/
theorem lostReferencesRepairThePlan : Obligations.LostReferencesRepairThePlan := by
  intro f roles p s hplan repaired one
  refine ⟨fun ha => ?anchor, fun ha hp => ?partner, fun ha hp ha2 => ?anchor2, fun ha hp ha2 hp2 => ?partner2, ?unnamed⟩
  case anchor =>
    rw [repairPlan_of_repair hplan (Plan.repair_of_anchor ha), releasedBits_eq]
  case partner =>
    rw [repairPlan_of_repair hplan (Plan.repair_of_partner ha hp), releasedBits_partner2]
  case anchor2 => exact repairPlan_of_repair hplan (Plan.repair_of_anchor2 ha hp ha2)
  case partner2 => exact repairPlan_of_repair hplan (Plan.repair_of_partner2 ha hp ha2 hp2)
  case unnamed =>
    rintro rfl
    exact repairPlan_of_repair_none hplan p.repair_empty

end Sys2Proof.Machine
end

section
/-! The estimate, the weight and the blend of a missing row (R93, R98, R99): what each is on each row of its table, and that a blend lies
between its two samples. -/

namespace Sys2Proof.Machine

theorem absDiff_eq_max_sub_min (x y : Nat) : absDiff x y = max x y - min x y := by
  rw [absDiff]
  omega

section EdgeEstimate

variable {aL a aR bL b bR : Nat}

/-- R93: V is the direction wherever neither diagonal differs less. -/
theorem edgeEstimate_of_vertical (hl : absDiff a b ≤ absDiff aL bR) (hr : absDiff a b ≤ absDiff aR bL) :
    edgeEstimate aL a aR bL b bR = mean2 a b :=
  if_pos ⟨hl, hr⟩

/-- R93: L is the direction where it differs less than V and no more than R. -/
theorem edgeEstimate_of_left (hv : absDiff aL bR < absDiff a b) (hr : absDiff aL bR ≤ absDiff aR bL) :
    edgeEstimate aL a aR bL b bR = mean2 aL bR := by
  rw [edgeEstimate, if_neg fun h => Nat.not_le_of_lt hv h.1, if_pos hr]

/-- R93: R is the direction where it differs less than both others. -/
theorem edgeEstimate_of_right (hv : absDiff aR bL < absDiff a b) (hl : absDiff aR bL < absDiff aL bR) :
    edgeEstimate aL a aR bL b bR = mean2 aR bL := by
  rw [edgeEstimate, if_neg fun h => Nat.not_le_of_lt hv h.2, if_neg (Nat.not_le_of_lt hl)]

end EdgeEstimate

section BlendWeight

variable {m tLo tHi : Nat}

theorem blendWeight_of_le_low (hm : m ≤ tLo) : blendWeight m tLo tHi = 0 :=
  if_pos hm

theorem blendWeight_of_between (hlo : tLo < m) (hhi : m < tHi) :
    blendWeight m tLo tHi = (m - tLo) * 16 / (tHi - tLo) := by
  rw [blendWeight, if_neg (Nat.not_le_of_lt hlo), if_neg (Nat.not_le_of_lt hhi)]

/-- R98: the top row of the table is tested after the bottom one, so it needs the thresholds in order. -/
theorem blendWeight_of_high_le (ht : tLo < tHi) (hm : tHi ≤ m) : blendWeight m tLo tHi = 16 := by
  rw [blendWeight, if_neg (Nat.not_le_of_lt (Nat.lt_of_lt_of_le ht hm)), if_pos hm]

/-- R98: below the high threshold the weight is short of 16, as m - tLo is short of tHi - tLo. -/
theorem blendWeight_lt_of_between (hlo : tLo < m) (hhi : m < tHi) : blendWeight m tLo tHi < 16 := by
  rw [blendWeight_of_between hlo hhi, Nat.div_lt_iff_lt_mul (Nat.sub_pos_of_lt (Nat.lt_trans hlo hhi)), Nat.mul_comm]
  exact Nat.mul_lt_mul_of_pos_left (Nat.sub_lt_sub_right (Nat.le_of_lt hlo) hhi) (by decide)

end BlendWeight

section BlendSample

variable {t t' s s' w : Nat}

theorem blendSample_mono (ht : t ≤ t') (hs : s ≤ s') : blendSample t s w ≤ blendSample t' s' w :=
  Nat.div_le_div_right <| Nat.add_le_add_right (Nat.add_le_add (Nat.mul_le_mul_right _ ht) (Nat.mul_le_mul_right _ hs)) 8

/-- R99: the two weights make 16, so a sample blended with itself stays, the half being rounded away. -/
theorem blendSample_self (hw : w ≤ 16) : blendSample t t w = t := by
  rw [blendSample, ← Nat.mul_add, Nat.sub_add_cancel hw]
  omega

theorem min_le_blendSample (hw : w ≤ 16) : min t s ≤ blendSample t s w :=
  calc min t s = blendSample (min t s) (min t s) w := (blendSample_self hw).symm
    _ ≤ blendSample t s w := blendSample_mono (Nat.min_le_left t s) (Nat.min_le_right t s)

theorem blendSample_le_max (hw : w ≤ 16) : blendSample t s w ≤ max t s :=
  calc blendSample t s w ≤ blendSample (max t s) (max t s) w := blendSample_mono (Nat.le_max_left t s) (Nat.le_max_right t s)
    _ = max t s := blendSample_self hw

theorem blendSample_zero (t s : Nat) : blendSample t s 0 = t := by
  rw [blendSample]
  omega

theorem blendSample_sixteen (t s : Nat) : blendSample t s 16 = s := by
  rw [blendSample]
  omega

end BlendSample

/-- Settles O36: the rows of R93 by its three directions, those of R98 by the two thresholds, and R99's blend between its samples, which
it meets at the ends of the weight. -/
theorem estimateWeightAndBlendFollowTheirTables : Obligations.EstimateWeightAndBlendFollowTheirTables := by
  refine ⟨fun aL a aR bL b bR => ?estimate, fun m tLo tHi ht => ?weight, fun t s w hw => ?blend,
    fun t s => ⟨blendSample_zero t s, blendSample_sixteen t s⟩⟩
  case estimate =>
    simp only [← absDiff_eq_max_sub_min]
    exact ⟨edgeEstimate_of_vertical, edgeEstimate_of_left, edgeEstimate_of_right⟩
  case weight =>
    exact ⟨blendWeight_of_le_low,
      fun hlo hhi => ⟨blendWeight_of_between hlo hhi, Nat.le_of_lt_succ (blendWeight_lt_of_between hlo hhi)⟩,
      blendWeight_of_high_le ht⟩
  case blend => exact ⟨rfl, min_le_blendSample hw, blendSample_le_max hw⟩

end Sys2Proof.Machine
end

section
/-! An axis of the scaler (R107 to R110): its step and offset, that the box lies within the source at them, and the source index, phase
and taps of a position. -/

namespace Sys2Proof.Machine

section AxisStep

variable {src box : Nat}

/-- R108: the step never makes the box longer than the source, so the part D of the source it leaves uncovered is not negative. -/
theorem box_mul_axisStep_le (src box : Nat) : box * axisStep src box ≤ src * 65536 :=
  calc box * axisStep src box ≤ box * (src * 65536 / box) := Nat.mul_le_mul_left box (Nat.min_le_right _ _)
    _ ≤ src * 65536 := Nat.mul_div_le _ _

theorem axisStep_cast (src box : Nat) : (axisStep src box : Int) = min 65536 ((src : Int) * 65536 / box) := by
  have hdiv : ((src * 65536 / box : Nat) : Int) = (src : Int) * 65536 / box := Int.natCast_ediv _ _
  rw [axisStep, ← hdiv]
  omega

/-- R107: the step depends on the ratio of source and box alone. -/
theorem axisStep_mul_left {k : Nat} (hk : 0 < k) (src box : Nat) : axisStep (k * src) (k * box) = axisStep src box := by
  rw [axisStep, axisStep, Nat.mul_assoc, Nat.mul_div_mul_left _ _ hk]

/-- R106: the step computed for the chroma axis is the one of the luma axis. -/
theorem axisStep_half (hs : src % 2 = 0) (hb : box % 2 = 0) : axisStep (src / 2) (box / 2) = axisStep src box := by
  rw [← axisStep_mul_left Nat.two_pos, Nat.mul_div_cancel' (Nat.dvd_of_mod_eq_zero hs), Nat.mul_div_cancel' (Nat.dvd_of_mod_eq_zero hb)]

end AxisStep

/-- R108: the offset is the half of its sum, rounded toward minus infinity. -/
theorem axisOffset_bounds (src box step : Nat) :
    2 * axisOffset src box step ≤ ((step : Int) - 65536) + (src * 65536 - box * step) ∧
      ((step : Int) - 65536) + (src * 65536 - box * step) < 2 * axisOffset src box step + 2 := by
  rw [axisOffset]
  omega

section BoxWithinSource

variable {src box step i : Nat}

/-- R108: half a sample above the source is as far as a position goes, as neither the step nor D is negative. -/
theorem le_axisPos (hfit : box * step ≤ src * 65536) : -32768 ≤ axisPos step (axisOffset src box step) i := by
  obtain ⟨-, hoff⟩ := axisOffset_bounds src box step
  have hi : (0 : Int) ≤ i * step := Int.mul_nonneg (Int.natCast_nonneg i) (Int.natCast_nonneg step)
  rw [axisPos]
  omega

/-- R108: the last position of the box stays half a sample short of the source's end, the box being centred in the source. -/
theorem axisPos_le (hfit : box * step ≤ src * 65536) (hi : i < box) :
    axisPos step (axisOffset src box step) i ≤ src * 65536 - 32768 := by
  obtain ⟨hoff, -⟩ := axisOffset_bounds src box step
  have hlast : i * step + step ≤ box * step :=
    calc i * step + step = (i + 1) * step := (Nat.succ_mul i step).symm
      _ ≤ box * step := Nat.mul_le_mul_right step hi
  rw [axisPos]
  omega

end BoxWithinSource

section PositionParts

variable {pos : Int}

theorem posIndex_bounds (pos : Int) : 65536 * posIndex pos ≤ pos ∧ pos < 65536 * posIndex pos + 65536 := by
  rw [posIndex]
  omega

theorem neg_one_le_posIndex (h : -32768 ≤ pos) : -1 ≤ posIndex pos := by
  rw [posIndex]
  omega

theorem posIndex_le {src : Nat} (h : pos ≤ src * 65536 - 32768) : posIndex pos ≤ src - 1 := by
  rw [posIndex]
  omega

/-- R109: the phase is the top four bits of the fraction above the source index. -/
theorem posPhase_bounds (pos : Int) :
    4096 * (posPhase pos : Int) ≤ pos - 65536 * posIndex pos ∧ pos - 65536 * posIndex pos < 4096 * (posPhase pos : Int) + 4096 := by
  rw [posPhase, posIndex]
  omega

theorem posPhase_le (pos : Int) : posPhase pos ≤ 15 := by
  rw [posPhase]
  omega

end PositionParts

section Taps

variable {src k : Nat}

theorem clampTap_cast (hs : 1 ≤ src) (n : Int) : (clampTap src n : Int) = max 0 (min n (src - 1)) := by
  rw [clampTap, clampInt]
  omega

theorem clampTap_lt (hs : 1 ≤ src) (n : Int) : clampTap src n < src := by
  have hcast := clampTap_cast hs n
  omega

/-- R110: the taps are the source indices from n - 1 on, each clamped. -/
theorem taps_getD (src : Nat) (n : Int) (hk : k < 4) : (taps src n).getD k 0 = clampTap src (n - 1 + k) := by
  match k, hk with
  | 0, _ => exact congrArg (clampTap src) (by omega : n - 1 = n - 1 + (0 : Nat))
  | 1, _ => exact congrArg (clampTap src) (by omega : n = n - 1 + (1 : Nat))
  | 2, _ => exact congrArg (clampTap src) (by omega : n + 1 = n - 1 + (2 : Nat))
  | 3, _ => exact congrArg (clampTap src) (by omega : n + 2 = n - 1 + (3 : Nat))

end Taps

/-- Settles O38: the box lies within the source by `le_axisPos` and `axisPos_le`, which is what bounds the source index; the phase and the
taps are in range at any position. -/
theorem axisPositionsStayWithinTheSource : Obligations.AxisPositionsStayWithinTheSource := by
  refine ⟨fun src box i hs hi => ?axis, fun src box hsrc hbox _ => axisStep_half hsrc hbox⟩
  have hfit := box_mul_axisStep_le src box
  refine ⟨axisStep_cast src box, axisOffset_bounds src box _, rfl, posIndex_bounds _,
    ⟨neg_one_le_posIndex (le_axisPos hfit), posIndex_le (axisPos_le hfit hi)⟩, posPhase_bounds _, posPhase_le _, rfl,
    fun k hk => ?tap⟩
  rw [taps_getD src _ hk]
  exact ⟨clampTap_cast hs _, clampTap_lt hs _⟩

end Sys2Proof.Machine
end

section
/-! The arbiter's choice one position of its list at a time (R151), and what a grant leaves in a starvation count (R153). -/

namespace Sys2Proof.Machine

theorem grantee_of_refresh_urgent {s : State} (h : s.memPort.refreshPending = Config.refreshUrgent) :
    s.grantee = some .refresh := by
  rw [State.grantee, if_pos h]

theorem grantee_of_capture_waiting {s : State} (hr : s.memPort.refreshPending ≠ Config.refreshUrgent)
    (hc : s.waiting .capture = true) : s.grantee = some .capture := by
  rw [State.grantee, if_neg hr, if_pos hc]

theorem Starvation.isStarved_eq_true_iff (v : Starvation) (r : Requester) : v.isStarved r = true ↔ v.count r = Config.starved :=
  decide_eq_true_iff

theorem waiting_and_isStarved_eq_false_iff (s : State) (x : Requester) :
    (s.waiting x && s.memPort.starvation.isStarved x) = false ↔
      (s.waiting x = true → s.memPort.starvation.count x ≠ Config.starved) := by
  simp [Starvation.isStarved]

theorem ne_capture_of_mem_grantOrder {x : Requester} (h : x ∈ grantOrder) : x ≠ .capture := by
  rintro rfl
  exact absurd h (by decide)

section BelowCapture

variable {s : State} {before after : List Requester} {r : Requester}

/-- R151: past its first two positions the arbiter searches the requesters in order, first for a starved one and then for any. -/
theorem grantee_below_capture (hr : s.memPort.refreshPending ≠ Config.refreshUrgent) (hc : s.waiting .capture = false) :
    s.grantee =
      (grantOrder.find? (fun x => s.waiting x && s.memPort.starvation.isStarved x)).or (grantOrder.find? s.waiting) := by
  rw [State.grantee, if_neg hr, if_neg (Bool.not_eq_true _ ▸ hc)]
  cases grantOrder.find? (fun x => s.waiting x && s.memPort.starvation.isStarved x) <;> rfl

/-- R151, position 3: of several starved requesters that wait, the earliest in the list. -/
theorem grantee_of_first_starved (hr : s.memPort.refreshPending ≠ Config.refreshUrgent) (hc : s.waiting .capture = false)
    (hsplit : grantOrder = before ++ r :: after) (hw : s.waiting r = true) (hstarved : s.memPort.starvation.count r = Config.starved)
    (hbefore : ∀ x ∈ before, s.waiting x = true → s.memPort.starvation.count x ≠ Config.starved) :
    s.grantee = some r := by
  have hfirst : grantOrder.find? (fun x => s.waiting x && s.memPort.starvation.isStarved x) = some r := by
    rw [hsplit]
    refine find_at (fun x hx => (waiting_and_isStarved_eq_false_iff s x).2 (hbefore x hx)) ?_
    rw [hw, Bool.true_and, Starvation.isStarved_eq_true_iff, hstarved]
  rw [grantee_below_capture hr hc, hfirst, Option.some_or]

/-- R151: with no starved requester waiting, position 3 grants nothing. -/
theorem find?_starved_eq_none (h : ∀ x, x ≠ .capture → s.waiting x = true → s.memPort.starvation.count x ≠ Config.starved) :
    grantOrder.find? (fun x => s.waiting x && s.memPort.starvation.isStarved x) = none :=
  List.find?_eq_none.2 fun x hx => by
    rw [Bool.not_eq_true, waiting_and_isStarved_eq_false_iff]
    exact h x (ne_capture_of_mem_grantOrder hx)

/-- R151, positions 4 to 8: the first requester that waits, where none that waits is starved. -/
theorem grantee_of_first_waiting (hr : s.memPort.refreshPending ≠ Config.refreshUrgent) (hc : s.waiting .capture = false)
    (hsplit : grantOrder = before ++ r :: after) (hw : s.waiting r = true)
    (hnone : ∀ x, x ≠ .capture → s.waiting x = true → s.memPort.starvation.count x ≠ Config.starved)
    (hbefore : ∀ x ∈ before, s.waiting x = false) : s.grantee = some r := by
  rw [grantee_below_capture hr hc, find?_starved_eq_none hnone, Option.none_or, hsplit]
  exact find_at hbefore hw

end BelowCapture

/-- R151: with no requester waiting, no grant is made; the requester granted would be waiting. -/
theorem grantee_eq_none {s : State} (h : ∀ r, s.waiting r = false) : s.grantee = none :=
  Option.eq_none_iff_forall_ne_some.2 fun r hr => Bool.false_ne_true ((h r).symm.trans (grantee_waiting hr))

/-- R153: each count of a grant is the requester's own next count. -/
theorem Starvation.count_grant (v : Starvation) (waiting : Requester → Bool) (r : Requester) {x : Requester} (hx : x ≠ .capture) :
    (v.grant waiting r).count x = nextStarvation (v.count x) (decide (r = x)) (waiting x) := by
  cases x
  case capture => exact absurd rfl hx
  all_goals rfl

theorem count_countGrant (s : State) (r : Requester) {x : Requester} (hx : x ≠ .capture) :
    (s.countGrant r).memPort.starvation.count x =
      if x = r then 0 else if s.waiting x = true then min Config.starved (s.memPort.starvation.count x + 1) else 0 := by
  change (s.memPort.starvation.grant s.waiting r).count x = _
  rw [Starvation.count_grant _ _ _ hx, nextStarvation]
  simp only [decide_eq_true_eq, eq_comm (a := r)]

/-- Settles O42: one lemma per position of the arbiter's list, and the next count of each requester at a grant. -/
theorem arbiterTakesTheFirstThatHolds : Obligations.ArbiterTakesTheFirstThatHolds := by
  refine fun s => ⟨grantee_of_refresh_urgent, grantee_of_capture_waiting, fun hr hc => ⟨?listed, fun h => grantee_eq_none h⟩,
    fun _ r x hx => count_countGrant s r hx⟩
  intro before after r hsplit hw
  exact ⟨fun hstarved hbefore => grantee_of_first_starved hr hc hsplit hw hstarved hbefore,
    fun hnone hbefore => grantee_of_first_waiting hr hc hsplit hw hnone hbefore⟩

end Sys2Proof.Machine
end

section
/-! One occurrence of a condition (R174): the bit of its code in the occurred word and the mask, the STATUS window it looks for, and the
header of its record (R180). -/

namespace Sys2Proof.Machine

/-! ### The bit of a code -/

theorem Condition.code_bounds (c : Condition) : 1 ≤ c.code ∧ c.code ≤ 20 := by
  cases c <;> simp only [Condition.code] <;> decide

/-- R180: the source block fits the second byte of a record. -/
theorem Condition.source_lt (c : Condition) : c.source < 256 := by
  cases c
  case accessViolation =>
    rw [Condition.source, Reason.source]
    split <;> decide
  all_goals simp only [Condition.source]; decide

theorem codeBit_eq_twoPow (code : Nat) : codeBit code = BitVec.twoPow 20 (code - 1) := rfl

/-- Section 11.6: code k owns bit k - 1. -/
theorem codeBit_getLsbD {code : Nat} (hpos : 1 ≤ code) {i : Nat} (hi : i < 20) :
    (codeBit code).getLsbD i = decide (i + 1 = code) := by
  rw [codeBit_eq_twoPow, BitVec.getLsbD_twoPow, Bool.eq_iff_iff]
  simp only [Bool.and_eq_true, decide_eq_true_eq]
  omega

theorem codeBit_ne_zero {code : Nat} (hpos : 1 ≤ code) (hle : code ≤ 20) : codeBit code ≠ 0 := by
  intro hzero
  have hbit := codeBit_getLsbD hpos (i := code - 1) (by omega)
  rw [hzero, decide_eq_true (by omega)] at hbit
  simp at hbit

/-- R174: the mask test of an occurrence reads the one mask bit of its code. -/
theorem and_codeBit_ne_zero_iff {code : Nat} (hpos : 1 ≤ code) (hle : code ≤ 20) (mask : BitVec 20) :
    mask &&& codeBit code ≠ 0 ↔ mask.getLsbD (code - 1) = true := by
  rw [codeBit_eq_twoPow, BitVec.and_twoPow, ← codeBit_eq_twoPow]
  split
  case isTrue hset => exact iff_of_true (codeBit_ne_zero hpos hle) hset
  case isFalse hclear => exact iff_of_false (fun h => h rfl) hclear

/-! ### The STATUS window and the record's header -/

/-- R179: a STATUS window stands where some entry of the working table is one. -/
theorem State.statusStands_eq_true_iff (s : State) : s.statusStands = true ↔ ∃ w ∈ s.windows, w.kind = .status := by
  simp only [State.statusStands, State.window, List.find?_isSome, decide_eq_true_eq]

/-- R180: the low byte of a record's first word is the code, the next byte the source block. -/
theorem Condition.record_header (c : Condition) (frame : FieldNo) :
    bits ((c.record frame).getD 0 0) 0 8 = c.code ∧ bits ((c.record frame).getD 0 0) 8 8 = c.source := by
  change bits (word (c.code + c.source * 256)) 0 8 = c.code ∧ bits (word (c.code + c.source * 256)) 8 8 = c.source
  have hcode := c.code_bounds.2
  have hsource := c.source_lt
  simp only [bits, BitVec.toNat_ofNat]
  omega

/-! ### The occurrence -/

section Occurrence

variable {s : State}

theorem raise_cond (c : Condition) (h : s.phase ≠ .asserted) :
    (raise c s).cond = s.cond.occur c.code (c.record s.planner.frame) s.statusStands :=
  if_neg h

/-- R174: an occurrence sets its own bit of the occurred word and no other. -/
theorem raise_occurred_getLsbD (c : Condition) (h : s.phase ≠ .asserted) {i : Nat} (hi : i < 20) :
    (raise c s).cond.occurred.getLsbD i = (s.cond.occurred.getLsbD i || decide (i + 1 = c.code)) := by
  rw [raise_occurred c s h, BitVec.getLsbD_or, codeBit_getLsbD c.code_bounds.1 hi]

/-- R174: the four tests under which an occurrence queues its record. -/
theorem raise_queue (c : Condition) (h : s.phase ≠ .asserted) :
    (raise c s).cond.queue =
      if s.cond.mask.getLsbD (c.code - 1) = true ∧ (∃ w ∈ s.windows, w.kind = .status) ∧
          s.cond.queue.length < Config.recordDepth ∧ s.cond.queue.length < s.cond.freePositions
      then s.cond.queue ++ [c.record s.planner.frame] else s.cond.queue := by
  obtain ⟨hpos, hle⟩ := c.code_bounds
  rw [raise_cond c h, ConditionUnit.occur]
  simp only [and_codeBit_ne_zero_iff hpos hle, State.statusStands_eq_true_iff]

/-- R178: an occurrence schedules a status write where a STATUS window stands. -/
theorem raise_statusPending_iff (c : Condition) (h : s.phase ≠ .asserted) :
    (raise c s).cond.statusPending = true ↔ s.cond.statusPending = true ∨ ∃ w ∈ s.windows, w.kind = .status := by
  rw [raise_cond c h, ← State.statusStands_eq_true_iff]
  exact Bool.or_eq_true_iff

end Occurrence

/-- Settles O50: one lemma for each part of the condition unit that an occurrence writes; `raise_occurs` is its frame, and
`Condition.record_header` reads the record back. -/
theorem occurrenceSetsItsBitAndMayQueueARecord : Obligations.OccurrenceSetsItsBitAndMayQueueARecord := by
  intro c s h
  obtain ⟨hpos, hle⟩ := c.code_bounds
  obtain ⟨hcode, hsource⟩ := c.record_header s.planner.frame
  exact ⟨rfl, fun i hi => raise_occurred_getLsbD c h hi, raise_queue c h, raise_statusPending_iff c h, (raise_occurs c s).rest,
    hpos, hle, record_length c _, hcode, hsource, rfl⟩

end Sys2Proof.Machine
end

section
/-! What every command keeps (the invariants of every step): the bounds of the device, the laws of the line store and the laws of the
field history, one case per command, and the same of a step. -/

namespace Sys2Proof.Machine

open Host (Outcome)

/-! ### The bounds -/

theorem EveryNext.ite {c : Prop} [Decidable c] {a b : Outcome State Fault Refusal} {p : State → Prop} (ha : c → EveryNext a p)
    (hb : ¬ c → EveryNext b p) : EveryNext (if c then a else b) p := by
  split
  case isTrue hc => exact ha hc
  case isFalse hc => exact hb hc

theorem AnswersNext.ite {c : Prop} [Decidable c] {a b : Outcome State Fault Refusal} {p : State → Prop} (ha : c → AnswersNext a p)
    (hb : ¬ c → AnswersNext b p) : AnswersNext (if c then a else b) p := by
  split
  case isTrue hc => exact ha hc
  case isFalse hc => exact hb hc

theorem arrive_boundsOk (port : Port) (r : Request) {s : State} (h : s.boundsOk) (ha : s.accepts port r = true) :
    (s.setPort port ((s.port port).arrive r)).boundsOk := by
  obtain ⟨hmem, ⟨hcap, hsys, hrest⟩, hcount, hringOk⟩ := h
  obtain ⟨hlen, hout⟩ := arrive_queue (s.port port) r
  simp only [State.accepts, Bool.and_eq_true, decide_eq_true_eq] at ha
  obtain ⟨⟨-, hroom⟩, -⟩ := ha
  cases port with
  | capture => exact ⟨hmem, ⟨Nat.le_trans (Nat.le_of_eq hlen) hroom, hsys, hrest⟩, hcount, hringOk⟩
  | system =>
    refine ⟨hmem, ⟨hcap, Nat.le_trans (Nat.le_of_eq hlen) hroom, hrest⟩, ?_, hringOk⟩
    exact Nat.le_trans (Nat.le_of_eq (congrArg (· + s.store.withdrawn.length) hout)) hcount

/-- R139: where a response leaves no more output reads in the queue, the bounds stand. -/
theorem respond_boundsOk (port : Port) (turn : QueuePosition → Bool) (f : QueuePosition → Option QueuePosition) (part : Response)
    {s : State} (h : s.boundsOk)
    (hc : (replaceFirst turn f (s.port port).queue).countP (fun q => q.progress.isOutput) ≤
      (s.port port).queue.countP (fun q => q.progress.isOutput)) :
    (s.setPort port (((s.port port).replace turn f).respond part)).boundsOk :=
  setPort_boundsOk port _ h (replace_length _ _ _) hc

theorem becomes_isOutput {p : Progress} {q x : QueuePosition} (h : becomes p q = some x) : x.progress = p := by
  cases h; rfl

theorem returnRead_boundsOk (port : Port) (r : Request) (order : Nat) (words : List Word) (failed : Bool) (returned count : Nat)
    {s : State} (h : s.boundsOk) :
    (s.setPort port ((s.port port).returnRead r order words failed returned count)).boundsOk := by
  refine respond_boundsOk port _ _ _ h (replaceFirst_outputs _ _ _ fun q x _ hx ho => ?_)
  split at hx
  · cases hx
  · rw [becomes_isOutput hx] at ho
    cases ho

theorem returnRefused_boundsOk (port : Port) (r : Request) (order : Nat) (status : Status) {s : State} (h : s.boundsOk) :
    (s.setPort port ((s.port port).returnRefused r order status)).boundsOk :=
  respond_boundsOk port _ _ _ h (replaceFirst_outputs _ _ _ fun _ _ _ hx => by cases hx)

/-- R139: the read whose response stands first is the first position of its place in take order. -/
theorem firstResponse_first {p : PortState} {q : QueuePosition} {order : Nat} (hq : p.firstResponse = some q)
    (ho : q.progress.readOrder = some order) : QueuePosition.isRead order q = true ∧
      ∃ before after, p.queue = before ++ q :: after ∧ ∀ x ∈ before, QueuePosition.isRead order x = false := by
  obtain ⟨before, after, hsplit, hbefore⟩ := leastBy_first hq ho
  exact ⟨decide_eq_true ho, before, after, hsplit, fun x hx => decide_eq_false (hbefore x hx)⟩

theorem returnOutput_boundsOk {q : QueuePosition} {order : Nat} {o : OutputRead} (words : List Word) (count : Nat) {s : State}
    (h : s.boundsOk) (hq : s.system.firstResponse = some q) (ho : q.progress = .outputTaken order o) :
    (returnOutput q.request order o words count s).boundsOk := by
  obtain ⟨hread, before, after, hsplit, hbefore⟩ := firstResponse_first hq (by rw [ho]; rfl)
  have hout : ∀ x, becomes (.outputTaken order x) q = some { q with progress := .outputTaken order x } := fun _ => rfl
  rw [returnOutput]
  split
  case isTrue =>
    have hkeeps := release_keeps s.store o.need
    exact store_boundsOk _ (respond_boundsOk .system (QueuePosition.isRead order) (fun _ => none) _ h
      (replaceFirst_outputs _ _ _ fun _ _ _ hx => by cases hx)) hkeeps
  case isFalse =>
    refine respond_boundsOk .system (QueuePosition.isRead order) _ _ h (Nat.le_of_eq ?_)
    simp only [State.port, hsplit, replaceFirst_at hbefore hread, hout, ho,
      Progress.isOutput, Option.toList_some, List.countP_append, List.countP_cons, List.countP_nil]
    omega

/-- The bounds across a take, a grant, a return, a response, a reset or a timer's expiry. -/
theorem exec_boundsOk (c : Instr) {s : State} (h : s.boundsOk) : EveryNext (exec c s) State.boundsOk := by
  have stand : EveryNext (.next s) State.boundsOk := EveryNext.next h
  have inner : ∀ {t}, WithinBounds s t → EveryNext (.next t) State.boundsOk := fun k => EveryNext.next (WithinBounds.ok k h)
  cases c with
  | powerOn d c => exact EveryNext.next (powerOn_boundsOk d c s.pending)
  | warmResetAssert => exact EveryNext.next (assertReset_boundsOk h)
  | resetRelease d c => exact EveryNext.ite (fun _ => EveryNext.next (phase_boundsOk (.reloading Reload.start) h)) (fun _ => stand)
  | reloadBurstReturn part =>
    cases part with
    | grant us =>
      exact EveryNext.ite (fun _ => grantTo_boundsOk _ us _ h fun _ => grantReload_boundsOk) (fun _ => stand)
    | ret => exact EveryNext.next (returnReload_boundsOk h)
  | captureArrival r => exact EveryNext.ite (fun ha => EveryNext.next (arrive_boundsOk .capture r h ha)) (fun _ => stand)
  | systemArrival r => exact EveryNext.ite (fun ha => EveryNext.next (arrive_boundsOk .system r h ha)) (fun _ => stand)
  | captureRequestTake =>
    refine EveryNext.ite (fun _ => ?_) (fun _ => stand)
    split
    · exact EveryNext.next (takeCapture_boundsOk _ h)
    · exact stand
  | systemRequestTake =>
    refine EveryNext.ite (fun _ => ?_) (fun _ => stand)
    split
    · exact EveryNext.next (takeSystem_boundsOk _ h)
    · exact stand
  | outputReadTake =>
    refine EveryNext.ite (fun _ => ?_) (fun _ => stand)
    split
    · refine EveryNext.ite (fun ht => takeOutputRead_boundsOk _ h ?_) (fun _ => stand)
      simp only [State.takesOutput, Bool.and_eq_true, Bool.not_eq_true'] at ht
      exact ht.2
    · exact stand
  | controlPageWrite => exact takePageRow_boundsOk _ h
  | holdWordWrite => exact takePageRow_boundsOk (fun ws _ => touches ws 0x000 0x004) h
  | clearOccurredBits => exact takePageRow_boundsOk _ h
  | clearFirstFaultRecord => exact takePageRow_boundsOk _ h
  | reportReadIndexWrite => exact takePageRow_boundsOk (fun ws _ => touches ws 0x008 0x00C) h
  | reportMaskWrite => exact takePageRow_boundsOk (fun ws _ => touches ws 0x00C 0x010) h
  | withdrawal tag =>
    change EveryNext (match s.withdrawn tag with | some o => .next (dropRead tag o s) | none => .next s) State.boundsOk
    split
    next o ho => exact EveryNext.next (dropRead_boundsOk tag o h ho)
    next => exact stand
  | outputReadData count =>
    refine EveryNext.ite (fun _ => ?_) (fun _ => stand)
    split
    next q hq =>
      split
      next order o ho =>
        exact EveryNext.ite (fun _ => EveryNext.next (returnOutput_boundsOk _ count h hq ho)) (fun _ => stand)
      all_goals exact stand
    next => exact stand
  | passThroughReadResponse port count =>
    refine EveryNext.ite (fun _ => ?_) (fun _ => stand)
    split
    · split
      · exact EveryNext.next (returnRead_boundsOk port _ _ _ _ _ count h)
      all_goals exact stand
    · exact stand
  | refusedReadResponse port =>
    change EveryNext (execRefusedReadResponse port s) State.boundsOk
    unfold execRefusedReadResponse
    split
    · split
      · exact EveryNext.next (returnRefused_boundsOk port _ _ _ h)
      all_goals exact stand
    · exact stand
  | captureBurstGrant us => exact grantTo_boundsOk _ us _ h fun _ => grantPort_boundsOk _ _
  | systemBurstGrant us => exact EveryNext.ite (fun _ => grantTo_boundsOk _ us _ h fun _ => grantPort_boundsOk _ _) (fun _ => stand)
  | fillBurstReturn part =>
    cases part with
    | grant us =>
      refine grantTo_boundsOk _ us _ h fun u hu => ?_
      unfold grantFill
      split
      · exact hu
      · exact raiseChecks_boundsOk _ _ _ _ (store_boundsOk _ hu (grant_keeps _ _ _ _))
    | ret => exact EveryNext.next (store_boundsOk _ h (returned_keeps _))
  | probeBurstReturn part =>
    cases part with
    | grant us =>
      refine grantTo_boundsOk _ us _ h fun u hu => ?_
      unfold grantProbe
      split
      · exact hu
      · exact raiseChecks_boundsOk _ _ _ _ (probe_boundsOk _ hu (Nat.le_of_eq (probeGrant_pending _ _ _ _ _)))
    | ret => exact EveryNext.next (probe_boundsOk _ h (probeReturned_pending _))
  | refreshGrant =>
    refine grantTo_boundsOk _ [] _ h fun u hu => ?_
    obtain ⟨hmem, ⟨hcap, hsys, hcond, hrefresh, hrest⟩, hcount⟩ := hu
    exact ⟨hmem, ⟨hcap, hsys, hcond, Nat.le_trans (Nat.sub_le _ _) hrefresh, hrest⟩, hcount⟩
  | recordBurstGrant part =>
    cases part with
    | choose => exact EveryNext.next (chooseReport_boundsOk _ h)
    | grant => exact grantReport_boundsOk _ _ h fun _ => grantRecord_boundsOk
  | statusBlockGrant part =>
    cases part with
    | choose => exact EveryNext.next (chooseReport_boundsOk _ h)
    | grant => exact grantReport_boundsOk _ _ h fun _ => grantStatus_boundsOk
  | stallTimerExpiry => exact EveryNext.ite (fun _ => inner (withinBounds_closed.expireStall s)) (fun _ => stand)
  | refreshIntervalExpiry => exact EveryNext.ite (fun _ => stand) (fun _ => inner (withinBounds_closed.expireInterval s))
  | refreshReqEdge => exact EveryNext.ite (fun _ => inner (withinBounds_closed.addition s)) (fun _ => stand)

/-! ### The line store -/

/-- Every command answers a next state where the store has room, and keeps the store's laws. -/
theorem exec_storeOk (c : Instr) {s : State} (hd : s.deviceOk) : AnswersNext (exec c s) State.storeOk := by
  have h : s.storeOk := hd.2
  have stand : AnswersNext (.next s) State.storeOk := AnswersNext.next h
  have inner : ∀ {t}, StoreInner s t → AnswersNext (.next t) State.storeOk := fun k => AnswersNext.next (k.storeOk h)
  have same : ∀ {u t : State}, u.storeOk → t.system.queue = u.system.queue → t.store = u.store → t.storeOk := storeOk_congr
  cases c with
  | powerOn d c => exact AnswersNext.next (storeOk_reset rfl rfl)
  | warmResetAssert => exact AnswersNext.next (storeOk_reset rfl rfl)
  | resetRelease d c => exact AnswersNext.ite (fun _ => AnswersNext.next (same h rfl rfl)) (fun _ => stand)
  | reloadBurstReturn part =>
    cases part with
    | grant us => exact AnswersNext.ite (fun _ => grantTo_storeOk _ us _ h fun _ => grantReload_storeOk) (fun _ => stand)
    | ret => exact AnswersNext.next (returnReload_storeOk h)
  | captureArrival r => exact AnswersNext.ite (fun _ => AnswersNext.next (same h rfl rfl)) (fun _ => stand)
  | systemArrival r => exact AnswersNext.ite (fun _ => AnswersNext.next (storeOk_arrive h r)) (fun _ => stand)
  | captureRequestTake =>
    refine AnswersNext.ite (fun _ => ?_) (fun _ => stand)
    split
    · exact AnswersNext.next (takeCapture_storeOk _ h)
    · exact stand
  | systemRequestTake =>
    refine AnswersNext.ite (fun _ => ?_) (fun _ => stand)
    split
    · exact AnswersNext.next (takeSystem_storeOk _ h)
    · exact stand
  | outputReadTake =>
    refine AnswersNext.ite (fun _ => ?_) (fun _ => stand)
    split
    next q hq =>
      refine AnswersNext.ite (fun ht => takeOutputRead_storeOk hd hq ?_) (fun _ => stand)
      simp only [State.takesOutput, Bool.and_eq_true, Bool.not_eq_true'] at ht
      exact ht.2
    next => exact stand
  | controlPageWrite => exact takePageRow_storeOk _ h
  | holdWordWrite => exact takePageRow_storeOk (fun ws _ => touches ws 0x000 0x004) h
  | clearOccurredBits => exact takePageRow_storeOk _ h
  | clearFirstFaultRecord => exact takePageRow_storeOk _ h
  | reportReadIndexWrite => exact takePageRow_storeOk (fun ws _ => touches ws 0x008 0x00C) h
  | reportMaskWrite => exact takePageRow_storeOk (fun ws _ => touches ws 0x00C 0x010) h
  | withdrawal tag =>
    change AnswersNext (match s.withdrawn tag with | some o => .next (dropRead tag o s) | none => .next s) State.storeOk
    split
    next o ho => exact AnswersNext.next (dropRead_storeOk tag o h ho)
    next => exact stand
  | outputReadData count => exact outputReadData_storeOk count h
  | passThroughReadResponse port count =>
    refine AnswersNext.ite (fun _ => ?_) (fun _ => stand)
    split
    next q hq =>
      split
      next order words failed returned ho =>
        refine AnswersNext.next (swapRead_storeOk port _ h hq (by rw [ho]; rfl) (holds_nil (by rw [ho]; rfl)) (fun x hx => ?_) rfl)
        split at hx
        · cases hx
        · exact holds_nil (by rw [becomes_isOutput hx]; rfl)
      all_goals exact stand
    next => exact stand
  | refusedReadResponse port =>
    change AnswersNext (execRefusedReadResponse port s) State.storeOk
    unfold execRefusedReadResponse
    split
    next q hq =>
      split
      next order status ho =>
        exact AnswersNext.next (swapRead_storeOk port _ h hq (f := fun _ => none) (by rw [ho]; rfl)
          (holds_nil (by rw [ho]; rfl)) (fun x hx => by cases hx) rfl)
      all_goals exact stand
    next => exact stand
  | captureBurstGrant us => exact grantTo_storeOk _ us _ h fun _ => grantPort_storeOk _ _
  | systemBurstGrant us => exact AnswersNext.ite (fun _ => grantTo_storeOk _ us _ h fun _ => grantPort_storeOk _ _) (fun _ => stand)
  | fillBurstReturn part =>
    cases part with
    | grant us => exact grantTo_storeOk _ us _ h fun _ => grantFill_storeOk
    | ret => exact AnswersNext.next ⟨h.1.returned, h.2.1, returned_waitsOk h.2.2⟩
  | probeBurstReturn part =>
    cases part with
    | grant us =>
      refine grantTo_storeOk _ us _ h fun u hu => ?_
      unfold grantProbe
      split
      · exact hu
      · exact raiseChecks_storeOk _ _ _ _ (same hu rfl rfl)
    | ret => exact AnswersNext.next (same h rfl rfl)
  | refreshGrant => exact grantTo_storeOk _ [] _ h fun u hu => same hu rfl rfl
  | recordBurstGrant part =>
    cases part with
    | choose => exact AnswersNext.next (chooseReport_storeOk _ h)
    | grant =>
      refine grantReport_storeOk _ _ h fun u hu => ?_
      unfold grantRecord
      split
      · exact hu
      · exact same hu rfl rfl
  | statusBlockGrant part =>
    cases part with
    | choose => exact AnswersNext.next (chooseReport_storeOk _ h)
    | grant => exact grantReport_storeOk _ _ h fun u hu => same hu rfl rfl
  | stallTimerExpiry => exact AnswersNext.ite (fun _ => inner (storeInner_closed.expireStall s)) (fun _ => stand)
  | refreshIntervalExpiry => exact AnswersNext.ite (fun _ => stand) (fun _ => inner (storeInner_closed.expireInterval s))
  | refreshReqEdge => exact AnswersNext.ite (fun _ => inner (storeInner_closed.addition s)) (fun _ => stand)

/-! ### The field history -/

theorem expireInterval_keepsHistory (s : State) : HistoryKeeps s (expireInterval s) :=
  .of (refreshAddition_history _) (congrArg Planner.plan (refreshAddition_planner _))
    (congrArg Settings.ingest (refreshAddition_settings _))

/-- Every command keeps the laws of the history where the next field number is free (log entry 36): only a capture take admits a
field, and only the resets empty the history with its next number. -/
theorem exec_historyOk (c : Instr) {s : State} (h : s.historyOk) (hfree : s.numberFree) : EveryNext (exec c s) State.historyOk := by
  have keeps : ∀ {o : Outcome State Fault Refusal}, EveryNext o (HistoryKeeps s) → EveryNext o State.historyOk :=
    fun k t e => (k t e).ok h
  have next : ∀ {t}, HistoryKeeps s t → EveryNext (.next t) State.historyOk := fun k => EveryNext.next (k.ok h)
  have stand : EveryNext (.next s) State.historyOk := EveryNext.next h
  cases c with
  | powerOn d c => exact EveryNext.next (historyOk_empty rfl rfl)
  | warmResetAssert => exact EveryNext.next (historyOk_empty rfl rfl)
  | resetRelease d c => exact EveryNext.ite (fun _ => next (.of rfl rfl rfl)) (fun _ => stand)
  | reloadBurstReturn part =>
    cases part with
    | grant us =>
      exact EveryNext.ite (fun _ => keeps (grantTo_keepsHistory _ us _ s grantReload_keepsHistory)) (fun _ => stand)
    | ret => exact next (returnReload_keepsHistory s)
  | captureArrival r => exact EveryNext.ite (fun _ => next (.of rfl rfl rfl)) (fun _ => stand)
  | systemArrival r => exact EveryNext.ite (fun _ => next (.of rfl rfl rfl)) (fun _ => stand)
  | captureRequestTake =>
    refine EveryNext.ite (fun _ => ?_) (fun _ => stand)
    split
    · exact EveryNext.next (takeCapture_historyOk _ h hfree)
    · exact stand
  | systemRequestTake =>
    refine EveryNext.ite (fun _ => ?_) (fun _ => stand)
    split
    · exact next (takeSystem_keepsHistory _ s)
    · exact stand
  | outputReadTake =>
    refine EveryNext.ite (fun _ => ?_) (fun _ => stand)
    split
    · exact EveryNext.ite (fun _ => keeps (takeOutputRead_keepsHistory _ s)) (fun _ => stand)
    · exact stand
  | controlPageWrite => exact keeps (takePageRow_keepsHistory _ s)
  | holdWordWrite => exact keeps (takePageRow_keepsHistory (fun ws _ => touches ws 0x000 0x004) s)
  | clearOccurredBits => exact keeps (takePageRow_keepsHistory _ s)
  | clearFirstFaultRecord => exact keeps (takePageRow_keepsHistory _ s)
  | reportReadIndexWrite => exact keeps (takePageRow_keepsHistory (fun ws _ => touches ws 0x008 0x00C) s)
  | reportMaskWrite => exact keeps (takePageRow_keepsHistory (fun ws _ => touches ws 0x00C 0x010) s)
  | withdrawal tag =>
    change EveryNext (match s.withdrawn tag with | some o => .next (dropRead tag o s) | none => .next s) State.historyOk
    split
    · exact next (.of rfl rfl rfl)
    · exact stand
  | outputReadData count =>
    refine EveryNext.ite (fun _ => ?_) (fun _ => stand)
    split
    · split
      · refine EveryNext.ite (fun _ => ?_) (fun _ => stand)
        rw [returnOutput]
        split <;> exact next (.of rfl rfl rfl)
      all_goals exact stand
    · exact stand
  | passThroughReadResponse port count =>
    refine EveryNext.ite (fun _ => ?_) (fun _ => stand)
    split
    · split
      · exact next (setPort_keepsHistory port _ s)
      all_goals exact stand
    · exact stand
  | refusedReadResponse port =>
    change EveryNext (execRefusedReadResponse port s) State.historyOk
    unfold execRefusedReadResponse
    split
    · split
      · exact next (setPort_keepsHistory port _ s)
      all_goals exact stand
    · exact stand
  | captureBurstGrant us => exact keeps (grantTo_keepsHistory _ us _ s (grantPort_keepsHistory _ _))
  | systemBurstGrant us =>
    exact EveryNext.ite (fun _ => keeps (grantTo_keepsHistory _ us _ s (grantPort_keepsHistory _ _))) (fun _ => stand)
  | fillBurstReturn part =>
    cases part with
    | grant us =>
      refine keeps (grantTo_keepsHistory _ us _ s fun u => ?_)
      unfold grantFill
      split
      · exact .refl u
      · exact .of (raiseChecks_history ..) (congrArg Planner.plan (raiseChecks_planner ..))
          (congrArg Settings.ingest (raiseChecks_settings ..))
    | ret => exact next (.of rfl rfl rfl)
  | probeBurstReturn part =>
    cases part with
    | grant us =>
      refine keeps (grantTo_keepsHistory _ us _ s fun u => ?_)
      unfold grantProbe
      split
      · exact .refl u
      · exact .of (raiseChecks_history ..) (congrArg Planner.plan (raiseChecks_planner ..))
          (congrArg Settings.ingest (raiseChecks_settings ..))
    | ret => exact next (.of rfl rfl rfl)
  | refreshGrant => exact keeps (grantTo_keepsHistory _ [] _ s fun u => .of rfl rfl rfl)
  | recordBurstGrant part =>
    cases part with
    | choose =>
      refine next ?_
      unfold chooseReport
      split
      · exact .of rfl rfl rfl
      · exact .refl s
    | grant =>
      refine keeps (grantReport_keepsHistory _ _ s fun u => ?_)
      unfold grantRecord
      split
      · exact .refl u
      · exact .of rfl rfl rfl
  | statusBlockGrant part =>
    cases part with
    | choose =>
      refine next ?_
      unfold chooseReport
      split
      · exact .of rfl rfl rfl
      · exact .refl s
    | grant => exact keeps (grantReport_keepsHistory _ _ s fun u => .of rfl rfl rfl)
  | stallTimerExpiry => exact EveryNext.ite (fun _ => next (.expireStall s)) (fun _ => stand)
  | refreshIntervalExpiry =>
    exact EveryNext.ite (fun _ => stand) (fun _ => next (expireInterval_keepsHistory s))
  | refreshReqEdge => exact EveryNext.ite (fun _ => next (.refreshAddition s)) (fun _ => stand)

/-! ### A step -/

/-- What a tick keeps and every command keeps, every step keeps: the commands behind the first are no part of it. -/
theorem step_keeps {p q : State → Prop} {s : State} (h : p s) (htick : q (tick s)) (hpop : ∀ rest, p s → p { s with pending := rest })
    (hexec : ∀ c u, p u → EveryNext (exec c u) q) : EveryNext (step s) q := by
  unfold step
  split
  next => exact EveryNext.next htick
  next c rest _ => exact hexec c _ (hpop rest h)

/-- In a lawful state every step answers a next state. -/
theorem step_next {s : State} (h : s.deviceOk) : AnswersNext (step s) State.storeOk := by
  unfold step
  split
  next => exact AnswersNext.next ((storeInner_closed.tick s).storeOk h.2)
  next c rest _ => exact exec_storeOk c h

theorem exec_deviceOk (c : Instr) {s : State} (h : s.deviceOk) : EveryNext (exec c s) State.deviceOk := by
  intro t ht
  obtain ⟨u, hu, hstore⟩ := exec_storeOk c h
  rw [ht] at hu
  cases hu
  exact ⟨exec_boundsOk c h.1 t ht, hstore⟩

/-- Settles O58, one lemma for each of the three laws over the commands. -/
theorem stepKeepsTheDeviceInBounds : Obligations.StepKeepsTheDeviceInBounds := by
  refine ⟨fun s t h => ?_, fun s h => ?_, fun s t h hfree => ?_⟩
  · exact step_keeps h ⟨WithinBounds.ok (withinBounds_closed.tick s) h.1, (storeInner_closed.tick s).storeOk h.2⟩ (fun _ => id)
      (fun c _ => exec_deviceOk c) t
  · obtain ⟨t, ht, -⟩ := step_next h
    refine ⟨⟨t, ht⟩, ?_⟩
    rw [← List.countP_eq_length_filter]
    exact storeOk_held h.2 h.1.2.2.1
  · exact step_keeps (p := fun s => s.historyOk ∧ s.numberFree) ⟨h, hfree⟩ ((tick_keepsHistory s).ok h) (fun _ => id)
      (fun c _ hs => exec_historyOk c hs.1 hs.2) t

end Sys2Proof.Machine
end

section
/-! The output settings, the plan and the reads in flight in range (R102, R111, R117): what the work inside a take keeps of the settings
and the plan, what a change of the system queue keeps of the reads, and the same of every command and of a step. -/

namespace Sys2Proof.Machine

open Host (Outcome)

/-! ### The settings and the plan -/

/-- R102, R111, R117: the working output settings and the plan are in range. -/
abbrev State.rasterOk (s : State) : Prop :=
  (∀ g, s.settings.output = some g → g.inRange) ∧ (∀ r ∈ s.settings.customRows, r.sums) ∧
    ∀ p, s.planner.plan = some p → p.snapshot.inRange

theorem coefRows_sums {custom : Bool} {rows : List CoefRow} (h : ∀ r ∈ rows, r.sums) : ∀ r ∈ coefRows custom rows, r.sums := by
  unfold coefRows
  split
  · exact h
  · exact default_sums

/-- R74: the snapshot of a group in range is in range. -/
theorem takeSnapshot_inRange {g : OutputGroup} {rows : List CoefRow} (hg : g.inRange) (hrows : ∀ r ∈ rows, r.sums) (w n : Nat) :
    (takeSnapshot w n g rows).inRange := by
  obtain ⟨-, -, -, -, -, hY, hC, hT⟩ := hg
  exact ⟨hY, hC, hT, coefRows_sums hrows⟩

theorem chooseFrame_snapshot (s : State) (g : OutputGroup) : (s.chooseFrame g).plan.snapshot = s.snapshot g := by
  unfold State.chooseFrame
  split <;> rfl

/-- R76 to R78: a repair leaves the snapshot. -/
theorem repair_snapshot {p : Plan} {roles : Roles} {x : Plan × Nat × Nat} (h : p.repair roles = some x) : x.1.snapshot = p.snapshot := by
  unfold Plan.repair at h
  split at h
  · cases h; rfl
  split at h
  · cases h; rfl
  split at h
  · cases h; rfl
  split at h
  · cases h; rfl
  · cases h

theorem raster_core : CoreClosed (fun s t => s.rasterOk → t.rasterOk) where
  refl _ := id
  trans h k x := k (h x)
  raise _ _ := id
  schedule _ := id
  monitor _ _ := id
  history _ _ := id
  probeReset _ := id
  probeEvicted _ _ := id
  probeLine _ _ _ _ := id
  probeAdmission _ _ _ := id
  cadenceClose _ _ _ _ _ := id
  cadenceE22 _ _ := id
  cadenceGeometry _ := id
  planNone _ h := ⟨h.1, h.2.1, fun p hp => by cases hp⟩
  planRepair s p roles x hp hx h := ⟨h.1, h.2.1, fun q hq => by
    cases hq
    rw [repair_snapshot hx]
    exact h.2.2 p hp⟩
  planFlags _ _ _ := id
  planFrame s g hg h := ⟨h.1, h.2.1, fun p hp => by
    cases hp
    rw [chooseFrame_snapshot]
    exact takeSnapshot_inRange (h.1 g hg) h.2.1 _ _⟩
  voidFields _ _ := id
  installWindows _ := id
  memoryGroup _ _ := id
  interval _ _ := id
  addition s h := by
    rw [refreshAddition_eq]
    exact h
  outputRefused _ := id
  outputLoaded s hc h := ⟨fun g hg => by cases hg; exact outputLoad_inRange _ hc, rowsAfterLoad_sums s.settings _ h.2.1, h.2.2⟩

/-! ### The reads in flight -/

/-- What the work inside a take keeps: the settings and the plan in range, and the ports. -/
abbrev RasterKeeps (s t : State) : Prop := (s.rasterOk → t.rasterOk) ∧ KeepsBus s t

theorem rasterKeeps_closed : InnerClosed RasterKeeps :=
  InnerClosed.and (raster_core.inner (fun _ => id) (fun _ _ => id)) keepsBus_closed

theorem outputOk_iff (s : State) : s.outputOk ↔ s.rasterOk ∧ ∀ q ∈ s.system.queue, q.inRange :=
  ⟨fun h => ⟨⟨h.1, h.2.1, h.2.2.1⟩, h.2.2.2⟩, fun h => ⟨h.1.1, h.1.2.1, h.1.2.2, h.2⟩⟩

theorem RasterKeeps.ok {s t : State} (k : RasterKeeps s t) (h : s.outputOk) : t.outputOk := by
  obtain ⟨hraster, hqueue⟩ := (outputOk_iff s).mp h
  refine (outputOk_iff t).mpr ⟨k.1 hraster, ?_⟩
  rw [k.2.system]
  exact hqueue

/-- A position that holds no output read is in range. -/
theorem inRange_of_isOutput {q : QueuePosition} (h : q.progress.isOutput = false) : q.inRange := by
  intro n o ho
  rw [ho] at h
  cases h

/-- Where the settings and the planner stand and the system queue changes at one position, the change decides. -/
theorem outputOk_replace {s t : State} (p : QueuePosition → Bool) (f : QueuePosition → Option QueuePosition) (h : s.outputOk)
    (hset : t.settings = s.settings) (hplan : t.planner = s.planner) (hq : t.system.queue = replaceFirst p f s.system.queue)
    (hf : ∀ q ∈ s.system.queue, ∀ x, f q = some x → x.inRange) : t.outputOk := by
  obtain ⟨hg, hrows, hsnap, hqueue⟩ := h
  refine ⟨by rwa [hset], by rwa [hset], by rwa [hplan], ?_⟩
  rw [hq]
  exact replaceFirst_forall hqueue fun q hmem _ => hf q hmem

/-- Where the settings, the planner and the system queue stand, so do the ranges. -/
theorem outputOk_congr {s t : State} (h : s.outputOk) (hset : t.settings = s.settings) (hplan : t.planner = s.planner)
    (hq : t.system.queue = s.system.queue) : t.outputOk := by
  obtain ⟨hg, hrows, hsnap, hqueue⟩ := h
  exact ⟨by rwa [hset], by rwa [hset], by rwa [hplan], by rwa [hq]⟩

theorem setPort_outputOk {s : State} (port : Port) (p : QueuePosition → Bool) (f : QueuePosition → Option QueuePosition)
    {x : PortState} (h : s.outputOk) (hx : x.queue = replaceFirst p f (s.port port).queue)
    (hf : ∀ q y, f q = some y → y.progress.isOutput = false) : (s.setPort port x).outputOk := by
  cases port with
  | capture => exact outputOk_congr h rfl rfl rfl
  | system => exact outputOk_replace p f h rfl rfl hx fun q _ y hy => inRange_of_isOutput (hf q y hy)

/-! ### Takes -/

theorem refusedPosition_isOutput {order : Nat} {reason : Reason} {q y : QueuePosition} (h : refusedPosition order reason q = some y) :
    y.progress.isOutput = false := by
  unfold refusedPosition at h
  split at h
  · cases h
  · cases h; rfl

theorem passedProgress_isOutput (order : Nat) (r : Request) (ws : List WriteWord) : (passedProgress order r ws).isOutput = false := by
  unfold passedProgress
  split <;> rfl

theorem refuseRequest_outputOk (port : Port) (turn : QueuePosition → Bool) (r : Request) (reason : Reason) {s : State}
    (h : s.outputOk) : (refuseRequest port turn r reason s).outputOk := by
  have hport := setPort_outputOk port turn (refusedPosition s.takes reason) h
    (x := (s.port port).take turn (refusedPosition s.takes reason) r.tag (refusedAck r reason)) rfl fun q y => refusedPosition_isOutput
  exact outputOk_congr hport rfl rfl rfl

theorem passRequest_outputOk (port : Port) (turn : QueuePosition → Bool) (r : Request) (ws : List WriteWord) {s : State}
    (h : s.outputOk) : (passRequest port turn r ws s).outputOk := by
  have hport := setPort_outputOk port turn (becomes (passedProgress s.takes r ws)) h
    (x := (s.port port).take turn (becomes (passedProgress s.takes r ws)) r.tag (passedAck r)) rfl
    fun q y hy => by rw [becomes_isOutput hy]; exact passedProgress_isOutput _ _ _
  exact outputOk_congr hport rfl rfl rfl

theorem takeCapture_outputOk (r : Request) {s : State} (h : s.outputOk) : (takeCapture r s).outputOk := by
  unfold takeCapture
  split
  · exact refuseRequest_outputOk _ _ _ _ h
  · exact passRequest_outputOk _ _ _ _ h
  · have hinner := (rasterKeeps_closed.monitorWrite r s).ok h
    unfold finishMonitorWrite
    split
    · exact refuseRequest_outputOk _ _ _ _ hinner
    · exact passRequest_outputOk _ _ _ _ hinner
  · exact h
  · exact h

theorem takeSystem_outputOk (r : Request) {s : State} (h : s.outputOk) : (takeSystem r s).outputOk := by
  unfold takeSystem
  split
  · exact refuseRequest_outputOk _ _ _ _ h
  · exact passRequest_outputOk _ _ _ _ h
  · split
    · exact outputOk_replace s.systemTurn (becomes .held) h rfl rfl rfl fun q _ x hx =>
        inRange_of_isOutput (by rw [becomes_isOutput hx]; rfl)
    · exact h
  · exact h
  · exact h

/-- R104: the fill values a read takes are in range. -/
theorem fills_fillOk {s : State} (h : s.rasterOk) : fillOk s.fills.1 ∧ fillOk s.fills.2 := by
  unfold State.fills
  split
  next g hg =>
    obtain ⟨-, -, -, -, -, hY, hC, -⟩ := h.1 g hg
    exact ⟨hY, hC⟩
  next => exact ⟨by decide, by decide⟩

/-- R124: a read is in range as it is taken. -/
theorem takenRead_inRange {s : State} (h : s.rasterOk) (offset : Nat) (need : List NeedLine) : (s.takenRead offset need).inRange := by
  obtain ⟨hY, hC⟩ := fills_fillOk h
  exact ⟨hY, hC, h.2.2, fun ws hws => by cases hws⟩

theorem takeOutput_outputOk {r : Request} {s : State} {x : State × OutputRead} (h : s.outputOk) (hx : takeOutput r s = some x) :
    x.1.outputOk ∧ x.2.inRange := by
  have hframe := RasterKeeps.ok (rasterKeeps_closed.enterFrame (s.outputOffset r) s) h
  unfold takeOutput at hx
  simp only at hx
  split at hx
  · cases hx
  next st need _ =>
    cases hx
    exact ⟨hframe, takenRead_inRange (s := { enterFrame (s.outputOffset r) s with store := st }) ((outputOk_iff _).mp hframe).1
      (s.outputOffset r) need⟩

theorem takeOutputRead_outputOk (r : Request) {s : State} (h : s.outputOk) : EveryNext (takeOutputRead r s) State.outputOk := by
  unfold takeOutputRead
  split
  next x hx =>
    obtain ⟨hinner, hread⟩ := takeOutput_outputOk h hx
    refine EveryNext.next (outputOk_replace s.systemTurn (becomes (.outputTaken x.1.takes x.2)) hinner rfl rfl rfl
      fun q _ y hy n o ho => ?_)
    rw [becomes_isOutput hy] at ho
    cases ho
    exact hread
  next => exact fun t ht => by cases ht

theorem settingsWrite_rasterOk (ws : List PageWord) {s : State} (h : s.outputOk) : (settingsWrite ws s).outputOk := by
  have hclear : ∀ u : State, u.outputOk → (if touches ws 0x004 0x008 then actClear u else u).outputOk := by
    intro u hu; split <;> exact hu
  have hindex : ∀ u : State, u.outputOk → (if touches ws 0x008 0x00C then actReadIndex u else u).outputOk := by
    intro u hu; split <;> exact hu
  have hmask : ∀ u : State, u.outputOk → (if touches ws 0x00C 0x010 then actMask u else u).outputOk := by
    intro u hu; split <;> exact hu
  have himmediate := hmask _ (hindex _ (hclear { s with settings := s.settings.write ws } h))
  unfold settingsWrite actHold
  split
  · exact RasterKeeps.ok (rasterKeeps_closed.holdRelease _) himmediate
  · exact himmediate

theorem takePageRow_outputOk (row : List PageWord → Settings → Bool) {s : State} (h : s.outputOk) :
    EveryNext (takePageRow row s) State.outputOk := by
  unfold takePageRow
  split
  · exact EveryNext.ite (fun _ => EveryNext.next (settingsWrite_rasterOk _ (passRequest_outputOk _ _ _ _ h)))
      (fun _ => EveryNext.next h)
  · exact EveryNext.next h

/-! ### Responses -/

/-- R130: an output read that has returned a part of its words is in range as it was, its words produced. -/
theorem returnOutput_outputOk {q : QueuePosition} {order : Nat} {o : OutputRead} (count : Nat) {s : State} (h : s.outputOk)
    (hq : s.system.firstResponse = some q) (ho : q.progress = .outputTaken order o) :
    (returnOutput q.request order o (o.produced s.store q.request.count) count s).outputOk := by
  have hmem : q ∈ s.system.queue := (leastBy_some hq).1
  obtain ⟨hY, hC, hplan, hwords⟩ := h.2.2.2 q hmem order o ho
  rw [returnOutput]
  split
  case isTrue => exact outputOk_replace (QueuePosition.isRead order) (fun _ => none) h rfl rfl rfl fun _ _ x hx => by cases hx
  case isFalse =>
    refine outputOk_replace (QueuePosition.isRead order) (becomes _) h rfl rfl rfl fun p _ x hx n o' ho' => ?_
    rw [becomes_isOutput hx] at ho'
    cases ho'
    refine ⟨hY, hC, hplan, fun ws hws => ?_⟩
    cases hws
    exact produced_ok _ _ ⟨hY, hC, hplan, hwords⟩

/-! ### Grants -/

theorem grantTo_outputOk (r : Requester) (us : List Upset) (act : State → State) {s : State} (h : s.outputOk)
    (k : ∀ u : State, u.outputOk → (act u).outputOk) : EveryNext (grantTo r us act s) State.outputOk :=
  EveryNext.ite (fun _ => EveryNext.next (k _ (outputOk_congr h rfl rfl rfl))) (fun _ => EveryNext.next h)

theorem raiseChecks_outputOk (r : Requester) (x : Transfer) (a : Nat) (cs : List CheckResult) {s : State} (h : s.outputOk) :
    (raiseChecks r x a cs s).outputOk :=
  outputOk_congr h (raiseChecks_settings ..) (raiseChecks_planner ..) (congrArg PortState.queue (raiseChecks_system ..))

theorem grantPort_outputOk (port : Port) (rq : Requester) {s : State} (h : s.outputOk) : (grantPort port rq s).outputOk := by
  unfold grantPort
  split
  · exact h
  · split
    · exact raiseChecks_outputOk _ _ _ _ (outputOk_congr
        (setPort_outputOk port (QueuePosition.isUngranted _) (fun _ => none) h rfl fun q y hy => by cases hy) rfl rfl rfl)
    · exact raiseChecks_outputOk _ _ _ _ (setPort_outputOk port (QueuePosition.isUngranted _) (becomes (.readGranted _ _ _ _)) h rfl
        fun q y hy => by rw [becomes_isOutput hy]; rfl)
    all_goals exact h

theorem grantReload_outputOk {s : State} (h : s.outputOk) : (grantReload s).outputOk := by
  unfold grantReload
  split
  · split
    · exact raiseChecks_outputOk _ _ _ _ (outputOk_congr h rfl rfl rfl)
    · exact h
  · exact h
  · exact h

theorem returnReload_outputOk {s : State} (h : s.outputOk) : (returnReload s).outputOk := by
  unfold returnReload
  split
  · split
    · exact h
    · simp only
      split
      · unfold reloadEnd
        simp only
        split
        · exact RasterKeeps.ok (rasterKeeps_closed.holdRelease _) h
        · exact h
      · exact h
  · exact h
  · exact h

/-! ### Commands -/

theorem outputOk_reset {s : State} (hset : s.settings.output = none) (hrows : s.settings.customRows = defaultRows)
    (hplan : s.planner.plan = none) (hq : s.system.queue = []) : s.outputOk :=
  ⟨fun g hg => (by rw [hset] at hg; cases hg), by rw [hrows]; exact default_sums, fun p hp => (by rw [hplan] at hp; cases hp),
    fun q h => (by rw [hq] at h; cases h)⟩

/-- Every command keeps the output settings, the plan and the reads in flight in range. -/
theorem exec_outputOk (c : Instr) {s : State} (h : s.outputOk) : EveryNext (exec c s) State.outputOk := by
  have stand : EveryNext (.next s) State.outputOk := EveryNext.next h
  have inner : ∀ {t}, RasterKeeps s t → EveryNext (.next t) State.outputOk := fun k => EveryNext.next (k.ok h)
  have same : ∀ {u t : State}, u.outputOk → t.settings = u.settings → t.planner = u.planner → t.system.queue = u.system.queue →
      t.outputOk := outputOk_congr
  cases c with
  | powerOn d c => exact EveryNext.next (outputOk_reset rfl rfl rfl rfl)
  | warmResetAssert => exact EveryNext.next (outputOk_reset rfl rfl rfl rfl)
  | resetRelease d c => exact EveryNext.ite (fun _ => EveryNext.next (same h rfl rfl rfl)) (fun _ => stand)
  | reloadBurstReturn part =>
    cases part with
    | grant us => exact EveryNext.ite (fun _ => grantTo_outputOk _ us _ h fun _ => grantReload_outputOk) (fun _ => stand)
    | ret => exact EveryNext.next (returnReload_outputOk h)
  | captureArrival r => exact EveryNext.ite (fun _ => EveryNext.next (same h rfl rfl rfl)) (fun _ => stand)
  | systemArrival r =>
    refine EveryNext.ite (fun _ => EveryNext.next ⟨h.1, h.2.1, h.2.2.1, fun q hq => ?_⟩) (fun _ => stand)
    obtain hold | hnew := List.mem_append.mp hq
    · exact h.2.2.2 q hold
    · rw [List.mem_singleton.mp hnew]
      exact inRange_of_isOutput rfl
  | captureRequestTake =>
    refine EveryNext.ite (fun _ => ?_) (fun _ => stand)
    split
    · exact EveryNext.next (takeCapture_outputOk _ h)
    · exact stand
  | systemRequestTake =>
    refine EveryNext.ite (fun _ => ?_) (fun _ => stand)
    split
    · exact EveryNext.next (takeSystem_outputOk _ h)
    · exact stand
  | outputReadTake =>
    refine EveryNext.ite (fun _ => ?_) (fun _ => stand)
    split
    · exact EveryNext.ite (fun _ => takeOutputRead_outputOk _ h) (fun _ => stand)
    · exact stand
  | controlPageWrite => exact takePageRow_outputOk _ h
  | holdWordWrite => exact takePageRow_outputOk (fun ws _ => touches ws 0x000 0x004) h
  | clearOccurredBits => exact takePageRow_outputOk _ h
  | clearFirstFaultRecord => exact takePageRow_outputOk _ h
  | reportReadIndexWrite => exact takePageRow_outputOk (fun ws _ => touches ws 0x008 0x00C) h
  | reportMaskWrite => exact takePageRow_outputOk (fun ws _ => touches ws 0x00C 0x010) h
  | withdrawal tag =>
    change EveryNext (match s.withdrawn tag with | some o => .next (dropRead tag o s) | none => .next s) State.outputOk
    split
    · exact EveryNext.next (outputOk_replace (QueuePosition.takenWith tag) (fun _ => none) h rfl rfl rfl fun _ _ x hx => by cases hx)
    · exact stand
  | outputReadData count =>
    refine EveryNext.ite (fun _ => ?_) (fun _ => stand)
    split
    next q hq =>
      split
      next order o ho => exact EveryNext.ite (fun _ => EveryNext.next (returnOutput_outputOk count h hq ho)) (fun _ => stand)
      all_goals exact stand
    next => exact stand
  | passThroughReadResponse port count =>
    refine EveryNext.ite (fun _ => ?_) (fun _ => stand)
    split
    · split
      · refine EveryNext.next (setPort_outputOk port (QueuePosition.isRead _) _ h rfl fun q y hy => ?_)
        split at hy
        · cases hy
        · rw [becomes_isOutput hy]; rfl
      all_goals exact stand
    · exact stand
  | refusedReadResponse port =>
    change EveryNext (execRefusedReadResponse port s) State.outputOk
    unfold execRefusedReadResponse
    split
    · split
      · exact EveryNext.next (setPort_outputOk port (QueuePosition.isRead _) (fun _ => none) h rfl fun q y hy => by cases hy)
      all_goals exact stand
    · exact stand
  | captureBurstGrant us => exact grantTo_outputOk _ us _ h fun _ => grantPort_outputOk _ _
  | systemBurstGrant us => exact EveryNext.ite (fun _ => grantTo_outputOk _ us _ h fun _ => grantPort_outputOk _ _) (fun _ => stand)
  | fillBurstReturn part =>
    cases part with
    | grant us =>
      refine grantTo_outputOk _ us _ h fun u hu => ?_
      unfold grantFill
      split
      · exact hu
      · exact raiseChecks_outputOk _ _ _ _ (same hu rfl rfl rfl)
    | ret => exact EveryNext.next (same h rfl rfl rfl)
  | probeBurstReturn part =>
    cases part with
    | grant us =>
      refine grantTo_outputOk _ us _ h fun u hu => ?_
      unfold grantProbe
      split
      · exact hu
      · exact raiseChecks_outputOk _ _ _ _ (same hu rfl rfl rfl)
    | ret => exact EveryNext.next (same h rfl rfl rfl)
  | refreshGrant => exact grantTo_outputOk _ [] _ h fun u hu => same hu rfl rfl rfl
  | recordBurstGrant part =>
    cases part with
    | choose =>
      refine EveryNext.next ?_
      unfold chooseReport
      split <;> exact h
    | grant =>
      refine EveryNext.ite (fun _ => grantTo_outputOk _ [] _ h fun u hu => ?_) (fun _ => stand)
      unfold grantRecord
      split <;> exact hu
  | statusBlockGrant part =>
    cases part with
    | choose =>
      refine EveryNext.next ?_
      unfold chooseReport
      split <;> exact h
    | grant => exact EveryNext.ite (fun _ => grantTo_outputOk _ [] _ h fun u hu => same hu rfl rfl rfl) (fun _ => stand)
  | stallTimerExpiry => exact EveryNext.ite (fun _ => inner (rasterKeeps_closed.expireStall s)) (fun _ => stand)
  | refreshIntervalExpiry => exact EveryNext.ite (fun _ => stand) (fun _ => inner (rasterKeeps_closed.expireInterval s))
  | refreshReqEdge => exact EveryNext.ite (fun _ => inner (rasterKeeps_closed.addition s)) (fun _ => stand)

/-- Settles O59, from what every command keeps. -/
theorem stepKeepsTheOutputInRange : Obligations.StepKeepsTheOutputInRange :=
  fun s t h => step_keeps h (RasterKeeps.ok (rasterKeeps_closed.tick s) h) (fun _ => id) (fun c _ => exec_outputOk c) t

/-- Settles O60: the laws hold of empty queues, an empty store and an empty history, whatever the straps. -/
theorem powerOnAndResetMeetTheInvariants : Obligations.PowerOnAndResetMeetTheInvariants := by
  have hpower : ∀ (d : BitVec 2) (c : BitVec 3),
      (State.powerOn d c).deviceOk ∧ (State.powerOn d c).outputOk ∧ (State.powerOn d c).historyOk := fun d c =>
    ⟨⟨powerOn_boundsOk d c [], storeOk_reset rfl rfl⟩, outputOk_reset rfl rfl rfl rfl, historyOk_empty rfl rfl⟩
  refine ⟨(hpower 0 0).1, (hpower 0 0).2.1, (hpower 0 0).2.2, hpower, fun s t h ht => ?_⟩
  cases ht
  exact ⟨⟨assertReset_boundsOk h.1, storeOk_reset rfl rfl⟩, outputOk_reset rfl rfl rfl rfl, historyOk_empty rfl rfl⟩

end Sys2Proof.Machine
end

section
/-! The step, the tick and the commands' answers (log entries 3 and 13), the resets, arrivals and ATTENTION. -/

namespace Sys2Proof.Machine

open Host (Outcome)

/-- Settles O1. -/
theorem stepRunsFrontCommand : Obligations.StepRunsFrontCommand := by
  intro c rest s h
  simp only [step, h]

/-! ### One tick (R17, R18, R158) -/

/-- R21: the end of a measurement starts no timer that stands. -/
theorem endMeasurement_stopped {s : State} (hr : s.monitor.timerRunning = false) (hc : s.monitor.timerCount = 0) :
    (endMeasurement s).monitor.timerRunning = false ∧ (endMeasurement s).monitor.timerCount = 0 := by
  unfold endMeasurement
  split
  · unfold endMeasured
    simp only
    split
    · split
      · exact ⟨hr, hc⟩
      · exact ⟨rfl, rfl⟩
    · split
      · exact ⟨rfl, rfl⟩
      · exact ⟨hr, hc⟩
  · exact ⟨hr, hc⟩

/-- R18: an expiry stops the timer at 0, and nothing that it does starts it again. -/
theorem expireStall_stopped (s : State) :
    (expireStall s).monitor.timerRunning = false ∧ (expireStall s).monitor.timerCount = 0 := by
  unfold expireStall
  simp only
  split
  · obtain ⟨-, -, -, -, -, hrunning, hcount⟩ := closeField_fields .stall (raise
      (.ingestStall s.fillingField s.stallLimit (decide (s.fillingField ≠ 0))) { s with monitor := s.monitor.stopTimer })
    exact ⟨hrunning, hcount⟩
  · split
    · exact endMeasurement_stopped rfl rfl
    · exact ⟨rfl, rfl⟩

/-- R18: an expiry leaves the memory port. -/
theorem expireStall_memPort (s : State) : (expireStall s).memPort = s.memPort := by
  unfold expireStall
  simp only
  split
  · exact (closeField_fields ..).2.2.1
  · split
    · exact (endMeasurement_fields _).2.2.1
    · rfl

/-- R18: INGEST_STALL occurs at an expiry outside RESET. -/
theorem expireStall_occurred {s : State} (h : s.phase ≠ .asserted) : (expireStall s).cond.occurred.getLsbD 2 = true := by
  have hbit := raise_bit (.ingestStall s.fillingField s.stallLimit (decide (s.fillingField ≠ 0)))
    (s := { s with monitor := s.monitor.stopTimer }) h (i := 2) (by decide) rfl
  unfold expireStall
  simp only
  split
  · exact (closeField_occurs ..).bits 2 hbit
  · split
    · exact (endMeasurement_occurs _).bits 2 hbit
    · exact hbit

/-- The stall timer's part of a tick leaves the memory port and the settings. -/
theorem tickStall_frame (s : State) : (tickStall s).memPort = s.memPort ∧ (tickStall s).settings = s.settings := by
  unfold tickStall
  split
  · split
    · exact ⟨expireStall_memPort s, expireStall_settings s⟩
    · exact ⟨rfl, rfl⟩
  · exact ⟨rfl, rfl⟩

/-- The interval timer's part of a tick leaves the monitor, and the bits that have occurred. -/
theorem tickInterval_frame (s : State) : (tickInterval s).monitor = s.monitor ∧
    ∀ i, s.cond.occurred.getLsbD i = true → (tickInterval s).cond.occurred.getLsbD i = true := by
  unfold tickInterval
  split
  · exact ⟨rfl, fun _ => id⟩
  · split
    · unfold expireInterval refreshAddition
      split
      · exact ⟨rfl, fun _ => id⟩
      · exact ⟨rfl, (raise_occurs ..).bits⟩
    · exact ⟨rfl, fun _ => id⟩

/-- R157: what an addition leaves in the memory port. -/
theorem refreshAddition_memPort (s : State) : (refreshAddition s).memPort = { s.memPort with
    refreshPending := if s.memPort.refreshPending < 8 then s.memPort.refreshPending + 1 else s.memPort.refreshPending } := by
  unfold refreshAddition
  by_cases h : s.memPort.refreshPending < 8
  · rw [if_pos (show _ < Config.refreshUrgent from h), if_pos h]
  · rw [if_neg (show ¬ _ < Config.refreshUrgent from h), if_neg h, raise_memPort]

/-- R158: what the end of an interval leaves in the memory port. -/
theorem expireInterval_memPort (s : State) : (expireInterval s).memPort.intervalCount = 0 ∧
    (expireInterval s).memPort.refreshPending =
      if s.memPort.refreshPending < 8 then s.memPort.refreshPending + 1 else s.memPort.refreshPending := by
  rw [expireInterval, refreshAddition_memPort]
  exact ⟨rfl, rfl⟩

/-- Settles O2: the stall timer's part of the tick decides the monitor, the interval timer's part the memory port. -/
theorem stepWithNoCommandCountsOneTick : Obligations.StepWithNoCommandCountsOneTick := by
  intro s hs
  obtain ⟨hport, hset⟩ := tickStall_frame s
  obtain ⟨hmonitor, hbits⟩ := tickInterval_frame (tickStall s)
  refine ⟨tick s, by simp only [step, hs], ((tick_keeps s).pending).trans hs, ?stopped, ?counts, ?expires, ?coupled, ?ticks, ?ends⟩
  case stopped =>
    intro h
    exact hmonitor.trans (by simp only [tickStall, h, Bool.false_eq_true, if_false])
  case counts =>
    intro h hlt
    exact hmonitor.trans (by simp only [tickStall, h, if_true, if_neg (Nat.not_le.mpr hlt)])
  case expires =>
    intro h hle
    have hexp : tickStall s = expireStall s := by simp only [tickStall, h, if_true, if_pos hle]
    obtain ⟨hrunning, hcount⟩ := expireStall_stopped s
    rw [hexp] at hmonitor hbits
    rw [tick, hexp, hmonitor]
    exact ⟨hrunning, hcount, fun hp => hbits 2 (expireStall_occurred hp)⟩
  all_goals rw [tick, tickInterval, hset, hport]
  case coupled => exact fun h => by rw [if_pos h, hport]
  case ticks => exact fun h hlt => by rw [if_neg (by simp [h]), if_neg (Nat.not_le.mpr hlt)]
  case ends =>
    intro h hle
    rw [if_neg (by simp [h]), if_pos hle]
    have hends := expireInterval_memPort (tickStall s)
    rwa [hport] at hends

/-! ### What a command answers (log entry 3) -/

/-- What each command keeps of the queue behind it. -/
abbrev KeepsQueue (s t : State) : Prop := t.pending = s.pending

theorem takeCapture_pending (r : Request) (s : State) : (takeCapture r s).pending = s.pending := by
  unfold takeCapture
  split
  · exact setPort_pending ..
  · exact setPort_pending ..
  · have hinner := (monitorWrite_keeps r s).pending
    unfold finishMonitorWrite
    split
    · exact (setPort_pending ..).trans hinner
    · exact (setPort_pending ..).trans hinner
  · rfl
  · rfl

theorem takeSystem_pending (r : Request) (s : State) : (takeSystem r s).pending = s.pending := by
  unfold takeSystem
  split
  · exact setPort_pending ..
  · exact setPort_pending ..
  · split <;> rfl
  · rfl
  · rfl

theorem takePageRow_answers (row : List PageWord → Settings → Bool) (s : State) :
    AnswersNext (takePageRow row s) (KeepsQueue s) := by
  unfold takePageRow
  split
  · exact AnswersNext.ite (fun _ => AnswersNext.next ((settingsWrite_keeps _ _).pending.trans (setPort_pending ..)))
      (fun _ => AnswersNext.next rfl)
  · exact AnswersNext.next rfl

theorem grantTo_answers (r : Requester) (us : List Upset) (act : State → State) (s : State) (k : ∀ u, KeepsQueue u (act u)) :
    AnswersNext (grantTo r us act s) (KeepsQueue s) :=
  AnswersNext.ite (fun _ => AnswersNext.next (k _)) (fun _ => AnswersNext.next rfl)

theorem grantPort_pending (port : Port) (rq : Requester) (s : State) : (grantPort port rq s).pending = s.pending := by
  unfold grantPort
  split
  · rfl
  · split
    · exact (raiseChecks_pending ..).trans (setPort_pending ..)
    · exact (raiseChecks_pending ..).trans (setPort_pending ..)
    all_goals rfl

theorem grantReload_pending (s : State) : (grantReload s).pending = s.pending := by
  unfold grantReload
  split
  · split
    · exact raiseChecks_pending ..
    · rfl
  · rfl
  · rfl

theorem returnReload_pending (s : State) : (returnReload s).pending = s.pending := by
  unfold returnReload
  split
  · split
    · rfl
    · simp only
      split
      · unfold reloadEnd
        simp only
        split
        · exact (holdRelease_keeps _).pending
        · rfl
      · rfl
  · rfl
  · rfl

/-- Every command but the take of an output read answers a next state, with the queue behind it as it was. -/
theorem exec_answers (c : Instr) (s : State) (hc : c ≠ .outputReadTake) : AnswersNext (exec c s) (KeepsQueue s) := by
  have stand : AnswersNext (.next s) (KeepsQueue s) := AnswersNext.next rfl
  have choose : ∀ x, AnswersNext (.next (chooseReport x s)) (KeepsQueue s) := fun x => by
    unfold chooseReport
    split <;> exact AnswersNext.next rfl
  cases c with
  | powerOn d c => exact AnswersNext.next rfl
  | warmResetAssert => exact AnswersNext.next rfl
  | resetRelease d c => exact AnswersNext.ite (fun _ => AnswersNext.next rfl) (fun _ => stand)
  | reloadBurstReturn part =>
    cases part with
    | grant us => exact AnswersNext.ite (fun _ => grantTo_answers _ us _ s grantReload_pending) (fun _ => stand)
    | ret => exact AnswersNext.next (returnReload_pending s)
  | captureArrival r => exact AnswersNext.ite (fun _ => AnswersNext.next rfl) (fun _ => stand)
  | systemArrival r => exact AnswersNext.ite (fun _ => AnswersNext.next rfl) (fun _ => stand)
  | captureRequestTake =>
    refine AnswersNext.ite (fun _ => ?_) (fun _ => stand)
    split
    · exact AnswersNext.next (takeCapture_pending _ s)
    · exact stand
  | systemRequestTake =>
    refine AnswersNext.ite (fun _ => ?_) (fun _ => stand)
    split
    · exact AnswersNext.next (takeSystem_pending _ s)
    · exact stand
  | outputReadTake => exact absurd rfl hc
  | controlPageWrite => exact takePageRow_answers _ s
  | holdWordWrite => exact takePageRow_answers (fun ws _ => touches ws 0x000 0x004) s
  | clearOccurredBits => exact takePageRow_answers _ s
  | clearFirstFaultRecord => exact takePageRow_answers _ s
  | reportReadIndexWrite => exact takePageRow_answers (fun ws _ => touches ws 0x008 0x00C) s
  | reportMaskWrite => exact takePageRow_answers (fun ws _ => touches ws 0x00C 0x010) s
  | withdrawal tag =>
    change AnswersNext (match s.withdrawn tag with | some o => .next (dropRead tag o s) | none => .next s) (KeepsQueue s)
    split
    · exact AnswersNext.next rfl
    · exact stand
  | outputReadData count =>
    refine AnswersNext.ite (fun _ => ?_) (fun _ => stand)
    split
    · split
      · refine AnswersNext.ite (fun _ => ?_) (fun _ => stand)
        rw [returnOutput]
        split <;> exact AnswersNext.next rfl
      all_goals exact stand
    · exact stand
  | passThroughReadResponse port count =>
    refine AnswersNext.ite (fun _ => ?_) (fun _ => stand)
    split
    · split
      · exact AnswersNext.next (setPort_pending ..)
      all_goals exact stand
    · exact stand
  | refusedReadResponse port =>
    change AnswersNext (execRefusedReadResponse port s) (KeepsQueue s)
    unfold execRefusedReadResponse
    split
    · split
      · exact AnswersNext.next (setPort_pending ..)
      all_goals exact stand
    · exact stand
  | captureBurstGrant us => exact grantTo_answers _ us _ s (grantPort_pending _ _)
  | systemBurstGrant us => exact AnswersNext.ite (fun _ => grantTo_answers _ us _ s (grantPort_pending _ _)) (fun _ => stand)
  | fillBurstReturn part =>
    cases part with
    | grant us =>
      refine grantTo_answers _ us _ s fun u => ?_
      unfold grantFill
      split
      · rfl
      · exact raiseChecks_pending ..
    | ret => exact AnswersNext.next rfl
  | probeBurstReturn part =>
    cases part with
    | grant us =>
      refine grantTo_answers _ us _ s fun u => ?_
      unfold grantProbe
      split
      · rfl
      · exact raiseChecks_pending ..
    | ret => exact AnswersNext.next rfl
  | refreshGrant => exact grantTo_answers _ [] _ s fun _ => rfl
  | recordBurstGrant part =>
    cases part with
    | choose => exact choose .record
    | grant =>
      refine AnswersNext.ite (fun _ => grantTo_answers _ [] _ s fun u => ?_) (fun _ => stand)
      unfold grantRecord
      split <;> rfl
  | statusBlockGrant part =>
    cases part with
    | choose => exact choose .status
    | grant => exact AnswersNext.ite (fun _ => grantTo_answers _ [] _ s fun _ => rfl) (fun _ => stand)
  | stallTimerExpiry => exact AnswersNext.ite (fun _ => AnswersNext.next (expireStall_keeps s).pending) (fun _ => stand)
  | refreshIntervalExpiry => exact AnswersNext.ite (fun _ => stand) (fun _ => AnswersNext.next (refreshAddition_pending _))
  | refreshReqEdge => exact AnswersNext.ite (fun _ => AnswersNext.next (refreshAddition_pending _)) (fun _ => stand)

/-- Settles O3. -/
theorem commandsAnswerANextStateAndLeaveTheQueue : Obligations.CommandsAnswerANextStateAndLeaveTheQueue := by
  intro c s
  by_cases hc : c = .outputReadTake
  · subst hc
    have stand : AnswersNext (.next s) (KeepsQueue s) := AnswersNext.next rfl
    change AnswersNext (execOutputReadTake s) _ ∨ _ ∧ execOutputReadTake s = _
    unfold execOutputReadTake
    split
    · split
      · split
        · unfold takeOutputRead
          split
          next x hx => exact Or.inl (AnswersNext.next (takeOutput_keeps _ s x hx).pending)
          next => exact Or.inr ⟨rfl, rfl⟩
        · exact Or.inl stand
      · exact Or.inl stand
    · exact Or.inl stand
  · exact Or.inl (exec_answers c s hc)

/-! ### Resets, arrivals and ATTENTION -/

/-- Settles O4. -/
theorem powerOnSetsEveryBlock : Obligations.PowerOnSetsEveryBlock := by
  intro d c s
  have hoff : ∀ e ∈ windowsOff, e.kind = .off := fun e he => by rw [List.eq_of_mem_replicate he]
  have hregion : ∀ a, windowsOff.find? (fun e => e.contains a) = none := fun a =>
    List.find?_eq_none.mpr fun e he => by simp [WindowEntry.contains, hoff e he]
  refine ⟨{ State.powerOn d c with pending := s.pending }, rfl, rfl, rfl, rfl, rfl, rfl, rfl, hoff, fun a => ?_, rfl, rfl, rfl, rfl,
    rfl, rfl, rfl, rfl, rfl, fun _ => rfl, rfl, rfl, rfl, by simp [State.attention, State.powerOn, ConditionUnit.reset]⟩
  change (if _ then _ else match windowsOff.find? (fun e : WindowEntry => e.contains a) with | some e => e.kind.region | none => .elsewhere) = _
  rw [hregion]

/-- Settles O5. -/
theorem warmResetAssertionDiscardsRequestsAndKeepsDram : Obligations.WarmResetAssertionDiscardsRequestsAndKeepsDram := by
  intro s
  refine ⟨assertReset s, rfl, rfl, rfl, rfl, rfl, rfl, rfl, rfl, rfl, rfl, rfl, rfl, rfl, rfl,
    fun e he => by rw [List.eq_of_mem_replicate he], rfl, rfl, rfl, rfl, rfl, rfl, rfl, rfl, rfl, rfl, rfl, rfl, rfl, fun r hr => ?_⟩
  have hwaiting := grantee_waiting hr
  cases r with
  | refresh => rfl
  | _ => exact absurd hwaiting (by simp [State.waiting, assertReset])

theorem accepts_iff (s : State) (port : Port) {r : Request} (hr : r.wf = true) :
    s.accepts port r = true ↔ s.phase ≠ .asserted ∧ (s.port port).queue.length < portDepth port := by
  simp only [State.accepts, hr, Bool.and_true, Bool.and_eq_true, decide_eq_true_eq]

/-- R135, R141: a port that RESET or a full queue holds back does not accept. -/
theorem accepts_refuses {s : State} {port : Port} {r : Request} (hr : r.wf = true)
    (h : s.phase = .asserted ∨ portDepth port ≤ (s.port port).queue.length) : ¬ s.accepts port r = true := by
  rw [accepts_iff s port hr]
  rintro ⟨hp, hlt⟩
  exact h.elim hp (Nat.not_le.mpr hlt)

/-- Settles O8. -/
theorem arrivalTakesTheNewestPosition : Obligations.ArrivalTakesTheNewestPosition := fun _ s hr =>
  ⟨fun hp hlt => if_pos ((accepts_iff s .capture hr).mpr ⟨hp, hlt⟩), fun hp hlt => if_pos ((accepts_iff s .system hr).mpr ⟨hp, hlt⟩),
    fun h => if_neg (accepts_refuses (port := .capture) hr h), fun h => if_neg (accepts_refuses (port := .system) hr h)⟩

theorem ne_zero_iff_bit {n : Nat} (x : BitVec n) : x ≠ 0#n ↔ ∃ i < n, x.getLsbD i = true := by
  constructor
  · intro hne
    refine Classical.byContradiction fun hno => hne (BitVec.eq_of_getLsbD_eq fun i hi => ?_)
    rw [BitVec.getLsbD_zero]
    exact Bool.eq_false_iff.mpr fun hbit => hno ⟨i, hi, hbit⟩
  · rintro ⟨i, _, hbit⟩ rfl
    rw [BitVec.getLsbD_zero] at hbit
    exact Bool.false_ne_true hbit

/-- Settles O51: the two words share a bit where their conjunction is not zero. -/
theorem attentionFollowsEnabledOccurredBits : Obligations.AttentionFollowsEnabledOccurredBits := by
  intro s
  have hbits : s.cond.occurred &&& s.cond.mask ≠ 0 ↔
      ∃ i < 20, s.cond.occurred.getLsbD i = true ∧ s.cond.mask.getLsbD i = true := by
    refine (ne_zero_iff_bit _).trans ?_
    simp only [BitVec.getLsbD_and, Bool.and_eq_true]
  rw [State.attention, Bool.and_eq_true, decide_eq_true_eq, decide_eq_true_eq, hbits]

end Sys2Proof.Machine
end

section
/-! The two upstream ports (chapter 8): the take of the system request that stands next, what a take leaves in a queue, the router's
judgement, withdrawals and responses. -/

namespace Sys2Proof.Machine

open Host (Outcome)

/-! ### Takes (R136 to R138) -/

/-- SYSTEM_REQUEST_TAKE takes the first position whose turn it is. -/
theorem systemTake_next {before after : List QueuePosition} {q : QueuePosition} {s : State} (hp : s.phase = .running)
    (hq : s.system.queue = before ++ q :: after) (hb : ∀ p ∈ before, s.systemTurn p = false) (ht : s.systemTurn q = true) :
    exec .systemRequestTake s = .next (takeSystem q.request s) := by
  have hn : s.nextSystem = some q := by
    rw [State.nextSystem, hq]
    exact find_at hb ht
  simp only [exec, execSystemRequestTake, if_pos hp, hn]

theorem captureTurn_false {before : List QueuePosition} (hb : ∀ p ∈ before, p.progress ≠ .untaken) :
    ∀ p ∈ before, captureTurn p = false :=
  fun p hp => decide_eq_false (hb p hp)

/-- R135, R138: what a take leaves in a port's queue, and its acknowledgement. -/
theorem take_at {p : PortState} {turn : QueuePosition → Bool} {before after : List QueuePosition} {q : QueuePosition}
    (f : QueuePosition → Option QueuePosition) (tag : BitVec 4) (body : AckBody) (hq : p.queue = before ++ q :: after)
    (hb : ∀ x ∈ before, turn x = false) (ht : turn q = true) :
    p.take turn f tag body =
      { p with queue := before ++ (f q).toList ++ after, acks := p.acks ++ [{ tag := tag, body := body }] } := by
  simp only [PortState.take, PortState.replace, PortState.acknowledge, hq, replaceFirst_at hb ht]

theorem refusedPosition_toList (order : Nat) (reason : Reason) (q : QueuePosition) :
    (refusedPosition order reason q).toList =
      if isWriteRequest q.request then [] else [{ q with progress := .readRefused order reason.status }] := by
  unfold refusedPosition
  split <;> rfl

/-- R146: outside RESET a refusal's condition occurs. -/
theorem raise_violation (port : Port) (r : Request) (reason : Reason) {s : State} (h : s.phase = .running) :
    raise (violation port r reason) s =
      { s with cond := s.cond.occur 15 ((violation port r reason).record s.planner.frame) s.statusStands } := by
  rw [raise, if_neg (by rw [h]; exact fun e => by cases e)]
  rfl

/-- Settles O9. -/
theorem refusedRequestChangesNothingElse : Obligations.RefusedRequestChangesNothingElse := by
  intro before after q reason s hp
  refine ⟨fun hq hb hu hj => ?_, fun hq hb ht hj => ?_⟩
  · have hturn : captureTurn q = true := decide_eq_true hu
    rw [captureTake_next hp hq hb hu, takeCapture, hj]
    simp only [refuseRequest, State.port, take_at _ _ _ hq (captureTurn_false hb) hturn, refusedPosition_toList]
    rw [raise_violation _ _ _ (by exact hp)]
    rfl
  · rw [systemTake_next hp hq hb ht, takeSystem, hj]
    simp only [refuseRequest, State.port, take_at _ _ _ hq hb ht, refusedPosition_toList]
    rw [raise_violation _ _ _ (by exact hp)]
    rfl

/-- R147: a request that passes is taken with the words it carries. -/
theorem passedProgress_eq (order : Nat) (r : Request) : passedProgress order r (writeWords r) =
    match r.body with
    | .write ws => .writeTaken order ws
    | .read _ => .readTaken order := by
  unfold passedProgress isWriteRequest writeWords
  cases r.body <;> rfl

theorem passedAck_eq (r : Request) : passedAck r =
    match r.body with
    | .write _ => .writeStatus .ok
    | .read _ => .readClass true := by
  unfold passedAck isWriteRequest
  cases r.body <;> rfl

/-- Settles O10. -/
theorem passedRequestWaitsForItsGrant : Obligations.PassedRequestWaitsForItsGrant := by
  intro before after q s hp
  refine ⟨fun hq hb hu hj => ?_, fun hq hb ht hj => ?_⟩
  · have hturn : captureTurn q = true := decide_eq_true hu
    rw [captureTake_next hp hq hb hu, takeCapture, hj]
    simp only [passRequest, State.port, take_at _ _ _ hq (captureTurn_false hb) hturn, passedProgress_eq, passedAck_eq, becomes,
      Option.toList_some, List.append_assoc, List.singleton_append]
    rfl
  · rw [systemTake_next hp hq hb ht, takeSystem, hj]
    simp only [passRequest, State.port, take_at _ _ _ hq hb ht, passedProgress_eq, passedAck_eq, becomes,
      Option.toList_some, List.append_assoc, List.singleton_append]
    rfl

/-! ### The limit of four output reads (R137) -/

/-- R137: at the limit the port turns to its untaken positions, and an output read it comes to is held. -/
theorem turn_at_limit {s : State} (h : 4 ≤ s.counted) : s.heldTurn = false ∧ s.mustHold = true := by
  have hheld : s.heldTurn = false := by
    rw [State.heldTurn, decide_eq_false (show ¬ s.counted < Config.outputLimit from Nat.not_lt.mpr h), Bool.false_and]
  exact ⟨hheld, by rw [State.mustHold, hheld, decide_eq_true (show Config.outputLimit ≤ s.counted from h)]; rfl⟩

/-- R137: below the limit a held read has the turn. -/
theorem turn_below_limit {s : State} (h : s.counted < 4) {q : QueuePosition} (hq : q ∈ s.system.queue) (hheld : q.progress = .held) :
    s.heldTurn = true := by
  have hany : s.system.queue.any QueuePosition.isHeld = true := List.any_eq_true.mpr ⟨q, hq, decide_eq_true hheld⟩
  rw [State.heldTurn, hany, decide_eq_true (show s.counted < Config.outputLimit from h)]
  rfl

/-- Settles O11. -/
theorem outputReadOverTheLimitIsHeld : Obligations.OutputReadOverTheLimitIsHeld := by
  intro before after q s hq
  refine ⟨fun hp hb hu hj hfour => ?_, fun hb hheld hfew => ?_⟩
  · obtain ⟨hturn, hhold⟩ := turn_at_limit hfour
    have hsys : ∀ p, s.systemTurn p = p.isUntaken := fun p => by rw [State.systemTurn, hturn]; rfl
    have hbefore : ∀ p ∈ before, s.systemTurn p = false := fun p hmem => (hsys p).trans (decide_eq_false (hb p hmem))
    have hat : s.systemTurn q = true := (hsys q).trans (decide_eq_true hu)
    rw [systemTake_next hp hq hbefore hat, takeSystem, hj]
    simp only [hhold, if_true, holdRead, PortState.replace, hq, replaceFirst_at hbefore hat, becomes, Option.toList_some,
      List.append_assoc, List.singleton_append]
  · have hturn := turn_below_limit hfew (hq ▸ List.mem_append_right _ List.mem_cons_self) hheld
    have hsys : ∀ p, s.systemTurn p = p.isHeld := fun p => by rw [State.systemTurn, hturn]; rfl
    refine ⟨?_, by rw [State.mustHold, hturn]; rfl, hsys⟩
    rw [State.nextSystem, hq]
    exact find_at (fun p hmem => (hsys p).trans (decide_eq_false (hb p hmem))) ((hsys q).trans (decide_eq_true hheld))

/-! ### The router (R142, R144, R145) -/

theorem contains_eq_false_iff (e : WindowEntry) (a : Nat) :
    e.contains a = false ↔ e.kind = .off ∨ a < e.base ∨ e.base + e.size ≤ a := by
  simp only [WindowEntry.contains, Bool.and_eq_false_iff, decide_eq_false_iff_not, Classical.not_not, Nat.not_le, Nat.not_lt, or_assoc]

/-- R142: the control page is a region before every window. -/
theorem region_page {s : State} {a : Nat} (h : s.pageBase ≤ a ∧ a < s.pageBase + 4096) : s.region a = .controlPage :=
  if_pos h

/-- R142: off the page the first entry that contains an address gives its region. -/
theorem region_window {s : State} {a : Nat} (h : ¬ (s.pageBase ≤ a ∧ a < s.pageBase + 4096)) {before after : List WindowEntry}
    {e : WindowEntry} (hw : s.windows = before ++ e :: after) (hb : ∀ x ∈ before, x.contains a = false) (he : e.contains a = true) :
    s.region a = e.kind.region := by
  rw [State.region, if_neg h, hw, find_at hb he]

theorem region_elsewhere {s : State} {a : Nat} (h : ¬ (s.pageBase ≤ a ∧ a < s.pageBase + 4096))
    (hw : ∀ x ∈ s.windows, x.contains a = false) : s.region a = .elsewhere := by
  rw [State.region, if_neg h, List.find?_eq_none.mpr (fun x hx => by rw [hw x hx]; exact Bool.false_ne_true)]

section Judgement

variable {s : State} {port : Port} {r : Request} (hend : endAddr r ≤ 2 ^ 32)
  (hone : ∀ a ∈ wordAddrs r, s.region a = s.region (firstAddr r))

include hend hone

/-- R144: within the address space and one region the permission table judges, unless it lets the request pass. -/
theorem judge_permission (h : permission port (isWriteRequest r) (s.region (firstAddr r)) ≠ .pass) :
    s.judge port r = permission port (isWriteRequest r) (s.region (firstAddr r)) := by
  have hregion : s.oneRegion r = true := List.all_eq_true.mpr fun a ha => decide_eq_true (hone a ha)
  have hspace : ¬ 4294967296 < endAddr r := by omega
  simp only [State.judge, hspace, if_false, hregion, Bool.not_true, Bool.false_eq_true]

/-- R144: a request that the table lets pass is judged by the bound of DRAM. -/
theorem judge_dram (h : permission port (isWriteRequest r) (s.region (firstAddr r)) = .pass) :
    s.judge port r = if s.dramSize < endAddr r then .refuse .beyondDram else .pass := by
  have hregion : s.oneRegion r = true := List.all_eq_true.mpr fun a ha => decide_eq_true (hone a ha)
  have hspace : ¬ 4294967296 < endAddr r := by omega
  simp only [State.judge, hspace, if_false, hregion, Bool.not_true, Bool.false_eq_true, h]

end Judgement

theorem judge_beyondSpace {s : State} {port : Port} {r : Request} (hend : 2 ^ 32 < endAddr r) :
    s.judge port r = .refuse .beyondAddressSpace :=
  if_pos (show 4294967296 < endAddr r by omega)

theorem judge_spans {s : State} {port : Port} {r : Request} (hend : endAddr r ≤ 2 ^ 32)
    (hspan : ∃ a ∈ wordAddrs r, s.region a ≠ s.region (firstAddr r)) : s.judge port r = .refuse .spansRegions := by
  obtain ⟨a, ha, hne⟩ := hspan
  have hregion : s.oneRegion r = false := List.all_eq_false.mpr ⟨a, ha, by rw [decide_eq_true_eq]; exact hne⟩
  have hspace : ¬ 4294967296 < endAddr r := by omega
  simp only [State.judge, hspace, if_false, hregion, Bool.not_false, if_true]

/-- R144: a request passes only within one region that its port may use so, and within DRAM. -/
theorem judge_pass {s : State} {port : Port} {r : Request} (h : s.judge port r = .pass) :
    (∀ a ∈ wordAddrs r, s.region a = s.region (firstAddr r)) ∧
      permission port (isWriteRequest r) (s.region (firstAddr r)) = .pass ∧ endAddr r ≤ s.dramSize := by
  by_cases hend : endAddr r ≤ 2 ^ 32
  · by_cases hone : ∀ a ∈ wordAddrs r, s.region a = s.region (firstAddr r)
    · by_cases hperm : permission port (isWriteRequest r) (s.region (firstAddr r)) = .pass
      · rw [judge_dram hend hone hperm] at h
        split at h
        · cases h
        next hdram => exact ⟨hone, hperm, Nat.not_lt.mp hdram⟩
      · exact absurd ((judge_permission hend hone hperm).symm.trans h) hperm
    · have hout : ∃ a ∈ wordAddrs r, s.region a ≠ s.region (firstAddr r) := Classical.byContradiction fun hno =>
        hone fun a ha => Classical.byContradiction fun hne => hno ⟨a, ha, hne⟩
      rw [judge_spans hend hout] at h
      cases h
  · rw [judge_beyondSpace (Nat.not_le.mp hend)] at h
    cases h

/-- R145: a write passes to DRAM only outside the page and every window. -/
theorem permission_write_pass {port : Port} {reg : Region} (h : permission port true reg = .pass) : reg = .elsewhere := by
  cases reg with
  | elsewhere => rfl
  | status => cases h
  | guard => cases h
  | _ => cases port <;> cases h

theorem wordAddrs_lt_end {r : Request} {a : Nat} (h : a ∈ wordAddrs r) : a + 4 ≤ endAddr r := by
  obtain ⟨i, hi, rfl⟩ := List.mem_map.mp h
  have hlt := List.mem_range.mp hi
  rw [endAddr]
  omega

/-- Settles O12. -/
theorem routerJudgesInTheOrderOfItsSteps : Obligations.RouterJudgesInTheOrderOfItsSteps := by
  refine ⟨fun a s => ⟨rfl, ?size, region_page, fun hout before after e hw hb he => ?window, fun hout hw => ?elsewhere⟩, ?table,
    fun port r s => ⟨judge_beyondSpace, judge_spans, fun hend hone => ⟨judge_permission hend hone, judge_dram hend hone⟩,
      fun hj hw a ha => ?writes⟩⟩
  case size => rw [State.dramSize, Nat.pow_add]
  case window =>
    have hregion := region_window hout hw (fun x hx => (contains_eq_false_iff x a).mpr (hb x hx))
      (by rwa [← Bool.not_eq_false, contains_eq_false_iff])
    refine ⟨fun hk => ?_, fun hk => ?_, fun hk => ?_, fun hk => ?_⟩ <;> rw [hregion, hk] <;> rfl
  case elsewhere => exact region_elsewhere hout fun x hx => (contains_eq_false_iff x a).mpr (hw x hx)
  case table =>
    refine ⟨rfl, rfl, rfl, rfl, rfl, rfl, rfl, rfl, rfl, rfl, rfl, rfl, rfl, rfl, rfl, rfl, rfl, rfl, rfl, rfl, fun _ _ => rfl⟩
  case writes =>
    obtain ⟨hone, hperm, hend⟩ := judge_pass hj
    rw [hw] at hperm
    have hregion : s.region a = .elsewhere := (hone a ha).trans (permission_write_pass hperm)
    rw [hregion]
    exact ⟨by decide, by decide, by decide, by decide, by decide, Nat.le_trans (wordAddrs_lt_end ha) hend⟩

/-! ### Withdrawal (R131, R140) -/

/-- R131: a withdrawal is a release whose waits, where there are any, are one more withdrawn read. -/
theorem withdraw_eq (st : LineStore) (need : List NeedLine) : st.withdraw need = { st.release need with
    withdrawn := st.withdrawn ++
      (let waits := (need.map (fun l => l.entry)).filter (fun n => decide ((st.entry n).state = .filling))
       if waits = [] then [] else [waits]) } := by
  have hkeep := release_withdrawn st need
  unfold LineStore.withdraw
  simp only
  split
  · rw [List.append_nil, ← hkeep]
  · rw [hkeep]

theorem withdrawable_outputTaken {q : QueuePosition} {order : Nat} {o : OutputRead} (h : q.progress = .outputTaken order o) :
    q.withdrawable = if o.deferred = true ∧ o.returned = 0 then some o else none := by
  rw [QueuePosition.withdrawable, h]

theorem withdrawable_some {q : QueuePosition} {o : OutputRead} (h : q.withdrawable = some o) :
    ∃ order, q.progress = .outputTaken order o ∧ o.deferred = true ∧ o.returned = 0 := by
  unfold QueuePosition.withdrawable at h
  split at h
  next order o' heq =>
    split at h
    next hw =>
      cases h
      exact ⟨order, heq, hw⟩
    next => cases h
  all_goals cases h

/-- Settles O13. -/
theorem withdrawalDropsADeferredRead : Obligations.WithdrawalDropsADeferredRead := by
  refine ⟨fun before after q order o s hq hb ho hdef hret => ?drops, fun s isOutput hout => ?counts, fun tag s hnot => ?stands⟩
  case drops =>
    have hbefore : ∀ p ∈ before, QueuePosition.takenWith q.request.tag p = false := fun p hp => by
      rw [QueuePosition.takenWith, Bool.and_eq_false_iff, decide_eq_false_iff_not, Classical.or_iff_not_imp_left, Bool.not_eq_false]
      exact hb p hp
    have hat : QueuePosition.takenWith q.request.tag q = true := by
      simp [QueuePosition.takenWith, ho, Progress.taken]
    have hw : s.withdrawn q.request.tag = some o := by
      rw [State.withdrawn, hq, find_at hbefore hat]
      exact (withdrawable_outputTaken ho).trans (if_pos ⟨hdef, hret⟩)
    simp only [exec, execWithdrawal, hw, dropRead, PortState.replace, hq, replaceFirst_at hbefore hat, Option.toList_none,
      List.append_nil, withdraw_eq]
  case counts =>
    have hsame : ∀ q : QueuePosition, q.progress.isOutput = isOutput q := fun q => by
      rw [Bool.eq_iff_iff, hout q]
      cases q.progress <;> simp [Progress.isOutput]
    rw [State.counted, List.countP_eq_length_filter]
    simp only [hsame]
  case stands =>
    have hw : s.withdrawn tag = none := by
      rw [State.withdrawn, Option.bind_eq_none_iff]
      intro q hfind
      refine Classical.byContradiction fun hsome => ?_
      obtain ⟨o, ho⟩ := Option.ne_none_iff_exists'.mp hsome
      obtain ⟨order, hprog, hdef, hret⟩ := withdrawable_some ho
      obtain hd | hr := hnot q order o hfind hprog
      · rw [hdef] at hd
        cases hd
      · exact hr hret
    simp only [exec, execWithdrawal, hw]

/-! ### Responses (R130, R139) -/

theorem responseCountWf_iff (n : Nat) : responseCountWf n = true ↔ 1 ≤ n ∧ n ≤ 32 := by
  simp [responseCountWf]

/-- R139: what a response leaves in a port's queue. -/
theorem respond_at {p : PortState} {q : QueuePosition} {order : Nat} {before after : List QueuePosition}
    (f : QueuePosition → Option QueuePosition) (part : Response) (hq : p.queue = before ++ q :: after)
    (hb : ∀ x ∈ before, x.progress.readOrder ≠ some order) (ho : q.progress.readOrder = some order) :
    (p.replace (QueuePosition.isRead order) f).respond part =
      { p with queue := before ++ (f q).toList ++ after, responses := p.responses ++ [part] } := by
  have hbefore : ∀ x ∈ before, QueuePosition.isRead order x = false := fun x hx => decide_eq_false (hb x hx)
  simp only [PortState.replace, PortState.respond, hq, replaceFirst_at hbefore (decide_eq_true ho)]

theorem replaced_toList (c : Prop) [Decidable c] (p : Progress) (q : QueuePosition) :
    ((if c then fun _ => none else becomes p) q).toList = if c then [] else [{ q with progress := p }] := by
  split <;> rfl

/-- Settles O16. -/
theorem portReadsReturnTheirWordsOrStatus : Obligations.PortReadsReturnTheirWordsOrStatus := by
  intro port order q before after s hfirst hq hb
  refine ⟨fun count returned words failed hpos hle hprog => ?_, fun status hprog => ?_⟩
  · simp only [exec, execPassThroughReadResponse, (responseCountWf_iff count).mpr ⟨hpos, hle⟩, if_true, hfirst, hprog,
      PortState.returnRead, respond_at _ _ hq hb (show q.progress.readOrder = some order by rw [hprog]; rfl), responsePart,
      passStatus, replaced_toList, decide_eq_true_eq]
  · simp only [exec, execRefusedReadResponse, hfirst, hprog, PortState.returnRefused,
      respond_at _ _ hq hb (show q.progress.readOrder = some order by rw [hprog]; rfl), Option.toList_none, List.append_nil]

/-- What O14 says of a part that leaves: it is of the read taken before every other on the port. -/
structure FirstResponds (port : Port) (s t : State) (q : QueuePosition) (order : Nat) (part : Response) : Prop where
  first : (s.port port).firstResponse = some q
  readOrder : q.progress.readOrder = some order
  responses : (t.port port).responses = (s.port port).responses ++ [part]
  tag : part.tag = q.request.tag
  stays : part.last = false → ∃ p ∈ (t.port port).queue, p.progress.readOrder = some order

theorem FirstResponds.member {port : Port} {s t : State} {q : QueuePosition} {order : Nat} {part : Response}
    (h : FirstResponds port s t q order part) :
    q ∈ (s.port port).queue ∧ ∀ p ∈ (s.port port).queue, ∀ n, p.progress.readOrder = some n → order ≤ n := by
  obtain ⟨hmem, n, hn, hleast⟩ := leastBy_some h.first
  rw [h.readOrder] at hn
  cases hn
  exact ⟨hmem, hleast⟩

/-- A response whose position, where it is not the last part, stays a read of its place in take order. -/
theorem FirstResponds.of_replace {port : Port} {s t : State} {q : QueuePosition} {order : Nat} {part : Response}
    {f : QueuePosition → Option QueuePosition} (hfirst : (s.port port).firstResponse = some q)
    (ho : q.progress.readOrder = some order)
    (ht : t.port port = ((s.port port).replace (QueuePosition.isRead order) f).respond part) (htag : part.tag = q.request.tag)
    (hf : part.last = false → ∃ x, f q = some x ∧ x.progress.readOrder = some order) :
    FirstResponds port s t q order part := by
  obtain ⟨-, before, after, hq, hb⟩ := firstResponse_first hfirst ho
  rw [respond_at f part hq (fun x hx => of_decide_eq_false (hb x hx)) ho] at ht
  refine ⟨hfirst, ho, by rw [ht], htag, fun hlast => ?_⟩
  obtain ⟨x, hx, hread⟩ := hf hlast
  rw [ht]
  exact ⟨x, by simp [hx], hread⟩

/-- The other port, as O14 writes it, stands where the change is of one port and of what no port holds. -/
theorem setPort_other (port : Port) (p : PortState) (s : State) :
    (s.setPort port p).port (match port with | .capture => .system | .system => .capture) =
      s.port (match port with | .capture => .system | .system => .capture) := by
  cases port <;> rfl

/-- Settles O14: each of the three commands is a `FirstResponds` where it returns anything. -/
theorem responsesFollowTakeOrder : Obligations.ResponsesFollowTakeOrder := by
  have stand : ∀ port : Port, ∀ s : State, ∃ t : State, Outcome.next (φ := Fault) (ρ := Refusal) s = .next t ∧
      t.port (match port with | .capture => .system | .system => .capture) =
        s.port (match port with | .capture => .system | .system => .capture) ∧
      (t = s ∨ ∃ q order part, FirstResponds port s t q order part) := fun port s => ⟨s, rfl, rfl, Or.inl rfl⟩
  have unfolded : ∀ (port : Port) (count : Nat) (c : Instr) (s : State),
      (c = .outputReadData count ∧ port = .system) ∨ c = .passThroughReadResponse port count ∨ c = .refusedReadResponse port →
      ∃ t, exec c s = .next t ∧
        t.port (match port with | .capture => .system | .system => .capture) =
          s.port (match port with | .capture => .system | .system => .capture) ∧
        (t = s ∨ ∃ q order part, FirstResponds port s t q order part) := by
    intro port count c s hc
    rcases hc with ⟨rfl, rfl⟩ | rfl | rfl
    · change ∃ t, execOutputReadData count s = _ ∧ _
      unfold execOutputReadData
      split
      · split
        next q hq =>
          split
          next order o ho =>
            have hread : q.progress.readOrder = some order := by rw [ho]; rfl
            split
            · refine ⟨_, rfl, ?_, Or.inr ⟨q, order, responsePart q.request.tag .ok (o.produced s.store q.request.count) o.returned count, ?_⟩⟩
              · unfold returnOutput
                simp only
                split <;> rfl
              · unfold returnOutput
                simp only
                split
                next hlast =>
                  exact .of_replace (f := fun _ => none) hq hread rfl rfl (fun h => by rw [h] at hlast; cases hlast)
                next => exact .of_replace hq hread rfl rfl (fun _ => ⟨_, rfl, rfl⟩)
            · exact stand .system s
          all_goals exact stand .system s
        next => exact stand .system s
      · exact stand .system s
    · change ∃ t, execPassThroughReadResponse port count s = _ ∧ _
      unfold execPassThroughReadResponse
      split
      · split
        next q hq =>
          split
          next order words failed returned ho =>
            refine ⟨_, rfl, setPort_other .., Or.inr ⟨q, order, responsePart q.request.tag (passStatus failed) words returned count, ?_⟩⟩
            exact .of_replace hq (by rw [ho]; rfl) (port_setPort ..) rfl
              (fun h => ⟨{ q with progress := .readGranted order words failed (returned + count) }, by rw [h]; rfl, rfl⟩)
          all_goals exact stand port s
        next => exact stand port s
      · exact stand port s
    · change ∃ t, execRefusedReadResponse port s = _ ∧ _
      unfold execRefusedReadResponse
      split
      next q hq =>
        split
        next order status ho =>
          refine ⟨_, rfl, setPort_other .., Or.inr ⟨q, order, { tag := q.request.tag, status := status, words := [], last := true }, ?_⟩⟩
          exact .of_replace (f := fun _ => none) hq (by rw [ho]; rfl) (port_setPort ..) rfl (fun h => by cases h)
        all_goals exact stand port s
      next => exact stand port s
  intro port count c s hc
  obtain ⟨t, ht, hother, hpart⟩ := unfolded port count c s hc
  refine ⟨t, ht, hother, hpart.imp id ?_⟩
  rintro ⟨q, order, part, h⟩
  obtain ⟨hmem, hleast⟩ := h.member
  exact ⟨q, hmem, order, part, h.first, h.readOrder, hleast, h.responses, h.tag, h.stays⟩

end Sys2Proof.Machine
end

section
/-! OUTPUT_READ_DATA (R130) and the words of a read (R101 to R116): what leaves the port with each part, the pixel of a word, and a filter
stage written over its clamped taps. -/

namespace Sys2Proof.Machine

open Host (Outcome)

/-! ### The part that leaves (R130) -/

theorem anyFilling_eq_false {st : LineStore} {need : List NeedLine} (h : ∀ n ∈ need, (st.entry n.entry).state ≠ .filling) :
    st.anyFilling need = false :=
  List.any_eq_false.mpr fun n hn => by rw [decide_eq_true_eq]; exact h n hn

/-- R130: a read none of whose entries is FILLING returns its next words. -/
theorem outputReadData_next {count order : Nat} {q : QueuePosition} {o : OutputRead} {s : State} (hpos : 1 ≤ count) (hle : count ≤ 32)
    (hfirst : s.system.firstResponse = some q) (ho : q.progress = .outputTaken order o)
    (hneed : ∀ n ∈ o.need, (s.store.entry n.entry).state ≠ .filling) :
    exec (.outputReadData count) s = .next (returnOutput q.request order o (o.produced s.store q.request.count) count s) := by
  simp only [exec, execOutputReadData, (responseCountWf_iff count).mpr ⟨hpos, hle⟩, if_true, hfirst, ho, OutputRead.ready,
    anyFilling_eq_false hneed, Bool.not_false, Bool.or_true]

/-- R130: the last part frees the position and releases the need set; any other leaves the read in its position. -/
theorem returnOutput_at {count order : Nat} {q : QueuePosition} {o : OutputRead} {before after : List QueuePosition} {s : State}
    (words : List Word) (ho : q.progress = .outputTaken order o) (hq : s.system.queue = before ++ q :: after)
    (hb : ∀ p ∈ before, p.progress.readOrder ≠ some order) :
    returnOutput q.request order o words count s =
      if words.length ≤ o.returned + count then
        { s with
          system := { s.system with
            queue := before ++ after
            responses := s.system.responses ++ [responsePart q.request.tag .ok words o.returned count] }
          store := s.store.release o.need }
      else
        { s with system := { s.system with
            queue := before ++
              { q with progress := .outputTaken order { o with words := some words, returned := o.returned + count } } :: after
            responses := s.system.responses ++ [responsePart q.request.tag .ok words o.returned count] } } := by
  have hread : q.progress.readOrder = some order := by rw [ho]; rfl
  simp only [returnOutput, respond_at _ _ hq hb hread, responsePart, decide_eq_true_eq, becomes, Option.toList_none, Option.toList_some,
    List.append_nil, List.append_assoc, List.singleton_append]

/-! ### The words (R103 to R116) -/

/-- R116: luma and chroma stand in their bits of an output word, and the other bits are 0. -/
theorem outputWord_toNat (y c : Nat) : (outputWord y c).toNat = y % 2 ^ 10 * 2 ^ 16 + c % 2 ^ 10 := by
  rw [outputWord, BitVec.toNat_ofNat]
  omega

/-- R104: the word that a read's copy gives at index i of its words. -/
def OutputRead.wordAt (o : OutputRead) (st : LineStore) (i : Nat) : Word :=
  match o.plan with
  | none => outputWord o.fillY o.fillC
  | some p => p.outputWordAt (st.resolve o.need) o.offset (o.offset + 4 * i)

theorem produce_eq (o : OutputRead) (st : LineStore) (count : Nat) :
    o.produce st count = (List.range count).map (o.wordAt st) := by
  unfold OutputRead.produce OutputRead.wordAt
  cases o.plan with
  | none => simp only [List.map_const', List.length_range]
  | some p => exact List.map_map ..

theorem produce_getElem (o : OutputRead) (st : LineStore) {count i : Nat} (h : i < count) :
    (o.produce st count)[i]? = some (o.wordAt st i) := by
  rw [produce_eq, List.getElem?_map, List.getElem?_range h]
  rfl

/-- R109, R110, R113, R114: a filter stage at output index i of an axis, over four clamped taps of a source. -/
def Snapshot.stage (g : Snapshot) (step offset : Int) (src i : Nat) (sample : Nat → Nat) (lo hi : Int) : Nat :=
  let n := (i * step + offset) / 65536
  let phase := ((i * step + offset - 65536 * n) / 4096).toNat
  let c := g.coefs.getD phase { c0 := 0, c1 := 256 - 16 * phase, c2 := 16 * phase, c3 := 0 }
  let tap := fun (k : Int) => (sample (max 0 (min (n + k) (src - 1))).toNat : Int)
  (max lo (min ((c.c0 * tap (-1) + c.c1 * tap 0 + c.c2 * tap 1 + c.c3 * tap 2 + 128) / 256) hi)).toNat

/-- R109: the phase of a position, from its fraction. -/
theorem posPhase_eq (pos : Int) : posPhase pos = ((pos - 65536 * (pos / 65536)) / 4096).toNat := by
  rw [posPhase]
  omega

/-- The model's filter over the taps of a position is the stage at its index. -/
theorem filterTaps_eq_stage (g : Snapshot) (step offset : Int) (src i : Nat) (sample : Nat → Nat) (lo hi : Int) :
    filterTaps (g.coef (posPhase (axisPos step offset i))) sample (taps src (posIndex (axisPos step offset i))) lo hi =
      g.stage step offset src i sample lo hi := by
  have hzero : ∀ n : Int, n + 0 = n := Int.add_zero
  rw [posPhase_eq]
  simp only [filterTaps, filter4, taps, List.getD_cons_zero, List.getD_cons_succ, clampTap, clampInt, Snapshot.stage, Snapshot.coef,
    CoefRow.default, axisPos, posIndex, hzero, Int.sub_eq_add_neg]

/-- R113: the vertical stage of a row. -/
theorem vertical_eq_stage (g : Snapshot) (row : Nat) (f : Nat → Nat) :
    g.vertical row f = g.stage g.vStep g.vOffset g.rows (row - g.y0) f 0 1023 :=
  filterTaps_eq_stage ..

/-- R114: the luma of a picture word. -/
theorem lumaOut_eq_stage (g : Snapshot) (p : Picture) (row x : Nat) :
    g.lumaOut p row x = g.stage g.hStep g.lumaOffset g.width (x - g.x0)
      (fun col => g.stage g.vStep g.vOffset g.rows (row - g.y0) (fun r => p.y col r) 0 1023) 4 1019 := by
  simp only [Snapshot.lumaOut, filterTaps_eq_stage, vertical_eq_stage]

/-- R115: the chroma of a picture word. -/
theorem chromaOut_eq_stage (g : Snapshot) (p : Picture) (row x : Nat) :
    g.chromaOut p row x = g.stage g.hStep g.chromaOffset (g.width / 2) ((x - g.x0) / 2)
      (fun m => g.stage g.vStep g.vOffset g.rows (row - g.y0) (fun r => p.c (2 * m + (x - g.x0) % 2) r) 0 1023) 4 1019 := by
  simp only [Snapshot.chromaOut, filterTaps_eq_stage, vertical_eq_stage]

/-- R104: the tests of a picture word. -/
theorem pictureAt_iff (p : Plan) (first o : Nat) :
    p.pictureAt first o = true ↔ p.method ≠ .fill ∧
      pixelColumn p.snapshot.pitch o < p.snapshot.wo ∧ pixelRow p.snapshot.pitch o < p.snapshot.ho ∧
      p.snapshot.x0 ≤ pixelColumn p.snapshot.pitch o ∧ pixelColumn p.snapshot.pitch o < p.snapshot.x0 + p.snapshot.wi ∧
      p.snapshot.y0 ≤ pixelRow p.snapshot.pitch o ∧ pixelRow p.snapshot.pitch o < p.snapshot.y0 + p.snapshot.hi ∧
      pixelRow p.snapshot.pitch o = pixelRow p.snapshot.pitch first := by
  simp only [Plan.pictureAt, Snapshot.isPicture, Bool.and_eq_true, decide_eq_true_eq, and_assoc]

/-- Settles O15: the parts by `returnOutput_at`, the words by `produce_getElem`, a picture word by the two stages. -/
theorem outputReadReturnsItsWordsInOrder : Obligations.OutputReadReturnsItsWordsInOrder := by
  refine ⟨?parts, fun _ _ _ => ⟨rfl, rfl⟩, fun o st count => ⟨by rw [produce_eq, List.length_map, List.length_range], fun i hi => ?words⟩⟩
  case parts =>
    intro count order q o before after s hpos hle hfirst ho hq hb hneed
    refine ⟨_, o.produced s.store q.request.count, outputReadData_next hpos hle hfirst ho hneed, rfl, ?_⟩
    rw [returnOutput_at _ ho hq hb]
    split
    next hlast => exact ⟨rfl, rfl, fun h => absurd hlast (Nat.not_le.mpr h), fun _ => ⟨rfl, rfl⟩, rfl⟩
    next hlast => exact ⟨rfl, rfl, fun _ => ⟨rfl, rfl⟩, fun h => absurd h hlast, rfl⟩
  case words =>
    have hword := produce_getElem o st hi
    intro carries
    have hcarries : ∀ y c, o.wordAt st i = outputWord y c → carries y c := fun y c h =>
      ⟨_, hword, by rw [h]; exact outputWord_toNat y c⟩
    refine ⟨fun hnone => hcarries _ _ ?_, fun p hp => ?_⟩
    · rw [OutputRead.wordAt, hnone]
    · have hopen : o.wordAt st i = p.outputWordAt (st.resolve o.need) o.offset (o.offset + 4 * i) := by
        rw [OutputRead.wordAt, hp]
      have hpicture := pictureAt_iff p o.offset (o.offset + 4 * i)
      refine ⟨fun hfill => hcarries _ _ ?_, fun hmethod hbox => hcarries _ _ ?_⟩
      · rw [hopen, Plan.outputWordAt, if_neg]
        rw [hpicture]
        exact fun h => hfill.elim h.1 (fun hout => hout h.2)
      · rw [hopen, Plan.outputWordAt, if_pos (hpicture.mpr ⟨hmethod, hbox⟩), lumaOut_eq_stage, chromaOut_eq_stage]
        rfl

end Sys2Proof.Machine
end

section
/-! The memory port (chapter 9): the check code, check errors, the grants of the two ports, the write-before-read rule and refresh. -/

namespace Sys2Proof.Machine

open Host (Outcome)

/-! ### Words and their check (R154, R155) -/

theorem readRaw_of_clean {m : Memory} {i : Nat} {w : Word} {c : CheckResult} (h : m.readChecked i = (w, c)) (hc : c ≠ .corrected) :
    m.readRaw i = w := by
  unfold Memory.readChecked at h
  simp only at h
  split at h
  · exact (Prod.mk.inj h).1
  split at h
  · exact absurd (Prod.mk.inj h).2.symm hc
  · exact (Prod.mk.inj h).1

/-- R154: one to three enables merge into a word that passes its check, corrected or not. -/
theorem writeWord_merge {m : Memory} {index : Nat} {w : WriteWord} (hall : w.enables ≠ 15#4) (hnone : w.enables ≠ 0#4)
    (hcheck : (m.readChecked index).2 ≠ .failed) :
    m.writeWord index w =
      (m.writeCoded index (mergeBytes (m.readChecked index).1 w.data w.enables), (m.readChecked index).2) := by
  rw [Memory.writeWord, if_neg hall, if_neg hnone]
  split
  next hread => exact absurd (congrArg Prod.snd hread) hcheck
  next hread => rw [hread]

theorem writeWord_failed {m : Memory} {index : Nat} {w : WriteWord} (hall : w.enables ≠ 15#4) (hnone : w.enables ≠ 0#4)
    (hcheck : (m.readChecked index).2 = .failed) : m.writeWord index w = (m, .failed) := by
  rw [Memory.writeWord, if_neg hall, if_neg hnone]
  generalize m.readChecked index = read at hcheck ⊢
  obtain ⟨old, check⟩ := read
  obtain rfl : check = .failed := hcheck
  rfl

/-- R154: a word of a write leaves what every other word reads as. -/
theorem readChecked_writeWord_of_ne {m : Memory} {index j : Nat} (w : WriteWord) (h : m.wf) (hj : j ≠ index) :
    (m.writeWord index w).1.readChecked j = m.readChecked j := by
  by_cases hall : w.enables = 15#4
  · rw [Memory.writeWord, if_pos hall]
    exact Memory.readChecked_writeCoded_of_ne _ _ _ h hj
  by_cases hnone : w.enables = 0#4
  · rw [Memory.writeWord, if_neg hall, if_pos hnone]
  by_cases hcheck : (m.readChecked index).2 = .failed
  · rw [writeWord_failed hall hnone hcheck]
  · rw [writeWord_merge hall hnone hcheck]
    exact Memory.readChecked_writeCoded_of_ne _ _ _ h hj

/-- Settles O44. -/
theorem enablesDecideTheWordWritten : Obligations.EnablesDecideTheWordWritten := by
  intro m index w h
  refine ⟨fun hall => ?_, fun hnone => ?_, fun hall hnone => ⟨writeWord_failed hall hnone, fun hcheck => ?_⟩,
    fun j => readChecked_writeWord_of_ne w h⟩
  · rw [Memory.writeWord, if_pos hall]
    exact ⟨Memory.readChecked_writeCoded _ _ h, rfl⟩
  · rw [Memory.writeWord, if_neg (by rw [hnone]; decide), if_pos hnone]
  · rw [writeWord_merge hall hnone hcheck, Memory.readChecked_writeCoded _ _ h]
    exact ⟨rfl, rfl, fun i hi => mergeBytes_byte _ _ _ i hi⟩

/-- R155: what a word written clean reads as once its stored image is disturbed. -/
theorem readChecked_disturbed {m : Memory} (index : Nat) (w : Word) (f : Flips) (h : m.wf) :
    ((m.writeCoded index w).disturb { index := index, flips := f }).readChecked index =
      if f = 0 then (w ^^^ f.extractLsb' 0 32, .clean)
      else if flipCount f = 1 then (w ^^^ f.extractLsb' 0 32 ^^^ f.extractLsb' 0 32, .corrected)
      else (w ^^^ f.extractLsb' 0 32, .failed) := by
  have hwf := Memory.writeCoded_wf index w h
  have hraw : (m.writeCoded index w).readRaw index = w :=
    readRaw_of_clean (Memory.readChecked_writeCoded index w h) (by decide)
  have hzero : (0 : Flips) ^^^ f = f := BitVec.zero_xor
  rw [Memory.readChecked, Memory.flipsAt_disturb _ _ hwf, Memory.readRaw_disturb _ _ hwf, Memory.flipsAt_writeCoded _ _ h, hraw,
    hzero]

theorem ne_zero_of_flipCount {f : Flips} (h : flipCount f ≠ 0) : f ≠ 0 := by
  rintro rfl
  exact h (by decide)

/-- Settles O45. -/
theorem checksCorrectOneBitAndFailMore : Obligations.ChecksCorrectOneBitAndFailMore := by
  intro m index w f h
  refine ⟨Memory.readChecked_writeCoded _ _ h, fun hone => ?_, fun hmore => ?_⟩
  · rw [readChecked_disturbed _ _ _ h, if_neg (ne_zero_of_flipCount (by omega)), if_pos hone, BitVec.xor_assoc, BitVec.xor_self,
      BitVec.xor_zero]
  · rw [readChecked_disturbed _ _ _ h, if_neg (ne_zero_of_flipCount (by omega)), if_neg (by omega)]

/-! ### Check errors (R155, R156) -/

theorem countP_eq_count (x : CheckResult) (cs : List CheckResult) : cs.countP (fun c => decide (c = x)) = cs.count x := rfl

theorem raiseChecks_failed (r : Requester) (x : Transfer) (addr : Nat) {cs : List CheckResult} (s : State) (h : .failed ∈ cs) :
    raiseChecks r x addr cs s =
      raise (.checkFailed (addr + 4 * firstWith .failed cs) r x (cs.count .corrected) (cs.count .failed))
        { s with memPort := { s.memPort with
            firstFault := FirstFault.record s.memPort.firstFault
              { addr := word (addr + 4 * firstWith .failed cs), requester := r, transfer := x, multi := true } } } := by
  have hsome : cs.count .failed ≠ 0 := (Nat.ne_of_gt (List.count_pos_iff.mpr h))
  simp only [raiseChecks, countP_eq_count, ne_eq, hsome, not_false_eq_true, if_true]

theorem raiseChecks_corrected (r : Requester) (x : Transfer) (addr : Nat) {cs : List CheckResult} (s : State) (hf : .failed ∉ cs)
    (h : .corrected ∈ cs) :
    raiseChecks r x addr cs s =
      raise (.checkCorrected (addr + 4 * firstWith .corrected cs) r x (cs.count .corrected) 0)
        { s with memPort := { s.memPort with
            firstFault := FirstFault.record s.memPort.firstFault
              { addr := word (addr + 4 * firstWith .corrected cs), requester := r, transfer := x, multi := false } } } := by
  have hnone : cs.count .failed = 0 := List.count_eq_zero.mpr hf
  have hsome : cs.count .corrected ≠ 0 := (Nat.ne_of_gt (List.count_pos_iff.mpr h))
  simp only [raiseChecks, countP_eq_count, hnone, ne_eq, not_true_eq_false, if_false, hsome, not_false_eq_true, if_true]

/-- Settles O46. -/
theorem checkErrorsFillTheFirstFaultRecord : Obligations.CheckErrorsFillTheFirstFaultRecord := by
  intro r x addr cs s hs
  refine ⟨raiseChecks_clean r x addr cs s, fun hf hc => ?_, fun hf => ?_⟩
  · rw [raiseChecks_corrected r x addr s hf hc]
    refine ⟨raise_cond _ hs, ?_⟩
    rw [raise_memPort]
    cases s.memPort.firstFault with
    | none => simp only [FirstFault.record, firstWith]
    | some f => simp only [FirstFault.record, Bool.false_eq_true, false_and, if_false]
  · rw [raiseChecks_failed r x addr s hf]
    refine ⟨raise_cond _ hs, ?_⟩
    rw [raise_memPort]
    cases s.memPort.firstFault with
    | none => simp only [FirstFault.record, firstWith]
    | some f => cases hm : f.multi <;> simp [FirstFault.record, firstWith, hm]

/-! ### The grants of the two ports (R149) -/

theorem firstAddr_mul (r : Request) : 4 * (firstAddr r / 4) = firstAddr r := by
  rw [firstAddr, wordBase]
  omega

/-- What a grant to a requester leaves before the requester's own work: DRAM disturbed, and the starvation counts. -/
theorem granted_eq (s : State) (rq : Requester) (us : List Upset) :
    (disturb us s).countGrant rq = { s with
      dram := s.dram.disturbAll us
      memPort := { s.memPort with starvation := (s.countGrant rq).memPort.starvation } } := by
  rw [State.countGrant, waiting_disturb]
  rfl

/-- The check report of a grant's work is that over the state with the grant's starvation counts alone. -/
theorem raiseChecks_granted (r : Requester) (x : Transfer) (a : Nat) (cs : List CheckResult) {s u : State}
    (hp : u.phase = .asserted ↔ s.phase = .asserted) (hw : u.windows = s.windows) (hf : u.planner = s.planner) (hc : u.cond = s.cond)
    (hm : u.memPort = { s.memPort with starvation := (s.countGrant r).memPort.starvation }) :
    let v := raiseChecks r x a cs { s with memPort := { s.memPort with starvation := (s.countGrant r).memPort.starvation } }
    (raiseChecks r x a cs u).cond = v.cond ∧ (raiseChecks r x a cs u).memPort = v.memPort :=
  raiseChecks_congr r x a cs hp hw (congrArg Planner.frame hf) hc hm

theorem replace_ungranted {p : PortState} {q : QueuePosition} {order : Nat} {before after : List QueuePosition}
    (f : QueuePosition → Option QueuePosition) (hq : p.queue = before ++ q :: after)
    (hb : ∀ x ∈ before, x.progress.ungranted ≠ some order) (ho : q.progress.ungranted = some order) :
    p.replace (QueuePosition.isUngranted order) f = { p with queue := before ++ (f q).toList ++ after } := by
  have hbefore : ∀ x ∈ before, QueuePosition.isUngranted order x = false := fun x hx => decide_eq_false (hb x hx)
  rw [PortState.replace, hq, replaceFirst_at hbefore (decide_eq_true ho)]

/-- What the work of a port's grant leaves: its port, DRAM, and the check report. -/
structure PortGranted (port : Port) (rq : Requester) (x : Transfer) (a : Nat) (cs : List CheckResult) (p : PortState) (m : Memory)
    (s t : State) : Prop where
  eq : t = raiseChecks rq x a cs { ({ s with memPort := { s.memPort with
    starvation := (s.countGrant rq).memPort.starvation } }.setPort port p) with dram := m }

section PortGranted

variable {port : Port} {rq : Requester} {x : Transfer} {a : Nat} {cs : List CheckResult} {p : PortState} {m : Memory} {s t : State}
  (h : PortGranted port rq x a cs p m s t)

include h

theorem PortGranted.port_eq : t.port port = p := by
  rw [h.eq, raiseChecks_eq]
  cases port <;> rfl

theorem PortGranted.other {o : Port} (ho : o ≠ port) : t.port o = s.port o := by
  rw [h.eq, raiseChecks_eq]
  cases port <;> cases o
  · exact absurd rfl ho
  · rfl
  · rfl
  · exact absurd rfl ho

theorem PortGranted.dram_eq : t.dram = m := by
  rw [h.eq, raiseChecks_dram]

theorem PortGranted.frame :
    t = { s with capture := t.capture, system := t.system, dram := t.dram, memPort := t.memPort, cond := t.cond } := by
  rw [h.eq, raiseChecks_eq]
  cases port <;> rfl

theorem PortGranted.checks :
    let u := raiseChecks rq x a cs { s with memPort := { s.memPort with starvation := (s.countGrant rq).memPort.starvation } }
    t.cond = u.cond ∧ t.memPort = u.memPort := by
  rw [h.eq]
  cases port <;> exact raiseChecks_granted rq x a cs Iff.rfl rfl rfl rfl rfl

end PortGranted

section PortGrants

variable {port : Port} {rq : Requester} {us : List Upset} {q : QueuePosition} {order : Nat} {before after : List QueuePosition}
  {s : State} (hg : s.grantee = some rq) (hhead : (s.port port).head = some q) (hq : (s.port port).queue = before ++ q :: after)
  (hb : ∀ p ∈ before, p.progress.ungranted ≠ some order)

include hg hhead hq hb

/-- R154: the grant of a port's write. -/
theorem grantPort_write {ws : List WriteWord} (ho : q.progress = .writeTaken order ws) :
    ∃ t, grantTo rq us (grantPort port rq) s = .next t ∧
      PortGranted port rq .merge (firstAddr q.request) ((s.dram.disturbAll us).writeBurst (firstAddr q.request / 4) ws).2
        { s.port port with queue := before ++ after } ((s.dram.disturbAll us).writeBurst (firstAddr q.request / 4) ws).1 s t := by
  refine ⟨_, grantTo_next hg, ⟨?_⟩⟩
  have hungranted : q.progress.ungranted = some order := by rw [ho]; rfl
  rw [grantPort, port_countGrant, port_disturb, hhead]
  simp only [ho, grantWrite, port_countGrant, port_disturb, replace_ungranted _ hq hb hungranted, Option.toList_none, List.append_nil]
  rw [granted_eq]
  cases port <;> rfl

/-- R155: the grant of a port's read. -/
theorem grantPort_read (ho : q.progress = .readTaken order) :
    let read := (List.range q.request.count).map (fun i => (s.dram.disturbAll us).readChecked (firstAddr q.request / 4 + i))
    ∃ t, grantTo rq us (grantPort port rq) s = .next t ∧
      PortGranted port rq .read (firstAddr q.request) (read.map (fun w => w.2))
        { s.port port with
          queue := before ++ { q with
            progress := .readGranted order (read.map (fun w => w.1)) (read.any (fun w => decide (w.2 = .failed))) 0 } :: after }
        (s.dram.disturbAll us) s t := by
  refine ⟨_, grantTo_next hg, ⟨?_⟩⟩
  have hungranted : q.progress.ungranted = some order := by rw [ho]; rfl
  rw [grantPort, port_countGrant, port_disturb, hhead]
  simp only [ho, grantRead, port_countGrant, port_disturb, replace_ungranted _ hq hb hungranted, becomes, Option.toList_some,
    List.append_assoc, List.singleton_append]
  rw [granted_eq]
  cases port <;> rfl

end PortGrants

/-- The grant of a port's burst, where takes run. -/
theorem portGrant_eq (port : Port) (us : List Upset) {s : State} (hp : s.phase = .running) :
    exec (match port with | .capture => .captureBurstGrant us | .system => .systemBurstGrant us) s =
      grantTo (match port with | .capture => .capture | .system => .system) us
        (grantPort port (match port with | .capture => .capture | .system => .system)) s := by
  cases port with
  | capture => rfl
  | system => exact if_pos hp

theorem other_ne (port : Port) : (match port with | .capture => .system | .system => .capture) ≠ port := by
  cases port <;> decide

/-- Settles O47. -/
theorem grantedWriteReachesDram : Obligations.GrantedWriteReachesDram := by
  intro port us q order ws before after s hp hwf hg hhead ho hq hb
  obtain ⟨t, ht, hgrant⟩ := grantPort_write (us := us) hg hhead hq hb ho
  refine ⟨t, (portGrant_eq port us hp).trans ht, hgrant.dram_eq, fun a ha => ?_, hgrant.port_eq, hgrant.checks, hgrant.frame,
    hgrant.other (other_ne port)⟩
  rw [hgrant.dram_eq]
  refine Memory.readByte_writeBurst_of_outside _ _ _ (Memory.disturbAll_wf us hwf) ?_
  rwa [Nat.mul_add, firstAddr_mul]

/-- Settles O48. -/
theorem grantedReadTakesItsWordsFromDram : Obligations.GrantedReadTakesItsWordsFromDram := by
  intro port us q order before after s hp hg hhead ho hq hb
  obtain ⟨t, ht, hgrant⟩ := grantPort_read (us := us) hg hhead hq hb ho
  exact ⟨t, (portGrant_eq port us hp).trans ht, hgrant.port_eq, hgrant.checks, hgrant.dram_eq, hgrant.frame,
    hgrant.other (other_ne port)⟩

/-! ### The write-before-read rule (R150, R152) -/

theorem not_overlaps {w : PendingWrite} {first past : Nat} (h : w.overlaps first past = false) : w.past ≤ first ∨ past ≤ w.first := by
  simp only [PendingWrite.overlaps, Bool.and_eq_false_iff, decide_eq_false_iff_not, Nat.not_lt] at h
  exact h.symm

theorem not_deviceBlocked {s : State} {b : Burst} (h : s.deviceBlocked b = false) :
    ∀ w ∈ s.pendingWrites, w.past ≤ b.addr ∨ b.addr + 4 * b.count ≤ w.first := fun w hw =>
  not_overlaps (Bool.eq_false_iff.mpr (List.any_eq_false.mp h w hw))

theorem not_portBlocked {s : State} {order first past : Nat} (h : s.portBlocked order first past = false) :
    ∀ w ∈ s.pendingWrites, w.order < order → w.past ≤ first ∨ past ≤ w.first := by
  intro w hw hlt
  have hblock := Bool.eq_false_iff.mpr (List.any_eq_false.mp h w hw)
  rw [decide_eq_true hlt, Bool.true_and] at hblock
  exact not_overlaps hblock

/-- R152: the head read of a port that waits is not blocked. -/
theorem portWaiting_read {s : State} {p : PortState} {q : QueuePosition} {order : Nat} (hw : s.portWaiting p = true)
    (hhead : p.head = some q) (ho : q.progress = .readTaken order) :
    s.portBlocked order (firstAddr q.request) (endAddr q.request) = false := by
  simpa only [State.portWaiting, hhead, State.headWaiting, ho, Bool.not_eq_true'] using hw

/-- Settles O43: the requester granted waits, and what it presents is not blocked. -/
theorem grantedReadsWaitForEarlierWrites : Obligations.GrantedReadsWaitForEarlierWrites := by
  intro s
  refine ⟨fun port q order hp hg hhead ho => not_portBlocked (portWaiting_read (p := s.port port) ?_ hhead ho),
    fun n b hg hpresented => ?_, fun l role b hg hpresented => ?_⟩
  · have hwaiting := grantee_waiting hg
    cases port with
    | capture => exact (Bool.and_eq_true _ _ ▸ hwaiting : _ ∧ _).2
    | system =>
      have hsystem := (Bool.and_eq_true _ _ ▸ hwaiting : _ ∧ s.systemWaiting = true).2
      rw [State.systemWaiting, hp] at hsystem
      exact hsystem
  · have hwaiting := (Bool.and_eq_true _ _ ▸ grantee_waiting hg : _ ∧ s.fillWaiting = true).2
    simp only [State.fillWaiting, hpresented, Bool.not_eq_true'] at hwaiting
    exact not_deviceBlocked hwaiting
  · have hwaiting := (Bool.and_eq_true _ _ ▸ grantee_waiting hg : _ ∧ s.probeWaiting = true).2
    simp only [State.probeWaiting, hpresented, Bool.and_eq_true, decide_eq_true_eq, Bool.not_eq_true'] at hwaiting
    exact ⟨hwaiting.1, not_deviceBlocked hwaiting.2⟩

/-! ### Refresh (R157, R158) -/

theorem refreshAddition_below {s : State} (h : s.memPort.refreshPending < 8) :
    refreshAddition s = { s with memPort := { s.memPort with refreshPending := s.memPort.refreshPending + 1 } } :=
  if_pos h

/-- R157: at 8 an addition is lost with REFRESH_MISSED. -/
theorem refreshAddition_full {s : State} (h : s.memPort.refreshPending = 8) (hp : s.phase ≠ .asserted) :
    refreshAddition s = { s with
      cond := s.cond.occur 20
        ((Condition.refreshMissed s.settings.memory.coupled s.settings.memory.interval).record s.planner.frame) s.statusStands } := by
  rw [refreshAddition, if_neg (by rw [h]; decide), raise, if_neg hp]
  rfl

/-- Settles O49. -/
theorem refreshesArePendingUntilGranted : Obligations.RefreshesArePendingUntilGranted := by
  refine ⟨fun s hg => ?_, fun s _ hp => ⟨fun hmode => ⟨?_, fun hlt => ?_, fun hfull => ?_⟩,
    fun hmode => ⟨?_, fun hlt => ?_, fun hfull => ?_⟩⟩⟩
  · exact grantTo_next hg
  · exact if_neg (by rw [hmode]; exact Bool.false_ne_true)
  · rw [exec, execRefreshIntervalExpiry, if_neg (by rw [hmode]; exact Bool.false_ne_true), expireInterval,
      refreshAddition_below (s := { s with memPort := { s.memPort with intervalCount := 0 } }) hlt]
  · rw [exec, execRefreshIntervalExpiry, if_neg (by rw [hmode]; exact Bool.false_ne_true), expireInterval,
      refreshAddition_full (s := { s with memPort := { s.memPort with intervalCount := 0 } }) hfull hp, hmode]
    rfl
  · exact if_pos hmode
  · rw [exec, execRefreshReqEdge, if_pos hmode, refreshAddition_below hlt]
  · rw [exec, execRefreshReqEdge, if_pos hmode, refreshAddition_full hfull hp, hmode]

end Sys2Proof.Machine
end

section
/-! The report ring and the status block (chapter 11): what REPORT chooses, what its two grants write, and where. -/

namespace Sys2Proof.Machine

open Host (Outcome)

/-! ### The choice (R177) -/

theorem choice_record {u : ConditionUnit} (hq : u.queue ≠ []) (hi : u.writeIndex + 1 ≠ u.readIndex) : u.choice = some .record :=
  if_pos ⟨hq, hi⟩

theorem choice_status {u : ConditionUnit} (hq : u.queue = [] ∨ u.writeIndex + 1 = u.readIndex) (hp : u.statusPending = true) :
    u.choice = some .status := by
  rw [ConditionUnit.choice, if_neg (fun h => hq.elim h.1 h.2), if_pos hp]

theorem choice_record_iff (u : ConditionUnit) :
    u.choice = some .record ↔ u.queue ≠ [] ∧ u.writeIndex + 1 ≠ u.readIndex := by
  refine ⟨fun h => ?_, fun h => choice_record h.1 h.2⟩
  unfold ConditionUnit.choice at h
  split at h
  next hrec => exact hrec
  next => split at h <;> cases h

/-- Where REPORT has chosen nothing, it chooses c exactly where c is its choice. -/
theorem chooseReport_eq {s : State} (hp : s.phase ≠ .asserted) (hs : s.statusStands = true) (hc : s.cond.chosen = none)
    (c : ReportChoice) :
    chooseReport c s = if s.cond.choice = some c then { s with cond := { s.cond with chosen := some c } } else s := by
  have hpresented : s.cond.presented = s.cond.choice := by rw [ConditionUnit.presented, hc]
  simp only [chooseReport, hpresented, ne_eq, hp, not_false_eq_true, hs, true_and]

/-- Settles O52. -/
theorem reportChoosesTheOldestRecordFirst : Obligations.ReportChoosesTheOldestRecordFirst := by
  intro s hp hs hc
  have hchoose := chooseReport_eq hp hs hc
  refine ⟨fun hq hi => ?_, fun hq hpend => ?_⟩
  · have hchoice := choice_record hq hi
    refine ⟨?_, ?_⟩ <;> simp only [exec, execRecordBurstGrant, execStatusBlockGrant, hchoose, hchoice]
    · rfl
    · rfl
  · have hchoice := choice_status hq hpend
    refine ⟨?_, ?_⟩ <;> simp only [exec, execRecordBurstGrant, execStatusBlockGrant, hchoose, hchoice]
    · rfl
    · rfl

/-! ### The grants (R176 to R178) -/

/-- R143: the base of the STATUS window is that of a window, or 0. -/
theorem statusBase_aligned {s : State} (h : s.windowsOk) : s.statusBase % 65536 = 0 := by
  unfold State.statusBase State.window
  split
  next w hw =>
    have hkind : w.kind = .status := by simpa using List.find?_some hw
    exact h w (List.mem_of_find?_eq_some hw) (by rw [hkind]; decide)
  next => rfl

theorem ringAddress_mul {s : State} (h : s.windowsOk) (p : BitVec 6) : 4 * (s.ringAddress p / 4) = s.ringAddress p := by
  have hbase := statusBase_aligned h
  rw [State.ringAddress]
  omega

/-- REPORT's grant of what it presents: its own work over the starvation counts of the grant. -/
theorem grantReport_next {c : ReportChoice} {act : State → State} {s : State} (hg : s.grantee = some .report)
    (hc : s.cond.presented = some c) :
    grantReport c act s =
      .next (act { s with memPort := { s.memPort with starvation := (s.countGrant .report).memPort.starvation } }) := by
  rw [grantReport, if_pos hc, grantTo_next hg, granted_eq]
  rfl

theorem grantReport_stands {c : ReportChoice} {act : State → State} {s : State}
    (h : ¬ (s.cond.presented = some c ∧ s.grantee = some .report)) : grantReport c act s = .next s := by
  unfold grantReport grantTo
  split
  next hc =>
    split
    next hg => exact absurd ⟨hc, hg⟩ h
    next => rfl
  next => rfl

/-- R177: the grant of the oldest record. -/
theorem grantRecord_cons {s : State} {record : List Word} {rest : List (List Word)} (hq : s.cond.queue = record :: rest) :
    grantRecord s = { s with
      dram := s.dram.writeWhole (s.ringAddress (s.cond.writeIndex + 1) / 4) record
      cond := { s.cond with queue := rest, writeIndex := s.cond.writeIndex + 1, chosen := none, statusPending := true } } := by
  unfold grantRecord
  rw [hq]
  simp only [ConditionUnit.recordGranted, hq, List.drop_one, List.tail_cons]

/-- R177: a record presented has a position other than the read index. -/
theorem presented_record {u : ConditionUnit} (h : u.ringOk) (hp : u.presented = some .record) :
    u.queue ≠ [] ∧ u.writeIndex + 1 ≠ u.readIndex := by
  unfold ConditionUnit.presented at hp
  split at hp
  next c hc =>
    cases hp
    exact h hc
  next => exact (choice_record_iff u).mp hp

/-- R176: two ring positions share no byte. -/
theorem ringAddress_apart (s : State) {p q : BitVec 6} (h : p ≠ q) {i : Nat} (hi : i < 32) :
    s.ringAddress q + i < s.ringAddress p ∨ s.ringAddress p + 32 ≤ s.ringAddress q + i := by
  have hne : p.toNat ≠ q.toNat := fun e => h (BitVec.eq_of_toNat_eq e)
  simp only [State.ringAddress]
  omega

/-- Settles O53. -/
theorem recordGrantWritesTheNextRingPosition : Obligations.RecordGrantWritesTheNextRingPosition := by
  refine ⟨fun record rest s hwf hg hpres hq hrec hwin => ?written, fun s t hwf hring hrec hwin ht i hi => ?kept⟩
  case written =>
    have hlen : record.length = 8 := hrec record (hq ▸ List.mem_cons_self)
    have haddr := ringAddress_mul hwin (s.cond.writeIndex + 1)
    refine ⟨_, (grantReport_next hg hpres).trans (congrArg Outcome.next (grantRecord_cons hq)), fun i hi => ?_, fun a ha => ?_, rfl, rfl⟩
    · exact congrArg Prod.fst (Memory.readChecked_writeWhole _ record i hwf (by omega))
    · refine Memory.readByte_writeWhole_of_outside _ _ _ hwf ?_
      have hout : a < s.ringAddress (s.cond.writeIndex + 1) ∨ s.ringAddress (s.cond.writeIndex + 1) + 32 ≤ a := ha
      change a < 4 * (s.ringAddress (s.cond.writeIndex + 1) / 4) ∨ 4 * (s.ringAddress (s.cond.writeIndex + 1) / 4 + record.length) ≤ a
      omega
  case kept =>
    by_cases hgrant : s.cond.presented = some .record ∧ s.grantee = some .report
    · obtain ⟨hne, hindex⟩ := presented_record hring hgrant.1
      obtain ⟨record, rest, hq⟩ := List.exists_cons_of_ne_nil hne
      have hlen : record.length = 8 := hrec record (hq ▸ List.mem_cons_self)
      have haddr := ringAddress_mul hwin (s.cond.writeIndex + 1)
      have hapart := ringAddress_apart s hindex hi
      have hnext := (grantReport_next hgrant.2 hgrant.1).trans (congrArg Outcome.next (grantRecord_cons hq))
      cases ht.symm.trans hnext
      refine Memory.readByte_writeWhole_of_outside _ _ _ hwf ?_
      change s.ringAddress s.cond.readIndex + i < 4 * (s.ringAddress (s.cond.writeIndex + 1) / 4) ∨
        4 * (s.ringAddress (s.cond.writeIndex + 1) / 4 + record.length) ≤ s.ringAddress s.cond.readIndex + i
      omega
    · cases ht.symm.trans (grantReport_stands hgrant)
      rfl

/-! ### The status block (section 11.6) -/

theorem flag_mul (b : Bool) (n : Nat) : flag b * n = if b then n else 0 := by
  cases b
  · exact Nat.zero_mul n
  · exact Nat.one_mul n

theorem statusBlock_length (s : State) (n : Word) : (statusBlock s n).length = 32 := rfl

/-- No word of the block reads a starvation count. -/
theorem statusBlock_starvation (s : State) (v : Starvation) (n : Word) :
    statusBlock { s with memPort := { s.memPort with starvation := v } } n = statusBlock s n := rfl

/-- R178: the grant of the status block, over the starvation counts of the grant. -/
theorem grantStatus_granted (s : State) (v : Starvation) :
    grantStatus { s with memPort := { s.memPort with starvation := v } } = { s with
      dram := s.dram.writeWhole (s.statusBase / 4) (statusBlock s (s.cond.blockNumber + 1))
      cond := { s.cond with statusPending := false, blockNumber := s.cond.blockNumber + 1, chosen := none }
      memPort := { s.memPort with starvation := v } } := by
  rw [grantStatus, statusBlock_starvation]
  rfl

/-- Section 11.6: the block's words past its fifteenth are zero. -/
theorem getD_append_zeros (l : List Word) (n i : Nat) : (l ++ List.replicate n 0).getD i 0 = l.getD i 0 := by
  simp only [List.getD_eq_getElem?_getD, List.getElem?_append]
  split
  next => rfl
  next h =>
    rw [List.getElem?_eq_none (Nat.not_lt.mp h), List.getElem?_replicate]
    split <;> rfl

/-- Settles O54. -/
theorem statusGrantWritesTheBlock : Obligations.StatusGrantWritesTheBlock := by
  intro s flagOf requester transfer firstFault acquisition lines mode method offset plan hwf hg hpres hwin
  have hbase := statusBase_aligned hwin
  have hlen := statusBlock_length s (s.cond.blockNumber + 1)
  refine ⟨_, (grantReport_next hg hpres).trans (congrArg Outcome.next (grantStatus_granted s _)), fun i hi => ?words,
    fun a ha => ?outside, rfl, rfl⟩
  case words =>
    rw [Memory.readChecked_writeWhole _ _ _ hwf (hlen.symm ▸ hi), statusBlock, getD_append_zeros]
    have hfault : firstFaultWord s.memPort.firstFault = word firstFault.1 ∧ firstFaultAddress s.memPort.firstFault = firstFault.2 := by
      simp only [firstFault]
      cases s.memPort.firstFault with
      | none => exact ⟨rfl, rfl⟩
      | some f =>
        refine ⟨?_, rfl⟩
        simp only [firstFaultWord, flag_mul]
        cases f.requester <;> cases f.transfer <;> rfl
    have hacq : acquisitionWord s = word (acquisition + lines % 2 ^ 9 * 2 ^ 16) := by
      simp only [acquisitionWord, State.knownL, acquisition, lines]
      cases s.settings.ingest <;> cases s.monitor.acquisition <;> rfl
    have hcadence : cadenceWord s.cadence = word (mode + s.cadence.c22 % 2 ^ 6 * 2 ^ 8 + s.cadence.episode % 2 ^ 16 * 2 ^ 16) := by
      simp only [cadenceWord, mode]
      cases s.cadence.mode <;> rfl
    have hplan : planWord s.planner.plan = word plan := by
      simp only [plan]
      cases s.planner.plan with
      | none => rfl
      | some p =>
        simp only [planWord, flag_mul]
        cases p.method <;> cases p.partner <;> rfl
    have hanchor : anchorWord s.planner.plan = match s.planner.plan.bind (fun p => p.anchor) with
        | some a => a.field
        | none => 0 := by
      unfold anchorWord
      cases s.planner.plan.bind (fun p => p.anchor) <;> rfl
    have hpartner : partnerWord s.planner.plan = match s.planner.plan.bind (fun p => p.partner) with
        | some a => a.field
        | none => 0 := by
      unfold partnerWord
      cases s.planner.plan.bind (fun p => p.partner) <;> rfl
    rw [hfault.1, hfault.2, hacq, hcadence, hplan, hanchor, hpartner]
    rfl
  case outside =>
    refine Memory.readByte_writeWhole_of_outside _ _ _ hwf ?_
    rw [hlen]
    omega

end Sys2Proof.Machine
end

section
/-! The reload of the pending copy (R172): its grants, its returns, and its end with the hold release (R164). -/

namespace Sys2Proof.Machine

open Host (Outcome)

/-! ### The grant of a reload burst -/

/-- R149, R172: the next burst of the reload as a word index of DRAM. -/
theorem reloadAddr_div (s : State) (n : Nat) : (s.pageBase + 128 * n) / 4 = s.pageBase / 4 + 32 * n := by
  have hbase : s.pageBase = s.straps.cpage.toNat * 16777216 := rfl
  omega

/-- R172: the words that a reload burst reads, with their checks. -/
def State.reloadRead (s : State) (us : List Upset) (r : Reload) : List (Word × CheckResult) :=
  (List.range 32).map (fun i => (s.dram.disturbAll us).readChecked (s.pageBase / 4 + 32 * r.granted + i))

/-- What the grant of a reload burst leaves before its check report. -/
def State.reloadGranted (s : State) (us : List Upset) (r : Reload) : State :=
  { s with
    dram := s.dram.disturbAll us
    memPort := { s.memPort with starvation := (s.countGrant .system).memPort.starvation }
    phase := .reloading { r with
      granted := r.granted + 1
      inFlight := r.inFlight ++ [(s.reloadRead us r).map reloadWord] } }

theorem reloadGrant_next {us : List Upset} {r : Reload} {s : State} (hp : s.phase = .reloading r) (hlt : r.granted < 32)
    (hg : s.grantee = some .system) :
    exec (.reloadBurstReturn (.grant us)) s = .next (raiseChecks .system .reload (s.pageBase + 128 * r.granted)
      ((s.reloadRead us r).map Prod.snd) (s.reloadGranted us r)) := by
  simp only [exec, execReloadBurstReturn, Phase.isReloading, if_true, grantTo_next hg, granted_eq, grantReload, hp, State.reloadBurst, hlt,
    State.readAt, Memory.readBurst, Config.burstWords, reloadAddr_div]
  rfl

/-- R155, R172: a word that fails its check is taken as zero, and CHECK_FAILED occurs. -/
theorem reloadGrant_grants {us : List Upset} {r : Reload} {s : State} (hp : s.phase = .reloading r) (hlt : r.granted < 32)
    (hg : s.grantee = some .system) : ∃ t, exec (.reloadBurstReturn (.grant us)) s = .next t ∧
      t.phase = (s.reloadGranted us r).phase ∧ t.dram = s.dram.disturbAll us ∧ t.settings = s.settings ∧
      ((∃ w ∈ s.reloadRead us r, w.2 = .failed) → t.cond.occurred.getLsbD 18 = true) ∧
      (let u := raiseChecks .system .reload (s.pageBase + 128 * r.granted) ((s.reloadRead us r).map Prod.snd)
          { s with memPort := { s.memPort with starvation := (s.countGrant .system).memPort.starvation } }
       t.cond = u.cond ∧ t.memPort = u.memPort) ∧
      t = { s with phase := t.phase, dram := t.dram, cond := t.cond, memPort := t.memPort } := by
  refine ⟨_, reloadGrant_next hp hlt hg, by simp, by simp [State.reloadGranted], by simp [State.reloadGranted], ?_, ?_, ?_⟩
  · rintro ⟨w, hw, hf⟩
    rw [raiseChecks_failed _ _ _ _ (hf ▸ List.mem_map_of_mem hw)]
    exact raise_bit _ (nofun : Phase.reloading _ ≠ .asserted) (by decide) rfl
  · have hphase : (s.reloadGranted us r).phase = .asserted ↔ s.phase = .asserted := by
      rw [hp]
      exact ⟨nofun, nofun⟩
    exact raiseChecks_granted _ _ _ _ hphase rfl rfl rfl rfl
  · rw [raiseChecks_eq]
    rfl

/-! ### The return of a reload burst -/

/-- R172 step 1: the words of a burst stand in the copy from its word index on, and the rest of the copy stands. -/
theorem sparseGet_copyBurst {copy : List (Nat × Word)} (n : Nat) (ws : List Word) (i : Nat) (h : sparseWf (0 : Word) copy) :
    sparseGet 0 (copyBurst copy n ws) i = if n ≤ i then ws.getD (i - n) (sparseGet 0 copy i) else sparseGet 0 copy i := by
  induction ws generalizing copy n with
  | nil => simp [copyBurst]
  | cons w ws ih =>
    rw [copyBurst, ih (n + 1) (sparseSet_wf _ _ h), sparseGet_set _ _ _ h]
    rcases Nat.lt_trichotomy i n with hlt | rfl | hgt
    · rw [if_neg (by omega), if_neg (by omega), if_neg (by omega)]
    · rw [if_neg (by omega), if_pos rfl, if_pos (Nat.le_refl _), Nat.sub_self, List.getD_cons_zero]
    · rw [if_pos (by omega), if_neg (by omega), if_pos (by omega), show i - n = i - (n + 1) + 1 by omega, List.getD_cons_succ]

/-- What the return of a reload burst leaves, before what the last one does besides. -/
def State.reloadReturned (s : State) (r : Reload) (words : List Word) (rest : List (List Word)) : State :=
  { s with
    phase := .reloading { r with returned := r.returned + 1, inFlight := rest }
    settings := { s.settings with copy := copyBurst s.settings.copy (32 * r.returned) words } }

theorem reloadReturned_at {s : State} {r : Reload} {words : List Word} {rest : List (List Word)}
    (h : sparseWf (0 : Word) s.settings.copy) (i : Nat) : (s.reloadReturned r words rest).settings.at (4 * i) =
      if 32 * r.returned ≤ i then words.getD (i - 32 * r.returned) (s.settings.at (4 * i)) else s.settings.at (4 * i) := by
  have hi : 4 * i / 4 = i := by omega
  simp only [State.reloadReturned, Settings.at, hi]
  exact sparseGet_copyBurst _ _ _ h

theorem reloadReturn_next {s : State} {r : Reload} {words : List Word} {rest : List (List Word)} (hp : s.phase = .reloading r)
    (hw : r.inFlight = words :: rest) : exec (.reloadBurstReturn .ret) s =
      .next (if 32 ≤ r.returned + 1 then reloadEnd (s.reloadReturned r words rest) else s.reloadReturned r words rest) := by
  simp only [exec, execReloadBurstReturn, returnReload, hp, hw]
  rfl

/-- Settles O6. -/
theorem releaseReloadsThePendingCopy : Obligations.ReleaseReloadsThePendingCopy := by
  refine ⟨fun d c s h => if_pos h, fun us r s hp hlt hg => ?_, fun r words rest s hp hw hlt hwf => ?_⟩
  · obtain ⟨t, hexec, hphase, hdram, hset, hfailed, hchecks, hframe⟩ := reloadGrant_grants hp hlt hg (us := us)
    refine ⟨t, hexec, ?_, hdram, hset, fun ⟨i, hi, hf⟩ => hfailed ⟨_, List.mem_map_of_mem (List.mem_range.mpr hi), hf⟩, ?_, hframe⟩
    · rw [hphase, State.reloadGranted, State.reloadRead, List.map_map]
      rfl
    · rw [State.reloadRead, List.map_map] at hchecks
      exact hchecks
  · exact ⟨_, (reloadReturn_next hp hw).trans (congrArg _ (if_neg (by omega))), rfl, reloadReturned_at hwf, rfl⟩

end Sys2Proof.Machine
end

section
/-! What the loads of the four groups leave (R143, R167 to R169), the hold release over them (R164), and the end of the reload. -/

namespace Sys2Proof.Machine

open Host (Outcome)

/-! ### The loads, field by field -/

/-- R167: a memory load writes the memory group, the memory port and the condition unit. -/
theorem loadMemory_eq (s : State) : loadMemory s = { s with
    settings := { s.settings with memory := s.settings.memoryGroup, memoryPending := false }
    memPort := (loadMemory s).memPort
    cond := (loadMemory s).cond } := by
  unfold loadMemory
  simp only
  split
  · rw [refreshAddition_eq, raiseAll_eq]
  · rw [raiseAll_eq]

/-- R169: an output load writes the output group and the condition unit. -/
theorem loadOutput_eq (s : State) : loadOutput s = { s with
    settings := (loadOutput s).settings
    cond := (loadOutput s).cond } := by
  unfold loadOutput
  simp only
  split
  · rfl
  · rw [raiseAll_eq]

/-- R169: an output load leaves the output group alone not pending. -/
theorem loadOutput_settings (s : State) : (loadOutput s).settings = { s.settings with
    output := (loadOutput s).settings.output, customRows := (loadOutput s).settings.customRows, outputPending := false } := by
  unfold loadOutput
  simp only
  split
  · rw [raise_settings]
  · rw [raiseAll_settings]

/-- R168: an ingest load leaves the ingest group alone not pending. -/
theorem loadIngest_settings (s : State) : (loadIngest s).settings = { s.settings with
    ingest := (loadIngest s).settings.ingest, ingestPending := false } := by
  unfold loadIngest
  split
  · simp only [refuseIngest, raise_settings]
  · simp only [installIngest_settings]

/-! ### No field FILLING and no plan -/

/-- R164: what lets a hold release load the ingest and the output group. -/
def State.unused (s : State) : Prop := s.history.filling = none ∧ s.planner.plan = none

theorem planToNone_unused {s : State} (h : s.unused) : (planToNone s).unused := by
  rw [(planToNone_eq s).1]
  refine ⟨?_, rfl⟩
  have hnone : ∀ r ∈ s.history.records, ¬ decide (r.state = .filling) = true := List.find?_eq_none.mp h.1
  simpa [History.filling, History.reference] using hnone

theorem geometryChange_unused (s : State) : (geometryChange s).unused := by
  rw [(geometryChange_eq s).1]
  exact ⟨rfl, rfl⟩

theorem loadWindow_unused {s : State} (h : s.unused) : (loadWindow s).unused := by
  have hring : ∀ {u : State} (b : Bool), u.unused → (if b then geometryChange u else u).unused := fun b hu => by
    cases b
    · exact hu
    · exact geometryChange_unused _
  have hout : ∀ {u : State} (b : Bool), u.unused → (if b then planToNone u else u).unused := fun b hu => by
    cases b
    · exact hu
    · exact planToNone_unused hu
  rw [loadWindow, raiseAll_eq]
  exact hout _ (hring _ h)

/-- R18: a stall expiry leaves the plan. -/
theorem expireStall_planner (s : State) : (expireStall s).planner = s.planner := by
  unfold expireStall
  simp only
  split
  · rw [(closeField_fields _ _).2.1, raise_planner]
  · split
    · rw [(endMeasurement_fields _).2.1, raise_planner]
    · rw [raise_planner]

theorem loadIngest_plan {s : State} (h : s.planner.plan = none) : (loadIngest s).planner.plan = none := by
  unfold loadIngest
  split
  · rw [refuseIngest, raise_planner]
    exact h
  · unfold installIngest
    simp only
    split
    · exact (geometryChange_unused _).2
    · unfold stallAtLoad
      split
      · rw [expireStall_planner, raiseAll_eq]
        exact h
      · rw [raiseAll_eq]
        exact h

/-! ### The hold release -/

theorem releaseMemory_settings (s : State) : (releaseMemory s).settings.memoryPending = false ∧ (s.unused → (releaseMemory s).unused) := by
  unfold releaseMemory
  split
  · rw [loadMemory_eq]
    exact ⟨rfl, id⟩
  · next h => exact ⟨Bool.eq_false_iff.mpr h, id⟩

theorem releaseWindow_settings (s : State) :
    (releaseWindow s).settings = { s.settings with windowPending := false } ∧ (s.unused → (releaseWindow s).unused) := by
  unfold releaseWindow
  split
  · exact ⟨(loadWindow_fields s).2, loadWindow_unused⟩
  · next h => exact ⟨by rw [← Bool.eq_false_iff.mpr h], id⟩

theorem releaseIngest_settings {s : State} (h : s.unused) : (releaseIngest s).settings = { s.settings with
    ingest := (releaseIngest s).settings.ingest, ingestPending := false } ∧ (releaseIngest s).planner.plan = none := by
  unfold releaseIngest
  split
  · exact ⟨loadIngest_settings s, loadIngest_plan h.2⟩
  · next hn =>
    have hpending : s.settings.ingestPending = false := Bool.eq_false_iff.mpr fun hp => hn ⟨hp, h.1⟩
    exact ⟨by rw [← hpending], h.2⟩

theorem releaseOutput_settings {s : State} (h : s.planner.plan = none) : (releaseOutput s).settings = { s.settings with
    output := (releaseOutput s).settings.output, customRows := (releaseOutput s).settings.customRows, outputPending := false } := by
  unfold releaseOutput
  split
  · exact loadOutput_settings s
  · next hn =>
    have hpending : s.settings.outputPending = false := Bool.eq_false_iff.mpr fun hp => hn ⟨hp, h⟩
    rw [← hpending]

/-- R164: a hold release with no field FILLING and no plan leaves no group pending. -/
theorem holdRelease_unused {s : State} (h : s.unused) : (holdRelease s).settings.memoryPending = false ∧
    (holdRelease s).settings.windowPending = false ∧ (holdRelease s).settings.ingestPending = false ∧
    (holdRelease s).settings.outputPending = false := by
  obtain ⟨hmemory, hu⟩ := releaseMemory_settings s
  obtain ⟨hwindow, hv⟩ := releaseWindow_settings (releaseMemory s)
  obtain ⟨hingest, hplan⟩ := releaseIngest_settings (hv (hu h))
  rw [holdRelease, releaseOutput_settings hplan, hingest, hwindow]
  exact ⟨hmemory, rfl, rfl, rfl⟩

/-- Settles O7. -/
theorem reloadEndLoadsOrHoldsTheGroups : Obligations.ReloadEndLoadsOrHoldsTheGroups := by
  intro r words rest s hp hw hlast hwf
  have hend : 32 ≤ r.returned + 1 := by omega
  have hat := reloadReturned_at (r := r) (words := words) (rest := rest) hwf
  rw [hlast] at hat
  refine ⟨{ s.reloadReturned r words rest with
      phase := .running
      settings := (s.reloadReturned r words rest).settings.allPending
      cond := { s.cond with mask := ((s.reloadReturned r words rest).settings.at 0x00C).extractLsb' 0 20 } }, _,
    (reloadReturn_next hp hw).trans (congrArg _ (if_pos hend)), hat, rfl, fun hzero => ?_, fun hheld => ?_⟩
  · exact ⟨if_pos (decide_eq_true hzero), fun hf hplan => by
      have hload : (s.reloadReturned r words rest).settings.holdZero = true := decide_eq_true hzero
      rw [reloadEnd, if_pos hload]
      exact holdRelease_unused ⟨hf, hplan⟩⟩
  · exact if_neg (fun hz => hheld (of_decide_eq_true hz))

end Sys2Proof.Machine
end

section
/-! A control-page write at its take (R161, R163): the copy, the pending flags, the immediate words, and the rows that take it. -/

namespace Sys2Proof.Machine

open Host (Outcome)

/-- R162: what a write touches of two adjoining ranges. -/
theorem touches_append (ws : List PageWord) {lo mid past : Nat} (hlo : lo ≤ mid) (hpast : mid ≤ past) :
    touches ws lo past = (touches ws lo mid || touches ws mid past) := by
  rw [Bool.eq_iff_iff, Bool.or_eq_true]
  simp only [touches, List.any_eq_true, Bool.and_eq_true, decide_eq_true_eq, ← exists_or, ← and_or_left]
  refine exists_congr fun w => and_congr_right fun _ => ?_
  omega

/-- R161 step 3: the state after the immediate words of a write, over a state that holds the copy it leaves. -/
theorem actImmediate_words (ws : List PageWord) (s : State) : actImmediate ws s = { s with
    memPort := { s.memPort with
      firstFault := if touches ws 0x004 0x008 = true ∧ (s.settings.at 0x004).getLsbD 31 = true then none else s.memPort.firstFault }
    cond := { s.cond with
      occurred := if touches ws 0x004 0x008 then s.cond.occurred &&& ~~~ (s.settings.at 0x004).extractLsb' 0 20 else s.cond.occurred
      readIndex := if touches ws 0x008 0x00C then (s.settings.at 0x008).extractLsb' 0 6 else s.cond.readIndex
      chosen := if touches ws 0x008 0x00C = true ∧ s.cond.chosen = some .record ∧
        s.cond.writeIndex + 1 = (s.settings.at 0x008).extractLsb' 0 6 then none else s.cond.chosen
      mask := if touches ws 0x00C 0x010 then (s.settings.at 0x00C).extractLsb' 0 20 else s.cond.mask
      statusPending := s.cond.statusPending || (s.statusStands && touches ws 0x004 0x010) } } := by
  rw [touches_append ws (show 0x004 ≤ 0x00C by decide) (show 0x00C ≤ 0x010 by decide),
    touches_append ws (show 0x004 ≤ 0x008 by decide) (show 0x008 ≤ 0x00C by decide)]
  exact actImmediate_eq _ _ _ s

section Immediate

variable {ws : List PageWord} (s : State)

theorem actImmediate_settings : (actImmediate ws s).settings = s.settings := by
  rw [actImmediate_words]

/-- R156, R163, R175: the clear word. -/
theorem actImmediate_clear (h : touches ws 0x004 0x008 = true) :
    (actImmediate ws s).cond.occurred = s.cond.occurred &&& ~~~ (s.settings.at 0x004).extractLsb' 0 20 ∧
      ((s.settings.at 0x004).getLsbD 31 = true → (actImmediate ws s).memPort.firstFault = none) ∧
      ((s.settings.at 0x004).getLsbD 31 = false → (actImmediate ws s).memPort.firstFault = s.memPort.firstFault) := by
  rw [actImmediate_words]
  exact ⟨if_pos h, fun hbit => if_pos ⟨h, hbit⟩, fun hbit => if_neg fun hc => Bool.eq_false_iff.mp hbit hc.2⟩

theorem actImmediate_noClear (h : ¬ touches ws 0x004 0x008 = true) :
    (actImmediate ws s).cond.occurred = s.cond.occurred ∧ (actImmediate ws s).memPort.firstFault = s.memPort.firstFault := by
  rw [actImmediate_words]
  exact ⟨if_neg h, if_neg fun hc => h hc.1⟩

/-- R163, R176: the report read index. -/
theorem actImmediate_readIndex (h : touches ws 0x008 0x00C = true) :
    (actImmediate ws s).cond.readIndex.toNat = (s.settings.at 0x008).toNat % 64 ∧
      (actImmediate ws s).cond.chosen =
        if s.cond.chosen = some .record ∧ s.cond.writeIndex + 1 = (actImmediate ws s).cond.readIndex then none else s.cond.chosen := by
  rw [actImmediate_words]
  simp only [h, if_true, true_and, and_true, BitVec.extractLsb'_toNat, Nat.shiftRight_zero]

theorem actImmediate_noReadIndex (h : ¬ touches ws 0x008 0x00C = true) :
    (actImmediate ws s).cond.readIndex = s.cond.readIndex ∧ (actImmediate ws s).cond.chosen = s.cond.chosen := by
  rw [actImmediate_words]
  exact ⟨if_neg h, if_neg fun hc => h hc.1⟩

/-- R163, R175: the report mask. -/
theorem actImmediate_mask :
    (touches ws 0x00C 0x010 = true → (actImmediate ws s).cond.mask = (s.settings.at 0x00C).extractLsb' 0 20) ∧
      (¬ touches ws 0x00C 0x010 = true → (actImmediate ws s).cond.mask = s.cond.mask) := by
  rw [actImmediate_words]
  exact ⟨fun h => if_pos h, fun h => if_neg h⟩

/-- R163: an immediate word schedules a status write. -/
theorem actImmediate_statusPending : (actImmediate ws s).cond.statusPending = true ↔
    s.cond.statusPending = true ∨ s.statusStands = true ∧ touches ws 0x004 0x010 = true := by
  rw [actImmediate_words]
  simp only [Bool.or_eq_true, Bool.and_eq_true]

/-- R163: the immediate words write the condition unit and the first-fault record alone. -/
theorem actImmediate_frame : (actImmediate ws s).cond = { s.cond with
      occurred := (actImmediate ws s).cond.occurred, mask := (actImmediate ws s).cond.mask
      readIndex := (actImmediate ws s).cond.readIndex, chosen := (actImmediate ws s).cond.chosen
      statusPending := (actImmediate ws s).cond.statusPending } ∧
    actImmediate ws s = { s with
      memPort := { s.memPort with firstFault := (actImmediate ws s).memPort.firstFault }, cond := (actImmediate ws s).cond } := by
  rw [actImmediate_words]
  exact ⟨rfl, rfl⟩

end Immediate

section PageTake

variable {before after : List QueuePosition} {q : QueuePosition} {words : List WriteWord} {s : State}

/-- R161: a control-page write as its position waits for its grant, with the copy and the flags it leaves. -/
def State.pageTaken (s : State) (before after : List QueuePosition) (q : QueuePosition) (words : List WriteWord) : State :=
  { s with
    takes := s.takes + 1
    system := { s.system with
      queue := before ++ { q with progress := .writeTaken s.takes words } :: after
      acks := s.system.acks ++ [{ tag := q.request.tag, body := .writeStatus .ok }] }
    settings := s.settings.write (pageWords s.pageBase q.request) }

theorem takePageWrite_eq (hq : s.system.queue = before ++ q :: after) (hb : ∀ p ∈ before, s.systemTurn p = false)
    (ht : s.systemTurn q = true) (hw : q.request.body = .write words) :
    takePageWrite q.request s = actHold (pageWords s.pageBase q.request)
      (actImmediate (pageWords s.pageBase q.request) (s.pageTaken before after q words)) := by
  simp only [takePageWrite, settingsWrite, passRequest, State.port, take_at _ _ _ hq hb ht, passedProgress_eq, passedAck_eq, hw,
    becomes, Option.toList_some, List.append_assoc, List.singleton_append]
  rfl

/-- R161: each row takes the write that stands next where it names what the write touches. -/
theorem takePageRow_next (row : List PageWord → Settings → Bool) (hp : s.phase = .running)
    (hq : s.system.queue = before ++ q :: after) (hb : ∀ p ∈ before, s.systemTurn p = false) (ht : s.systemTurn q = true)
    (hj : s.judge .system q.request = .toSettings)
    (hrow : row (pageWords s.pageBase q.request) (s.settings.write (pageWords s.pageBase q.request)) = true) :
    takePageRow row s = .next (takePageWrite q.request s) := by
  have hn : s.nextSystem = some q := by
    rw [State.nextSystem, hq]
    exact find_at hb ht
  simp only [takePageRow, State.nextPageWrite, hp, if_true, hn, hj, hrow]

/-- R161 step 1: the bytes of the copy that a write leaves. -/
theorem write_byte {first : Nat} (hwf : sparseWf (0 : Word) s.settings.copy) (i j : Nat) (hj : j < 4) :
    ((s.settings.write ((words.zipIdx).map fun w => { offset := first + 4 * w.2, word := w.1 })).at (4 * i)).extractLsb' (8 * j) 8 =
      match words[i - first / 4]? with
      | some w => if first / 4 ≤ i ∧ w.enables.getLsbD j = true then w.data.extractLsb' (8 * j) 8
          else (s.settings.at (4 * i)).extractLsb' (8 * j) 8
      | none => (s.settings.at (4 * i)).extractLsb' (8 * j) 8 := by
  have hi : 4 * i / 4 = i := by omega
  simp only [Settings.at, Settings.write, List.foldl_map, hi]
  exact copyWords_byte first words 0 s.settings.copy hwf i j hj

end PageTake

/-- Settles O55. -/
theorem pageWritesActAtTheirTake : Obligations.PageWritesActAtTheirTake := by
  intro before after q words s hp hq hb ht hj hw hwf first touched
  have hwords := pageWords_eq s.pageBase q.request words hw (toSettings_inPage hj)
  have htouch : ∀ lo past, touched lo past ↔ touches (pageWords s.pageBase q.request) lo past = true := fun lo past => by
    rw [hwords]
    exact (touches_iff first words lo past).symm
  have htake := takePageWrite_eq hq hb ht hw
  have hrow := fun row => takePageRow_next row hp hq hb ht hj
  let v := s.pageTaken before after q words
  have hset := actImmediate_settings (ws := pageWords s.pageBase q.request) v
  obtain ⟨hcond, hframe⟩ := actImmediate_frame (ws := pageWords s.pageBase q.request) v
  have hhold : (actImmediate (pageWords s.pageBase q.request) v).settings.holdZero = true ↔ v.settings.at 0x000 = 0 := by
    rw [hset]
    exact decide_eq_true_iff
  have hbytes := fun i j => write_byte (s := s) (words := words) (first := first) hwf i j
  have hplain : touches (pageWords s.pageBase q.request) 0x004 0x008 = true → (v.settings.at 0x004).extractLsb' 0 20 = 0 →
      (v.settings.at 0x004).getLsbD 31 = false → plainWords (pageWords s.pageBase q.request) v.settings = true := fun h hbits hbit => by
    have hclear : clearsBits (pageWords s.pageBase q.request) v.settings = false :=
      Bool.and_eq_false_iff.mpr (.inr (decide_eq_false (not_not_intro hbits)))
    have hfault : clearsFault (pageWords s.pageBase q.request) v.settings = false := Bool.and_eq_false_iff.mpr (.inr hbit)
    rw [plainWords, h, hclear, hfault]
    exact Bool.or_true _
  rw [← hwords] at hbytes
  simp only [htouch]
  refine ⟨actImmediate (pageWords s.pageBase q.request) v, takePageWrite q.request s, ?_⟩
  rw [hset]
  exact ⟨hbytes, Bool.or_eq_true_iff, Bool.or_eq_true_iff, Bool.or_eq_true_iff,
    by simp only [v, State.pageTaken, Settings.write, Bool.or_eq_true, or_assoc],
    actImmediate_clear v, actImmediate_noClear v, actImmediate_readIndex v, actImmediate_noReadIndex v, (actImmediate_mask v).1,
    (actImmediate_mask v).2, actImmediate_statusPending v, hcond, hframe,
    fun h hzero => htake.trans (if_pos ⟨h, hhold.mpr hzero⟩), fun hn => htake.trans (if_neg fun h => hn ⟨h.1, hhold.mp h.2⟩),
    hrow (fun ws _ => touches ws 0x000 0x004),
    fun h hbits => hrow clearsBits (Bool.and_eq_true_iff.mpr ⟨h, decide_eq_true hbits⟩),
    fun h hbit => hrow clearsFault (Bool.and_eq_true_iff.mpr ⟨h, hbit⟩),
    hrow (fun ws _ => touches ws 0x008 0x00C), hrow (fun ws _ => touches ws 0x00C 0x010),
    fun h => hrow plainWords (Bool.or_eq_true_iff.mpr (.inl h)), fun h hbits hbit => hrow plainWords (hplain h hbits hbit)⟩

end Sys2Proof.Machine
end

section
/-! The loads of the memory and the window group (R143, R158, R167), as a hold release makes them (R164). -/

namespace Sys2Proof.Machine

open Host (Outcome)

/-! ### The memory group (R158, R167) -/

theorem clampInterval_eq (n : Nat) : clampInterval n = if n < 100 then 100 else if 65535 < n then 65535 else n := by
  rw [clampInterval, clampNat]
  (repeat' split) <;> omega

/-- R167: the interval is adjusted where it stands outside its range. -/
theorem memoryConditions_eq (s : Settings) (base : Nat) : s.memoryConditions base =
    if (s.at 0x014).toNat < 100 ∨ 65535 < (s.at 0x014).toNat then
      [.settingAdjusted (base + 0x014) (s.at 0x014).toNat (clampInterval (s.at 0x014).toNat)] else [] := by
  have hstands : (s.at 0x014).toNat = clampInterval (s.at 0x014).toNat ↔
      ¬ ((s.at 0x014).toNat < 100 ∨ 65535 < (s.at 0x014).toNat) := by
    rw [clampInterval_eq]
    (repeat' split) <;> omega
  rw [Settings.memoryConditions]
  simp only [hstands, ite_not]

/-- R158: both modes are DECOUPLED and the interval changes to one that the count has reached. -/
abbrev additionDue (old new : MemoryGroup) (count : Nat) : Prop :=
  old.coupled = false ∧ new.coupled = false ∧ new.interval ≠ old.interval ∧ new.interval ≤ count

theorem loadAdds_iff (old new : MemoryGroup) (count : Nat) : loadAdds old new count = true ↔ additionDue old new count := by
  simp only [loadAdds, additionDue, Bool.and_eq_true, Bool.not_eq_true', decide_eq_true_eq, and_assoc, ne_comm]

theorem timerAfterLoad_eq (old new : MemoryGroup) (count : Nat) :
    timerAfterLoad old new count = if old.coupled = true ∨ new.coupled = true ∨ additionDue old new count then 0 else count := by
  unfold timerAfterLoad
  by_cases ho : old.coupled = true <;> by_cases hn : new.coupled = true <;> simp [ho, hn, additionDue, eq_comm]

/-- R158, R167: the state after the load of the memory group, before its refresh addition. -/
def State.memoryLoaded (s : State) : State :=
  raiseAll (s.settings.memoryConditions s.pageBase)
    { s with
      settings := { s.settings with memory := s.settings.memoryGroup, memoryPending := false }
      memPort := { s.memPort with
        intervalCount := timerAfterLoad s.settings.memory s.settings.memoryGroup s.memPort.intervalCount } }

theorem loadMemory_noAddition {s : State}
    (h : ¬ additionDue s.settings.memory s.settings.memoryGroup s.memPort.intervalCount) : loadMemory s = s.memoryLoaded :=
  if_neg (mt (loadAdds_iff _ _ _).mp h)

theorem loadMemory_addition {s : State} (h : additionDue s.settings.memory s.settings.memoryGroup s.memPort.intervalCount) :
    loadMemory s = refreshAddition s.memoryLoaded :=
  if_pos ((loadAdds_iff _ _ _).mpr h)

theorem loadMemory_settings (s : State) :
    (loadMemory s).settings = { s.settings with memory := s.settings.memoryGroup, memoryPending := false } := by
  rw [loadMemory_eq]

/-- R167: an interval outside its range sets the bit of SETTING_ADJUSTED. -/
theorem loadMemory_adjusts {s : State} (hp : s.phase ≠ .asserted)
    (h : (s.settings.at 0x014).toNat < 100 ∨ 65535 < (s.settings.at 0x014).toNat) :
    (loadMemory s).cond.occurred.getLsbD 15 = true := by
  have hbit : s.memoryLoaded.cond.occurred.getLsbD 15 = true := by
    rw [State.memoryLoaded, memoryConditions_eq, if_pos h]
    exact raise_bit _ hp (by decide) rfl
  by_cases hdue : additionDue s.settings.memory s.settings.memoryGroup s.memPort.intervalCount
  · rw [loadMemory_addition hdue]
    unfold refreshAddition
    split
    · exact hbit
    · exact (raise_occurs ..).bits 15 hbit
  · rw [loadMemory_noAddition hdue]
    exact hbit

/-! ### The window group (R143) -/

/-- R143: each entry is installed after those before it. -/
theorem installEntries_getElem (d p : Nat) (before es : List WindowEntry) (i : Nat) :
    (installEntries d p before es)[i]? =
      es[i]?.map (installEntry d p (before ++ ((installEntries d p before es).map Prod.fst).take i)) := by
  induction es generalizing before i with
  | nil => rfl
  | cons e es ih =>
    cases i with
    | zero => simp [installEntries]
    | succ i =>
      rw [installEntries, List.getElem?_cons_succ, ih, List.getElem?_cons_succ, List.map_cons, List.take_succ_cons,
        List.append_assoc, List.singleton_append]

/-- R143: the checks that a written entry passes after the entries before it. -/
def entryPasses (d p : Nat) (before : List WindowEntry) (e : WindowEntry) : Prop :=
  align64K e.size ≠ 0 ∧ align64K e.base + align64K e.size ≤ 2 ^ 32 ∧
    (align64K e.base + align64K e.size ≤ p ∨ p + 4096 ≤ align64K e.base) ∧
    (e.kind ≠ .output → align64K e.base + align64K e.size ≤ d) ∧ (e.kind ≠ .guard → ∀ b ∈ before, b.kind ≠ e.kind)

theorem unique_iff (k : WindowKind) : k.unique = true ↔ k ≠ .off ∧ k ≠ .guard := by
  cases k <;> decide

theorem installEntry_passes {d p : Nat} {before : List WindowEntry} {e : WindowEntry} (hk : e.kind ≠ .off)
    (h : entryPasses d p before e) :
    (installEntry d p before e).1 = { base := align64K e.base, size := align64K e.size, kind := e.kind } := by
  obtain ⟨hsize, hend, hpage, hdram, hone⟩ := h
  have hunique : ¬ (e.kind.unique = true ∧ (before.any fun b => decide (b.kind = e.kind)) = true) := by
    rw [unique_iff, List.any_eq_true]
    rintro ⟨⟨-, hg⟩, b, hb, hbk⟩
    exact hone hg b hb (of_decide_eq_true hbk)
  simp only [installEntry, hk, hsize, hunique, if_false, show ¬ 4294967296 < align64K e.base + align64K e.size by omega,
    show ¬ (align64K e.base < p + 4096 ∧ p < align64K e.base + align64K e.size) by omega,
    show ¬ (e.kind ≠ .output ∧ d < align64K e.base + align64K e.size) from fun hc => absurd (hdram hc.1) (by omega)]
  split
  · next heq => exact heq.symm
  · rfl

theorem installEntry_fails {d p : Nat} {before : List WindowEntry} {e : WindowEntry}
    (h : e.kind = .off ∨ ¬ entryPasses d p before e) : (installEntry d p before e).1.kind = .off := by
  refine Classical.byContradiction fun hkind => ?_
  have hoff : e.kind ≠ .off := fun he => hkind (by simp only [installEntry, he, if_true])
  refine h.elim hoff fun hfails => hfails ?_
  simp only [installEntry, hoff, if_false] at hkind
  split at hkind
  · exact absurd rfl hkind
  next hsize =>
  split at hkind
  · exact absurd rfl hkind
  next hend =>
  split at hkind
  · exact absurd rfl hkind
  next hpage =>
  split at hkind
  · exact absurd rfl hkind
  next hdram =>
  split at hkind
  · exact absurd rfl hkind
  next hone =>
  refine ⟨hsize, by omega, by omega, fun ho => Nat.le_of_not_lt fun hlt => hdram ⟨ho, hlt⟩, fun hg b hb hbk => hone ⟨?_, ?_⟩⟩
  · exact (unique_iff _).mpr ⟨hoff, hg⟩
  · exact List.any_eq_true.mpr ⟨b, hb, decide_eq_true hbk⟩

theorem align64K_mod (n : Nat) : align64K n % 65536 = 0 := by
  rw [align64K]
  omega

/-- R143: the windows of a load, each after those before it. -/
theorem loadWindow_getElem (s : State) {i : Nat} (hi : i < 8) : (loadWindow s).windows[i]? =
    some (installEntry s.dramSize s.pageBase ((loadWindow s).windows.take i) (s.settings.windowEntry i)).1 := by
  have hentry : s.settings.windowEntries[i]? = some (s.settings.windowEntry i) := by
    rw [Settings.windowEntries, List.getElem?_map, List.getElem?_range hi]
    rfl
  rw [(loadWindow_fields s).1, List.getElem?_map, State.installed, installEntries_getElem, hentry]
  rfl

/-- R143: every window of a load comes from its entry. -/
theorem mem_loadWindow {s : State} {e : WindowEntry} (h : e ∈ (loadWindow s).windows) : ∃ i < 8,
    (loadWindow s).windows[i]? = some e ∧
      e = (installEntry s.dramSize s.pageBase ((loadWindow s).windows.take i) (s.settings.windowEntry i)).1 := by
  have hlength : (loadWindow s).windows.length = 8 := by rw [(loadWindow_fields s).1, installed_length]
  obtain ⟨i, hi, he⟩ := List.mem_iff_getElem.mp h
  have hat : (loadWindow s).windows[i]? = some e := List.getElem?_eq_some_iff.mpr ⟨hi, he⟩
  have hi8 : i < 8 := hlength ▸ hi
  exact ⟨i, hi8, hat, Option.some.inj (hat.symm.trans (loadWindow_getElem s hi8))⟩

/-- Where no entry has the kind of an entry before it, at most one has that kind. -/
theorem filter_kind_length_le {k : WindowKind} {l : List WindowEntry}
    (h : ∀ i e, l[i]? = some e → e.kind = k → ∀ b ∈ l.take i, b.kind ≠ k) :
    (l.filter (fun e => decide (e.kind = k))).length ≤ 1 := by
  induction l with
  | nil => exact Nat.zero_le 1
  | cons x l ih =>
    by_cases hx : x.kind = k
    · have hnone : l.filter (fun e => decide (e.kind = k)) = [] := by
        refine List.filter_eq_nil_iff.mpr fun e he hk => ?_
        obtain ⟨i, hi, rfl⟩ := List.mem_iff_getElem.mp he
        exact h (i + 1) l[i] (by simp [hi]) (of_decide_eq_true hk) x (by simp) hx
      simp [hx, hnone]
    · simp only [List.filter_cons, hx, decide_false, Bool.false_eq_true, if_false]
      exact ih fun i e he hk b hb => h (i + 1) e (by simpa using he) hk b (by simp [hb])

/-! ### What a window load does to the other blocks -/

/-- R1, R67, R143: a window stood, and does not stand with the same base and size. -/
theorem windowChanged_iff (before after : Option WindowEntry) : windowChanged before after = true ↔
    ∃ b, before = some b ∧ ∀ a, after = some a → a.base ≠ b.base ∨ a.size ≠ b.size := by
  cases before with
  | none => simp [windowChanged]
  | some b =>
    cases after with
    | none => simp [windowChanged]
    | some a => simp [windowChanged, eq_comm (a := a.base), eq_comm (a := a.size)]

/-- R143, R170: the installed windows, with the geometry change of a FIELD_RING window that changed. -/
def State.ringLoaded (s : State) : State :=
  if windowChanged (s.window .fieldRing) ((installWindows s).window .fieldRing) then geometryChange (installWindows s)
  else installWindows s

/-- R67, R143: the same, with the plan at NONE where the OUTPUT window changed. -/
def State.windowsLoaded (s : State) : State :=
  if windowChanged (s.window .output) ((installWindows s).window .output) then planToNone s.ringLoaded else s.ringLoaded

theorem loadWindow_eq (s : State) : loadWindow s =
    raiseAll (windowConditions s.pageBase s.settings.windowEntries s.installed) s.windowsLoaded := rfl

/-- A window load leaves the condition unit that the installed windows leave, but for what occurs and status writes. -/
theorem loadWindow_occurs (s : State) :
    Occurs (loadWindow s).statusStands (s.cond.windowLoad (s.window .status) ((loadWindow s).window .status)) (loadWindow s).cond := by
  have hring : Occurs (installWindows s).statusStands (installWindows s).cond s.ringLoaded.cond ∧
      s.ringLoaded.windows = (installWindows s).windows := by
    unfold State.ringLoaded
    split
    · exact ⟨(geometryChange_eq _).2, (geometryChange_keeps _).1⟩
    · exact ⟨.refl _ _, rfl⟩
  have hout : Occurs (installWindows s).statusStands s.ringLoaded.cond s.windowsLoaded.cond ∧
      s.windowsLoaded.windows = (installWindows s).windows := by
    have hstands : s.ringLoaded.statusStands = (installWindows s).statusStands := by
      rw [State.statusStands, State.window, hring.2]
      rfl
    unfold State.windowsLoaded
    split
    · exact ⟨hstands ▸ (planToNone_eq _).2, (planToNone_keeps _).1.trans hring.2⟩
    · exact ⟨.refl _ _, hring.2⟩
  have hwindow : ∀ k, (loadWindow s).window k = (installWindows s).window k := fun k => by
    rw [State.window, loadWindow_eq, raiseAll_windows, hout.2]
    rfl
  have hstands : s.windowsLoaded.statusStands = (installWindows s).statusStands := by
    rw [State.statusStands, State.window, hout.2]
    rfl
  rw [State.statusStands, hwindow]
  exact (hring.1.trans hout.1).trans (loadWindow_eq s ▸ hstands ▸ raiseAll_occurs _ _)

theorem GeometryChanged.raiseAll {s t : State} (cs : List Condition) (h : GeometryChanged s t) :
    GeometryChanged s (Machine.raiseAll cs t) := by
  rw [raiseAll_eq]
  exact ⟨h.monitor, h.planner, h.history, h.cadence, h.stands, h.emptied⟩

/-- R67: after a geometry change the plan is NONE already, and no record refers to one. -/
theorem GeometryChanged.planToNone {s t : State} (h : GeometryChanged s t) : GeometryChanged s (Machine.planToNone t) := by
  rw [(planToNone_eq t).1]
  exact ⟨h.monitor, by rw [h.planner], by rw [h.history]; rfl, h.cadence, h.stands, h.emptied⟩

theorem windowsLoaded_changed {s : State}
    (h : windowChanged (s.window .fieldRing) ((installWindows s).window .fieldRing) = true) : GeometryChanged s s.windowsLoaded := by
  have hring : GeometryChanged s s.ringLoaded := by
    obtain ⟨hmonitor, hplanner, hhistory, hcadence, hstands, hemptied⟩ := geometryChange_changes (installWindows s)
    rw [State.ringLoaded, if_pos h]
    exact ⟨hmonitor, hplanner, hhistory, hcadence, hstands, hemptied⟩
  unfold State.windowsLoaded
  split
  · exact hring.planToNone
  · exact hring

/-- A window load writes the fields it names. -/
theorem loadWindow_frame (s : State) : loadWindow s = { s with
    windows := (loadWindow s).windows, settings := { s.settings with windowPending := false }, monitor := (loadWindow s).monitor
    planner := (loadWindow s).planner, history := (loadWindow s).history, store := (loadWindow s).store
    probe := (loadWindow s).probe, cadence := (loadWindow s).cadence, cond := (loadWindow s).cond } := by
  have hring : s.ringLoaded = { installWindows s with
      monitor := s.ringLoaded.monitor, planner := s.ringLoaded.planner, history := s.ringLoaded.history
      store := s.ringLoaded.store, probe := s.ringLoaded.probe, cadence := s.ringLoaded.cadence, cond := s.ringLoaded.cond } := by
    unfold State.ringLoaded
    split
    · rw [(geometryChange_eq _).1]
    · rfl
  have hout : s.windowsLoaded = { s.ringLoaded with
      planner := s.windowsLoaded.planner, history := s.windowsLoaded.history, cond := s.windowsLoaded.cond } := by
    unfold State.windowsLoaded
    split
    · rw [(planToNone_eq _).1]
    · rfl
  rw [loadWindow_eq, raiseAll_eq, hout, hring]
  rfl

theorem loadWindow_window (s : State) (k : WindowKind) : (loadWindow s).window k = (installWindows s).window k := by
  rw [State.window, (loadWindow_fields s).1]
  rfl

/-- R170: without a changed FIELD_RING window the plan alone may go to NONE. -/
theorem loadWindow_unchanged {s : State}
    (h : ¬ windowChanged (s.window .fieldRing) ((loadWindow s).window .fieldRing) = true) :
    (loadWindow s).monitor = s.monitor ∧ (loadWindow s).cadence = s.cadence ∧ (loadWindow s).probe = s.probe ∧
      (loadWindow s).store = s.store ∧
      (windowChanged (s.window .output) ((loadWindow s).window .output) = true →
        (loadWindow s).planner = { s.planner with plan := none } ∧ (loadWindow s).history = s.history.reference none) ∧
      (¬ windowChanged (s.window .output) ((loadWindow s).window .output) = true →
        (loadWindow s).planner = s.planner ∧ (loadWindow s).history = s.history) := by
  rw [loadWindow_window] at h ⊢
  have hring : s.ringLoaded = installWindows s := if_neg h
  rw [loadWindow_eq, raiseAll_eq]
  by_cases hout : windowChanged (s.window .output) ((installWindows s).window .output) = true
  · rw [State.windowsLoaded, if_pos hout, (planToNone_eq _).1, hring]
    exact ⟨rfl, rfl, rfl, rfl, fun _ => ⟨rfl, rfl⟩, fun hn => absurd hout hn⟩
  · rw [State.windowsLoaded, if_neg hout, hring]
    exact ⟨rfl, rfl, rfl, rfl, fun hc => absurd hc hout, fun _ => ⟨rfl, rfl⟩⟩

/-- R143, R179: the condition unit after a window load. -/
theorem loadWindow_cond (s : State) :
    (s.window .status ≠ none → (loadWindow s).window .status = none →
      (loadWindow s).cond.queue = [] ∧ (loadWindow s).cond.statusPending = false ∧ (loadWindow s).cond.chosen = none) ∧
    (s.window .status = none → (loadWindow s).window .status = none →
      (loadWindow s).cond.queue = s.cond.queue ∧ (loadWindow s).cond.statusPending = s.cond.statusPending ∧
        (loadWindow s).cond.chosen = s.cond.chosen) ∧
    (∀ a, (loadWindow s).window .status = some a →
      (∃ new, (loadWindow s).cond.queue = s.cond.queue ++ new) ∧ (loadWindow s).cond.chosen = s.cond.chosen ∧
        ((∀ b, s.window .status = some b → b.base ≠ a.base) → (loadWindow s).cond.statusPending = true)) ∧
    (loadWindow s).cond.writeIndex = s.cond.writeIndex ∧ (loadWindow s).cond.readIndex = s.cond.readIndex ∧
    (loadWindow s).cond.mask = s.cond.mask ∧ (loadWindow s).cond.blockNumber = s.cond.blockNumber := by
  obtain ⟨hrest, -, hqueue, hscheduled, hsilent⟩ := loadWindow_occurs s
  obtain ⟨hmask, hread, hwrite, hnumber, -, -, -⟩ := windowLoad_grows s.cond (s.window .status) ((loadWindow s).window .status)
  refine ⟨fun hb ha => ?_, fun hb ha => ?_, fun a ha => ?_, ?_⟩
  · obtain ⟨b, hb⟩ := Option.ne_none_iff_exists'.mp hb
    rw [State.statusStands, ha] at hsilent
    rw [hb] at hsilent
    rw [hb, ha] at hrest
    rw [(hsilent rfl).1, (hsilent rfl).2, hrest]
    exact ⟨rfl, rfl, rfl⟩
  · rw [State.statusStands, ha] at hsilent
    rw [hb] at hsilent
    rw [hb, ha] at hrest
    rw [(hsilent rfl).1, (hsilent rfl).2, hrest]
    exact ⟨rfl, rfl, rfl⟩
  · rw [ha] at hrest hqueue hscheduled
    rw [hrest]
    cases hb : s.window .status with
    | none =>
      rw [hb] at hqueue hscheduled
      exact ⟨hqueue, rfl, fun _ => hscheduled rfl⟩
    | some b =>
      rw [hb] at hqueue hscheduled
      by_cases heq : b.base = a.base
      · simp only [ConditionUnit.windowLoad, heq, if_true] at hqueue ⊢
        exact ⟨hqueue, trivial, fun hne => absurd heq (hne b rfl)⟩
      · simp only [ConditionUnit.windowLoad, heq, if_false] at hqueue hscheduled ⊢
        exact ⟨hqueue, trivial, fun _ => hscheduled trivial⟩
  · rw [hrest]
    exact ⟨hwrite, hread, hmask, hnumber⟩

theorem memoryLoaded_memPort (s : State) : s.memoryLoaded.memPort.refreshPending = s.memPort.refreshPending := by
  rw [State.memoryLoaded, raiseAll_memPort]

theorem memoryLoaded_settings (s : State) : s.memoryLoaded.settings.memory = s.settings.memoryGroup := by
  rw [State.memoryLoaded, raiseAll_settings]

/-- R158: the addition of a load, made or lost. -/
theorem memoryLoaded_addition {s : State} (h : additionDue s.settings.memory s.settings.memoryGroup s.memPort.intervalCount) :
    (s.memPort.refreshPending < 8 → loadMemory s = { s.memoryLoaded with
      memPort := { s.memoryLoaded.memPort with refreshPending := s.memPort.refreshPending + 1 } }) ∧
    (8 ≤ s.memPort.refreshPending →
      loadMemory s = raise (.refreshMissed false s.settings.memoryGroup.interval) s.memoryLoaded) := by
  rw [loadMemory_addition h, refreshAddition, memoryLoaded_memPort, memoryLoaded_settings, h.2.1]
  exact ⟨fun hlt => if_pos hlt, fun hle => if_neg (show ¬ s.memPort.refreshPending < 8 by omega)⟩

/-- Settles O56. -/
theorem holdReleaseLoadsMemoryAndWindows : Obligations.HoldReleaseLoadsMemoryAndWindows := by
  refine ⟨fun s => rfl, fun s hp => ?_, fun s => ?_, fun s => ?_⟩
  · intro t n
    have hset : t.settings = { s.settings with memory := s.settings.memoryGroup, memoryPending := false } := loadMemory_settings s
    refine ⟨by rw [hset, Settings.memoryGroup, clampInterval_eq], loadMemory_adjusts hp, ?_⟩
    intro old new count due u
    have hnew : new = s.settings.memoryGroup := by
      simp only [new, hset]
    have hu : u = s.memoryLoaded := by
      rw [State.memoryLoaded, memoryConditions_eq, timerAfterLoad_eq]
      simp only [u, due, hnew, hset]
      rfl
    rw [hu]
    simp only [due, hnew]
    exact ⟨loadMemory_noAddition, memoryLoaded_addition⟩
  · intro t
    have hwindows := (loadWindow_fields s).1
    refine ⟨by simp only [t, (loadWindow_fields s).2], by simp only [t, hwindows, installed_length], ?_, fun i hi => ?_,
      fun e he => ?_, fun k hk => ?_⟩
    · refine ⟨rfl, rfl, rfl, rfl, fun n hn => ?_⟩
      rcases hn with rfl | hn
      · rfl
      · obtain ⟨m, rfl⟩ := Nat.exists_eq_add_of_le' hn
        rfl
    · have hbits : bits (s.settings.at (0x048 + 16 * i)) 0 3 = (s.settings.at (0x048 + 16 * i)).toNat % 8 :=
        bits_zero _ 3
      have hkind : (s.settings.windowEntry i).kind = windowKindOf ((s.settings.at (0x048 + 16 * i)).toNat % 8) := by
        rw [← hbits]
        rfl
      simp only [t, loadWindow_getElem s hi, ← hkind]
      exact ⟨fun hk hpasses => congrArg some (installEntry_passes hk hpasses), fun h => ⟨_, rfl, installEntry_fails h⟩⟩
    · obtain ⟨i, hi, -, rfl⟩ := mem_loadWindow he
      exact (installEntry_spec _ _ _ _).1
    · refine filter_kind_length_le fun i e hat hek => ?_
      have hi : i < 8 := by
        have hlt := (List.getElem?_eq_some_iff.mp hat).1
        rwa [hwindows, installed_length] at hlt
      have he := Option.some.inj (hat.symm.trans (loadWindow_getElem s hi))
      have hone := (installEntry_spec s.dramSize s.pageBase (t.windows.take i) (s.settings.windowEntry i)).2
      rw [← he, hek] at hone
      exact hone ((unique_iff k).mpr (by rcases hk with rfl | rfl | rfl <;> decide))
  · intro t moved
    have hmoved : ∀ k, moved k ↔ windowChanged (s.window k) (t.window k) = true := fun k => (windowChanged_iff _ _).symm
    simp only [hmoved]
    refine ⟨fun h => ?_, loadWindow_unchanged, ?_⟩
    · rw [loadWindow_window] at h
      exact (windowsLoaded_changed h).raiseAll _
    · obtain ⟨hremoved, hnone, hstands, hwrite, hread, hmask, hnumber⟩ := loadWindow_cond s
      exact ⟨hremoved, hnone, hstands, hwrite, hread, hmask, hnumber, loadWindow_frame s⟩

end Sys2Proof.Machine
end

section
/-! The loads of the ingest and the output group (R168, R169, R112): their checks, their values, and the ladder (R96). -/

namespace Sys2Proof.Machine

open Host (Outcome)

/-! ### The ingest group (R168) -/

/-- R168: the checks of the ingest group against a FIELD_RING window's size. -/
def IngestWords.fits (g : IngestWords) (size : Nat) : Prop :=
  (256 ≤ g.w.toNat ∧ g.w.toNat ≤ 1024 ∧ g.w.toNat % 2 = 0) ∧ (g.l = 0 ∨ (120 ≤ g.l.toNat ∧ g.l.toNat ≤ 320)) ∧
    (4 ≤ g.k.toNat ∧ g.k.toNat ≤ 8) ∧ (g.linePitch.toNat % 64 = 0 ∧ (g.w.toNat + 1) * 4 ≤ g.linePitch.toNat) ∧
    (g.slotPitch.toNat % 64 = 0 ∧ 64 + (if g.l = 0 then 120 else g.l.toNat) * g.linePitch.toNat ≤ g.slotPitch.toNat) ∧
    g.k.toNat * g.slotPitch.toNat ≤ size

theorem ite_some_eq_none {α : Type} {c : Prop} [Decidable c] {a : α} {b : Option α} :
    (if c then some a else b) = none ↔ ¬ c ∧ b = none := by
  split <;> simp [*]

theorem toNat_eq_zero_iff (w : Word) : w.toNat = 0 ↔ w = 0 :=
  ⟨fun h => BitVec.eq_of_toNat_eq h, fun h => by rw [h]; rfl⟩

theorem ingestCheck_iff (g : IngestWords) (ring : Option Nat) : g.check ring = none ↔ ∃ size, ring = some size ∧ g.fits size := by
  cases ring with
  | none => simp [IngestWords.check, ite_some_eq_none]
  | some size =>
    simp only [IngestWords.check, ite_some_eq_none, Classical.not_not, toNat_eq_zero_iff, IngestWords.fits, Option.some.injEq,
      exists_eq_left']
    simp

/-- R3, R168: a load keeps the geometry where it has no AUTO line count and writes the geometry of the group before it. -/
theorem changesGeometry_iff (new : IngestGroup) (old : Option IngestGroup) : new.changesGeometry old = true ↔
    ¬ (new.l ≠ 0 ∧ ∃ o, old = some o ∧ new.w = o.w ∧ new.l = o.l ∧ new.k = o.k ∧ new.slotPitch = o.slotPitch ∧
      new.linePitch = o.linePitch) := by
  cases old with
  | none => simp [IngestGroup.changesGeometry]
  | some o =>
    simp only [IngestGroup.changesGeometry, Bool.or_eq_true, decide_eq_true_eq, Option.some.injEq, exists_eq_left',
      Classical.not_and_iff_not_or_not, Classical.not_not, or_assoc, ne_eq]

/-- R168: a clamp that changes a written value. -/
def IngestWords.clamped (g : IngestWords) : Prop :=
  (g.stallLimit ≠ 0 ∧ (g.stallLimit.toNat < 18 ∨ 24 < g.stallLimit.toNat)) ∨
    (g.e22 ≠ 0 ∧ (g.e22.toNat < 4 ∨ 32 < g.e22.toNat))

theorem orDefault_ne_clamp_iff (w : Word) (dflt : Nat) {lo hi : Nat} (h : lo ≤ hi) :
    orDefault w dflt w.toNat ≠ orDefault w dflt (clampNat w.toNat lo hi) ↔ w ≠ 0 ∧ (w.toNat < lo ∨ hi < w.toNat) := by
  rw [orDefault, orDefault, clampNat]
  split
  · next hz => simp [hz]
  · next hz =>
    simp only [ne_eq, hz, not_false_eq_true, true_and]
    omega

theorem changedOnly_eq_nil_iff (as : List Adjusted) : changedOnly as = [] ↔ ∀ a ∈ as, a.written = a.loaded := by
  simp [changedOnly]

theorem ingestAdjusted_iff (g : IngestWords) : g.adjusted ≠ [] ↔ g.clamped := by
  have hstall := orDefault_ne_clamp_iff g.stallLimit Config.defaultStallLimit (show 18 ≤ 24 by decide)
  have he22 := orDefault_ne_clamp_iff g.e22 8 (show 4 ≤ 32 by decide)
  rw [IngestWords.clamped, ← hstall, ← he22, ne_eq, IngestWords.adjusted, changedOnly_eq_nil_iff]
  simp only [List.mem_cons, List.not_mem_nil, or_false, forall_eq_or_imp, forall_eq, Classical.not_and_iff_not_or_not]
  rfl

/-- R168: an adjusted value sets the bit of SETTING_ADJUSTED. -/
theorem adjustedConditions_bit {as : List Adjusted} {base : Nat} {s : State} (hp : s.phase ≠ .asserted) (h : as ≠ []) :
    (raiseAll (adjustedConditions base as) s).cond.occurred.getLsbD 15 = true := by
  obtain ⟨a, ha⟩ := List.exists_mem_of_ne_nil as h
  exact raiseAll_bit hp (by decide) ⟨_, List.mem_map_of_mem ha, rfl⟩

/-- R168: the state with the installed group and the conditions of its adjustments. -/
def State.ingestInstalled (s : State) (g : IngestWords) : State :=
  raiseAll (adjustedConditions s.pageBase g.adjusted)
    { s with settings := { s.settings with ingest := some g.load, ingestPending := false } }

theorem installIngest_eq (g : IngestWords) (s : State) : installIngest g s =
    if g.load.changesGeometry s.settings.ingest then geometryChange (s.ingestInstalled g)
    else stallAtLoad { s.ingestInstalled g with cadence := (s.ingestInstalled g).cadence.newE22 g.load.e22 } := rfl

/-- R168: a clamp of a load sets the bit of SETTING_ADJUSTED. -/
theorem installIngest_adjusts {g : IngestWords} {s : State} (hp : s.phase ≠ .asserted) (h : g.clamped) :
    (installIngest g s).cond.occurred.getLsbD 15 = true := by
  have hbit : (s.ingestInstalled g).cond.occurred.getLsbD 15 = true :=
    adjustedConditions_bit hp ((ingestAdjusted_iff g).mpr h)
  rw [installIngest_eq]
  split
  · exact (inner_core.geometryChange _).cond.occurred 15 hbit
  · exact (inner_core.stallAtLoad _).cond.occurred 15 hbit

/-- R168, R170: a load that changes the geometry. -/
theorem installIngest_changes {g : IngestWords} {s : State} (h : g.load.changesGeometry s.settings.ingest = true) :
    GeometryChanged s (installIngest g s) ∧ installIngest g s = { s with
      settings := (installIngest g s).settings, monitor := (installIngest g s).monitor, planner := (installIngest g s).planner
      history := (installIngest g s).history, store := (installIngest g s).store, probe := (installIngest g s).probe
      cadence := (installIngest g s).cadence, cond := (installIngest g s).cond } := by
  rw [installIngest_eq, if_pos h]
  have hframe := (geometryChange_eq (s.ingestInstalled g)).1
  obtain ⟨hmonitor, hplanner, hhistory, hcadence, hstands, hemptied⟩ := geometryChange_changes (s.ingestInstalled g)
  rw [State.ingestInstalled, raiseAll_eq] at *
  refine ⟨⟨hmonitor, hplanner, hhistory, hcadence, hstands, hemptied⟩, ?_⟩
  rw [hframe]

/-- R61, R168: the state of a load that keeps the geometry, before its stall limit acts. -/
def State.ingestKept (s : State) (g : IngestWords) : State :=
  { s.ingestInstalled g with cadence := (s.ingestInstalled g).cadence.newE22 g.load.e22 }

/-- R19, R61, R168: a load that keeps the geometry. -/
theorem installIngest_keeps {g : IngestWords} {s : State} (h : ¬ g.load.changesGeometry s.settings.ingest = true) :
    (¬ g.clamped → (s.ingestKept g).cond = s.cond) ∧
    s.ingestKept g = { s with
      settings := { s.settings with ingest := some g.load, ingestPending := false }
      cadence := { s.cadence with c22 := min s.cadence.c22 g.load.e22 }, cond := (s.ingestKept g).cond } ∧
    (s.monitor.timerRunning = true ∧ 2 ^ g.load.stallLimit ≤ s.monitor.timerCount →
      exec .stallTimerExpiry (s.ingestKept g) = .next (installIngest g s)) ∧
    (¬ (s.monitor.timerRunning = true ∧ 2 ^ g.load.stallLimit ≤ s.monitor.timerCount) → installIngest g s = s.ingestKept g) := by
  have hkept : s.ingestKept g = { s with
      settings := { s.settings with ingest := some g.load, ingestPending := false }
      cadence := { s.cadence with c22 := min s.cadence.c22 g.load.e22 }, cond := (s.ingestKept g).cond } := by
    rw [State.ingestKept, State.ingestInstalled, raiseAll_eq]
    rfl
  have hmonitor : (s.ingestKept g).monitor = s.monitor := by rw [hkept]
  have hlimit : (s.ingestKept g).stallLimit = g.load.stallLimit := by
    rw [hkept]
    rfl
  have hload : installIngest g s = stallAtLoad (s.ingestKept g) := (installIngest_eq g s).trans (if_neg h)
  rw [hload, stallAtLoad, hmonitor, hlimit]
  refine ⟨fun hc => ?_, hkept, fun hx => ?_, fun hx => if_neg hx⟩
  · have hnone : g.adjusted = [] := Classical.not_not.mp (mt (ingestAdjusted_iff g).mp hc)
    rw [State.ingestKept, State.ingestInstalled, hnone]
    rfl
  · rw [if_pos hx]
    exact if_pos (hmonitor ▸ hx.1)

theorem loadIngest_refused {s : State} (hp : s.phase ≠ .asserted) (h : ∀ w, s.window .fieldRing = some w → ¬ s.settings.ingestWords.fits
  w.size) :
    loadIngest s = { s with settings := { s.settings with ingestPending := false }, cond := (loadIngest s).cond } ∧
      (loadIngest s).cond.occurred.getLsbD 16 = true := by
  have hcheck : s.settings.ingestWords.check ((s.window .fieldRing).map (fun w => w.size)) ≠ none := fun hc => by
    obtain ⟨size, hsize, hfits⟩ := (ingestCheck_iff _ _).mp hc
    obtain ⟨w, hw, rfl⟩ := Option.map_eq_some_iff.mp hsize
    exact h w hw hfits
  obtain ⟨r, hr⟩ := Option.ne_none_iff_exists'.mp hcheck
  simp only [loadIngest, hr]
  exact ⟨rfl, raise_bit _ hp (by decide) rfl⟩

theorem loadIngest_installed {s : State} {w : WindowEntry} (hw : s.window .fieldRing = some w)
    (h : s.settings.ingestWords.fits w.size) : loadIngest s = installIngest s.settings.ingestWords s := by
  have hcheck : s.settings.ingestWords.check ((s.window .fieldRing).map (fun w => w.size)) = none :=
    (ingestCheck_iff _ _).mpr ⟨w.size, by rw [hw]; rfl, h⟩
  simp only [loadIngest, hcheck]

/-! ### The output group (R169, R112) -/

theorem evenDown_eq (n : Nat) : evenDown n = n - n % 2 := by
  rw [evenDown]
  omega

/-- R169: the checks of the output group. -/
def OutputWords.fits (g : OutputWords) : Prop :=
  (640 ≤ g.wo.toNat ∧ g.wo.toNat ≤ 2048 ∧ g.wo.toNat % 2 = 0) ∧ (240 ≤ g.ho.toNat ∧ g.ho.toNat ≤ 1080) ∧
    2 ≤ evenDown g.wi.toNat ∧ 1 ≤ g.hi.toNat ∧ evenDown g.x0.toNat + evenDown g.wi.toNat ≤ g.wo.toNat ∧
    g.y0.toNat + g.hi.toNat ≤ g.ho.toNat

theorem outputCheck_iff (g : OutputWords) : g.check = none ↔ g.fits := by
  simp only [OutputWords.check, OutputWords.fits, ite_some_eq_none, Classical.not_not, OutputWords.boxCandidates, List.append_eq_nil_iff,
    ite_eq_right_iff, List.cons_ne_self, reduceCtorEq, imp_false, Nat.not_lt]
  split <;> simp_all

theorem loadedPitch_spec (pitch wo : Nat) : loadedPitch pitch wo % 64 = 0 ∧ wo * 4 ≤ loadedPitch pitch wo ∧
    pitch ≤ loadedPitch pitch wo ∧ ∀ n, pitch ≤ n → wo * 4 ≤ n → n % 64 = 0 → loadedPitch pitch wo ≤ n := by
  rw [loadedPitch]
  split
  · exact ⟨by omega, by omega, by omega, fun n _ _ _ => by omega⟩
  · exact ⟨by omega, by omega, Nat.le_refl _, fun n hn _ _ => hn⟩

/-- R162: a coefficient is a signed half of its word. -/
theorem signed16_bits (w : Word) (lo : Nat) : signed16 (bits w lo 16) = (w.extractLsb' lo 16).toInt := by
  rw [signed16, bits]
  congr 1
  apply BitVec.eq_of_toNat_eq
  simp [BitVec.extractLsb'_toNat, Nat.shiftRight_eq_div_pow]

theorem passes_iff (r : CoefRow) : r.passes = true ↔
    (∀ c ∈ [r.c0, r.c1, r.c2, r.c3], -128 ≤ c ∧ c ≤ 383) ∧ r.c0 + r.c1 + r.c2 + r.c3 = 256 := by
  simp [CoefRow.passes, and_assoc]

theorem bits_low (w : Word) : bits w 0 2 = w.toNat % 4 := bits_zero w 2

/-- R112: a custom row as loaded. -/
theorem loadedRow_eq (s : Settings) (p : Nat) :
    let c0 := ((s.at (0x300 + 8 * p)).extractLsb' 0 16).toInt
    let c1 := ((s.at (0x300 + 8 * p)).extractLsb' 16 16).toInt
    let c2 := ((s.at (0x304 + 8 * p)).extractLsb' 0 16).toInt
    let c3 := ((s.at (0x304 + 8 * p)).extractLsb' 16 16).toInt
    s.loadedRow p =
      if (∀ c ∈ [c0, c1, c2, c3], -128 ≤ c ∧ c ≤ 383) ∧ c0 + c1 + c2 + c3 = 256 then { c0 := c0, c1 := c1, c2 := c2, c3 := c3 }
      else { c0 := 0, c1 := 256 - 16 * (p : Int), c2 := 16 * (p : Int), c3 := 0 } := by
  intro c0 c1 c2 c3
  have hwritten : s.writtenRow p = { c0 := c0, c1 := c1, c2 := c2, c3 := c3 } := by
    rw [Settings.writtenRow, signed16_bits, signed16_bits, signed16_bits, signed16_bits]
  rw [Settings.loadedRow, hwritten]
  simp only [passes_iff]
  rfl

theorem overrideOf_bits (w : Word) : overrideOf (bits w 0 2) =
    match w.toNat % 4 with
    | 1 => .noWeave
    | 2 => .spatialOnly
    | _ => .auto := by
  rw [bits_low]
  rfl

theorem loadOutput_refused {s : State} (hp : s.phase ≠ .asserted) (h : ¬ s.settings.outputWords.fits) :
    loadOutput s = { s with settings := { s.settings with outputPending := false }, cond := (loadOutput s).cond } ∧
      (loadOutput s).cond.occurred.getLsbD 16 = true := by
  obtain ⟨r, hr⟩ := Option.ne_none_iff_exists'.mp (mt (outputCheck_iff _).mp h)
  simp only [loadOutput, hr]
  exact ⟨rfl, raise_bit _ hp (by decide) rfl⟩

theorem loadOutput_loaded {s : State} (h : s.settings.outputWords.fits) : (loadOutput s).settings = { s.settings with
    output := some s.settings.outputWords.load
    outputPending := false
    customRows := s.settings.rowsAfterLoad s.settings.outputWords.load.custom } := by
  simp only [loadOutput, (outputCheck_iff _).mpr h, raiseAll_settings]

/-- Settles O57. -/
theorem refusedGroupsLeaveTheWorkingValues : Obligations.RefusedGroupsLeaveTheWorkingValues := by
  refine ⟨fun s hp => ?_, fun s hp => ?_, fun w => ?_⟩
  · intro g sizes t
    refine ⟨loadIngest_refused hp, fun w hw hsizes => ?_⟩
    intro new same clamped expires
    have hload : t = installIngest g s := loadIngest_installed hw hsizes
    rw [hload]
    have hset : (installIngest g s).settings = { s.settings with ingest := some new, ingestPending := false } :=
      installIngest_settings g s
    refine ⟨hset, installIngest_adjusts hp, fun h => ?_, fun h => ?_⟩
    · exact installIngest_changes ((changesGeometry_iff _ _).mpr h)
    · obtain ⟨hcond, hkept, hexpires, hstands⟩ := installIngest_keeps (mt (changesGeometry_iff _ _).mp (not_not_intro h))
      rw [hset]
      exact ⟨_, hcond, hkept, hexpires, hstands⟩
  · intro g x0 wi passes fill low high t
    have hpasses : passes ↔ g.fits := by
      simp only [passes, x0, wi, OutputWords.fits, evenDown_eq]
    rw [hpasses]
    refine ⟨loadOutput_refused hp, fun h => ?_⟩
    have hset : t.settings = _ := loadOutput_loaded h
    obtain ⟨hmod, hrow, hwritten, hleast⟩ := loadedPitch_spec g.pitch.toNat g.wo.toNat
    refine ⟨by rw [hset], fun hsel => ?_, fun hsel => ?_, _, ?_, hmod, hrow, hwritten, hleast, loadOutput_eq s⟩
    · rw [hset]
      exact if_neg (Bool.eq_false_iff.mp hsel)
    · rw [hset]
      exact (if_pos hsel).trans (List.map_congr_left fun p _ => loadedRow_eq s.settings p)
    · rw [hset]
      simp only [OutputWords.load, overrideOf_bits, evenDown_eq]
      rfl
  · intro n
    refine ⟨fun h => ?_, fun h => ?_, fun h => ?_, fun h => ?_⟩ <;> simp only [ladder, bits_low, h] <;> rfl

end Sys2Proof.Machine
end

section
/-! The close of a field, read off FieldClosed (R12 to R16), and the stall expiry (R18). -/

namespace Sys2Proof.Machine

open Host (Outcome)

/-! ### What a close leaves -/

section FieldClosed

variable {code : Nat} {r r1 : FieldRecord} {g : IngestGroup} {s t : State}

theorem settleLines_length (w : Nat) (tags : Bool) (lines : List LineEntry) : (settleLines w tags lines).length = lines.length := by
  rw [settleLines, List.length_map, List.length_zipIdx]

/-- R13: the closed record but for its metrics and its label. -/
theorem FieldClosed.record (h : FieldClosed code r r1 g s t) : r1 = { r with
    lines := settleLines g.w r.tagsPresent r.lines, state := if code = 0 then .complete else .cut, stalled := decide (code = 4)
    metrics := r1.metrics, label := r1.label } := by
  rw [h.1]
  rfl

theorem FieldClosed.number (h : FieldClosed code r r1 g s t) : r1.number = r.number := by
  rw [h.record]

/-- R13: the closed record stands in the history in its place. -/
theorem FieldClosed.found (h : FieldClosed code r r1 g s t) (hr : s.history.find r.number = some r) :
    t.history.find r.number = some r1 := by
  rw [h.2.1]
  exact History.update_find s.history r.number (fun _ => r1) r (fun _ _ => h.number) hr

theorem FieldClosed.probe (h : FieldClosed code r r1 g s t) : t.probe = ProbeUnit.reset := h.2.2.2.1

/-- R13, R16: what occurs at a close starts with FIELD_CUT where the field is cut. -/
theorem FieldClosed.cut_bit (h : FieldClosed code r r1 g s t) (hp : s.phase ≠ .asserted) (hc : code ≠ 0) :
    t.cond.occurred.getLsbD 1 = true := by
  rw [h.2.2.2.2.2.1, if_neg hc]
  exact raiseAll_bit hp (by decide) ⟨_, by simp only [List.append_assoc]; exact List.mem_append_left _ (List.mem_singleton_self _), rfl⟩

/-- R13: a close writes the fields it names, and of the condition unit only what occurrences and schedulings write. -/
theorem FieldClosed.bits (h : FieldClosed code r r1 g s t) (i : Nat) (hi : s.cond.occurred.getLsbD i = true) :
    t.cond.occurred.getLsbD i = true := by
  rw [h.2.2.2.2.2.1]
  exact (raiseAll_occurs _ s).bits i hi

end FieldClosed

/-! ### The stall expiry (R18) -/

theorem expireStall_fields (s : State) : (expireStall s).store = s.store ∧ (expireStall s).windows = s.windows := by
  unfold expireStall
  simp only
  split
  · obtain ⟨hstore, -, -, -, hwindows, -, -⟩ := closeField_fields .stall (raise
      (.ingestStall s.fillingField s.stallLimit (decide (s.fillingField ≠ 0))) { s with monitor := s.monitor.stopTimer })
    exact ⟨hstore, hwindows⟩
  · split
    · obtain ⟨hstore, -, -, -, hwindows⟩ := endMeasurement_fields (raise
        (.ingestStall s.fillingField s.stallLimit (decide (s.fillingField ≠ 0))) { s with monitor := s.monitor.stopTimer })
      exact ⟨hstore, hwindows⟩
    · exact ⟨rfl, rfl⟩

theorem stallLimit_eq (s : State) : s.stallLimit = (s.settings.ingest.map (fun g => g.stallLimit)).getD 21 := by
  unfold State.stallLimit
  cases s.settings.ingest <;> rfl

/-- R18: an expiry with a field FILLING closes it. -/
theorem expireStall_filling {s : State} {r : FieldRecord} (hr : s.history.filling = some r) (hn : r.number ≠ 0) :
    expireStall s = closeField .stall (raise (.ingestStall r.number s.stallLimit true) { s with monitor := s.monitor.stopTimer }) := by
  have hf : s.fillingField = r.number := by rw [State.fillingField, hr]
  simp only [expireStall, hf, ne_eq, hn, not_false_eq_true, if_true, decide_true]

/-- R18: an expiry with none ends a measurement, if one runs. -/
theorem expireStall_noField {s : State} (hr : s.history.filling = none) : expireStall s =
    if s.monitor.acquisition = .acquiring then
      endMeasurement (raise (.ingestStall 0 s.stallLimit false) { s with monitor := s.monitor.stopTimer })
    else raise (.ingestStall 0 s.stallLimit false) { s with monitor := s.monitor.stopTimer } := by
  have hf : s.fillingField = 0 := by rw [State.fillingField, hr]
  simp only [expireStall, hf, ne_eq, not_true_eq_false, if_false, decide_false]

theorem endMeasurement_some {s : State} {m : Measurement} (h : s.monitor.measurement = some m) :
    endMeasurement s = endMeasured (measuredCount m.extents) s := by
  rw [endMeasurement, h]

theorem endMeasurement_none {s : State} (h : s.monitor.measurement = none) : endMeasurement s = s := by
  rw [endMeasurement, h]

/-- Settles O22. -/
theorem stallExpiryCutsTheFillingField : Obligations.StallExpiryCutsTheFillingField := by
  intro s hrun
  obtain ⟨hrunning, hcount⟩ := expireStall_stopped s
  obtain ⟨hstore, hwindows⟩ := expireStall_fields s
  have hkeeps := expireStall_keeps s
  have hclosed : ∀ r g, s.history.filling = some r → r.number ≠ 0 → s.settings.ingest = some g →
      ∃ r1, FieldClosed 4 r r1 g (raise (.ingestStall r.number s.stallLimit true) { s with monitor := s.monitor.stopTimer })
        (expireStall s) := fun r g hr hn hg => by
    rw [expireStall_filling hr hn]
    exact closeField_closes .stall hr hg
  refine ⟨expireStall s, if_pos hrun, hrunning, hcount, expireStall_occurred, fun r g hr hn hg hfind => ?_, ?_, hkeeps.capture,
    hkeeps.system, hkeeps.dram, expireStall_settings s, hstore, expireStall_planner s, expireStall_memPort s, hwindows⟩
  · obtain ⟨r1, h⟩ := hclosed r g hr hn hg
    refine ⟨r1, h.found hfind, ?_, ?_, ?_, h.probe, fun hp => h.cut_bit hp (by decide)⟩
    · rw [h.record]
      rfl
    · rw [h.record]
      rfl
    · rw [h.record]
      exact settleLines_length _ _ _
  · intro limit stopped
    have hlimit : s.stallLimit = limit := stallLimit_eq s
    rw [← hlimit]
    refine ⟨hclosed, fun hr => ⟨fun m ha hm => ?_, fun hidle => ?_⟩⟩
    · rw [expireStall_noField hr, if_pos ha]
      exact endMeasurement_some hm
    · rw [expireStall_noField hr]
      split
      · next ha =>
        exact endMeasurement_none (hidle.resolve_left (not_not_intro ha))
      · rfl

end Sys2Proof.Machine
end

section
/-! The ingest monitor at a capture take (R2, R4, R20 to R22): the areas of a write, what is handed on, and the rule of the take. -/

namespace Sys2Proof.Machine

open Host (Outcome)

/-! ### The areas of a write (R1, R2) -/

theorem areaWords_eq (g : Ring) (r : Request) :
    g.areaWords r = ((wordAddrs r).zip (writeWords r)).map (Prod.map g.area id) := by
  rw [Ring.areaWords, List.zip_map_left]

/-- R1: the line count decides no slot. -/
theorem area_slot_lines (g : Ring) (n a : Nat) : ({ g with lines := n }.area a).slot = (g.area a).slot := by
  simp only [Ring.area]
  (repeat' split) <;> rfl

theorem spansSlots_lines (g : Ring) (n : Nat) (r : Request) :
    spansSlots ({ g with lines := n }.areaWords r) = spansSlots (g.areaWords r) := by
  rw [areaWords_eq, areaWords_eq]
  cases (wordAddrs r).zip (writeWords r) with
  | nil => rfl
  | cons w ws => simp only [List.map_cons, spansSlots, List.any_map, Function.comp_def, Prod.map_fst, area_slot_lines]

theorem slotOf_lines (g : Ring) (n : Nat) (r : Request) : slotOf ({ g with lines := n }.areaWords r) = slotOf (g.areaWords r) := by
  rw [areaWords_eq, areaWords_eq]
  cases (wordAddrs r).zip (writeWords r) with
  | nil => rfl
  | cons w ws => simp only [List.map_cons, slotOf, Prod.map_fst, area_slot_lines]

/-- R1: the header word of an area. -/
def Area.headerWord : Area → Option Nat
  | .header _ i => some i
  | _ => none

theorem covers_headerWord (ws : List AreaWord) (index : Nat) :
    covers ws index = ws.any (fun w => decide (w.1.headerWord = some index) && decide (w.2.enables = 15#4)) := by
  refine congrArg (List.any ws) (funext fun ⟨a, w⟩ => ?_)
  cases a with
  | header slot i => simp only [Area.headerWord, Option.some.injEq]
  | _ => simp only [Area.headerWord, reduceCtorEq, decide_false, Bool.false_and]

theorem area_headerWord (g : Ring) (a : Nat) : (g.area a).headerWord =
    if g.slots ≤ (a - g.base) / g.slotPitch then none
    else if (a - g.base) % g.slotPitch < 64 then some ((a - g.base) % g.slotPitch / 4) else none := by
  rw [Ring.area]
  split
  · rfl
  · split
    · rfl
    · (repeat' split) <;> rfl

/-- R1: the line count decides no header word. -/
theorem covers_lines (g : Ring) (n : Nat) (r : Request) (index : Nat) :
    covers ({ g with lines := n }.areaWords r) index = covers (g.areaWords r) index := by
  rw [areaWords_eq, areaWords_eq, covers_headerWord, covers_headerWord, List.any_map, List.any_map]
  refine congrArg (List.any _) (funext fun w => ?_)
  simp only [Function.comp_apply, Prod.map_fst, Prod.map_snd, area_headerWord]

/-! ### What is handed on (R10) -/

theorem areaWords_length {r : Request} (g : Ring) (h : isWriteRequest r = true) : (g.areaWords r).length = r.count := by
  unfold isWriteRequest at h
  split at h
  · cases h
  · next ws hb => simp [Ring.areaWords, wordAddrs, writeWords, Request.count, hb]

theorem trimmed_length (ws : List AreaWord) : (trimmed ws).length = ws.length := List.length_map _

/-- R10: each word is handed on by its own area. -/
theorem mem_zip_trimmed {ws : List AreaWord} {x : AreaWord × WriteWord} (h : x ∈ ws.zip (trimmed ws)) : trimmed [x.1] = [x.2] := by
  rw [trimmed, ← List.map_id ws, List.map_map, List.zip_map', List.mem_map] at h
  obtain ⟨w, -, rfl⟩ := h
  rfl

/-! ### The rule of the take -/

section Take

variable {before after : List QueuePosition} {q : QueuePosition} {s u : State}

/-- R4, R147: what a capture write leaves that the monitor hands on with words. -/
def State.captured (s u : State) (before after : List QueuePosition) (q : QueuePosition) (ws : List WriteWord) : State :=
  { u with
    takes := s.takes + 1
    capture := { s.capture with
      queue := before ++ { q with progress := .writeTaken s.takes ws } :: after
      acks := s.capture.acks ++ [{ tag := q.request.tag, body := .writeStatus .ok }] } }

theorem captureTake_monitor (hp : s.phase = .running) (hq : s.capture.queue = before ++ q :: after)
    (hb : ∀ p ∈ before, p.progress ≠ .untaken) (hu : q.progress = .untaken) (hj : s.judge .capture q.request = .toMonitor) :
    exec .captureRequestTake s = .next (finishMonitorWrite q.request (monitorWrite q.request s)) := by
  rw [captureTake_next hp hq hb hu, takeCapture, hj]

/-- CAPTURE_REQUEST_TAKE of a write that the monitor hands on. -/
theorem captureTake_passed (hp : s.phase = .running) (hq : s.capture.queue = before ++ q :: after)
    (hb : ∀ p ∈ before, p.progress ≠ .untaken) (hu : q.progress = .untaken) (hj : s.judge .capture q.request = .toMonitor)
    {ws : List WriteWord} (hm : monitorWrite q.request s = (u, .passed ws)) :
    exec .captureRequestTake s = .next (s.captured u before after q ws) := by
  have hkeeps : KeepsBus s u := by
    have h := monitorWrite_keeps q.request s
    rwa [hm] at h
  have hqueue : u.capture.queue = before ++ q :: after := hkeeps.capture.symm ▸ hq
  rw [captureTake_monitor hp hq hb hu hj, hm, State.captured, ← hkeeps.takes, ← hkeeps.capture]
  exact congrArg Outcome.next (passWrite_capture hqueue hb hu (toMonitor_isWrite hj))

/-- CAPTURE_REQUEST_TAKE of a write that the monitor refuses, its state left as it was. -/
theorem captureTake_refused (hp : s.phase = .running) (hq : s.capture.queue = before ++ q :: after)
    (hb : ∀ p ∈ before, p.progress ≠ .untaken) (hu : q.progress = .untaken) (hj : s.judge .capture q.request = .toMonitor)
    {reason : Reason} (hm : monitorWrite q.request s = (s, .refused reason)) :
    exec .captureRequestTake s = .next { s with
      takes := s.takes + 1
      capture := { s.capture with
        queue := before ++ after, acks := s.capture.acks ++ [{ tag := q.request.tag, body := .writeStatus reason.status }] }
      cond := s.cond.occur 15 ((violation .capture q.request reason).record s.planner.frame) s.statusStands } := by
  rw [captureTake_monitor hp hq hb hu hj, hm]
  simp only [finishMonitorWrite, refuseWrite_capture hp hq hb hu (toMonitor_isWrite hj)]

end Take

/-! ### The monitor's verdict -/

section Verdict

variable {r : Request} {g : Ring} {ws : List AreaWord} {slot : Nat} {s : State}

theorem acceptedOpening_iff : acceptedOpening ws = true ↔ covers ws 0 = true ∧ covers ws 1 = true := Bool.and_eq_true_iff

theorem monitorWrite_spans (hg : s.ring = some g) (h : spansSlots (g.areaWords r) = true) :
    monitorWrite r s = (s, .refused .spansSlots) := by
  simp only [monitorWrite, hg, h, if_true]

/-- R2, R165: a write that does not span and makes no load is judged by the acquisition state. -/
theorem monitorWrite_ring (hg : s.ring = some g) (h : spansSlots (g.areaWords r) = false)
    (hload : covers (g.areaWords r) 0 = true ∧ covers (g.areaWords r) 1 = true → s.loadsAtOpening = false) :
    monitorWrite r s = ringWrite r g (g.areaWords r) s := by
  have hno : ¬ (acceptedOpening (g.areaWords r) && s.loadsAtOpening) = true := fun hc => by
    obtain ⟨ha, hl⟩ := Bool.and_eq_true_iff.mp hc
    exact Bool.eq_false_iff.mp (hload (acceptedOpening_iff.mp ha)) hl
  simp only [monitorWrite, hg, h, Bool.false_eq_true, if_false, hno]

theorem ringWrite_slot (hslot : slotOf ws = some slot) (ha : s.monitor.acquisition = .off ∨ s.monitor.acquisition = .acquired) :
    ringWrite r g ws s = slotWrite g (firstAddr r) slot ws s := by
  rcases ha with ha | ha <;> simp only [ringWrite, hslot, ha]

theorem ringWrite_acquiring (hslot : slotOf ws = some slot) (ha : s.monitor.acquisition = .acquiring) :
    ringWrite r g ws s = acquiringWrite r g slot ws s := by
  simp only [ringWrite, hslot, ha]

theorem ringWrite_failed (hslot : slotOf ws = some slot) (ha : s.monitor.acquisition = .failed) :
    ringWrite r g ws s = (s, .passed (trimmed ws)) := by
  simp only [ringWrite, hslot, ha]

/-- R4: a write that covers no header word 0 is no opening burst. -/
theorem not_opening (h : covers ws 0 = false) : acceptedOpening ws = false ∧ rejectedOpening ws = false := by
  simp only [acceptedOpening, rejectedOpening, h, Bool.false_and, and_self]

theorem slotWrite_closed {addr : Nat} {f : FieldRecord} (h : covers ws 0 = false) (hf : s.history.ofSlot slot = some f)
    (hc : f.state ≠ .filling) : slotWrite g addr slot ws s = (s, .refused .closedSlot) := by
  have hclosed : f.closed = true := f.closed_eq_true_iff.mpr hc
  simp only [slotWrite, (not_opening h).1, (not_opening h).2, Bool.false_eq_true, if_false, hf, hclosed, if_true]

theorem slotWrite_vacant {addr : Nat} (h : covers ws 0 = false) (hf : s.history.ofSlot slot = none)
    (hline : ∃ w ∈ ws, w.1.isLine = true) : slotWrite g addr slot ws s = (s, .refused .vacantSlot) := by
  have hany : ws.any (fun w => w.1.isLine) = true := List.any_eq_true.mpr hline
  simp only [slotWrite, (not_opening h).1, (not_opening h).2, Bool.false_eq_true, if_false, hf, hany, if_true]

/-- R4 to R11: a write of the filling slot. -/
theorem slotWrite_filling {addr : Nat} {f : FieldRecord} (h : covers ws 0 = false) (hf : s.history.ofSlot slot = some f)
    (hc : f.state = .filling) : slotWrite g addr slot ws s = (endMark ws (lineWords g ws s), .passed (trimmed ws)) := by
  have hclosed : f.closed = false := Bool.eq_false_iff.mpr fun he => f.closed_eq_true_iff.mp he hc
  simp only [slotWrite, (not_opening h).1, (not_opening h).2, Bool.false_eq_true, if_false, hf, hclosed]

/-- R4: the monitor hands on all but the refused words, and those trimmed. -/
theorem slotWrite_handed {addr : Nat} : (∃ reason, slotWrite g addr slot ws s = (s, .refused reason)) ∨
    (slotWrite g addr slot ws s).2 = .passed (trimmed ws) := by
  unfold slotWrite
  split
  · exact .inr rfl
  · split
    · exact .inr rfl
    · split
      · split
        · exact .inl ⟨_, rfl⟩
        · exact .inr rfl
      · split
        · exact .inl ⟨_, rfl⟩
        · exact .inr rfl

end Verdict

end Sys2Proof.Machine
end

section
/-! The monitor's refusals and what it hands on (R2, R4, R10), and acquisition (R20 to R22). -/

namespace Sys2Proof.Machine

open Host (Outcome)

/-! ### The ring across a change of the monitor (R3, R23) -/

section RingAcross

variable {s u : State} {g : Ring}

/-- R3, R23: the ring with the lines acquired. -/
theorem ring_acquired (hg : s.ring = some g) (hset : u.settings = s.settings) (hw : u.windows = s.windows)
    (ha : u.monitor.acquisition = .acquired) : u.ring = some { g with lines := u.monitor.acquiredL } := by
  simp only [State.ring, State.window, hset, hw, ha, State.knownL] at hg ⊢
  split at hg
  · next hi hf =>
    split at hg
    · next hfits =>
      cases hg
      simp only [hi, hfits, if_true, reduceCtorEq, or_true]
    · cases hg
  · cases hg

/-- R3: while the line count is not known the ring is that of Lmax. -/
theorem ring_unknown (hg : s.ring = some g) (hset : u.settings = s.settings) (hw : u.windows = s.windows)
    (hs : s.monitor.acquisition = .acquiring) (ha : u.monitor.acquisition = .acquiring ∨ u.monitor.acquisition = .failed) :
    u.ring = some g := by
  rw [← hg]
  rcases ha with ha | ha <;> simp only [State.ring, State.window, hset, hw, hs, ha, reduceCtorEq, or_self, if_false]

end RingAcross

/-! ### The end of a measurement (R21, R22) -/

section Measured

variable {count : Nat} {s : State}

theorem endMeasured_eq (count : Nat) (s : State) : endMeasured count s = { s with
    monitor := (endMeasured count s).monitor, cond := (endMeasured count s).cond } := by
  unfold endMeasured
  simp only
  split <;> split <;> rfl

/-- R21: two measured counts agree where they differ by at most 1. -/
theorem agreement_some {p : Nat} (hp : s.monitor.previousCount = some p) (hle : p ≤ count + 1) (hge : count ≤ p + 1) :
    agreement s.monitor.previousCount count = some (max p count) := by
  rw [hp, agreement, if_pos (show absDiff p count ≤ 1 by rw [absDiff]; omega)]

theorem agreement_none (h : ∀ p, s.monitor.previousCount = some p → count + 1 < p ∨ p + 1 < count) :
    agreement s.monitor.previousCount count = none := by
  cases hp : s.monitor.previousCount with
  | none => rfl
  | some p =>
    have hfar := h p hp
    rw [agreement, if_neg (show ¬ absDiff p count ≤ 1 by rw [absDiff]; omega)]

/-- R21, R22: what every end of a measurement does, agreed or not. -/
theorem endMeasured_monitor (count : Nat) (s : State) :
    (endMeasured count s).monitor.measuredFields = s.monitor.measuredFields + 1 ∧ (endMeasured count s).monitor.measurement = none := by
  unfold endMeasured
  simp only
  split <;> split <;> exact ⟨rfl, rfl⟩

theorem endMeasured_acquires {l : Nat} (h : agreement s.monitor.previousCount count = some l) (hlo : 120 ≤ l) (hhi : l ≤ 320)
    (hp : s.phase ≠ .asserted) : (endMeasured count s).monitor.acquisition = .acquired ∧
      (endMeasured count s).monitor.acquiredL = l ∧ (endMeasured count s).cond.occurred.getLsbD 6 = true := by
  have hrange : 120 ≤ l ∧ l ≤ Config.maxLines := ⟨hlo, hhi⟩
  simp only [endMeasured, h, hrange, if_true, and_self]
  exact ⟨rfl, rfl, raise_bit _ hp (by decide) rfl⟩

theorem endMeasured_outside {l : Nat} (h : agreement s.monitor.previousCount count = some l) (hl : l < 120 ∨ 320 < l)
    (hp : s.phase ≠ .asserted) : (endMeasured count s).monitor.acquisition = .failed ∧
      (endMeasured count s).monitor.timerRunning = false ∧ (endMeasured count s).cond.occurred.getLsbD 7 = true := by
  have hrange : ¬ (120 ≤ l ∧ l ≤ Config.maxLines) := fun hc => by
    have hmax : l ≤ 320 := hc.2
    omega
  simp only [endMeasured, h, hrange, if_false]
  exact ⟨rfl, rfl, raise_bit _ hp (by decide) rfl⟩

theorem endMeasured_givesUp (h : agreement s.monitor.previousCount count = none) (hm : 8 ≤ s.monitor.measuredFields + 1)
    (hp : s.phase ≠ .asserted) : (endMeasured count s).monitor.previousCount = some count ∧
      (endMeasured count s).monitor.acquisition = .failed ∧ (endMeasured count s).cond.occurred.getLsbD 7 = true := by
  have hmax : Config.maxMeasured ≤ s.monitor.measuredFields + 1 := hm
  simp only [endMeasured, h, hmax, if_true]
  exact ⟨rfl, rfl, raise_bit _ hp (by decide) rfl⟩

theorem endMeasured_goesOn (h : agreement s.monitor.previousCount count = none) (hm : s.monitor.measuredFields + 1 < 8) :
    (endMeasured count s).monitor.previousCount = some count ∧
      (endMeasured count s).monitor.acquisition = s.monitor.acquisition := by
  have hmax : ¬ Config.maxMeasured ≤ s.monitor.measuredFields + 1 := Nat.not_le.mpr hm
  simp only [endMeasured, h, hmax, if_false, and_self]

theorem endMeasured_acquisition (count : Nat) (s : State) : (endMeasured count s).monitor.acquisition = .acquired ∨
    (endMeasured count s).monitor.acquisition = .failed ∨
    (endMeasured count s).monitor.acquisition = s.monitor.acquisition := by
  unfold endMeasured
  simp only
  split
  · split
    · exact .inl rfl
    · exact .inr (.inl rfl)
  · split
    · exact .inr (.inl rfl)
    · exact .inr (.inr rfl)

theorem endMeasurement_acquisition (s : State) : (endMeasurement s).monitor.acquisition = .acquired ∨
    (endMeasurement s).monitor.acquisition = .failed ∨
    (endMeasurement s).monitor.acquisition = s.monitor.acquisition := by
  unfold endMeasurement
  split
  · exact endMeasured_acquisition _ s
  · exact .inr (.inr rfl)

end Measured

/-! ### An opening burst while ACQUIRING (R20) -/

section Acquiring

variable {r : Request} {g g1 : Ring} {slot : Nat} {ws : List AreaWord} {s : State}

theorem acquiringOpening_acquiring (h : (endMeasurement s).monitor.acquisition = .acquiring) :
    acquiringOpening r g slot ws s = (measureWords ws { endMeasurement s with
      monitor := (endMeasurement s).monitor.measure slot g.lines (headerOf ws).count }, .passed (trimmed ws)) := by
  simp only [acquiringOpening, h]

theorem acquiringOpening_acquired (h : (endMeasurement s).monitor.acquisition = .acquired) (hg : (endMeasurement s).ring = some g1) :
    acquiringOpening r g slot ws s =
      (openField g1 slot (g1.areaWords r) (endMeasurement s), .passed (trimmed (g1.areaWords r))) := by
  simp only [acquiringOpening, h, hg]

theorem acquiringOpening_failed (h : (endMeasurement s).monitor.acquisition = .failed) :
    acquiringOpening r g slot ws s = (endMeasurement s, .passed (trimmed ws)) := by
  simp only [acquiringOpening, h]

theorem acquiringWrite_opening (h : acceptedOpening ws = true) : acquiringWrite r g slot ws s = acquiringOpening r g slot ws s :=
  if_pos h

theorem acquiringWrite_rejected (h : covers ws 0 = true) (h1 : covers ws 1 = false) :
    acquiringWrite r g slot ws s = (raise (.fieldRejected (firstAddr r) slot) s, .passed (trimmed ws)) := by
  simp only [acquiringWrite, acceptedOpening, rejectedOpening, h, h1, Bool.and_false, Bool.false_eq_true, if_false, Bool.not_false,
    Bool.and_self, if_true]

theorem acquiringWrite_other (h : covers ws 0 = false) :
    acquiringWrite r g slot ws s = (measureEnd slot ws (measureWords ws s), .passed (trimmed ws)) := by
  simp only [acquiringWrite, (not_opening h).1, (not_opening h).2, Bool.false_eq_true, if_false]

theorem slotWrite_opening {addr : Nat} (h : acceptedOpening ws = true) :
    slotWrite g addr slot ws s = (openField g slot ws s, .passed (trimmed ws)) :=
  if_pos h

/-- R20, R21: the burst is handled as in the state that the end of the measurement leaves. -/
theorem monitorWrite_endMeasurement (hg : s.ring = some g) (hspan : spansSlots (g.areaWords r) = false)
    (hslot : slotOf (g.areaWords r) = some slot) (ha : s.monitor.acquisition = .acquiring)
    (hopen : covers (g.areaWords r) 0 = true ∧ covers (g.areaWords r) 1 = true) (hload : s.loadsAtOpening = false)
    {m : Measurement} (hm : s.monitor.measurement = some m) :
    monitorWrite r (endMeasured (measuredCount m.extents) s) = monitorWrite r s := by
  have hend := endMeasurement_some hm
  obtain ⟨-, hnone⟩ := endMeasured_monitor (measuredCount m.extents) s
  rw [monitorWrite_ring hg hspan (fun _ => hload), ringWrite_acquiring hslot ha, acquiringWrite_opening (acceptedOpening_iff.mpr hopen)]
  rw [← hend] at hnone ⊢
  obtain ⟨-, -, -, hset, hwindows⟩ := endMeasurement_fields s
  have hload1 : (endMeasurement s).loadsAtOpening = false := by rw [State.loadsAtOpening, hset]; exact hload
  rcases endMeasurement_acquisition s with h | h | h
  · have hg1 := ring_acquired hg hset hwindows h
    have hopen1 := hopen
    rw [← covers_lines g (endMeasurement s).monitor.acquiredL r 0, ← covers_lines g (endMeasurement s).monitor.acquiredL r 1] at hopen1
    rw [acquiringOpening_acquired h hg1, monitorWrite_ring hg1 (by rw [spansSlots_lines, hspan]) (fun _ => hload1),
      ringWrite_slot (by rw [slotOf_lines, hslot]) (.inr h), slotWrite_opening (acceptedOpening_iff.mpr hopen1)]
  · rw [acquiringOpening_failed h, monitorWrite_ring (ring_unknown hg hset hwindows ha (.inr h)) hspan (fun _ => hload1),
      ringWrite_failed hslot h]
  · have h1 := h.trans ha
    rw [monitorWrite_ring (ring_unknown hg hset hwindows ha (.inl h1)) hspan (fun _ => hload1), ringWrite_acquiring hslot h1,
      acquiringWrite_opening (acceptedOpening_iff.mpr hopen), acquiringOpening_acquiring h1,
      acquiringOpening_acquiring (by rw [endMeasurement_none hnone]; exact h1), endMeasurement_none hnone]

end Acquiring

end Sys2Proof.Machine
end

section
/-! What the monitor refuses and hands on (R2, R4, R10), and acquisition at a capture take (R20 to R22). -/

namespace Sys2Proof.Machine

open Host (Outcome)

/-! ### What an opening burst leaves of the acquisition (R5) -/

section Handed

variable {r : Request} {g : Ring} {slot : Nat} {ws : List AreaWord} {s : State}

theorem closeField_acquisition (c : CloseCause) (s : State) : (closeField c s).monitor.acquisition = s.monitor.acquisition ∧
    (closeField c s).monitor.acquiredL = s.monitor.acquiredL := by
  unfold closeField
  split
  · simp only [closeRecord, scheduleStatus_monitor, raiseAll_monitor, and_self]
  · exact ⟨rfl, rfl⟩

theorem openField_acquisition (g : Ring) (slot : Nat) (ws : List AreaWord) (s : State) :
    (openField g slot ws s).monitor.acquisition = s.monitor.acquisition ∧
      (openField g slot ws s).monitor.acquiredL = s.monitor.acquiredL := by
  unfold openField
  simp only
  rw [(lineWords_lines _ _ _).monitor, (admit_eq _ _ _ _).2, (evictSlot_note _ _).2]
  exact closeField_acquisition _ _

/-- R20: where an opening burst ends acquisition and is admitted, its words lie on the acquired lines. -/
theorem acquiringOpening_handed (hg : s.ring = some g) (ha : s.monitor.acquisition = .acquiring) :
    ((acquiringOpening r g slot ws s).1.monitor.acquisition ≠ .acquired ∧
      (acquiringOpening r g slot ws s).2 = .passed (trimmed ws)) ∨
    ((acquiringOpening r g slot ws s).1.monitor.acquisition = .acquired ∧ (acquiringOpening r g slot ws s).2 =
      .passed (trimmed ({ g with lines := (acquiringOpening r g slot ws s).1.monitor.acquiredL }.areaWords r))) := by
  obtain ⟨-, -, -, hset, hwindows⟩ := endMeasurement_fields s
  rcases endMeasurement_acquisition s with h | h | h
  · obtain ⟨hacquired, hlines⟩ := openField_acquisition { g with lines := (endMeasurement s).monitor.acquiredL } slot
      ({ g with lines := (endMeasurement s).monitor.acquiredL }.areaWords r) (endMeasurement s)
    rw [acquiringOpening_acquired h (ring_acquired hg hset hwindows h)]
    exact .inr ⟨hacquired.trans h, by rw [hlines]⟩
  · rw [acquiringOpening_failed h]
    exact .inl ⟨by rw [h]; decide, rfl⟩
  · have h1 := h.trans ha
    rw [acquiringOpening_acquiring h1]
    refine .inl ⟨?_, rfl⟩
    rw [measureWords]
    exact fun hc => absurd (h1.symm.trans hc) (by decide)

/-- R2, R4, R10, R20: the monitor refuses, state and all as it was, or hands the words on trimmed: by the lines acquired where the
write ends acquisition and is admitted. -/
theorem ringWrite_handed (hg : s.ring = some g) :
    (∃ reason, ringWrite r g (g.areaWords r) s = (s, .refused reason) ∧
      (s.monitor.acquisition = .off ∨ s.monitor.acquisition = .acquired)) ∨
    (¬ (s.monitor.acquisition = .acquiring ∧ (ringWrite r g (g.areaWords r) s).1.monitor.acquisition = .acquired ∧
        acceptedOpening (g.areaWords r) = true) ∧
      (ringWrite r g (g.areaWords r) s).2 = .passed (trimmed (g.areaWords r))) ∨
    ((s.monitor.acquisition = .acquiring ∧ (ringWrite r g (g.areaWords r) s).1.monitor.acquisition = .acquired ∧
        acceptedOpening (g.areaWords r) = true) ∧
      (ringWrite r g (g.areaWords r) s).2 =
        .passed (trimmed ({ g with lines := (ringWrite r g (g.areaWords r) s).1.monitor.acquiredL }.areaWords r))) := by
  cases hslot : slotOf (g.areaWords r) with
  | none =>
    have hpass : ringWrite r g (g.areaWords r) s = (s, .passed (trimmed (g.areaWords r))) := by simp only [ringWrite, hslot]
    rw [hpass]
    exact .inr (.inl ⟨fun h => absurd (h.1.symm.trans h.2.1) (by decide), rfl⟩)
  | some slot =>
    cases ha : s.monitor.acquisition with
    | off =>
      rw [ringWrite_slot hslot (.inl ha)]
      rcases slotWrite_handed with ⟨reason, h⟩ | h
      · exact .inl ⟨reason, h, .inl rfl⟩
      · exact .inr (.inl ⟨fun hc => absurd hc.1 (by decide), h⟩)
    | acquired =>
      rw [ringWrite_slot hslot (.inr ha)]
      rcases slotWrite_handed with ⟨reason, h⟩ | h
      · exact .inl ⟨reason, h, .inr rfl⟩
      · exact .inr (.inl ⟨fun hc => absurd hc.1 (by decide), h⟩)
    | failed =>
      rw [ringWrite_failed hslot ha]
      exact .inr (.inl ⟨fun hc => absurd hc.1 (by decide), rfl⟩)
    | acquiring =>
      rw [ringWrite_acquiring hslot ha]
      by_cases hopen : acceptedOpening (g.areaWords r) = true
      · rw [acquiringWrite_opening hopen]
        rcases acquiringOpening_handed hg ha with ⟨hne, h⟩ | ⟨heq, h⟩
        · exact .inr (.inl ⟨fun hc => hne hc.2.1, h⟩)
        · exact .inr (.inr ⟨⟨rfl, heq, hopen⟩, h⟩)
      · refine .inr (.inl ⟨fun hc => hopen hc.2.2, ?_⟩)
        rw [acquiringWrite, if_neg hopen]
        split <;> rfl

end Handed

/-- R2, R4: what the monitor refuses. -/
theorem monitorWrite_refused {r : Request} {g : Ring} {reason : Reason} {s : State} (hg : s.ring = some g)
    (h : (reason = .spansSlots ∧ spansSlots (g.areaWords r) = true) ∨
      (spansSlots (g.areaWords r) = false ∧ covers (g.areaWords r) 0 = false ∧
        (s.monitor.acquisition = .off ∨ s.monitor.acquisition = .acquired) ∧
        ((reason = .closedSlot ∧ ∃ slot f, slotOf (g.areaWords r) = some slot ∧ s.history.ofSlot slot = some f ∧
            f.state ≠ .filling) ∨
          (reason = .vacantSlot ∧ (∃ slot, slotOf (g.areaWords r) = some slot ∧ s.history.ofSlot slot = none) ∧
            ∃ w ∈ g.areaWords r, w.1.isLine = true)))) :
    monitorWrite r s = (s, .refused reason) ∧ reason.status = .accessError := by
  rcases h with ⟨rfl, hspan⟩ | ⟨hspan, h0, ha, h⟩
  · exact ⟨monitorWrite_spans hg hspan, rfl⟩
  · have hload : covers (g.areaWords r) 0 = true ∧ covers (g.areaWords r) 1 = true → s.loadsAtOpening = false := fun hc =>
      absurd (h0.symm.trans hc.1) Bool.false_ne_true
    rw [monitorWrite_ring hg hspan hload]
    rcases h with ⟨rfl, slot, f, hslot, hf, hclosed⟩ | ⟨rfl, ⟨slot, hslot, hf⟩, hline⟩
    · rw [ringWrite_slot hslot ha]
      exact ⟨slotWrite_closed h0 hf hclosed, rfl⟩
    · rw [ringWrite_slot hslot ha]
      exact ⟨slotWrite_vacant h0 hf hline, rfl⟩

theorem captured_queue_ne (s u : State) (before after : List QueuePosition) (q : QueuePosition) (ws : List WriteWord) :
    (s.captured u before after q ws).capture.queue ≠ before ++ after := fun h => by
  have hlength := congrArg List.length h
  simp only [State.captured, List.length_append, List.length_cons] at hlength
  omega

/-- Settles O21. -/
theorem monitorRefusesOrTrimsTheWrite : Obligations.MonitorRefusesOrTrimsTheWrite := by
  intro before after q g s hp hq hb hu hj hg opening
  have hwrite := toMonitor_isWrite hj
  refine ⟨fun reason h => ?_, fun hload => ?_⟩
  · obtain ⟨hm, hstatus⟩ := monitorWrite_refused hg h
    rw [captureTake_refused hp hq hb hu hj hm, hstatus]
  · have hkeeps := monitorWrite_keeps q.request s
    cases hspan : spansSlots (g.areaWords q.request) with
    | true =>
      refine ⟨_, g, captureTake_refused hp hq hb hu hj (monitorWrite_spans hg hspan), rfl, fun _ => rfl, fun h => ?_, .inl rfl,
        fun _ h => absurd h (by decide)⟩
      exact absurd (h.1.symm.trans h.2.1) (by decide)
    | false =>
      have hring := monitorWrite_ring hg hspan hload
      rw [hring] at hkeeps
      have hlength : ∀ g1 : Ring, (trimmed (g1.areaWords q.request)).length = q.request.count := fun g1 => by
        rw [trimmed_length, areaWords_length g1 hwrite]
      rcases ringWrite_handed hg (r := q.request) with ⟨reason, h, ha⟩ | ⟨hno, h⟩ | ⟨⟨ha, hacquired, hopen⟩, h⟩
      · refine ⟨_, g, captureTake_refused hp hq hb hu hj (hring.trans h), rfl, fun _ => rfl, fun hc => ?_, .inl rfl, fun hc => ?_⟩
        · exact absurd (hc.1.symm.trans hc.2.1) (by decide)
        · rcases ha with ha | ha <;> rw [ha] at hc <;> exact absurd hc (by decide)
      · refine ⟨_, g, captureTake_passed hp hq hb hu hj (hring.trans (Prod.ext rfl h)), hkeeps.dram, fun _ => rfl, fun hc => ?_,
          .inr ⟨_, rfl, hlength g, fun x hx => ?_⟩, fun _ _ => ⟨captured_queue_ne _ _ _ _ _ _, rfl⟩⟩
        · exact absurd ⟨hc.1, hc.2.1, acceptedOpening_iff.mpr hc.2.2⟩ hno
        · exact (List.cons.inj (mem_zip_trimmed hx)).1.symm
      · refine ⟨_, _, captureTake_passed hp hq hb hu hj (hring.trans (Prod.ext rfl h)), hkeeps.dram, fun hc => ?_, fun _ => rfl,
          .inr ⟨_, rfl, hlength _, fun x hx => ?_⟩, fun _ _ => ⟨captured_queue_ne _ _ _ _ _ _, rfl⟩⟩
        · exact absurd ⟨ha, hacquired, acceptedOpening_iff.mp hopen⟩ hc
        · exact (List.cons.inj (mem_zip_trimmed hx)).1.symm

end Sys2Proof.Machine
end

section
/-! Acquisition (R20 to R22): the extents of a measurement, its count, and the capture takes that keep it. -/

namespace Sys2Proof.Machine

open Host (Outcome)

/-! ### The measured count (R21) -/

theorem measuredCount_eq_zero_iff (es : List Nat) : measuredCount es = 0 ↔ ∀ e ∈ es, e = 0 := by
  induction es with
  | nil => simp [measuredCount]
  | cons e es ih =>
    rw [measuredCount, List.forall_mem_cons, ← ih]
    split
    next hrest =>
      split
      next he => simp [hrest, he]
      next he => simp [he]
    next hrest => simp [hrest]

theorem forall_mem_eq_zero_iff (es : List Nat) : (∀ e ∈ es, e = 0) ↔ ∀ k, es.getD k 0 = 0 := by
  induction es with
  | nil => simp
  | cons e es ih =>
    rw [List.forall_mem_cons, ih]
    refine ⟨fun ⟨he, h⟩ k => ?_, fun h => ⟨h 0, fun k => h (k + 1)⟩⟩
    cases k with
    | zero => exact he
    | succ k => exact h k

theorem measuredCount_eq_succ_iff (es : List Nat) (n : Nat) :
    measuredCount es = n + 1 ↔ 0 < es.getD n 0 ∧ ∀ k, n < k → es.getD k 0 = 0 := by
  induction es generalizing n with
  | nil => simp [measuredCount]
  | cons e es ih =>
    cases n with
    | zero =>
      have hshift : (∀ k, 0 < k → (e :: es).getD k 0 = 0) ↔ measuredCount es = 0 := by
        rw [measuredCount_eq_zero_iff, forall_mem_eq_zero_iff]
        refine ⟨fun h k => h (k + 1) (Nat.succ_pos k), fun h k hk => ?_⟩
        obtain ⟨m, rfl⟩ := Nat.exists_eq_succ_of_ne_zero (Nat.ne_of_gt hk)
        exact h m
      rw [hshift, measuredCount, List.getD_cons_zero]
      split
      · split <;> omega
      · omega
    | succ n =>
      have hshift : (∀ k, n + 1 < k → (e :: es).getD k 0 = 0) ↔ ∀ k, n < k → es.getD k 0 = 0 := by
        refine ⟨fun h k hk => h (k + 1) (Nat.succ_lt_succ hk), fun h k hk => ?_⟩
        obtain ⟨m, rfl⟩ := Nat.exists_eq_succ_of_ne_zero (Nat.ne_of_gt (Nat.lt_of_le_of_lt (Nat.zero_le _) hk))
        exact h m (Nat.lt_of_succ_lt_succ hk)
      rw [hshift, List.getD_cons_succ, ← ih, measuredCount]
      split
      · split <;> omega
      · omega

/-! ### A run of pixel words (R8) -/

/-- R8: the extent after n contiguous pixel words from word x on: a run that joins the words before it extends them. -/
def runExtent (extent x n : Nat) : Nat := if x ≤ extent then max extent (x + n) else extent

theorem runExtent_zero (extent x : Nat) : runExtent extent x 0 = extent := by
  rw [runExtent]
  split <;> omega

/-- R8: the first word of a run joins the words before it, and the rest of the run goes on from there. -/
theorem runExtent_extendTo (extent x n : Nat) : runExtent (extendTo extent x) (x + 1) n = runExtent extent x (n + 1) := by
  simp only [runExtent, extendTo]
  (repeat' split) <;> omega

theorem modifyAt_eq_set {α : Type} (f : α → α) {l : List α} {n : Nat} (d : α) (h : n < l.length) :
    modifyAt f l n = l.set n (f (l.getD n d)) := by
  induction l generalizing n with
  | nil => exact absurd h (Nat.not_lt_zero n)
  | cons x l ih =>
    cases n with
    | zero => rfl
    | succ n => rw [modifyAt, List.set_cons_succ, List.getD_cons_succ, ih (Nat.lt_of_succ_lt_succ h)]

/-! ### The measurement (R20) -/

theorem measurement_word_pixel (m : Measurement) (line x : Nat) (w : WriteWord) :
    m.word (.pixel m.slot line x, w) = { m with extents := modifyAt (fun e => extendTo e x) m.extents line } :=
  if_pos rfl

theorem measurement_word_other (m : Measurement) {w : AreaWord} (h : ∀ line x, w.1 ≠ .pixel m.slot line x) : m.word w = m := by
  unfold Measurement.word
  split
  · next slot line x hw =>
    exact if_neg fun hslot => h line x (by rw [hw, hslot])
  · rfl
  · rfl
  · rfl
  · rfl
  · rfl

/-- R8, R20: the extents after a run of pixel words of the measured slot. -/
theorem measurement_run (m : Measurement) (line x k : Nat) (words : List WriteWord) (h : line < m.extents.length) :
    ((words.zipIdx k).map (fun w => ((Area.pixel m.slot line (x + w.2), w.1) : AreaWord))).foldl Measurement.word m =
      { m with extents := m.extents.set line (runExtent (m.extents.getD line 0) (x + k) words.length) } := by
  induction words generalizing m k with
  | nil =>
    rw [List.length_nil, runExtent_zero, ← List.getElem_eq_getD (h := h), List.set_getElem_self]
    rfl
  | cons w words ih =>
    have hword := measurement_word_pixel m line (x + k) w
    rw [modifyAt_eq_set _ 0 h] at hword
    have hrest := ih (m.word (.pixel m.slot line (x + k), w)) (k + 1) (by rw [hword, List.length_set]; exact h)
    rw [List.zipIdx_cons, List.map_cons, List.foldl_cons, List.length_cons]
    rw [hword] at hrest ⊢
    refine hrest.trans ?_
    simp only [List.set_set, List.getD_eq_getElem?_getD, List.getElem?_set_self h, Option.getD_some]
    rw [← Nat.add_assoc, runExtent_extendTo]

/-- R20: the words of a write keep the measurement's slot and capture count. -/
theorem measurement_words_fields (ws : List AreaWord) (m : Measurement) : (ws.foldl Measurement.word m).slot = m.slot ∧
    (ws.foldl Measurement.word m).captureCount = m.captureCount := by
  induction ws generalizing m with
  | nil => exact ⟨rfl, rfl⟩
  | cons w ws ih =>
    have hword : (m.word w).slot = m.slot ∧ (m.word w).captureCount = m.captureCount := by
      unfold Measurement.word
      split
      · split <;> exact ⟨rfl, rfl⟩
      all_goals exact ⟨rfl, rfl⟩
    exact ⟨(ih _).1.trans hword.1, (ih _).2.trans hword.2⟩

/-- R2: a write that does not span lies in the slot of its first word. -/
theorem slot_of_mem {ws : List AreaWord} {slot : Nat} (hspan : spansSlots ws = false) (hslot : slotOf ws = some slot) {w : AreaWord}
    (h : w ∈ ws) : w.1.slot = some slot := by
  cases ws with
  | nil => cases h
  | cons v ws =>
    rcases List.mem_cons.mp h with rfl | h
    · exact hslot
    · have hsame := List.any_eq_false.mp hspan w h
      rw [decide_eq_true_eq, Classical.not_not] at hsame
      exact hsame.trans hslot

/-- R20: a write in another slot than the measured one measures nothing. -/
theorem measurement_words_elsewhere {ws : List AreaWord} {slot : Nat} {m : Measurement} (hspan : spansSlots ws = false)
    (hslot : slotOf ws = some slot) (hm : m.slot ≠ slot) : ws.foldl Measurement.word m = m := by
  have hstep : ∀ w ∈ ws, m.word w = m := fun w hw => measurement_word_other m fun line x hpixel => by
    have hw := slot_of_mem hspan hslot hw
    rw [hpixel] at hw
    exact hm (Option.some.inj hw)
  clear hspan hslot
  induction ws with
  | nil => rfl
  | cons w ws ih =>
    rw [List.foldl_cons, hstep w (List.mem_cons_self ..)]
    exact ih fun v hv => hstep v (List.mem_cons_of_mem w hv)

/-- R20: a measurement brought up to date. -/
theorem measureWords_some {ws : List AreaWord} {s : State} {m : Measurement} (h : s.monitor.measurement = some m) :
    measureWords ws s = { s with monitor := { s.monitor with measurement := some (ws.foldl Measurement.word m) } } := by
  rw [measureWords, h]
  rfl

theorem measureWords_none {ws : List AreaWord} {s : State} (h : s.monitor.measurement = none) : measureWords ws s = s := by
  rw [measureWords, h, Option.map_none, ← h]

theorem measureEnd_none {slot : Nat} {ws : List AreaWord} {s : State} (h : s.monitor.measurement = none) :
    measureEnd slot ws s = s := by
  rw [measureEnd, h]

theorem measureEnd_some {slot : Nat} {ws : List AreaWord} {s : State} {m : Measurement} (h : s.monitor.measurement = some m) :
    measureEnd slot ws s = if m.slot = slot ∧ covers ws 4 = true ∧ coveredValue ws 4 = m.captureCount
      then endMeasured (measuredCount m.extents) s else s := by
  rw [measureEnd, h]
  simp only [endMeasurement_some h]

/-! ### The captures of acquisition (R20 to R22) -/

/-- R144: a request is judged by the windows and the straps alone. -/
theorem judge_congr {s u : State} (hw : u.windows = s.windows) (hs : u.straps = s.straps) (port : Port) (r : Request) :
    u.judge port r = s.judge port r := by
  have hregion : u.region = s.region := by
    have hpage : u.pageBase = s.pageBase := by rw [State.pageBase, State.pageBase, hs]
    funext a
    simp only [State.region, hpage, hw]
  have hdram : u.dramSize = s.dramSize := by rw [State.dramSize, State.dramSize, hs]
  have hone : u.oneRegion r = s.oneRegion r := by rw [State.oneRegion, State.oneRegion, hregion]
  rw [State.judge, State.judge, hone, hregion, hdram]

section Takes

variable {before after : List QueuePosition} {q : QueuePosition} {g : Ring} {slot : Nat} {s : State}

/-- R20: CAPTURE_REQUEST_TAKE of an opening burst that ends a measurement. -/
theorem captureTake_endMeasurement (hp : s.phase = .running) (hq : s.capture.queue = before ++ q :: after)
    (hb : ∀ p ∈ before, p.progress ≠ .untaken) (hu : q.progress = .untaken) (hj : s.judge .capture q.request = .toMonitor)
    (hg : s.ring = some g) (hspan : spansSlots (g.areaWords q.request) = false) (hslot : slotOf (g.areaWords q.request) = some slot)
    (ha : s.monitor.acquisition = .acquiring)
    (hopen : covers (g.areaWords q.request) 0 = true ∧ covers (g.areaWords q.request) 1 = true) (hload : s.loadsAtOpening = false)
    {m : Measurement} (hm : s.monitor.measurement = some m) :
    exec .captureRequestTake s = exec .captureRequestTake (endMeasured (measuredCount m.extents) s) := by
  have hsame := monitorWrite_endMeasurement hg hspan hslot ha hopen hload hm
  have heq := endMeasured_eq (measuredCount m.extents) s
  have hp1 : (endMeasured (measuredCount m.extents) s).phase = .running := by rw [heq]; exact hp
  have hq1 : (endMeasured (measuredCount m.extents) s).capture.queue = before ++ q :: after := by rw [heq]; exact hq
  have hwindows : (endMeasured (measuredCount m.extents) s).windows = s.windows := by rw [heq]
  have hstraps : (endMeasured (measuredCount m.extents) s).straps = s.straps := by rw [heq]
  have hj1 := (judge_congr hwindows hstraps .capture q.request).trans hj
  exact (captureTake_monitor hp hq hb hu hj).trans ((captureTake_monitor hp1 hq1 hb hu hj1).trans (by rw [hsame])).symm

end Takes

section Acquires

variable {r : Request} {g : Ring} {slot : Nat} {s : State}

/-- R22: while FAILED no write changes the monitor. -/
theorem monitorWrite_failed (hg : s.ring = some g) (hspan : spansSlots (g.areaWords r) = false)
    (hslot : slotOf (g.areaWords r) = some slot) (ha : s.monitor.acquisition = .failed)
    (hload : covers (g.areaWords r) 0 = true ∧ covers (g.areaWords r) 1 = true → s.loadsAtOpening = false) :
    monitorWrite r s = (s, .passed (trimmed (g.areaWords r))) :=
  (monitorWrite_ring hg hspan hload).trans (ringWrite_failed hslot ha)

theorem monitorWrite_acquiring (hg : s.ring = some g) (hspan : spansSlots (g.areaWords r) = false)
    (hslot : slotOf (g.areaWords r) = some slot) (ha : s.monitor.acquisition = .acquiring)
    (hload : covers (g.areaWords r) 0 = true ∧ covers (g.areaWords r) 1 = true → s.loadsAtOpening = false) :
    monitorWrite r s = acquiringWrite r g slot (g.areaWords r) s :=
  (monitorWrite_ring hg hspan hload).trans (ringWrite_acquiring hslot ha)

/-- R17, R20: an opening burst starts a measurement, its own words counting. -/
theorem acquiringWrite_starts {ws : List AreaWord} (hopen : covers ws 0 = true ∧ covers ws 1 = true)
    (ha : s.monitor.acquisition = .acquiring) (hm : s.monitor.measurement = none) :
    acquiringWrite r g slot ws s = ({ s with monitor := { s.monitor with
      measurement := some (ws.foldl Measurement.word
        { slot := slot, captureCount := coveredValue ws 0, extents := List.replicate g.lines 0 })
      timerRunning := true, timerCount := 0 } }, .passed (trimmed ws)) := by
  have hend := endMeasurement_none hm
  rw [acquiringWrite_opening (acceptedOpening_iff.mpr hopen), acquiringOpening_acquiring (by rw [hend]; exact ha), hend]
  rfl

/-- R20: a write while a measurement runs: its words, then the end of the measurement at the matching end mark. -/
theorem acquiringWrite_measures {ws : List AreaWord} {m : Measurement} (h0 : covers ws 0 = false)
    (hm : s.monitor.measurement = some m) :
    let u := { s with monitor := { s.monitor with measurement := some (ws.foldl Measurement.word m) } }
    acquiringWrite r g slot ws s = (if m.slot = slot ∧ covers ws 4 = true ∧ coveredValue ws 4 = m.captureCount
      then endMeasured (measuredCount (ws.foldl Measurement.word m).extents) u else u, .passed (trimmed ws)) := by
  intro u
  obtain ⟨hsame, hcount⟩ := measurement_words_fields ws m
  rw [acquiringWrite_other h0, measureWords_some hm, measureEnd_some (s := u) rfl, hsame, hcount]

end Acquires

/-- Settles O23. -/
theorem measurementEndAcquiresOrFails : Obligations.MeasurementEndAcquiresOrFails := by
  refine ⟨fun es => ⟨measuredCount_eq_zero_iff es, measuredCount_eq_succ_iff es⟩, fun m line x words => measurement_run m line x 0 words,
    fun m w => measurement_word_other m, fun count s hp => ?_, ?_⟩
  · obtain ⟨hfields, hmeasurement⟩ := endMeasured_monitor count s
    refine ⟨hfields, hmeasurement, endMeasured_eq count s, fun p hprev hle hge => ?_, fun hfar => ?_⟩
    · have hagree := agreement_some hprev hle hge
      exact ⟨fun hlo hhi => endMeasured_acquires hagree hlo hhi hp, fun hout => endMeasured_outside hagree hout hp⟩
    · have hnone := agreement_none hfar
      rcases Nat.lt_or_ge (s.monitor.measuredFields + 1) 8 with hlt | hge
      · obtain ⟨hprev, hacq⟩ := endMeasured_goesOn hnone hlt
        exact ⟨hprev, fun hle => absurd hlt (Nat.not_lt.mpr hle), fun _ => hacq⟩
      · obtain ⟨hprev, hfail⟩ := endMeasured_givesUp hnone hge hp
        exact ⟨hprev, fun _ => hfail, fun hlt => absurd hlt (Nat.not_lt.mpr hge)⟩
  · intro before after q g slot s hp hq hb hu hj hg hspan hslot ws opening taken
    have hpassed := fun (u : State) (h : monitorWrite q.request s = (u, .passed (trimmed ws))) =>
      captureTake_passed hp hq hb hu hj h
    have hno : covers ws 0 = false → opening → s.loadsAtOpening = false := fun h hopen =>
      absurd (h.symm.trans hopen.1) Bool.false_ne_true
    refine ⟨fun ha hload => hpassed s (monitorWrite_failed hg hspan hslot ha hload), fun ha => ?_⟩
    have hwrite := fun hload => monitorWrite_acquiring hg hspan hslot ha hload
    refine ⟨fun m hopen hload hm => captureTake_endMeasurement hp hq hb hu hj hg hspan hslot ha hopen hload hm,
      fun hopen hload hm => hpassed _ ((hwrite fun _ => hload).trans (acquiringWrite_starts hopen ha hm)),
      fun h0 h1 => hpassed _ ((hwrite fun hopen => ?_).trans (acquiringWrite_rejected h0 h1)), fun h0 hm => hpassed _ ?_,
      fun m h0 hm => ?_⟩
    · exact absurd (h1.symm.trans hopen.2) Bool.false_ne_true
    · rw [hwrite (hno h0), acquiringWrite_other h0, measureWords_none hm, measureEnd_none hm]
    · intro u
      have htake := (hwrite (hno h0)).trans (acquiringWrite_measures h0 hm)
      refine ⟨fun hmark => hpassed _ (htake.trans (by rw [if_pos hmark])), fun hmark => hpassed _ (htake.trans (by rw [if_neg hmark])),
        fun helse => ?_⟩
      have hsame : ws.foldl Measurement.word m = m := measurement_words_elsewhere hspan hslot helse
      simp only [u, hsame, ← hm]

end Sys2Proof.Machine
end

section
/-! The line words of a write of the filling slot (R8 to R11): a run of pixel words, the tag word, padding words, and the end mark. -/

namespace Sys2Proof.Machine

open Host (Outcome)

/-! ### One line of the filling record -/

/-- An update that leaves every record's state finds the same record FILLING. -/
theorem History.update_filling {h : History} {r : FieldRecord} {f : FieldRecord → FieldRecord} (hr : h.filling = some r)
    (hf : ∀ x, (f x).state = x.state) : (h.update r.number f).filling = some (f r) := by
  obtain ⟨hstate, before, after, hrecords, hbefore⟩ := List.find?_eq_some_iff_append.mp hr
  have hstands : ∀ x : FieldRecord, (if x.number = r.number then f x else x).state = x.state := fun x => by
    split
    · exact hf x
    · rfl
  simp only [History.filling, History.update, hrecords, List.map_append, List.map_cons, if_true]
  refine (find_at (fun x hx => ?_) ?_).trans rfl
  · obtain ⟨y, hy, rfl⟩ := List.mem_map.mp hx
    rw [hstands, ← Bool.not_eq_true']
    exact hbefore y hy
  · rw [hf]
    exact hstate

/-- The filling record's entry of a line (R5). -/
def FieldRecord.entry (r : FieldRecord) (line : Nat) : LineEntry := r.lines.getD line LineEntry.fresh

/-- A record with one line's entry written. -/
def FieldRecord.withEntry (r : FieldRecord) (line : Nat) (e : LineEntry) : FieldRecord := { r with lines := r.lines.set line e }

section Entry

variable {r : FieldRecord} {line : Nat} (h : line < r.lines.length)

include h in
theorem withEntry_entry (e : LineEntry) : (r.withEntry line e).entry line = e := by
  simp [FieldRecord.entry, FieldRecord.withEntry, h]

theorem withEntry_entry_ne (e : LineEntry) {l : Nat} (hl : l ≠ line) : (r.withEntry line e).entry l = r.entry l := by
  simp [FieldRecord.entry, FieldRecord.withEntry, List.getElem?_set_ne (Ne.symm hl)]

theorem withEntry_withEntry (d e : LineEntry) : (r.withEntry line d).withEntry line e = r.withEntry line e := by
  rw [FieldRecord.withEntry, FieldRecord.withEntry, FieldRecord.withEntry, List.set_set]

include h in
theorem withEntry_self : r.withEntry line (r.entry line) = r := by
  rw [FieldRecord.withEntry, FieldRecord.entry, ← List.getElem_eq_getD (h := h), List.set_getElem_self]

include h in
/-- R8 to R10: a changed line stands in the filling record, and nothing else of it changes. -/
theorem changeLine_filling {s : State} (f : LineEntry → LineEntry) (hr : s.history.filling = some r) :
    (changeLine r line f s).history.filling = some (r.withEntry line (f (r.entry line))) := by
  rw [changeLine]
  refine (History.update_filling (f := fun x => { x with lines := modifyAt f x.lines line }) hr fun x => rfl).trans ?_
  rw [FieldRecord.withEntry, FieldRecord.entry, modifyAt_eq_set f LineEntry.fresh h]

end Entry

/-! ### A run of pixel words (R8) -/

section PixelRun

variable {g : Ring} {slot line : Nat}

/-- R8: a pixel word that takes the extent from below W to W tells the probe unit. -/
theorem pixelWrite_filling {s : State} {r : FieldRecord} (x : Nat) (hr : s.history.filling = some r) (h : line < r.lines.length) :
    let t := pixelWrite g r line x s
    t.history.filling = some (r.withEntry line { r.entry line with extent := extendTo (r.entry line).extent x }) ∧
    t.probe = (if (r.entry line).extent < g.width ∧ extendTo (r.entry line).extent x = g.width
      then s.probe.lineComplete t.history g line else s.probe) := by
  have hfilling := changeLine_filling h (fun m => { m with extent := extendTo (r.entry line).extent x }) hr
  unfold pixelWrite
  simp only
  split
  · next htold => exact ⟨hfilling, (if_pos htold).symm⟩
  · next htold => exact ⟨hfilling, (if_neg htold).symm⟩

/-- R8: whether a run of n pixel words from word x on completes a line of some extent. -/
def completes (width extent x n : Nat) : Prop := extent < width ∧ x ≤ extent ∧ x + n = width

/-- R8: a run is completed by its first word, or by the rest of it. -/
theorem completes_succ {width extent x n : Nat} (hw : x + (n + 1) ≤ width) :
    (extent < width ∧ extendTo extent x = width → n = 0 ∧ completes width extent x (n + 1)) ∧
    (¬ (extent < width ∧ extendTo extent x = width) →
      (completes width (extendTo extent x) (x + 1) n ↔ completes width extent x (n + 1))) := by
  simp only [completes, extendTo]
  split <;> omega

/-- R8: a run of pixel words takes the extent to its end where it joins the words before it, and tells the probe unit once. -/
theorem lineWords_pixels {s : State} {r : FieldRecord} (x k : Nat) (words : List WriteWord) (hr : s.history.filling = some r)
    (h : line < r.lines.length) (hw : x + k + words.length ≤ g.width) :
    let t := lineWords g ((words.zipIdx k).map (fun w => (Area.pixel slot line (x + w.2), w.1))) s
    t.history.filling = some (r.withEntry line { r.entry line with
      extent := runExtent (r.entry line).extent (x + k) words.length }) ∧
    (completes g.width (r.entry line).extent (x + k) words.length → t.probe = s.probe.lineComplete t.history g line) ∧
    (¬ completes g.width (r.entry line).extent (x + k) words.length → t.probe = s.probe) := by
  induction words generalizing s r k with
  | nil =>
    refine ⟨?_, fun hc => ?_, fun _ => rfl⟩
    · rw [List.length_nil, runExtent_zero, withEntry_self h]
      exact hr
    · simp only [completes, List.length_nil] at hc
      omega
  | cons w words ih =>
    intro t
    obtain ⟨hfilling, hprobe⟩ := pixelWrite_filling (g := g) (x + k) hr h
    have hstep : lineWord g s (Area.pixel slot line (x + k), w) = pixelWrite g r line (x + k) s := by
      simp only [lineWord, hr]
    have ht : t = lineWords g ((words.zipIdx (k + 1)).map (fun w => (Area.pixel slot line (x + w.2), w.1)))
        (pixelWrite g r line (x + k) s) := by
      simp only [t, lineWords, List.zipIdx_cons, List.map_cons, List.foldl_cons, hstep]
    have hentry := withEntry_entry h { r.entry line with extent := extendTo (r.entry line).extent (x + k) }
    obtain ⟨hfirst, hrest⟩ := completes_succ (extent := (r.entry line).extent) (show x + k + (words.length + 1) ≤ g.width from hw)
    obtain ⟨hrun, htold, huntold⟩ := ih (k + 1) hfilling (by simp only [FieldRecord.withEntry, List.length_set]; exact h)
      (by rw [List.length_cons] at hw; omega)
    rw [← ht] at hrun htold huntold
    rw [hentry, withEntry_withEntry, ← Nat.add_assoc, runExtent_extendTo] at hrun
    rw [hentry, ← Nat.add_assoc] at htold huntold
    refine ⟨hrun, fun hc => ?_, fun hc => ?_⟩
    · by_cases hnow : (r.entry line).extent < g.width ∧ extendTo (r.entry line).extent (x + k) = g.width
      · have hnil : words = [] := List.length_eq_zero_iff.mp (hfirst hnow).1
        rw [if_pos hnow] at hprobe
        rw [ht, hnil]
        exact hprobe
      · rw [if_neg hnow] at hprobe
        rw [htold ((hrest hnow).mpr hc), hprobe]
    · have hnow : ¬ ((r.entry line).extent < g.width ∧ extendTo (r.entry line).extent (x + k) = g.width) := fun hn =>
        hc (hfirst hn).2
      rw [if_neg hnow] at hprobe
      rw [huntold (mt (hrest hnow).mp hc), hprobe]

end PixelRun

/-! ### The tag word and padding words (R9, R10) -/

section Line

variable {g : Ring} {slot line : Nat} {s : State} {r : FieldRecord}

theorem lineWords_tag_absent (w : WriteWord) (hr : s.history.filling = some r) (ht : r.tagsPresent = false) :
    lineWords g [(Area.tag slot line, w)] s = s := by
  simp only [lineWords, List.foldl_cons, List.foldl_nil, lineWord, hr, ht, Bool.false_eq_true, if_false]

/-- R9: the tag word takes the enabled bytes and the mark. -/
theorem lineWords_tag (w : WriteWord) (hr : s.history.filling = some r) (h : line < r.lines.length) (ht : r.tagsPresent = true) :
    let t := lineWords g [(Area.tag slot line, w)] s
    t.history.filling = some (r.withEntry line { r.entry line with
      tag := mergeBytes (r.entry line).tag w.data w.enables, tagWritten := true }) ∧ t.probe = s.probe := by
  have hword : lineWords g [(Area.tag slot line, w)] s = changeLine r line (fun e => e.writeTag w) s := by
    simp only [lineWords, List.foldl_cons, List.foldl_nil, lineWord, hr, ht, if_true]
  rw [hword]
  exact ⟨changeLine_filling h _ hr, rfl⟩

/-- R10: padding words mark their line OVERLONG. -/
theorem lineWords_padding (w : WriteWord) (words : List WriteWord) (hr : s.history.filling = some r) (h : line < r.lines.length) :
    let t := lineWords g ((w :: words).map (fun w => (Area.padding slot line, w))) s
    t.history.filling = some (r.withEntry line { r.entry line with overlong := true }) ∧ t.probe = s.probe := by
  have hword : ∀ (u : State) (x : FieldRecord) (v : WriteWord), u.history.filling = some x →
      lineWord g u (Area.padding slot line, v) = changeLine x line (fun e => { e with overlong := true }) u := fun u x v hx => by
    simp only [lineWord, hx]
  induction words generalizing s r w with
  | nil =>
    simp only [lineWords, List.map_cons, List.map_nil, List.foldl_cons, List.foldl_nil, hword s r w hr]
    exact ⟨changeLine_filling h _ hr, rfl⟩
  | cons v words ih =>
    have hfilling := changeLine_filling h (fun e => { e with overlong := true }) hr
    obtain ⟨hrun, hprobe⟩ := ih v hfilling (by simp only [FieldRecord.withEntry, List.length_set]; exact h)
    rw [withEntry_entry h, withEntry_withEntry] at hrun
    simp only [lineWords, List.map_cons, List.foldl_cons, hword s r w hr] at hrun hprobe ⊢
    exact ⟨hrun, hprobe⟩

end Line

/-! ### The end mark (R11) -/

section EndMark

variable {ws : List AreaWord} {s : State}

theorem endMark_none (h : ∀ f, s.history.filling = some f → ¬ (covers ws 4 = true ∧ coveredValue ws 4 = f.captureCount)) :
    endMark ws s = s := by
  unfold endMark
  split
  · next r hr => exact if_neg (h r hr)
  · rfl

/-- R11: the line words of a write leave the filling record but for its line map. -/
theorem lineWords_filling (g : Ring) (ws : List AreaWord) (s : State) :
    (lineWords g ws s).history.filling.map FieldRecord.bare = s.history.filling.map FieldRecord.bare :=
  (lineWords_lines g ws s).found fun _ => rfl

end EndMark

/-- Settles O18. -/
theorem pixelPartExtendsAJoinedPrefix : Obligations.PixelPartExtendsAJoinedPrefix := by
  refine ⟨?_, fun g ws1 ws2 s => List.foldl_append, ?_⟩
  · intro g slot line r s hr hline entry only
    have honly : ∀ (ws : List AreaWord) (e : LineEntry),
        (lineWords g ws s).history.filling = some (r.withEntry line e) → only (lineWords g ws s) e := fun ws e h =>
      ⟨_, h, rfl, fun l hl => withEntry_entry_ne e hl, withEntry_entry hline e, (lineWords_lines g ws s).rest⟩
    refine ⟨fun x words hw => ?_, fun w => ⟨fun ht => lineWords_tag_absent w hr ht, fun ht => ?_⟩, fun words hne => ?_⟩
    · obtain ⟨hrun, htold, huntold⟩ := lineWords_pixels (slot := slot) x 0 words hr hline hw
      exact ⟨honly _ _ hrun, htold, huntold⟩
    · obtain ⟨hrun, hprobe⟩ := lineWords_tag (g := g) (slot := slot) w hr hline ht
      exact ⟨_, fun i hi => mergeBytes_byte _ _ _ i hi, honly _ _ hrun, hprobe⟩
    · obtain ⟨w, words, rfl⟩ := List.exists_cons_of_ne_nil hne
      obtain ⟨hrun, hprobe⟩ := lineWords_padding (g := g) (slot := slot) w words hr hline
      exact ⟨honly _ _ hrun, hprobe⟩
  · intro before after q g slot r s hp hq hb hu hj hg hspan hslot ha h0 hmark hr hfilling
    have hnone : endMark (g.areaWords q.request) (lineWords g (g.areaWords q.request) s) =
        lineWords g (g.areaWords q.request) s := endMark_none fun f hf hc => by
      have hbare := lineWords_filling g (g.areaWords q.request) s
      rw [hf, Option.map_some] at hbare
      obtain ⟨f0, hf0, heq⟩ := Option.map_eq_some_iff.mp hbare.symm
      exact hmark hc.1 f0 hf0 (hc.2.trans (congrArg FieldRecord.captureCount heq).symm)
    have hload : covers (g.areaWords q.request) 0 = true ∧ covers (g.areaWords q.request) 1 = true → s.loadsAtOpening = false :=
      fun hc => absurd (h0.symm.trans hc.1) Bool.false_ne_true
    refine captureTake_passed hp hq hb hu hj ?_
    rw [monitorWrite_ring hg hspan hload, ringWrite_slot hslot ha, slotWrite_filling h0 hr hfilling, hnone]

end Sys2Proof.Machine
end

section
/-! CAPTURE_REQUEST_TAKE of a matching end mark (R11 to R16). -/

namespace Sys2Proof.Machine

open Host (Outcome)

/-- Two searches that find one record find one record too where only line maps differ. -/
theorem find?_eq_of_bare {p p' : FieldRecord → Bool} {l m : List FieldRecord} {r : FieldRecord}
    (hp : ∀ x, p x.bare = p x) (hp' : ∀ x, p' x.bare = p' x) (hm : m.map FieldRecord.bare = l.map FieldRecord.bare)
    (hr : l.find? p = some r) (hr' : l.find? p' = some r) : m.find? p = m.find? p' := by
  have hholds : p r = true ∧ p' r = true := ⟨List.find?_some hr, List.find?_some hr'⟩
  induction l generalizing m with
  | nil => cases hr
  | cons x l ih =>
    cases m with
    | nil => cases hm
    | cons y m =>
      obtain ⟨hhead, htail⟩ := List.cons.inj hm
      have hpy : p y = p x := by rw [← hp y, ← hp x]; exact congrArg p hhead
      have hpy' : p' y = p' x := by rw [← hp' y, ← hp' x]; exact congrArg p' hhead
      simp only [List.find?_cons, hpy, hpy'] at hr hr' ⊢
      cases hx : p x <;> cases hx' : p' x <;> simp only [hx, hx'] at hr hr' ⊢
      · exact ih htail hr hr'
      · cases hr'
        exact absurd (hx.symm.trans hholds.1) Bool.false_ne_true
      · cases hr
        exact absurd (hx'.symm.trans hholds.2) Bool.false_ne_true

theorem filling_state {h : History} {r : FieldRecord} (hr : h.filling = some r) : r.state = .filling := by
  obtain ⟨hstate, -⟩ := List.find?_eq_some_iff_append.mp hr
  exact of_decide_eq_true hstate

/-- R11: what the line words of a write leave of the filling record, and where it stands. -/
theorem lineWords_record {g : Ring} {ws : List AreaWord} {s : State} {r : FieldRecord} (hr : s.history.filling = some r)
    (hfind : s.history.find r.number = some r) : ∃ r0, (lineWords g ws s).history.filling = some r0 ∧
      r0 = { r with lines := r0.lines } ∧ r0.lines.length = r.lines.length ∧
      (lineWords g ws s).history.find r.number = some r0 := by
  have hlines := lineWords_lines g ws s
  have hbare := lineWords_filling g ws s
  rw [hr, Option.map_some] at hbare
  obtain ⟨r0, hr0, heq⟩ := Option.map_eq_some_iff.mp hbare
  obtain ⟨hrest, hlength⟩ := bare_eq heq
  exact ⟨r0, hr0, hrest, hlength, (find?_eq_of_bare (fun _ => rfl) (fun _ => rfl) hlines.records hfind hr).trans hr0⟩

/-- R14: a settled line shows the state that its test gives. -/
theorem settleLines_final (w : Nat) (tags : Bool) (lines : List LineEntry) {l : Nat} (h : l < (settleLines w tags lines).length) :
    ((settleLines w tags lines).getD l LineEntry.fresh).final =
      some (finalState w tags l ((settleLines w tags lines).getD l LineEntry.fresh)) := by
  rw [settleLines_length] at h
  simp only [settleLines, List.getD_eq_getElem?_getD, List.getElem?_map, List.getElem?_zipIdx, List.getElem?_eq_getElem h,
    Option.map_some, Option.getD_some, Nat.zero_add]
  rfl

/-- R11, R13: a matching end mark closes the field. -/
theorem endMark_closes {ws : List AreaWord} {s : State} {r : FieldRecord} {g : IngestGroup} (hr : s.history.filling = some r)
    (hg : s.settings.ingest = some g) (h4 : covers ws 4 = true) (hcount : coveredValue ws 4 = r.captureCount) :
    ∃ r1, FieldClosed 0 r r1 g s (endMark ws s) := by
  have hclose : endMark ws s = closeField .endMark s := by
    simp only [endMark, hr, h4, hcount, and_self, if_true]
  rw [hclose]
  exact closeField_closes .endMark hr hg

/-- R50: the detector labels a closed field by the record before it, which the close leaves. -/
theorem FieldClosed.cadence {code : Nat} {r r1 : FieldRecord} {g : IngestGroup} {s t : State} (h : FieldClosed code r r1 g s t) :
    r1.label = (s.cadence.close g r1 (t.history.find (FieldNo.pred r.number))).label ∧
      t.cadence = (s.cadence.close g r1 (t.history.find (FieldNo.pred r.number))).cadence := by
  have hprev : ∀ x : FieldRecord, x.number = r.number →
      (s.history.update r.number fun _ => x).find (FieldNo.pred r.number) = s.history.find (FieldNo.pred r.number) := fun x hx =>
    History.update_find_ne _ _ _ _ (fun _ _ => hx) (FieldNo.pred_ne _)
  obtain ⟨hr1, hhistory, -, -, hcadence, -, -⟩ := h
  rw [hhistory, hprev r1 (by rw [hr1]), hcadence, hr1]
  exact ⟨congrArg (fun p => (s.cadence.close g _ p).label) (hprev _ rfl),
    congrArg (fun p => (s.cadence.close g _ p).cadence) (hprev _ rfl)⟩

/-- R7, R13: an end mark leaves the note as it was. -/
theorem FieldClosed.monitor {r r1 : FieldRecord} {g : IngestGroup} {s t : State} (h : FieldClosed 0 r r1 g s t) :
    t.monitor = s.monitor := by
  obtain ⟨-, -, hmonitor, -⟩ := h
  rw [hmonitor]
  simp only [ne_eq, not_true_eq_false, false_and, if_false, Option.map_id']

/-- Settles O20. -/
theorem endMarkClosesTheFillingField : Obligations.EndMarkClosesTheFillingField := by
  intro before after q g gi slot r s hp hq hb hu hj hg hgi hspan hslot ha h0 h4 hcount hr hof hfind
  obtain ⟨r0, hr0, hrest, hlength, hfind0⟩ := lineWords_record (g := g) (ws := g.areaWords q.request) hr hfind
  have hlines := lineWords_lines g (g.areaWords q.request) s
  have hload : covers (g.areaWords q.request) 0 = true ∧ covers (g.areaWords q.request) 1 = true → s.loadsAtOpening = false :=
    fun hc => absurd (h0.symm.trans hc.1) Bool.false_ne_true
  have hstate := filling_state hr
  obtain ⟨r1, hclosed⟩ := endMark_closes (ws := g.areaWords q.request) hr0 (by rw [hlines.rest]; exact hgi) h4
    (by rw [hrest]; exact hcount)
  have htake := captureTake_passed hp hq hb hu hj (((monitorWrite_ring hg hspan hload).trans (ringWrite_slot hslot ha)).trans
    (slotWrite_filling h0 hof hstate))
  have hnumber : r0.number = r.number := by rw [hrest]
  have hrecord := hclosed.record
  have hfound := hclosed.found (by rw [hnumber]; exact hfind0)
  obtain ⟨hlabel, hcadence⟩ := hclosed.cadence
  have hframe := hclosed.2.2.2.2.2.2
  have hsettled : r1.lines = settleLines gi.w r.tagsPresent r0.lines := by
    rw [hrecord, hrest]
  have hfields : r1.number = r.number ∧ r1.slot = r.slot ∧ r1.captureCount = r.captureCount ∧ r1.parity = r.parity ∧
      r1.continuity = r.continuity := by
    rw [hrecord, hrest]
    exact ⟨rfl, rfl, rfl, rfl, rfl⟩
  obtain ⟨hn, hslot1, hcount1, hparity, hcontinuity⟩ := hfields
  rw [hnumber] at hfound hlabel hcadence
  have hdetector : (lineWords g (g.areaWords q.request) s).cadence = s.cadence := by rw [hlines.rest]
  rw [hdetector] at hlabel hcadence
  refine ⟨_, r1, htake, ⟨r0, _, hr0, hrest, hlength, hclosed, rfl, hsettled⟩, hfound, by rw [hrecord]; rfl, by rw [hrecord]; rfl,
    hn, hslot1, hcount1, hparity, hcontinuity, by rw [hsettled, settleLines_length, hlength], fun l hl => ?_, hlabel, hcadence,
    hclosed.monitor.trans hlines.monitor, hclosed.probe, ?_⟩
  · rw [hsettled] at hl ⊢
    exact settleLines_final _ _ _ hl
  · simp only [State.captured]
    rw [hframe, hlines.rest]
    exact ⟨rfl, rfl, rfl, rfl, rfl, rfl, trivial⟩

end Sys2Proof.Machine
end

section
/-! CAPTURE_REQUEST_TAKE of an opening burst (R5 to R7, R32, R41, R42, R165): admission, rejection, and the load before it. -/

namespace Sys2Proof.Machine

open Host (Outcome)

/-! ### The references of an admission (R42) -/

/-- R30: a record whose four continuity flags are clear. -/
def FieldRecord.unbroken (r : FieldRecord) : Prop :=
  r.continuity = { first := false, gap := false, parityRepeat := false, afterCut := false }

theorem continuous_iff (r : FieldRecord) : r.continuous = true ↔ r.unbroken := by
  rw [FieldRecord.continuous, FieldRecord.unbroken]
  cases r.continuity
  simp [Continuity.continuous, and_assoc]

theorem combReference_iff {older : List FieldRecord} {h : History} {n : FieldRecord} (hh : h.records = older ++ [n])
    (hfresh : ∀ x ∈ older, x.number ≠ n.number) (f : FieldNo) : h.combReference n = some f ↔
      f = FieldNo.pred n.number ∧ n.unbroken ∧ ∃ b, older.getLast? = some b ∧ b.number = f := by
  rw [History.combReference, Option.ite_none_right_eq_some, continuous_iff, History.before, hh, recordBefore_newest older n hfresh,
    Option.map_eq_some_iff, Option.some.injEq]
  constructor
  · rintro ⟨⟨hn, hb⟩, rfl⟩
    exact ⟨rfl, hn, hb⟩
  · rintro ⟨rfl, hn, hb⟩
    exact ⟨⟨hn, hb⟩, rfl⟩

theorem find_number {h : History} {f : FieldNo} {r : FieldRecord} (hr : h.find f = some r) : r.number = f := by
  obtain ⟨hnumber, -⟩ := List.find?_eq_some_iff_append.mp hr
  exact of_decide_eq_true hnumber

theorem repeatReference_iff (h : History) (n : FieldRecord) (f : FieldNo) : h.repeatReference n = some f ↔
    f = FieldNo.pred (FieldNo.pred n.number) ∧ n.unbroken ∧ (∃ b, h.find (FieldNo.pred n.number) = some b ∧ b.unbroken) ∧
      ∃ b, h.find f = some b := by
  cases hp : h.find (FieldNo.pred n.number) with
  | none => simp [History.repeatReference, hp]
  | some p =>
    simp only [History.repeatReference, hp, find_number hp, Option.ite_none_right_eq_some, continuous_iff,
      Option.isSome_iff_exists, Option.some.injEq, exists_eq_left']
    constructor
    · rintro ⟨⟨hn, hb, hfound⟩, rfl⟩
      exact ⟨rfl, hn, hb, hfound⟩
    · rintro ⟨rfl, hn, hb, hfound⟩
      exact ⟨⟨hn, hb, hfound⟩, rfl⟩

/-! ### An accepted opening burst (R5, R7, R32) -/

section Opening

variable {g : Ring} {slot : Nat} {hd : Header} {s u : State}

theorem openingCause_code (slot : Nat) {x : FieldRecord} (hx : s.history.filling = some x) :
    (s.openingCause slot).code = if x.slot = slot then 2 else 1 := by
  simp only [State.openingCause, hx]
  split <;> rfl

theorem openingCause_ne (slot : Nat) (s : State) : s.openingCause slot ≠ .endMark := by
  unfold State.openingCause
  split
  · split <;> decide
  · decide

theorem closeField_none (c : CloseCause) (h : s.history.filling = none) : closeField c s = s := by
  unfold closeField
  split
  · next hr _ => exact absurd (h.symm.trans hr) (by simp)
  · rfl

theorem evictSlot_none (h : s.history.ofSlot slot = none) : evictSlot slot s = s := by
  rw [evictSlot, h]

theorem evictSlot_some {r : FieldRecord} (h : s.history.ofSlot slot = some r) : evictSlot slot s = evict r s := by
  rw [evictSlot, h]

/-- R5, R7, R32: an admission writes the history, the monitor, the probe unit and the condition unit. -/
theorem admitField_eq (g : Ring) (slot : Nat) (hd : Header) (s : State) : admitField g slot hd s = { s with
    history := s.history.append (admittedRecord s.history.next slot g.lines s.monitor.note hd)
    monitor := s.monitor.admission s.history.next hd
    probe := ProbeUnit.admission (s.history.append (admittedRecord s.history.next slot g.lines s.monitor.note hd))
      (admittedRecord s.history.next slot g.lines s.monitor.note hd)
    cond := (raiseAll (admissionConditions s.monitor.note hd s.history.next) s).cond } := by
  rw [admitField, raiseAll_eq]
  simp only
  rw [raiseAll_congr (s := s)]
  all_goals rfl

/-- R41, R42: the probe unit of an admitted record. -/
theorem admission_probe (h : History) (r : FieldRecord) : ProbeUnit.admission h r =
    { field := some { number := r.number, slot := r.slot, parity := r.parity }
      combRef := (ProbeUnit.admission h r).combRef, repeatRef := (ProbeUnit.admission h r).repeatRef
      combLost := false, repeatLost := false
      table := ((List.range r.lines.length).filter (fun l => decide (l % 4 = 2))).map
        (fun l => { line := l, status := .waiting, repeatSum := 0, combSum := 0 })
      pending := [], inFlight := [] } := rfl

/-- R7: the continuity of an admission after a close, against the note before it. -/
theorem continuityOf_closed {c : CloseCause} (hc : c ≠ .endMark) (hi : s.settings.ingest.isSome = true) (hd : Header) :
    let k := continuityOf (closeField c s).monitor.note hd
    (s.monitor.note = none → k = { first := true, gap := false, parityRepeat := false, afterCut := false }) ∧
    (∀ n, s.monitor.note = some n → k.first = false ∧ (k.gap = true ↔ hd.count ≠ n.captureCount + 1) ∧
      (k.parityRepeat = true ↔ hd.parity = n.parity) ∧ (s.history.filling = none → k.afterCut = n.closedCut) ∧
      (∀ x, s.history.filling = some x → x.number = n.field → k.afterCut = true)) := by
  obtain ⟨-, hsome, hnone⟩ := closeField_note c s
  refine ⟨fun hn => by simp only [hnone hn, continuityOf], fun n hn => ?_⟩
  obtain ⟨m, hm, hcount, hparity, hsame, hcut⟩ := hsome n hn
  simp only [hm, continuityOf, hcount, hparity, decide_eq_true_eq, true_and]
  exact ⟨fun hr => by rw [hsame hr], fun x hx hnumber => hcut x hx hi hc hnumber⟩

theorem ring_ingest {g : Ring} (h : s.ring = some g) : s.settings.ingest.isSome = true := by
  have hslots := ring_slots h
  cases hi : s.settings.ingest with
  | none => rw [hi] at hslots; cases hslots
  | some i => rfl

end Opening

/-! ### A rejected opening burst (R6) -/

section Rejected

variable {slot addr : Nat} {s : State}

theorem ofSlot_slot {h : History} {r : FieldRecord} (hr : h.ofSlot slot = some r) : r.slot = slot := by
  obtain ⟨hslot, -⟩ := List.find?_eq_some_iff_append.mp hr
  exact of_decide_eq_true hslot

theorem ofSlot_ne_none {h : History} {r : FieldRecord} (hr : h.filling = some r) (hslot : r.slot = slot) : h.ofSlot slot ≠ none := by
  have hmem : r ∈ h.records := List.mem_of_find?_eq_some hr
  exact fun hnone => List.find?_eq_none.mp hnone r hmem (decide_eq_true hslot)

theorem cutInSlot_other (h : ∀ f, s.history.filling = some f → f.slot ≠ slot) : cutInSlot slot s = s := by
  unfold cutInSlot
  split
  · next r hr => exact if_neg (h r hr)
  · rfl

theorem cutInSlot_filling {r : FieldRecord} (hr : s.history.filling = some r) (hslot : r.slot = slot) :
    cutInSlot slot s = closeField .rejected s := by
  simp only [cutInSlot, hr, hslot, if_true]

/-- A record found by its number and by its slot is found by its slot where a record of the same number and slot takes its place. -/
theorem update_ofSlot {h : History} {r r1 : FieldRecord} (hfind : h.find r.number = some r) (hslot : h.ofSlot slot = some r)
    (hr1 : r1.slot = slot) : (h.update r.number fun _ => r1).ofSlot slot = some r1 := by
  unfold History.find at hfind
  unfold History.ofSlot at hslot
  simp only [History.ofSlot, History.update]
  generalize h.records = l at hfind hslot
  induction l with
  | nil => cases hfind
  | cons x l ih =>
    rw [List.find?_cons] at hfind hslot
    rw [List.map_cons, List.find?_cons]
    by_cases hx : x.number = r.number
    · simp only [hx, if_true, hr1, decide_true]
    · have hxs : x.slot ≠ slot := fun hs => by
        simp only [hs, decide_true, Option.some.injEq] at hslot
        exact hx (congrArg FieldRecord.number hslot)
      simp only [hx, hxs, if_false, decide_false] at hfind hslot ⊢
      exact ih hfind hslot

theorem slotWrite_rejected {g : Ring} {ws : List AreaWord} (h0 : covers ws 0 = true) (h1 : covers ws 1 = false) :
    slotWrite g addr slot ws s = (rejectField addr slot s, .passed (trimmed ws)) := by
  simp only [slotWrite, acceptedOpening, rejectedOpening, h0, h1, Bool.and_false, Bool.false_eq_true, if_false, Bool.not_false,
    Bool.and_self, if_true]

end Rejected

/-! ### The load at an opening burst (R165) -/

section Load

variable {r : Request} {g g1 : Ring} {s : State}

theorem loadIngest_windows (s : State) : (loadIngest s).windows = s.windows := by
  unfold loadIngest
  split
  · rw [refuseIngest, raise_windows]
  · rw [installIngest_eq]
    split
    · rw [(geometryChange_keeps _).1, State.ingestInstalled, raiseAll_windows]
    · unfold stallAtLoad
      split
      · rw [(expireStall_fields _).2, State.ingestInstalled, raiseAll_windows]
      · rw [State.ingestInstalled, raiseAll_windows]

/-- R165: a burst that loads the ingest group is taken as in the state of the load, where it still is such a burst. -/
theorem monitorWrite_loads (hg : s.ring = some g) (hspan : spansSlots (g.areaWords r) = false)
    (hopen : acceptedOpening (g.areaWords r) = true) (hload : s.loadsAtOpening = true) (hg1 : (loadIngest s).ring = some g1)
    (hspan1 : spansSlots (g1.areaWords r) = false) (hopen1 : acceptedOpening (g1.areaWords r) = true) :
    monitorWrite r s = monitorWrite r (loadIngest s) := by
  have hloaded : (loadIngest s).loadsAtOpening = false := by
    rw [State.loadsAtOpening, loadIngest_settings, Bool.false_and]
  rw [monitorWrite_ring hg1 hspan1 fun _ => hloaded]
  simp only [monitorWrite, hg, hspan, hopen, hload, Bool.and_self, Bool.false_eq_true, if_false, if_true, judgeAgain, hg1, hspan1,
    hopen1, Bool.not_false]

theorem captureTake_of_next {q : QueuePosition} (hp : s.phase = .running) (hn : s.nextCapture = some q)
    (hj : s.judge .capture q.request = .toMonitor) :
    exec .captureRequestTake s = .next (finishMonitorWrite q.request (monitorWrite q.request s)) := by
  simp only [exec, execCaptureRequestTake, hp, if_true, hn, takeCapture, hj]

end Load

/-- Settles O19. -/
theorem openingBurstAdmitsANewField : Obligations.OpeningBurstAdmitsANewField := by
  refine ⟨?_, ?_, ?_⟩
  · intro before after q g slot s hp hq hb hu hj hg hspan hslot ha h0 h1 hload count word1 parity
    let c := s.openingCause slot
    let hd := headerOf (g.areaWords q.request)
    let u := closeField c s
    let w := evictSlot slot u
    let v := admitField g slot hd w
    let n := admittedRecord w.history.next slot g.lines w.monitor.note hd
    have hhanded := ((monitorWrite_ring hg hspan fun _ => hload).trans (ringWrite_slot hslot ha)).trans
      (slotWrite_opening (addr := firstAddr q.request) (acceptedOpening_iff.mpr ⟨h0, h1⟩))
    have htake := captureTake_passed hp hq hb hu hj hhanded
    have hv : v = _ := admitField_eq g slot hd w
    obtain ⟨hnext, hmonitor⟩ := evictSlot_note slot u
    obtain ⟨hnextU, -, -⟩ := closeField_note c s
    have hnumber : w.history.next = s.history.next := hnext.trans hnextU
    have hnewest : v.history.newest = some n := by
      rw [hv]
      exact List.getLast?_concat
    obtain ⟨r, hr, hrest, hlength⟩ := (lineWords_lines g (g.areaWords q.request) v).newest hnewest
    have hlines : r.lines.length = g.lines := hlength.trans List.length_replicate
    have hn : n = { r with lines := List.replicate g.lines LineEntry.fresh } := by
      rw [hrest]
      rfl
    have hnumberR : r.number = s.history.next := by rw [hrest]; exact hnumber
    obtain ⟨hfirst, hagain⟩ := continuityOf_closed (openingCause_ne slot s) (ring_ingest hg) hd
    have hcontinuity : r.continuity = continuityOf (closeField c s).monitor.note hd := by
      rw [hrest]
      exact congrArg (fun m : Monitor => continuityOf m.note hd) hmonitor
    have hhistory : v.history = w.history.append n := by rw [hv]
    have hprobe : v.probe = ProbeUnit.admission (w.history.append n) n := by rw [hv]
    have hmonitorV : v.monitor = u.monitor.admission s.history.next hd := by
      rw [hv, hmonitor, hnumber]
    have hmonitorT := (lineWords_lines g (g.areaWords q.request) v).monitor.trans hmonitorV
    have hkeeps := monitorWrite_keeps q.request s
    rw [hhanded] at hkeeps
    rw [← hcontinuity] at hfirst hagain
    refine ⟨_, r, htake, hr, hnumberR, by rw [hrest]; rfl, by rw [hrest]; rfl, by rw [hrest]; rfl, by rw [hrest]; rfl, by rw [hrest]; rfl,
      by rw [hrest]; rfl, hlines, by rw [hrest]; rfl, by rw [hrest]; rfl, by rw [hrest]; rfl, ?_, hfirst, hagain, ?_, ?_, ?_, rfl,
      hkeeps.dram, rfl, rfl, u, w, v, w.history.records, n, closeField_none c, fun x gi hx hgi => ?_, evictSlot_none,
      fun x => evictSlot_some, rfl, hn, ?_, ?_, ?_, ?_, ?_, rfl, ?_, fun hfresh => ?_, ?_⟩
    · exact (lineWords_lines g (g.areaWords q.request) v).next.trans (by rw [hv, ← hnumber]; rfl)
    · exact congrArg Monitor.note hmonitorT
    · exact congrArg Monitor.timerRunning hmonitorT
    · exact congrArg Monitor.timerCount hmonitorT
    · rw [← openingCause_code slot hx]
      exact closeField_closes c hx hgi
    · rw [hv]
      rfl
    · rw [hv, ← hmonitor]
      rfl
    · rw [hv]
    · rw [hv]
      rfl
    · rw [hmonitorV, ← hnumber]
      rfl
    · rw [hprobe, admission_probe, show n.lines.length = g.lines from List.length_replicate]
      rfl
    · rw [hprobe]
      exact combReference_iff rfl hfresh
    · rw [hprobe, hhistory]
      exact repeatReference_iff _ n
  · intro before after q g slot s hp hq hb hu hj hg hspan hslot ha h0 h1 named taken
    have hload : covers (g.areaWords q.request) 0 = true ∧ covers (g.areaWords q.request) 1 = true → s.loadsAtOpening = false :=
      fun hc => absurd (h1.symm.trans hc.2) Bool.false_ne_true
    have hrejected := ((monitorWrite_ring hg hspan hload).trans (ringWrite_slot hslot ha)).trans
      (slotWrite_rejected (addr := firstAddr q.request) h0 h1)
    have htake := captureTake_passed hp hq hb hu hj hrejected
    rw [htake]
    have hnamed : named.phase ≠ .asserted := fun hc => absurd (hp.symm.trans hc) (by decide)
    refine ⟨fun hnone => ?_, fun r hr hother => ?_, fun r gi hr hfilling hfind hgi => ?_⟩
    · have hother : ∀ f, named.history.filling = some f → f.slot ≠ slot := fun f hf hs => ofSlot_ne_none hf hs hnone
      rw [rejectField, cutInSlot_other hother, evictSlot_none (s := named) hnone]
      rfl
    · rw [rejectField, cutInSlot_other (s := named) hother, evictSlot_some (s := named) hr]
      rfl
    · obtain ⟨r1, hclosed⟩ := closeField_closes .rejected (s := named) hfilling hgi
      have hrecord := hclosed.record
      have hslot1 : r1.slot = r.slot := by rw [hrecord]
      have hof : (closeField .rejected named).history.ofSlot slot = some r1 := by
        rw [hclosed.2.1]
        exact update_ofSlot hfind hr (hslot1.trans (ofSlot_slot hr))
      refine ⟨closeField .rejected named, r1, ?_, hclosed, hclosed.number, hslot1, by rw [hrecord], by rw [hrecord]; rfl,
        by rw [hrecord]; rfl, hclosed.bits 0 (raise_bit _ (s := s) hnamed (by decide) rfl), hclosed.cut_bit hnamed (by decide)⟩
      rw [rejectField, cutInSlot_filling (s := named) hfilling (ofSlot_slot hr), evictSlot_some hof]
      rfl
  · intro q g g1 s hp hn hj hg hspan h0 h1 hpending hzero hg1 hspan1 h01 h11
    have hkeeps : KeepsBus s (loadIngest s) := keepsBus_closed.loadIngest s
    have hload : s.loadsAtOpening = true := Bool.and_eq_true_iff.mpr ⟨hpending, decide_eq_true hzero⟩
    have hn1 : (loadIngest s).nextCapture = some q := by
      rw [State.nextCapture, hkeeps.capture]
      exact hn
    rw [captureTake_of_next hp hn hj, captureTake_of_next (hkeeps.phase.trans hp) hn1
      ((judge_congr (loadIngest_windows s) hkeeps.straps .capture q.request).trans hj),
      monitorWrite_loads hg hspan (acceptedOpening_iff.mpr ⟨h0, h1⟩) hload hg1 hspan1 (acceptedOpening_iff.mpr ⟨h01, h11⟩)]

end Sys2Proof.Machine
end

section
/-! The cadence detector (R50 to R60): the evidence tests, the break before evidence, VIDEO mode, and the locked modes. -/

namespace Sys2Proof.Machine

open Host (Outcome)

/-! ### Evidence (R52) -/

theorem evidence22_some (c p phaseN phaseP floorF : Nat) : evidence22 (some c) (some p) phaseN phaseP floorF =
    if floorF ≤ max c p then
      if 2 * min c p ≤ max c p then .consistent (if c ≤ p then phaseN else phaseP) else .inconsistent
    else .absent := rfl

theorem evidence22_none {cN cP : Option Nat} (h : cN = none ∨ cP = none) (phaseN phaseP floorF : Nat) :
    evidence22 cN cP phaseN phaseP floorF = .absent := by
  rcases h with rfl | rfl
  · rfl
  · cases cN <;> rfl

/-- Settles O28. -/
theorem evidenceTestsReadBothMetrics : Obligations.EvidenceTestsReadBothMetrics := by
  intro cN cP rN rP phaseN phaseP floorF threshold
  refine ⟨fun h => ?_, ?_, ?_, ?_⟩
  · cases cN with
    | none => simp [evidence22_none (.inl rfl)]
    | some c =>
      cases cP with
      | none => simp [evidence22_none (.inr rfl)]
      | some p =>
        rw [evidence22_some]
        by_cases hfloor : floorF ≤ max c p <;> by_cases hratio : 2 * min c p ≤ max c p <;>
          simp only [hfloor, hratio, if_true, if_false, reduceCtorEq, Evidence22.consistent.injEq, Option.some.injEq,
            exists_and_left, exists_eq_left', true_and, false_and, eq_comm]
  · cases cN with
    | none => simp [evidence22_none (.inl rfl)]
    | some c =>
      cases cP with
      | none => simp [evidence22_none (.inr rfl)]
      | some p =>
        rw [evidence22_some]
        by_cases hfloor : floorF ≤ max c p <;> by_cases hratio : 2 * min c p ≤ max c p <;>
          simp only [hfloor, hratio, if_true, if_false, reduceCtorEq, Option.some.injEq, exists_and_left, exists_eq_left', true_and,
            false_and, false_iff, true_iff] <;> omega
  · cases rN <;> cases rP <;> simp [repeatEvent, and_assoc]
  · cases rP <;> simp [rEvidence]

/-! ### The break before evidence (R53) -/

theorem close_broken {r : FieldRecord} (h : r.continuous = false ∨ r.state = .cut) (c : Cadence) (g : IngestGroup)
    (prev : Option FieldRecord) :
    c.close g r prev = c.toVideo r.number (if r.state = .cut then 2 else 1) (FieldNo.phase r.number) :=
  if_pos h

/-- Settles O29. -/
theorem continuityComesBeforeEvidence : Obligations.ContinuityComesBeforeEvidence := by
  intro c g r prev h
  rw [close_broken h]
  refine ⟨rfl, rfl, fun hm => ?_, fun hm => ?_⟩
  · simp only [Cadence.toVideo, Cadence.breakCondition, hm]
  · refine ⟨c.wouldTake (FieldNo.phase r.number), ?_⟩
    cases hmode : c.mode with
    | video => exact absurd hmode hm
    | locked22 => simp only [Cadence.toVideo, Cadence.breakCondition, hmode]
    | locked32 => simp only [Cadence.toVideo, Cadence.breakCondition, hmode]

/-! ### A CONTINUOUS, uncut close (R51, R54 to R58) -/

section Continuous

variable {c : Cadence} {g : IngestGroup} {r : FieldRecord} {prev : Option FieldRecord}

/-- R47: the comb metric that a record, or none, brings. -/
def combOf (x : Option FieldRecord) : Option Nat := (x.bind (fun y => y.metrics)).bind (fun m => m.combMetric)

/-- R47: the repeat metric that a record, or none, brings. -/
def repeatOf (x : Option FieldRecord) : Option Nat := (x.bind (fun y => y.metrics)).bind (fun m => m.repeatMetric)

/-- R51: the detector with the wrap of field numbers made up for. -/
def Cadence.wrapped (c : Cadence) (n : FieldNo) : Cadence :=
  if n = 1 then { c with ph22 := 1 - c.ph22, repeats := [] } else c

/-- R51, R52: the 2:2 evidence at the close of a field. -/
def closeEvidence (g : IngestGroup) (r : FieldRecord) (prev : Option FieldRecord) : Evidence22 :=
  evidence22 (combOf (some r)) (combOf prev) (r.number.toNat % 2)
    (if r.number = 1 then 0 else (FieldNo.pred r.number).toNat % 2) g.floorF

/-- R52: the repeat event at the close of a field. -/
def closeEvent (g : IngestGroup) (r : FieldRecord) (prev : Option FieldRecord) : Bool :=
  repeatEvent (repeatOf (some r)) (repeatOf prev) g.thresholdR g.floorF

theorem wrapped_fields (c : Cadence) (n : FieldNo) : (c.wrapped n).mode = c.mode ∧ (c.wrapped n).episode = c.episode ∧
    (c.wrapped n).c22 = c.c22 ∧ (c.wrapped n).nextPosition = c.nextPosition ∧
    (c.wrapped n).ph22 = (if n = 1 then 1 - c.ph22 else c.ph22) ∧ (c.wrapped n).repeats = (if n = 1 then [] else c.repeats) := by
  unfold Cadence.wrapped
  split <;> exact ⟨rfl, rfl, rfl, rfl, rfl, rfl⟩

/-- R51 to R58: what the detector does at the close of a CONTINUOUS, uncut field, by its mode. -/
theorem close_continuous (hc : r.continuous = true) (hs : r.state ≠ .cut) : c.close g r prev =
    match c.mode with
    | .video => (c.wrapped r.number).video g r.number (r.number.toNat % 2) (closeEvidence g r prev) (closeEvent g r prev)
    | .locked22 => (c.wrapped r.number).locked22 r.number (r.number.toNat % 2) (closeEvidence g r prev)
    | .locked32 => (c.wrapped r.number).locked32 r.number (r.number.toNat % 2) (closeEvent g r prev)
        (rEvidence (repeatOf prev) g.floorF) := by
  have hgo : ¬ (r.continuous = false ∨ r.state = .cut) := fun h => h.elim (fun hf => by rw [hc] at hf; cases hf) hs
  rw [← (wrapped_fields c r.number).1]
  unfold Cadence.close
  rw [if_neg hgo]
  rfl

end Continuous

/-! ### The locked modes (R57, R58) -/

section Locked

variable {c : Cadence} {n : FieldNo} {phase : Nat}

theorem locked22_holds {ev : Evidence22} (h : ev = .absent ∨ ev = .consistent c.ph22) : c.locked22 n phase ev =
    { cadence := c, label := some { episode := c.episode, position := position22 phase c.ph22 }, condition := none } := by
  rcases h with rfl | rfl
  · rfl
  · exact if_pos rfl

theorem locked22_breaks {ev : Evidence22} (ha : ev ≠ .absent) (hc : ev ≠ .consistent c.ph22) :
    c.locked22 n phase ev = c.toVideo n 3 phase := by
  cases ev with
  | absent => exact absurd rfl ha
  | inconsistent => rfl
  | consistent h => exact if_neg fun he => hc (by rw [he])

theorem toVideo_locked22 (hm : c.mode = .locked22) (cause : Nat) : c.toVideo n cause phase =
    { cadence := { c with mode := .video, c22 := 0, repeats := [] }, label := none
      condition := some (.cadenceBreak n .locked22 c.episode cause (position22 phase c.ph22)) } := by
  simp only [Cadence.toVideo, Cadence.breakCondition, Cadence.wouldTake, hm]

theorem toVideo_locked32 (hm : c.mode = .locked32) (cause : Nat) : c.toVideo n cause phase =
    { cadence := { c with mode := .video, c22 := 0, repeats := [] }, label := none
      condition := some (.cadenceBreak n .locked32 c.episode cause (.film c.nextPosition)) } := by
  simp only [Cadence.toVideo, Cadence.breakCondition, Cadence.wouldTake, hm]

end Locked

/-- Settles O31. -/
theorem lockedModesHoldOrBreakOnEvidence : Obligations.LockedModesHoldOrBreakOnEvidence := by
  intro c g r prev hc hs comb rep phase phaseP wrapped ev event evidence position against x video
  obtain ⟨hmode, hepisode, -, hnext, -, -⟩ := wrapped_fields c r.number
  have hwrapped : wrapped = c.wrapped r.number := rfl
  have hx : x = _ := close_continuous (c := c) (g := g) (prev := prev) hc hs
  refine ⟨fun hm => ?_, fun hm => ?_⟩
  · rw [hm] at hx
    rw [hx, ← hepisode]
    exact ⟨locked22_holds, fun ha hne => (locked22_breaks ha hne).trans (toVideo_locked22 (hmode.trans hm) 3)⟩
  · rw [hm] at hx
    rw [hx, ← hepisode]
    simp only [against, ← hnext]
    exact ⟨fun h => if_neg h, fun h => (if_pos h).trans (toVideo_locked32 (hmode.trans hm) 3)⟩

/-! ### VIDEO mode (R54 to R56) -/

section Video

variable {c : Cadence} {g : IngestGroup} {n : FieldNo} {phase : Nat} {ev : Evidence22} {event : Bool}

theorem appendsRepeat_iff (rs : List FieldNo) (n : FieldNo) :
    appendsRepeat rs n = true ↔ ∃ last, rs.getLast? = some last ∧ n.toNat = last.toNat + 5 := by
  unfold appendsRepeat
  cases rs.getLast? <;> simp

theorem nextRepeats_appends {rs : List FieldNo} (h : appendsRepeat rs n = true) (hl : rs.length ≤ 3) :
    nextRepeats rs n = (rs ++ [n]).drop (rs.length - 2) := by
  rw [nextRepeats, if_pos h]
  split
  · next h3 => rw [h3]
  · next h3 => rw [show rs.length - 2 = 0 by omega, List.drop_zero]

theorem nextRepeats_restarts {rs : List FieldNo} (h : ¬ appendsRepeat rs n = true) : nextRepeats rs n = [n] := if_neg h

theorem nextRepeats_full {rs : List FieldNo} (h : appendsRepeat rs n = true) (hl : rs.length ≤ 3) :
    (nextRepeats rs n).length = 3 ↔ 2 ≤ rs.length := by
  rw [nextRepeats_appends h hl, List.length_drop, List.length_append, List.length_singleton]
  omega

/-- R55: whether the repeat list takes its third entry. -/
def Cadence.thirdRepeat (c : Cadence) (g : IngestGroup) (n : FieldNo) (event : Bool) : Prop :=
  event = true ∧ (∃ last, c.repeats.getLast? = some last ∧ n.toNat = last.toNat + 5) ∧ 2 ≤ c.repeats.length ∧ g.allow32 = true

/-- R54: whether an increment leaves the 2:2 counter at E22. -/
def Cadence.reaches22 (c : Cadence) (g : IngestGroup) (ev : Evidence22) : Prop :=
  ev = .consistent c.ph22 ∧ 0 < c.c22 ∧ min g.e22 (c.c22 + 1) = g.e22 ∧ g.allow22 = true

theorem thirdRepeat_iff (hl : c.repeats.length ≤ 3) : c.thirdRepeat g n event ↔
    (event && appendsRepeat c.repeats n) = true ∧
      (if event = true then nextRepeats c.repeats n else c.repeats).length = 3 ∧ g.allow32 = true := by
  rw [Cadence.thirdRepeat, ← appendsRepeat_iff, Bool.and_eq_true, and_assoc]
  refine and_congr_right fun he => and_congr_right fun ha => ?_
  rw [if_pos he, nextRepeats_full ha hl]

theorem count22_goesOn (h : ev = .consistent c.ph22) (h0 : 0 < c.c22) (e22 : Nat) :
    c.count22 ev e22 = { c with c22 := min e22 (c.c22 + 1) } := by
  rw [h]
  exact if_pos ⟨rfl, h0⟩

theorem count22_starts {x : Nat} (h : ev = .consistent x) (hx : x ≠ c.ph22 ∨ c.c22 = 0) (e22 : Nat) :
    c.count22 ev e22 = { c with c22 := 1, ph22 := x } := by
  rw [h]
  exact if_neg fun hc => hx.elim (fun hne => hne hc.1) fun h0 => absurd hc.2 (by omega)

theorem count22_stands (ev : Evidence22) (e22 : Nat) : c.count22 ev e22 = { c with
    c22 := (c.count22 ev e22).c22, ph22 := (c.count22 ev e22).ph22 } := by
  unfold Cadence.count22
  split
  · split <;> rfl
  · rfl
  · rfl

theorem increments_iff : c.increments ev = true ↔ ev = .consistent c.ph22 ∧ 0 < c.c22 := by
  cases ev <;> simp [Cadence.increments]

theorem reaches22_iff : c.reaches22 g ev ↔
    c.increments ev = true ∧ (c.count22 ev g.e22).c22 = g.e22 ∧ g.allow22 = true := by
  rw [Cadence.reaches22, increments_iff, and_assoc]
  refine and_congr_right fun he => and_congr_right fun h0 => ?_
  rw [count22_goesOn he h0]

theorem video_third (hl : c.repeats.length ≤ 3) (h : c.thirdRepeat g n event) : c.video g n phase ev event =
    lockAt { c.count22 ev g.e22 with repeats := [], c22 := 0, nextPosition := 3 } .locked32 n (.film 2) :=
  if_pos ((thirdRepeat_iff hl).mp h)

theorem video_locks22 (hl : c.repeats.length ≤ 3) (h : ¬ c.thirdRepeat g n event) (h22 : c.reaches22 g ev) :
    c.video g n phase ev event =
      lockAt { c.count22 ev g.e22 with repeats := [] } .locked22 n (position22 phase (c.count22 ev g.e22).ph22) :=
  (if_neg (mt (thirdRepeat_iff hl).mpr h)).trans (if_pos (reaches22_iff.mp h22))

theorem video_goesOn (hl : c.repeats.length ≤ 3) (h : ¬ c.thirdRepeat g n event) (h22 : ¬ c.reaches22 g ev) :
    c.video g n phase ev event =
      { cadence := { c.count22 ev g.e22 with repeats := if event then nextRepeats c.repeats n else c.repeats }
        label := none, condition := none } :=
  (if_neg (mt (thirdRepeat_iff hl).mpr h)).trans (if_neg (mt reaches22_iff.mpr h22))

/-- R54: without a 3:2 lock the counter, the phase and the position follow the evidence. -/
theorem video_counts (hl : c.repeats.length ≤ 3) (h : ¬ c.thirdRepeat g n event) :
    (c.video g n phase ev event).cadence.c22 = (c.count22 ev g.e22).c22 ∧
    (c.video g n phase ev event).cadence.ph22 = (c.count22 ev g.e22).ph22 ∧
    (c.video g n phase ev event).cadence.nextPosition = c.nextPosition := by
  have hposition : (c.count22 ev g.e22).nextPosition = c.nextPosition := by rw [count22_stands]
  by_cases h22 : c.reaches22 g ev
  · rw [video_locks22 hl h h22]
    exact ⟨rfl, rfl, hposition⟩
  · rw [video_goesOn hl h h22]
    exact ⟨rfl, rfl, hposition⟩

end Video

/-- Settles O30. -/
theorem videoModeCountsAndLocks : Obligations.VideoModeCountsAndLocks := by
  intro c g r prev hin hm hc hs comb rep phase phaseP ph22 repeats ev event follows lock32 lock22 episode position x
  obtain ⟨hmode, hepisode, hc22, hnext, hph22, hrepeats⟩ := wrapped_fields c r.number
  have hx : x = (c.wrapped r.number).video g r.number phase ev event := by
    have hx := close_continuous (c := c) (g := g) (prev := prev) hc hs
    rw [hm] at hx
    exact hx
  have hl : (c.wrapped r.number).repeats.length ≤ 3 := by
    rw [hrepeats]
    split
    · exact Nat.zero_le 3
    · exact hin.2.2.1
  have h32 : lock32 ↔ (c.wrapped r.number).thirdRepeat g r.number event := by
    rw [Cadence.thirdRepeat, hrepeats]
  have h22 : lock22 ↔ (c.wrapped r.number).reaches22 g ev := by
    rw [Cadence.reaches22, hph22, hc22]
  have hfields : ((c.wrapped r.number).count22 ev g.e22).mode = .video ∧
      ((c.wrapped r.number).count22 ev g.e22).episode = c.episode := by
    rw [count22_stands]
    exact ⟨hmode.trans hm, hepisode⟩
  have hfollows : follows ↔ appendsRepeat (c.wrapped r.number).repeats r.number = true := by
    rw [appendsRepeat_iff, hrepeats]
  rw [h32, h22, hx]
  refine ⟨fun h => ?_, fun h h2 => ?_, fun h h2 => ?_, fun h => ?_⟩
  · rw [video_third hl h]
    rw [lockAt, hfields.2]
    exact ⟨rfl, rfl, rfl, rfl, rfl, rfl, rfl⟩
  · obtain ⟨-, hreach, -⟩ := reaches22_iff.mp h2
    have hphase : ((c.wrapped r.number).count22 ev g.e22).ph22 = ph22 := by
      rw [count22_goesOn h2.1 h2.2.1]
      exact hph22
    rw [video_locks22 hl h h2, hphase]
    rw [lockAt, hfields.2]
    exact ⟨rfl, rfl, hreach, rfl, rfl, rfl⟩
  · rw [video_goesOn hl h h2]
    refine ⟨hfields.1, hfields.2, rfl, rfl, fun he => ?_, fun he hf => ?_, fun he hf => ?_⟩
    · simp only [he, Bool.false_eq_true, if_false]
      exact hrepeats
    · simp only [he, if_true]
      rw [nextRepeats_appends (hfollows.mp hf) hl, hrepeats]
    · simp only [he, if_true]
      exact nextRepeats_restarts (mt hfollows.mpr hf)
  · obtain ⟨hcount, hphase, hposition⟩ := video_counts (phase := phase) hl h
    have hwrapped : (c.wrapped r.number).ph22 = ph22 := hph22
    rw [hcount, hphase, hposition, ← hwrapped, ← hc22]
    refine ⟨hnext, fun hev hpos => ?_, fun k hev hk => ?_, fun hev => ?_, fun hev => ?_⟩
    · rw [count22_goesOn hev hpos]
      exact ⟨rfl, rfl⟩
    · rw [count22_starts hev hk]
      exact ⟨rfl, rfl⟩
    · rw [hev]
      exact ⟨rfl, rfl⟩
    · rw [hev]
      exact ⟨rfl, rfl⟩

end Sys2Proof.Machine
end

section
/-! The probe unit (R40 to R49): the metrics of a close, and the fetches that a completed line starts. -/

namespace Sys2Proof.Machine

open Host (Outcome)

/-! ### The metrics of a close (R48, R49) -/

theorem noReference_iff (u : ProbeUnit) : u.noReference = true ↔ u.combRef = none ∧ u.repeatRef = none := by
  simp [ProbeUnit.noReference]

theorem measured_iff (u : ProbeUnit) : u.measured = true ↔
    u.combRef ≠ none ∨ u.repeatRef ≠ none ∨ u.combLost = true ∨ u.repeatLost = true := by
  rw [ProbeUnit.measured, Bool.or_eq_true, Bool.or_eq_true, Bool.not_eq_true', ← Bool.not_eq_true, noReference_iff,
    Classical.not_and_iff_not_or_not, or_assoc, or_assoc]

theorem usableIn_iff (x : Option FieldRecord) (l : Nat) : usableIn x l = true ↔
    ∃ r, x = some r ∧ (r.lines.getD l LineEntry.fresh).usable = true := by
  cases x <;> simp [usableIn]

/-- R44: the comb lines of a line of the field. -/
theorem combLines_eq (parity : Parity) {l lines : Nat} (h : l < lines) : combLines parity l lines =
    (if parity = .top then l - 1 else l, if parity = .top then l else min (l + 1) (lines - 1)) := by
  have hmin : min l (lines - 1) = l := by omega
  cases parity <;> simp [combLines, hmin]

/-- R48: which lines count. -/
theorem countsLine_iff (u : ProbeUnit) (h : History) (r : FieldRecord) {e : ProbeEntry} (hl : e.line < r.lines.length) :
    u.countsLine h r e = true ↔ e.status = .done ∧ (r.lines.getD e.line LineEntry.fresh).usable = true ∧
      (∀ f, u.repeatRef = some f → ∃ x, h.find f = some x ∧ (x.lines.getD e.line LineEntry.fresh).usable = true) ∧
      (∀ f, u.combRef = some f → ∃ x, h.find f = some x ∧
        (x.lines.getD (if r.parity = .top then e.line - 1 else e.line) LineEntry.fresh).usable = true ∧
        (x.lines.getD (if r.parity = .top then e.line else min (e.line + 1) (r.lines.length - 1)) LineEntry.fresh).usable = true) := by
  have hboth : ∀ (x : Option FieldRecord) (a b : Nat), usableIn x a = true ∧ usableIn x b = true ↔ ∃ r, x = some r ∧
      (r.lines.getD a LineEntry.fresh).usable = true ∧ (r.lines.getD b LineEntry.fresh).usable = true := fun x a b => by
    cases x <;> simp [usableIn]
  simp only [ProbeUnit.countsLine, combLines_eq r.parity hl, Bool.and_eq_true, decide_eq_true_eq, and_assoc]
  refine and_congr_right fun _ => and_congr (by simp [usableIn]) (and_congr ?_ ?_)
  · cases u.repeatRef with
    | none => simp
    | some f => simp [usableIn_iff]
  · cases u.combRef with
    | none => simp
    | some f => simp only [Bool.and_eq_true, hboth, Option.some.injEq, forall_eq']

theorem isSome_map (x : Option FieldNo) (n : Nat) : (if x.isSome then some n else none) = x.map fun _ => n := by
  cases x <;> rfl

/-- Settles O27: a line counts by `countsLine_iff`; the two results are the branches of `ProbeUnit.settle`. -/
theorem metricsFollowTheLinesThatCount : Obligations.MetricsFollowTheLinesThatCount := by
  intro u h r width table counting q p samples usable invalid
  refine ⟨fun e hl => countsLine_iff u h r hl, measured_iff u, fun hm => if_pos hm, fun hm hfew => ?_, fun hm href hmany => ?_⟩
  · have hno : ¬ u.measured = false := by rw [hm]; decide
    have hreport : u.noReference = true ∨ counting.length < (probeCount r.lines.length + 1) / 2 := by
      rw [noReference_iff]
      exact hfew
    exact (if_neg hno).trans (if_pos hreport)
  · have hno : ¬ u.measured = false := by rw [hm]; decide
    have hreport : ¬ (u.noReference = true ∨ counting.length < (probeCount r.lines.length + 1) / 2) := by
      rw [noReference_iff]
      rintro (⟨hc, hr⟩ | hlt)
      · exact href.elim (fun hne => hne hc) fun hne => hne hr
      · exact Nat.not_lt.mpr hmany hlt
    rw [← isSome_map, ← isSome_map]
    exact (if_neg hno).trans (if_neg hreport)

/-! ### A completed line (R43, R44) -/

section Complete

variable {u : ProbeUnit} {h : History} {g : Ring} {l : Nat} {f : ProbeField}

theorem setEntry_table (u : ProbeUnit) (l : Nat) (k : ProbeEntry → ProbeEntry) :
    (u.setEntry l k).table = u.table.map (fun e => if e.line = l then k e else e) := rfl

/-- R43: an entry set in the probe table stands on its line and leaves the other lines. -/
theorem setEntry_entries (u : ProbeUnit) (l : Nat) {k : ProbeEntry → ProbeEntry} {status : ProbeStatus}
    (hk : ∀ e, (k e).line = e.line ∧ (k e).status = status) :
    (∀ e ∈ (u.setEntry l k).table, e.line = l → e.status = status) ∧
    (u.setEntry l k).table.map (fun e => e.line) = u.table.map (fun e => e.line) ∧
    (∀ e ∈ (u.setEntry l k).table, e.line ≠ l → e ∈ u.table) := by
  have hline : ∀ e : ProbeEntry, (if e.line = l then k e else e).line = e.line := fun e => by
    split
    · exact (hk e).1
    · rfl
  simp only [setEntry_table, List.forall_mem_map, List.map_map]
  refine ⟨fun e _ he => ?_, List.map_congr_left fun e _ => hline e, fun e he hne => ?_⟩
  · rw [hline] at he
    rw [if_pos he]
    exact (hk e).2
  · rw [hline] at hne
    rw [if_neg hne]
    exact he

theorem lineComplete_none (hw : ∀ e ∈ u.table, e.line = l → e.status ≠ .waiting) : u.lineComplete h g l = u := by
  have hfind : u.table.find? (fun e => decide (e.line = l) && decide (e.status = .waiting)) = none :=
    List.find?_eq_none.mpr fun e he hc => by
      obtain ⟨hline, hstatus⟩ := Bool.and_eq_true_iff.mp hc
      exact hw e he (of_decide_eq_true hline) (of_decide_eq_true hstatus)
  unfold ProbeUnit.lineComplete
  rw [hfind]
  cases u.field <;> rfl

/-- R43: a completed WAITING probe line. -/
theorem lineComplete_waiting (hf : u.field = some f) (hw : ∃ e ∈ u.table, e.line = l ∧ e.status = .waiting) :
    u.lineComplete h g l =
      if u.noReference then u.setEntry l (fun e => { e with status := .notRun })
      else if u.pending.length < 2 then
        { u.setEntry l (fun e => { e with status := .pending }) with
          pending := u.pending ++ [{ line := l, fetches := u.fetches h g f l }] }
      else u.setEntry l (fun e => { e with status := .invalid .skipped }) := by
  obtain ⟨e, he, hline, hstatus⟩ := hw
  obtain ⟨x, hx⟩ : ∃ x, u.table.find? (fun e => decide (e.line = l) && decide (e.status = .waiting)) = some x :=
    Option.isSome_iff_exists.mp (List.find?_isSome.mpr ⟨e, he, by simp [hline, hstatus]⟩)
  simp only [ProbeUnit.lineComplete, hf, hx]
  rfl

end Complete

/-- Settles O25: the three cases of a WAITING line are `lineComplete_waiting`, each setting one entry (`setEntry_entries`). -/
theorem completedLineStartsItsProbeLine : Obligations.CompletedLineStartsItsProbeLine := by
  intro u h g l f hf
  refine ⟨lineComplete_none, fun hw => ?_, fun hl => ?_⟩
  · intro t
    have ht : t = _ := lineComplete_waiting (h := h) (g := g) hf hw
    have hreference : (u.combRef ≠ none ∨ u.repeatRef ≠ none) → ¬ u.noReference = true := fun hr hn => by
      obtain ⟨hc, hrep⟩ := (noReference_iff u).mp hn
      exact hr.elim (fun hne => hne hc) fun hne => hne hrep
    have hset := fun (status : ProbeStatus) => setEntry_entries u l (k := fun e => { e with status := status }) (status := status)
      fun _ => ⟨rfl, rfl⟩
    refine ⟨fun hc hr => ?_, fun hr hlt => ?_, fun hr hge => ?_, ?_, ?_⟩
    · rw [ht, if_pos ((noReference_iff u).mpr ⟨hc, hr⟩)]
      exact ⟨(hset .notRun).1, rfl⟩
    · rw [ht, if_neg (hreference hr), if_pos hlt]
      exact ⟨(hset .pending).1, rfl⟩
    · rw [ht, if_neg (hreference hr), if_neg (Nat.not_lt.mpr hge)]
      exact ⟨(hset (.invalid .skipped)).1, rfl⟩
    · rw [ht]
      split
      · exact (hset .notRun).2.1
      · split
        · exact (hset .pending).2.1
        · exact (hset (.invalid .skipped)).2.1
    · rw [ht]
      split
      · exact (hset .notRun).2.2
      · split
        · exact (hset .pending).2.2
        · exact (hset (.invalid .skipped)).2.2
  · intro fetch held upper lower
    have hlines : combLines f.parity l g.lines = (upper, lower) := by
      rw [combLines_eq f.parity hl]
      simp only [upper, lower]
      cases f.parity <;> rfl
    unfold ProbeUnit.fetches
    simp only [hlines]
    rfl

end Sys2Proof.Machine
end

section
/-! The bursts of the probe unit (R44 to R46): their grants, their returns and the sums of a probe line. -/

namespace Sys2Proof.Machine

open Host (Outcome)

/-! ### The grant of a probe burst (R44) -/

/-- R149, R155: the words that a granted read burst reads, with their checks. -/
def State.burstRead (s : State) (us : List Upset) (b : Burst) : List (Word × CheckResult) :=
  (List.range b.count).map (fun i => (s.dram.disturbAll us).readChecked (b.addr / 4 + i))

theorem burstRead_length (s : State) (us : List Upset) (b : Burst) : (s.burstRead us b).length = b.count := by
  simp [State.burstRead]

/-- R44: what the grant of a probe burst leaves before its check report. -/
def State.probeGranted (s : State) (us : List Upset) (l : Nat) (role : ProbeRole) (b : Burst) : State :=
  { s with
    dram := s.dram.disturbAll us
    memPort := { s.memPort with starvation := (s.countGrant .probe).memPort.starvation }
    probe := s.probe.grant l role ((s.burstRead us b).map Prod.fst) (anyFailed (s.burstRead us b)) }

theorem probeGrant_next {us : List Upset} {l : Nat} {role : ProbeRole} {b : Burst} {s : State} (hg : s.grantee = some .probe)
    (hp : s.probe.presented = some (l, role, b)) : exec (.probeBurstReturn (.grant us)) s =
      .next (raiseChecks .probe .read b.addr ((s.burstRead us b).map Prod.snd) (s.probeGranted us l role b)) := by
  simp only [exec, execProbeBurstReturn, grantTo_next hg, granted_eq, grantProbe, hp, State.readAt, Memory.readBurst]
  rfl

/-! ### The return of a probe burst (R45, R46) -/

/-- R45: the pending lines with the words of a burst joined to their fetch. -/
def ProbeUnit.joined (u : ProbeUnit) (b : ProbeReturn) : List PendingProbe :=
  u.pending.map (fun p => if p.line = b.line then { p with fetches := p.fetches.map (fun f =>
    if f.role = b.role then { f with words := f.words ++ b.words } else f) } else p)

theorem complete_iff (p : PendingProbe) : p.complete = true ↔ ∀ f ∈ p.fetches, f.width ≤ f.words.length := by
  simp [PendingProbe.complete]

section Returned

variable {u : ProbeUnit} {b : ProbeReturn} {rest : List ProbeReturn} {p : PendingProbe}

theorem returned_failed (hq : u.inFlight = b :: rest) (hf : b.failed = true) : u.returned = { u with
    table := u.table.map (fun e => if e.line = b.line then { e with status := .invalid .checkFailed } else e)
    pending := u.pending.filter (fun p => decide (p.line ≠ b.line))
    inFlight := rest.filter (fun x => decide (x.line ≠ b.line)) } := by
  simp only [ProbeUnit.returned, hq, hf, if_true]
  rfl

theorem returned_joined (hq : u.inFlight = b :: rest) (hf : b.failed = false) :
    u.returned = { u with pending := u.joined b, inFlight := rest }.settleLine b.line := by
  simp only [ProbeUnit.returned, hq, hf, Bool.false_eq_true, if_false]
  rfl

theorem settleLine_none {l : Nat} (h : u.pending.find? (fun p => decide (p.line = l)) = none) : u.settleLine l = u := by
  simp only [ProbeUnit.settleLine, h]

theorem settleLine_some {l : Nat} (h : u.pending.find? (fun p => decide (p.line = l)) = some p) : u.settleLine l =
    if p.complete = true then (u.setEntry l (fun e => { e with status := .done, repeatSum := p.repeatSum, combSum := p.combSum })).leave l
    else u := by
  simp only [ProbeUnit.settleLine, h]

theorem settleLine_complete {l : Nat} (h : u.pending.find? (fun p => decide (p.line = l)) = some p)
    (hc : ∀ f ∈ p.fetches, f.width ≤ f.words.length) : u.settleLine l =
      (u.setEntry l (fun e => { e with status := .done, repeatSum := p.repeatSum, combSum := p.combSum })).leave l := by
  rw [settleLine_some h, if_pos ((complete_iff p).mpr hc)]

theorem settleLine_open {l : Nat} (h : u.pending.find? (fun p => decide (p.line = l)) = some p)
    (hc : ∃ f ∈ p.fetches, f.words.length < f.width) : u.settleLine l = u := by
  obtain ⟨f, hf, hlt⟩ := hc
  rw [settleLine_some h, if_neg fun hall => Nat.not_le.mpr hlt ((complete_iff p).mp hall f hf)]

/-- R46: a burst of a line that is no longer pending joins nothing. -/
theorem joined_none (h : (u.joined b).find? (fun p => decide (p.line = b.line)) = none) : u.joined b = u.pending := by
  refine (List.map_congr_left fun p hp => if_neg fun hl => ?_).trans (List.map_id' _)
  have hmem := List.find?_eq_none.mp h _ (List.mem_map_of_mem hp)
  rw [if_pos hl] at hmem
  exact hmem (decide_eq_true hl)

end Returned

/-! ### The sums of a probe line (R45) -/

theorem repeatTerm_eq (n r : Nat) : repeatTerm n r = ((n : Int) - r).natAbs := by
  simp only [repeatTerm, absDiff]
  omega

theorem combTerm_eq (n a b : Nat) : combTerm n a b = min 1023 ((2 * (n : Int) - a - b).natAbs - ((a : Int) - b).natAbs) := by
  simp only [combTerm, absDiff]
  omega

/-- R15, R44: the luma at a column of a fetched line, the last word of a HELD line standing for those beyond its extent. -/
theorem fetch_luma (f : ProbeFetch) (x : Nat) : f.luma x = (f.words.getD (tailIndex f.held x) 0).toNat / 2 ^ 16 % 2 ^ 10 := rfl

theorem sampleColumns_eq (w : Nat) : sampleColumns w = (List.range ((w - 33) / 4 + 1)).map (fun i => 16 + 4 * i) := rfl

section Sums

variable {p : PendingProbe} {own r a b : ProbeFetch}

theorem repeatSum_some (ho : p.fetch .own = some own) (hr : p.fetch .repeatRef = some r) : p.repeatSum =
    ((sampleColumns own.width).map (fun x => ((own.luma x : Int) - r.luma x).natAbs)).sum := by
  simp only [PendingProbe.repeatSum, ho, hr, repeatTerm_eq]

theorem repeatSum_none (ho : p.fetch .own = some own) (hr : p.fetch .repeatRef = none) : p.repeatSum = 0 := by
  simp only [PendingProbe.repeatSum, ho, hr]

theorem combSum_some (ho : p.fetch .own = some own) (ha : p.upper = some a) (hb : p.lower = some b) : p.combSum =
    ((sampleColumns own.width).map (fun x => min 1023 ((2 * (own.luma x : Int) - a.luma x - b.luma x).natAbs -
      ((a.luma x : Int) - b.luma x).natAbs))).sum := by
  simp only [PendingProbe.combSum, ho, ha, hb, combTerm_eq]

theorem combSum_none (ho : p.fetch .own = some own) (ha : p.upper = none) : p.combSum = 0 := by
  simp only [PendingProbe.combSum, ho, ha]

theorem upper_both (h : p.fetch .combBoth = some a) : p.upper = some a := by simp only [PendingProbe.upper, h]

theorem lower_both (h : p.fetch .combBoth = some a) : p.lower = some a := by simp only [PendingProbe.lower, h]

theorem upper_alone (h : p.fetch .combBoth = none) : p.upper = p.fetch .combUpper := by simp only [PendingProbe.upper, h]

theorem lower_alone (h : p.fetch .combBoth = none) : p.lower = p.fetch .combLower := by simp only [PendingProbe.lower, h]

end Sums

/-- Settles O26: the grant is `probeGrant_next`; a return joins its words and settles its line, or leaves with it. -/
theorem probeBurstsFetchAndSettleLines : Obligations.ProbeBurstsFetchAndSettleLines := by
  refine ⟨fun us l role b s hg hp => ?_, fun b rest s hq => ?_, ProbeUnit.presented_iff, fun p own ho => ?_⟩
  · refine ⟨_, probeGrant_next hg hp, ?_, by simp [State.probeGranted], ?_, ?_⟩
    · rw [raiseChecks_eq]
      simp only [State.probeGranted, ProbeUnit.grant, List.length_map, burstRead_length]
      rfl
    · exact raiseChecks_granted _ _ _ _ Iff.rfl rfl rfl rfl rfl
    · rw [raiseChecks_eq]
      rfl
  · refine ⟨{ s with probe := s.probe.returned }, rfl, rfl, fun hf => returned_failed hq hf, fun hf => ?_⟩
    rw [returned_joined hq hf]
    exact ⟨fun h => (settleLine_none h).trans (by rw [joined_none h]), fun x h => ⟨settleLine_complete h, settleLine_open h⟩⟩
  · exact ⟨fun r => repeatSum_some ho, repeatSum_none ho,
      fun a b hboth ha hb => combSum_some ho ((upper_alone hboth).trans ha) ((lower_alone hboth).trans hb),
      fun a hboth => combSum_some ho (upper_both hboth) (lower_both hboth),
      fun hboth ha => combSum_none ho ((upper_alone hboth).trans ha)⟩

end Sys2Proof.Machine
end

section
/-! The eviction of a record with its notices (R33, R34): the repair of the plan (R76 to R79) and the loss of a reference (R47). -/

namespace Sys2Proof.Machine

open Host (Outcome)

/-! ### The repair of the plan (R76 to R79) -/

section Repair

variable (f : FieldNo) (roles : Roles) {s u : State}

theorem repairPlan_none (h : s.planner.plan = none) : repairPlan f roles s = s := by simp only [repairPlan, h]

/-- The plan stands, or is repaired with REFERENCE_LOST. -/
theorem repairPlan_cases (s : State) : repairPlan f roles s = s ∨
    ∃ p p1 role released, s.planner.plan = some p ∧ p.repair roles = some (p1, role, released) := by
  cases h : s.planner.plan with
  | none => exact .inl (repairPlan_none f roles h)
  | some p =>
    cases hr : p.repair roles with
    | none => exact .inl (repairPlan_of_repair_none h hr)
    | some x => exact .inr ⟨p, _, _, _, rfl, hr⟩

/-- A repair changes the planner, the referenced sets and the conditions alone. -/
theorem repairPlan_frame (s : State) : repairPlan f roles s = { s with
    history := (repairPlan f roles s).history, planner := (repairPlan f roles s).planner, cond := (repairPlan f roles s).cond } := by
  rcases repairPlan_cases f roles s with h | ⟨p, p1, role, released, h, hr⟩
  · rw [h]
  · rw [repairPlan_of_repair h hr]
    rfl

theorem repairPlan_next (s : State) : (repairPlan f roles s).history.next = s.history.next := by
  rcases repairPlan_cases f roles s with h | ⟨p, p1, role, released, h, hr⟩
  · rw [h]
  · rw [repairPlan_of_repair h hr]
    rfl

/-- R63: a repair leaves the records but for their referenced sets. -/
theorem repairPlan_records (s : State) : (repairPlan f roles s).history.records.map (fun x => { x with referenced := Roles.empty }) =
    s.history.records.map (fun x => { x with referenced := Roles.empty }) := by
  rcases repairPlan_cases f roles s with h | ⟨p, p1, role, released, h, hr⟩
  · rw [h]
  · rw [repairPlan_of_repair h hr]
    exact List.map_map

/-- A repair reads the planner, the history and the condition unit alone. -/
theorem repairPlan_congr (hp : u.planner = s.planner) (hh : u.history = s.history) (hc : u.cond = s.cond) (hw : u.windows = s.windows)
    (hphase : u.phase = s.phase) : (repairPlan f roles u).planner = (repairPlan f roles s).planner ∧
      (repairPlan f roles u).cond = (repairPlan f roles s).cond ∧ (repairPlan f roles u).history = (repairPlan f roles s).history := by
  cases h : s.planner.plan with
  | none =>
    rw [repairPlan_none f roles h, repairPlan_none f roles (hp ▸ h)]
    exact ⟨hp, hc, hh⟩
  | some p =>
    cases hr : p.repair roles with
    | none =>
      rw [repairPlan_of_repair_none h hr, repairPlan_of_repair_none (hp ▸ h) hr]
      exact ⟨hp, hc, hh⟩
    | some x =>
      rw [repairPlan_of_repair h hr, repairPlan_of_repair (hp ▸ h) hr]
      refine ⟨by rw [raise_planner, raise_planner, hp], ?_, by rw [raise_history, raise_history, hh]⟩
      exact raiseAll_congr [_] hc hphase hw (show u.planner.frame = s.planner.frame by rw [hp])

end Repair

/-! ### The loss of a reference (R47) -/

theorem dropFetches_lines (u : ProbeUnit) (drops : ProbeRole → Bool) :
    u.pending.map (fun p => p.line) = (u.dropFetches drops).pending.map (fun p => p.line) :=
  (List.map_map (g := fun p : PendingProbe => p.line)
    (f := fun q : PendingProbe => { q with fetches := q.fetches.filter fun f => ! drops f.role })).symm

theorem dropFetches_inFlight (u : ProbeUnit) (drops : ProbeRole → Bool) (ended : Nat → Bool) :
    (u.dropFetches drops).inFlight.filter (fun b => ! ended b.line) = u.inFlight.filter fun b => ! drops b.role && ! ended b.line := by
  rw [ProbeUnit.dropFetches, List.filter_filter]
  exact List.filter_congr fun b _ => Bool.and_comm _ _

theorem loseComb_eq (u : ProbeUnit) : let kept := (u.dropFetches ProbeRole.ofComb).pending
    u.loseComb = { u with
      combRef := none, combLost := true
      table := u.table.map (entryAfter u.repeatRef.isNone kept)
      pending := kept.filter (fun q => ! linesEnd u.repeatRef.isNone kept q.line)
      inFlight := u.inFlight.filter (fun b => ! b.role.ofComb && ! linesEnd u.repeatRef.isNone kept b.line) } := by
  intro kept
  rw [← dropFetches_inFlight u ProbeRole.ofComb (linesEnd u.repeatRef.isNone kept), ProbeUnit.loseComb,
    dropFetches_lines u ProbeRole.ofComb]
  exact ProbeUnit.afterLoss_all { (u.dropFetches ProbeRole.ofComb) with combRef := none, combLost := true }

theorem loseRepeat_eq (u : ProbeUnit) : let kept := (u.dropFetches (fun r => decide (r = ProbeRole.repeatRef))).pending
    u.loseRepeat = { u with
      repeatRef := none, repeatLost := true
      table := u.table.map (entryAfter u.combRef.isNone kept)
      pending := kept.filter (fun q => ! linesEnd u.combRef.isNone kept q.line)
      inFlight := u.inFlight.filter (fun b => ! decide (b.role = .repeatRef) && ! linesEnd u.combRef.isNone kept b.line) } := by
  intro kept
  have hno : { (u.dropFetches (fun r => decide (r = ProbeRole.repeatRef))) with repeatRef := none, repeatLost := true }.noReference =
      u.combRef.isNone := Bool.and_true _
  have h := ProbeUnit.afterLoss_all
    { (u.dropFetches (fun r => decide (r = ProbeRole.repeatRef))) with repeatRef := none, repeatLost := true }
  rw [hno] at h
  rw [← dropFetches_inFlight u (fun r => decide (r = ProbeRole.repeatRef)) (linesEnd u.combRef.isNone kept),
    ProbeUnit.loseRepeat, dropFetches_lines u (fun r => decide (r = ProbeRole.repeatRef))]
  exact h

section Evicted

variable {u : ProbeUnit} {f : FieldNo}

theorem evicted_comb (h : u.combRef = some f) : u.evicted f = u.loseComb := if_pos h

theorem evicted_repeat (hc : u.combRef ≠ some f) (h : u.repeatRef = some f) : u.evicted f = u.loseRepeat :=
  (if_neg hc).trans (if_pos h)

theorem evicted_other (hc : u.combRef ≠ some f) (hr : u.repeatRef ≠ some f) : u.evicted f = u := (if_neg hc).trans (if_neg hr)

end Evicted

theorem evicted_combRef (u : ProbeUnit) (f : FieldNo) : (u.evicted f).combRef ≠ some f := by
  by_cases hc : u.combRef = some f
  · rw [evicted_comb hc, loseComb_eq]
    exact nofun
  · by_cases hr : u.repeatRef = some f
    · rw [evicted_repeat hc hr, loseRepeat_eq]
      exact hc
    · rw [evicted_other hc hr]
      exact hc

/-- A field that is no more than one reference is none after its eviction. -/
theorem evicted_repeatRef {u : ProbeUnit} (f : FieldNo) (hdistinct : u.combRef = some f → u.repeatRef ≠ some f) :
    (u.evicted f).repeatRef ≠ some f := by
  by_cases hc : u.combRef = some f
  · rw [evicted_comb hc, loseComb_eq]
    exact hdistinct hc
  · by_cases hr : u.repeatRef = some f
    · rw [evicted_repeat hc hr, loseRepeat_eq]
      exact nofun
    · rw [evicted_other hc hr]
      exact hr

theorem ofComb_eq : ProbeRole.ofComb = fun r => decide (r = .combUpper ∨ r = .combLower ∨ r = .combBoth) := by
  funext r
  cases r <;> rfl

/-- Settles O24: a repair reads no store and no probe unit, so it commutes with the other notices. -/
theorem evictionRemovesOneRecordWithItsNotices : Obligations.EvictionRemovesOneRecordWithItsNotices := by
  intro r s hdistinct t
  have hcongr := repairPlan_congr r.number r.referenced (s := { s with history := s.history.remove r.number })
    (u := { s with history := s.history.remove r.number, store := s.store.voidFields [r.number], probe := s.probe.evicted r.number })
    rfl rfl rfl rfl rfl
  have hframe : t = _ := repairPlan_frame r.number r.referenced
    { s with history := s.history.remove r.number, store := s.store.voidFields [r.number], probe := s.probe.evicted r.number }
  have hprobe : t.probe = s.probe.evicted r.number := by rw [hframe]
  have hstore : t.store = s.store.voidFields [r.number] := by rw [hframe]
  refine ⟨repairPlan_records _ _ _, repairPlan_next _ _ _, by rw [hframe], hcongr, ?_, ?_, ?_, ?_, ?_, ?_, by rw [hframe]; simp⟩
  · rw [hframe]
  · rw [hstore]
    exact voidFields_voided _ _
  · rw [hprobe]
    exact evicted_combRef s.probe r.number
  · rw [hprobe]
    exact evicted_repeatRef r.number (hdistinct r.number)
  · intro hc hr
    rw [hprobe, evicted_other hc hr]
  · rw [hprobe]
    refine ⟨fun hc => ?_, fun hr => ?_⟩
    · rw [evicted_comb hc, loseComb_eq, ofComb_eq]
      refine ⟨rfl, rfl, rfl, rfl, ?_⟩
      cases s.probe.repeatRef <;> rfl
    · rw [evicted_repeat (fun hc => hdistinct _ hc hr) hr, loseRepeat_eq]
      refine ⟨rfl, rfl, rfl, rfl, ?_⟩
      cases s.probe.combRef <;> rfl

end Sys2Proof.Machine
end

section
/-! The line store (R118 to R131): the take of a line, the release of an entry, and the bursts of a fill. -/

namespace Sys2Proof.Machine

open Host (Outcome)

/-! ### The take of a line of a need set (R120, R122, R123) -/

section Take

variable {st : LineStore} {n : Nat}

theorem entry_getElem (st : LineStore) {k : Nat} (h : k < st.entries.length) : st.entry k = st.entries[k] :=
  (List.getElem_eq_getD StoreEntry.empty).symm

/-- A search of the store finds no entry. -/
theorem findEntry_none (st : LineStore) (p : StoreEntry → Bool) :
    st.entries.findIdx? p = none ↔ ∀ k < st.entries.length, p (st.entry k) = false := by
  rw [List.findIdx?_eq_none_iff, List.forall_mem_iff_forall_getElem]
  exact forall_congr' fun k => forall_congr' fun h => by rw [entry_getElem st h]

/-- A search of the store finds the first entry. -/
theorem findEntry_some (st : LineStore) (p : StoreEntry → Bool) :
    st.entries.findIdx? p = some n ↔ n < st.entries.length ∧ p (st.entry n) = true ∧ ∀ k < n, p (st.entry k) = false := by
  rw [List.findIdx?_eq_some_iff_getElem]
  constructor
  · rintro ⟨hn, hp, hbefore⟩
    refine ⟨hn, by rw [entry_getElem st hn]; exact hp, fun k hk => ?_⟩
    rw [entry_getElem st (Nat.lt_trans hk hn)]
    exact Bool.eq_false_iff.mpr (hbefore k hk)
  · rintro ⟨hn, hp, hbefore⟩
    refine ⟨hn, by rw [← entry_getElem st hn]; exact hp, fun k hk => ?_⟩
    rw [← entry_getElem st (Nat.lt_trans hk hn)]
    exact Bool.eq_false_iff.mp (hbefore k hk)

/-- R123: the first EMPTY entry is the victim of a miss. -/
theorem victim_empty (hn : n < st.entries.length) (he : (st.entry n).state = .empty) (hfirst : ∀ k < n, (st.entry k).state ≠ .empty) :
    st.victim = some n := by
  have hfind : st.entries.findIdx? (fun e => decide (e.state = .empty)) = some n :=
    (findEntry_some st _).mpr ⟨hn, decide_eq_true he, fun k hk => decide_eq_false (hfirst k hk)⟩
  simp only [LineStore.victim, hfind]

/-- R123: with no EMPTY entry the oldest of the LRU order is the victim. -/
theorem victim_oldest (hfull : ∀ k < st.entries.length, (st.entry k).state ≠ .empty) : st.victim = st.lru.head? := by
  have hfind : st.entries.findIdx? (fun e => decide (e.state = .empty)) = none :=
    (findEntry_none st _).mpr fun k hk => decide_eq_false (hfull k hk)
  simp only [LineStore.victim, hfind]

theorem takeLine_hit {w : WantedLine} (h : st.lookup w.tag = some n) :
    st.takeLine w = some (st.share n, { role := w.role, line := w.line, entry := n, held := w.held }) := by
  simp only [LineStore.takeLine, h]

theorem takeLine_miss {w : WantedLine} (h : st.lookup w.tag = none) (hv : st.victim = some n) : st.takeLine w =
    some (st.allocate n w.tag w.base w.width, { role := w.role, line := w.line, entry := n, held := w.held }) := by
  simp only [LineStore.takeLine, h, hv]

end Take

/-! ### The release of an entry (R130, R131) -/

section Release

variable {st st1 : LineStore} {n : Nat} {k : StoreEntry → StoreEntry}

theorem changed_entry {e : StoreEntry} (h : st1.entries = modifyAt k st.entries n) (hn : n < st.entries.length)
    (he : k (st.entry n) = e) : st1.entry n = e := by
  rw [entry_if st k n n st1 h, if_pos ⟨rfl, hn⟩, he]

theorem changed_others (h : st1.entries = modifyAt k st.entries n) : ∀ m, m ≠ n → st1.entry m = st.entry m := fun m hm => by
  rw [entry_if st k n m st1 h, if_neg fun hc => hm hc.1]

/-- R130: the last use of an entry that is VALID or POISONED. -/
theorem releaseEntry_ended (hu : (st.entry n).useCount = 1) (hs : (st.entry n).state = .valid ∨ (st.entry n).state = .poisoned) :
    st.releaseEntry n = { st with entries := modifyAt (fun e => { e with useCount := 0 }) st.entries n, lru := st.lru ++ [n] } := by
  rcases hs with hs | hs <;> simp only [LineStore.releaseEntry, hu, hs, if_true]

theorem releaseEntry_void (hu : (st.entry n).useCount = 1) (hs : (st.entry n).state = .void) :
    st.releaseEntry n = { st with entries := modifyAt (fun _ => StoreEntry.empty) st.entries n } := by
  simp only [LineStore.releaseEntry, hu, hs, if_true]

theorem releaseEntry_outstanding (hu : (st.entry n).useCount = 1) (hs : (st.entry n).state = .filling) :
    st.releaseEntry n = { st with entries := modifyAt (fun e => { e with useCount := 0 }) st.entries n } := by
  simp only [LineStore.releaseEntry, hu, hs, if_true]

theorem releaseEntry_shared (hu : (st.entry n).useCount ≠ 1) :
    st.releaseEntry n = { st with entries := modifyAt (fun e => { e with useCount := e.useCount - 1 }) st.entries n } := if_neg hu

theorem releaseEntry_others (st : LineStore) (n : Nat) : ∀ m, m ≠ n → (st.releaseEntry n).entry m = st.entry m := by
  by_cases hu : (st.entry n).useCount = 1
  · have hentries : ∃ k, (st.releaseEntry n).entries = modifyAt k st.entries n := by
      simp only [LineStore.releaseEntry, hu, if_true]
      split <;> exact ⟨_, rfl⟩
    obtain ⟨k, hk⟩ := hentries
    exact changed_others hk
  · rw [releaseEntry_shared hu]
    exact changed_others rfl

end Release

/-- Settles O40: the search of the store decides between a hit and a miss, and each operation changes one entry. -/
theorem lookupsShareOrAllocateAnEntry : Obligations.LookupsShareOrAllocateAnEntry := by
  intro st w n hn matching line given
  have hmatching : ∀ k, (st.entry k).hit w.tag = true ↔ matching k := fun k => hit_iff (st.entry k) w.tag
  refine ⟨fun h => ?_, ?_, fun h => ?_, fun h hvictim => ?_, fun hu => ⟨fun hs => ?_, fun hs => ?_, fun hs => ?_⟩, fun hu => ?_,
    releaseEntry_others st n⟩
  · obtain ⟨_, hhit, _⟩ := (findEntry_some st _).mp h
    exact (hmatching n).mp hhit
  · rw [LineStore.lookup, findEntry_none]
    exact forall_congr' fun k => forall_congr' fun _ => by rw [← hmatching, Bool.not_eq_true]
  · exact ⟨_, takeLine_hit h, changed_entry rfl hn rfl, changed_others rfl, rfl⟩
  · have hv : st.victim = some n := by
      rcases hvictim with ⟨hempty, hfirst⟩ | ⟨hfull, hhead⟩
      · exact victim_empty hn hempty hfirst
      · exact (victim_oldest hfull).trans hhead
    exact ⟨_, takeLine_miss h hv, changed_entry rfl hn rfl, changed_others rfl, rfl⟩
  · rw [releaseEntry_ended hu hs]
    exact ⟨rfl, changed_entry rfl hn rfl⟩
  · rw [releaseEntry_void hu hs]
    exact ⟨rfl, changed_entry rfl hn rfl⟩
  · rw [releaseEntry_outstanding hu hs]
    exact ⟨rfl, changed_entry rfl hn rfl⟩
  · rw [releaseEntry_shared (by omega)]
    exact ⟨rfl, changed_entry rfl hn rfl⟩

/-! ### The bursts of a fill (R125, R126) -/

/-- R125: what the grant of a fill burst leaves before its check report. -/
def State.fillGranted (s : State) (us : List Upset) (n : Nat) (b : Burst) : State :=
  { s with
    dram := s.dram.disturbAll us
    memPort := { s.memPort with starvation := (s.countGrant .fill).memPort.starvation }
    store := s.store.grant n ((s.burstRead us b).map Prod.fst) (anyFailed (s.burstRead us b)) }

theorem fillGrant_next {us : List Upset} {n : Nat} {b : Burst} {s : State} (hg : s.grantee = some .fill)
    (hp : s.store.presented = some (n, b)) : exec (.fillBurstReturn (.grant us)) s =
      .next (raiseChecks .fill .read b.addr ((s.burstRead us b).map Prod.snd) (s.fillGranted us n b)) := by
  simp only [exec, execFillBurstReturn, grantTo_next hg, granted_eq, grantFill, hp, State.readAt, Memory.readBurst]
  rfl

section Returned

variable {st : LineStore} {b : FillReturn} {rest : List FillReturn} {f : Fill}

theorem storeReturned_failed (hq : st.inFlight = b :: rest) (hf : b.failed = true) :
    st.returned = { st with inFlight := rest }.complete b.entry .poisoned := by
  simp only [LineStore.returned, hq, hf, if_true]

/-- R125: the line store with the words of a burst joined to their entry. -/
def LineStore.joined (st : LineStore) (b : FillReturn) (rest : List FillReturn) : LineStore :=
  { st with inFlight := rest, entries := modifyAt (fun e => { e with data := e.data ++ b.words }) st.entries b.entry }

theorem joined_entry (hb : b.entry < st.entries.length) :
    (st.joined b rest).entry b.entry = { st.entry b.entry with data := (st.entry b.entry).data ++ b.words } := changed_entry rfl hb rfl

theorem storeReturned_joined (hq : st.inFlight = b :: rest) (hf : b.failed = false) (hb : b.entry < st.entries.length)
    (hfill : (st.entry b.entry).fill = some f) : st.returned =
      if f.width ≤ (st.entry b.entry).data.length + b.words.length then (st.joined b rest).complete b.entry .valid
      else st.joined b rest := by
  have hentry := joined_entry (rest := rest) hb
  have hjoined : ((st.joined b rest).entry b.entry).fill = some f := by rw [hentry]; exact hfill
  have hdata : ((st.joined b rest).entry b.entry).data.length = (st.entry b.entry).data.length + b.words.length := by
    rw [hentry]
    exact List.length_append
  unfold LineStore.joined at hjoined hdata ⊢
  simp only [LineStore.returned, hq, hf, Bool.false_eq_true, if_false, hjoined, hdata]

end Returned

/-- Settles O41: the grant is `fillGranted`; a return either ends its fill (`complete_entry`) or joins its words. -/
theorem fillBurstsFetchIntoTheEntry : Obligations.FillBurstsFetchIntoTheEntry := by
  refine ⟨fun us n b s hg hp => ?_, fun b rest f s hq hb hfill => ?_⟩
  · have hstore : ∀ x a cs, (raiseChecks .fill x a cs (s.fillGranted us n b)).store = (s.fillGranted us n b).store := fun x a cs => by
      rw [raiseChecks_eq]
    refine ⟨_, fillGrant_next hg hp, by simp [State.fillGranted], ?_, ?_, ?_, ?_, ?_, ?_⟩
    · rw [hstore]
      rfl
    · rw [hstore]
      exact changed_others rfl
    · intro hn
      rw [hstore]
      simp only [State.fillGranted, LineStore.grant, List.length_map, burstRead_length]
      exact changed_entry rfl hn rfl
    · rw [hstore]
      rfl
    · exact raiseChecks_granted _ _ _ _ Iff.rfl rfl rfl rfl rfl
    · rw [raiseChecks_eq]
      rfl
  · refine ⟨{ s with store := s.store.returned }, rfl, rfl, ?_⟩
    have hwhole := storeReturned_failed hq
    have hwords := fun hf => storeReturned_joined hq hf hb hfill
    have hjoined := joined_entry (rest := rest) hb
    have hlength : b.entry < (s.store.joined b rest).entries.length := by
      rw [LineStore.joined, modifyAt_length]
      exact hb
    refine ⟨?_, fun hf => ?_, fun hf hlt => ?_, fun hf hge => ?_, fun hend => ?_⟩
    · cases hf : b.failed with
      | true =>
        rw [hwhole hf]
        exact changed_others rfl
      | false =>
        have hothers : ∀ k, k ≠ b.entry → (s.store.joined b rest).entry k = s.store.entry k := changed_others rfl
        rw [hwords hf]
        split
        · exact fun k hk => ((complete_entry _ _ _ hlength).2.1 k hk).trans (hothers k hk)
        · exact hothers
    · rw [hwhole hf]
      exact (complete_entry _ _ _ hb).1
    · rw [hwords hf, if_neg (Nat.not_le.mpr hlt)]
      exact ⟨hjoined, rfl⟩
    · rw [hwords hf, if_pos hge, (complete_entry _ _ _ hlength).1, hjoined]
    · cases hf : b.failed with
      | true =>
        rw [hwhole hf]
        exact ⟨rfl, rfl⟩
      | false =>
        rw [hwords hf, if_pos (hend.resolve_left (by rw [hf]; exact Bool.false_ne_true))]
        refine ⟨rfl, (complete_entry _ _ _ hlength).2.2.2.trans ?_⟩
        rw [hjoined]
        rfl

end Sys2Proof.Machine
end

section
/-! The rows of the reconstructed frame (R83 to R99): the source of an anchor row, the samples of a missing row, and what is available. -/

namespace Sys2Proof.Machine

open Host (Outcome)

/-! ### The source that conceals an anchor row (R87 to R89) -/

section Conceal

variable {ok : SourceRole → Nat → Bool} {pA rows r : Nat}

/-- R87: the partner line above a row, where there is one. -/
theorem upperSide (ok : SourceRole → Nat → Bool) (pA r : Nat) : partnerSide ok pA (rowAbove r) =
    if 0 < r ∧ ok .partner (lineAtRow (1 - pA) (r - 1)) = true then some (lineAtRow (1 - pA) (r - 1)) else none := by
  by_cases h : r = 0
  · simp [partnerSide, rowAbove, h]
  · simp [partnerSide, rowAbove, h, Nat.pos_of_ne_zero h]

/-- R87: the partner line below a row, where there is one. -/
theorem lowerSide (ok : SourceRole → Nat → Bool) (pA rows r : Nat) : partnerSide ok pA (rowBelow rows r) =
    if r + 1 < rows ∧ ok .partner (lineAtRow (1 - pA) (r + 1)) = true then some (lineAtRow (1 - pA) (r + 1)) else none := by
  by_cases h : r + 1 < rows <;> simp [partnerSide, rowBelow, h]

theorem conceal_average {u d : Nat} (hu : partnerSide ok pA (rowAbove r) = some u) (hd : partnerSide ok pA (rowBelow rows r) = some d) :
    conceal ok pA rows r = .average u d := by
  simp only [conceal, hu, hd]

theorem conceal_upper {u : Nat} (hu : partnerSide ok pA (rowAbove r) = some u) (hd : partnerSide ok pA (rowBelow rows r) = none) :
    conceal ok pA rows r = .line .partner u := by
  simp only [conceal, hu, hd]

theorem conceal_lower {d : Nat} (hu : partnerSide ok pA (rowAbove r) = none) (hd : partnerSide ok pA (rowBelow rows r) = some d) :
    conceal ok pA rows r = .line .partner d := by
  simp only [conceal, hu, hd]

/-- R88: with no partner line beside the row, anchor-2's line conceals it. -/
theorem conceal_anchor2 (hu : partnerSide ok pA (rowAbove r) = none) (hd : partnerSide ok pA (rowBelow rows r) = none)
    (h2 : ok .anchor2 (lineAtRow pA r) = true) : conceal ok pA rows r = .line .anchor2 (lineAtRow pA r) := by
  simp only [conceal, hu, hd, h2, if_true]

/-- R89: else the nearest anchor line. -/
theorem conceal_nearest {n : Nat} (hu : partnerSide ok pA (rowAbove r) = none) (hd : partnerSide ok pA (rowBelow rows r) = none)
    (h2 : ok .anchor2 (lineAtRow pA r) = false) (hn : nearestAnchor (ok .anchor) (rows / 2) (lineAtRow pA r) = some n) :
    conceal ok pA rows r = .line .anchor n := by
  simp only [conceal, hu, hd, h2, hn, Bool.false_eq_true, if_false]

theorem conceal_fill (hu : partnerSide ok pA (rowAbove r) = none) (hd : partnerSide ok pA (rowBelow rows r) = none)
    (h2 : ok .anchor2 (lineAtRow pA r) = false) (hn : nearestAnchor (ok .anchor) (rows / 2) (lineAtRow pA r) = none) :
    conceal ok pA rows r = .fill := by
  simp only [conceal, hu, hd, h2, hn, Bool.false_eq_true, if_false]

/-- R89: no anchor line is near where none is accepted above the line or in the field. -/
theorem nearestAnchor_eq_none {p : Nat → Bool} {m l : Nat} (hm : ∀ k < m, p k = false) (hl : ∀ k < l, p k = false) :
    nearestAnchor p m l = none := by
  cases h : nearestAnchor p m l with
  | none => rfl
  | some n =>
    obtain ⟨hp, ⟨hlt, _⟩ | ⟨_, hlt, _⟩⟩ := (nearestAnchor_iff p m l n).mp h
    · exact absurd hp (by rw [hl n hlt]; exact Bool.false_ne_true)
    · exact absurd hp (by rw [hm n hlt]; exact Bool.false_ne_true)

end Conceal

/-! ### An anchor row (R86 to R89) -/

section AnchorRow

variable {p : Picture} {r : Nat}

theorem y_anchor (h : r % 2 = p.parity) (x : Nat) : p.y x r = p.anchorLuma r x := if_pos (decide_eq_true h)

theorem c_anchor (h : r % 2 = p.parity) (x : Nat) : p.c x r = p.anchorChroma r x := if_pos (decide_eq_true h)

/-- The samples of an anchor row that takes one line. -/
theorem row_line {role : SourceRole} {n : Nat} (h : r % 2 = p.parity) (hs : p.anchorSource r = .line role n) (x : Nat) :
    p.y x r = p.luma role n x ∧ p.c x r = p.chroma role n x := by
  rw [y_anchor h, c_anchor h, Picture.anchorLuma, Picture.anchorChroma, hs]
  exact ⟨rfl, rfl⟩

theorem row_average {u d : Nat} (h : r % 2 = p.parity) (hs : p.anchorSource r = .average u d) (x : Nat) :
    p.y x r = mean2 (p.luma .partner u x) (p.luma .partner d x) ∧
      p.c x r = mean2 (p.chroma .partner u x) (p.chroma .partner d x) := by
  rw [y_anchor h, c_anchor h, Picture.anchorLuma, Picture.anchorChroma, hs]
  exact ⟨rfl, rfl⟩

theorem row_fill (h : r % 2 = p.parity) (hs : p.anchorSource r = .fill) (x : Nat) : p.y x r = p.fillY ∧ p.c x r = p.fillC := by
  rw [y_anchor h, c_anchor h, Picture.anchorLuma, Picture.anchorChroma, hs]
  exact ⟨rfl, rfl⟩

theorem anchorSource_own (h : p.has .anchor (lineAtRow p.parity r) = true) :
    p.anchorSource r = .line .anchor (lineAtRow p.parity r) := if_pos h

theorem anchorSource_void (h : p.has .anchor (lineAtRow p.parity r) = false) (hv : p.ownVoid (lineAtRow p.parity r) = true) :
    p.anchorSource r = .fill := by
  simp only [Picture.anchorSource, h, hv, Bool.false_eq_true, if_false, if_true]

theorem anchorSource_concealed (h : p.has .anchor (lineAtRow p.parity r) = false) (hv : p.ownVoid (lineAtRow p.parity r) = false) :
    p.anchorSource r = conceal p.has p.parity p.rows r := by
  simp only [Picture.anchorSource, h, hv, Bool.false_eq_true, if_false]

end AnchorRow

/-! ### A missing row (R92 to R99) -/

section MissingRow

variable {p : Picture} {r : Nat}

theorem y_missing (h : r % 2 ≠ p.parity) (x : Nat) : p.y x r = p.missingLuma r x := if_neg (by simpa [isAnchorRow] using h)

theorem c_missing (h : r % 2 ≠ p.parity) (x : Nat) : p.c x r = p.missingChroma r x := if_neg (by simpa [isAnchorRow] using h)

theorem missing_weave (h : r % 2 ≠ p.parity) (hm : p.method = .weave) (hp : p.has .partner (lineAtRow (1 - p.parity) r) = true)
    (x : Nat) : p.y x r = p.luma .partner (lineAtRow (1 - p.parity) r) x ∧
      p.c x r = p.chroma .partner (lineAtRow (1 - p.parity) r) x := by
  simp only [y_missing h, c_missing h, Picture.missingLuma, Picture.missingChroma, hp, hm, if_true, and_self]

theorem missing_blend (h : r % 2 ≠ p.parity) (hm : p.method = .blend) (hp : p.has .partner (lineAtRow (1 - p.parity) r) = true)
    (x : Nat) : p.y x r = blendSample (p.luma .partner (lineAtRow (1 - p.parity) r) x) (p.spatialLuma r x)
        (blendWeight (p.motion r x) p.tLo p.tHi) ∧
      p.c x r = blendSample (p.chroma .partner (lineAtRow (1 - p.parity) r) x) (p.spatialChroma r x)
        (blendWeight (p.motion r (2 * (x / 2))) p.tLo p.tHi) := by
  simp only [y_missing h, c_missing h, Picture.missingLuma, Picture.missingChroma, hp, hm, if_true, Nat.mul_comm 2, and_self]

theorem missing_spatial (h : r % 2 ≠ p.parity)
    (hs : p.method = .spatial ∨ p.has .partner (lineAtRow (1 - p.parity) r) = false) (x : Nat) :
    p.y x r = p.spatialLuma r x ∧ p.c x r = p.spatialChroma r x := by
  rw [y_missing h, c_missing h, Picture.missingLuma, Picture.missingChroma]
  cases hp : p.has .partner (lineAtRow (1 - p.parity) r) with
  | false => exact ⟨rfl, rfl⟩
  | true =>
    rw [hs.resolve_right (by rw [hp]; exact nofun)]
    exact ⟨rfl, rfl⟩

theorem partnerTerm_eq (p : Picture) (r x : Nat) : p.partnerTerm r x =
    if p.has .partner2 (lineAtRow (1 - p.parity) r) = true then some (absDiff (p.luma .partner (lineAtRow (1 - p.parity) r) x)
      (p.luma .partner2 (lineAtRow (1 - p.parity) r) x)) else none := rfl

/-- R95: the anchor term wants both lines of both fields. -/
theorem anchorTerm_eq (p : Picture) (r x : Nat) :
    let a := lineAtRow p.parity (neighbourA r)
    let b := lineAtRow p.parity (neighbourB p.rows r)
    p.anchorTerm r x =
      if p.has .anchor a = true ∧ p.has .anchor b = true ∧ p.has .anchor2 a = true ∧ p.has .anchor2 b = true then
        some (mean2 (absDiff (p.luma .anchor a x) (p.luma .anchor2 a x)) (absDiff (p.luma .anchor b x) (p.luma .anchor2 b x)))
      else none := by
  simp only [Picture.anchorTerm, Bool.and_eq_true, and_assoc]

/-- R91: the neighbours of a missing row are anchor rows. -/
theorem neighbours_anchor {pA rows : Nat} (hpA : pA ≤ 1) (h : r % 2 ≠ pA) (hrows : 2 ≤ rows) :
    neighbourA r % 2 = pA ∧ neighbourB rows r % 2 = pA := by
  constructor
  · rw [neighbourA]
    split <;> omega
  · rw [neighbourB]
    split <;> omega

end MissingRow

/-! ### What is available (R85) -/

theorem available_eq (p : Picture) (role : SourceRole) (n : Nat) :
    p.available role n = p.lines.find? (fun v => decide (v.role = role ∧ v.line = n ∧ v.state = .valid)) := by
  simp only [Picture.available, Bool.decide_and, Bool.and_assoc]

/-- Settles O37: an anchor row by the source it takes, a missing row by its method, the motion measure by the terms present. -/
theorem rowsTakeTheirSourcesInOrder : Obligations.RowsTakeTheirSourcesInOrder := by
  intro p x r hpA l m u d up down concealed from2 from3 take
  have hsource : concealed → p.anchorSource r = conceal p.has p.parity p.rows r := fun ⟨_, hno, hv⟩ => anchorSource_concealed hno hv
  have hup : up → partnerSide p.has p.parity (rowAbove r) = some u := fun h => (upperSide _ _ _).trans (if_pos h)
  have hnup : ¬ up → partnerSide p.has p.parity (rowAbove r) = none := fun h => (upperSide _ _ _).trans (if_neg h)
  have hdown : down → partnerSide p.has p.parity (rowBelow p.rows r) = some d := fun h => (lowerSide _ _ _ _).trans (if_pos h)
  have hndown : ¬ down → partnerSide p.has p.parity (rowBelow p.rows r) = none := fun h => (lowerSide _ _ _ _).trans (if_neg h)
  have hnearest : from3 → ∀ n, nearestAnchor (p.has .anchor) (p.rows / 2) l = some n → take .anchor n :=
    fun ⟨⟨hc, hu, hd⟩, h2⟩ n hn => row_line hc.1 ((hsource hc).trans (conceal_nearest (hnup hu) (hndown hd) h2 hn)) x
  refine ⟨fun h hown => row_line h (anchorSource_own hown) x, fun h hno hv => row_fill h (anchorSource_void hno hv) x,
    fun hc hu hd => row_average hc.1 ((hsource hc).trans (conceal_average (hup hu) (hdown hd))) x,
    fun hc hu hd => row_line hc.1 ((hsource hc).trans (conceal_upper (hup hu) (hndown hd))) x,
    fun hc hu hd => row_line hc.1 ((hsource hc).trans (conceal_lower (hnup hu) (hdown hd))) x,
    fun ⟨hc, hu, hd⟩ h2 => row_line hc.1 ((hsource hc).trans (conceal_anchor2 (hnup hu) (hndown hd) h2)) x,
    fun h3 n hlt hn hbetween => hnearest h3 n ((nearestAnchor_iff _ _ _ _).mpr ⟨hn, .inl ⟨hlt, hbetween⟩⟩),
    fun h3 habove n hlt hbound hn hbetween => hnearest h3 n ((nearestAnchor_iff _ _ _ _).mpr ⟨hn, .inr ⟨hlt, hbound, ?below⟩⟩),
    fun ⟨⟨hc, hu, hd⟩, h2⟩ hfield habove =>
      row_fill hc.1 ((hsource hc).trans (conceal_fill (hnup hu) (hndown hd) h2 (nearestAnchor_eq_none hfield habove))) x,
    fun h => ⟨fun hm hp => missing_weave h hm hp x, fun hm hp => missing_blend h hm hp x, fun hs => missing_spatial h hs x⟩,
    ?motion, ?spatial, fun role n => ?lines⟩
  case below =>
    intro k hk hkl
    rcases Nat.lt_or_gt_of_ne hkl with hlt' | hgt
    · exact habove k hlt'
    · exact hbetween k hgt hk
  case motion =>
    intro a b dist m1 m2 has1 has2
    have h1 : has1 → p.partnerTerm r x = some m1 := fun h => (if_pos h).trans (congrArg some (absDiff_eq_max_sub_min _ _))
    have hn1 : ¬ has1 → p.partnerTerm r x = none := fun h => if_neg h
    have h2 : has2 → p.anchorTerm r x = some m2 := fun h => (anchorTerm_eq p r x).trans ((if_pos h).trans (by
      rw [absDiff_eq_max_sub_min, absDiff_eq_max_sub_min]
      rfl))
    have hn2 : ¬ has2 → p.anchorTerm r x = none := fun h => (anchorTerm_eq p r x).trans (if_neg h)
    refine ⟨fun ha hb => ?_, fun ha hb => ?_, fun ha hb => ?_, fun ha hb => ?_⟩
    · rw [Picture.motion, h1 ha, h2 hb, motionOf]
    · rw [Picture.motion, h1 ha, hn2 hb, motionOf]
    · rw [Picture.motion, hn1 ha, h2 hb, motionOf]
    · rw [Picture.motion, hn1 ha, hn2 hb, motionOf]
  case spatial =>
    intro a b left right h hrows hr hx
    obtain ⟨ha, hb⟩ : a % 2 = p.parity ∧ b % 2 = p.parity := neighbours_anchor hpA h hrows
    refine ⟨ha, hb, ?_, ?_⟩
    · simp only [y_anchor ha, y_anchor hb]
      rfl
    · simp only [c_anchor ha, c_anchor hb]
      rfl
  case lines =>
    intro drawn
    refine ⟨?_, ?_, fun v hv => ?_⟩
    · rw [Picture.has, available_eq, List.find?_isSome]
    · simp [Picture.ownVoid, and_assoc]
    · simp only [Picture.luma, Picture.chroma, available_eq]
      rw [hv]
      exact ⟨rfl, (bits_zero _ _)⟩

end Sys2Proof.Machine
end

section
/-! The range of samples (R83 to R99, R117): every reconstructed sample, and every word that leaves for an output read. -/

namespace Sys2Proof.Machine

open Host (Outcome)

/-! ### Reconstructed samples -/

section Samples

variable {p : Picture}

theorem luma_le (p : Picture) (role : SourceRole) (n x : Nat) : p.luma role n x ≤ 1023 := by
  unfold Picture.luma
  split
  · exact bits10_le _ _
  · exact Nat.zero_le _

theorem chroma_le (p : Picture) (role : SourceRole) (n x : Nat) : p.chroma role n x ≤ 1023 := by
  unfold Picture.chroma
  split
  · exact bits10_le _ _
  · exact Nat.zero_le _

theorem anchorLuma_le (hY : p.fillY ≤ 1023) (r x : Nat) : p.anchorLuma r x ≤ 1023 := by
  unfold Picture.anchorLuma
  split
  · exact luma_le ..
  · exact mean2_le (luma_le ..) (luma_le ..)
  · exact hY

theorem anchorChroma_le (hC : p.fillC ≤ 1023) (r x : Nat) : p.anchorChroma r x ≤ 1023 := by
  unfold Picture.anchorChroma
  split
  · exact chroma_le ..
  · exact mean2_le (chroma_le ..) (chroma_le ..)
  · exact hC

theorem spatialLuma_le (hY : p.fillY ≤ 1023) (r x : Nat) : p.spatialLuma r x ≤ 1023 :=
  have h := anchorLuma_le hY
  edgeEstimate_le (h _ _) (h _ _) (h _ _) (h _ _) (h _ _) (h _ _)

theorem spatialChroma_le (hC : p.fillC ≤ 1023) (r x : Nat) : p.spatialChroma r x ≤ 1023 :=
  mean2_le (anchorChroma_le hC _ _) (anchorChroma_le hC _ _)

theorem missingLuma_le (hY : p.fillY ≤ 1023) (r x : Nat) : p.missingLuma r x ≤ 1023 := by
  unfold Picture.missingLuma
  simp only
  split
  · split
    · exact luma_le ..
    · exact blendSample_le (luma_le ..) (spatialLuma_le hY r x) (blendWeight_le ..)
    · exact spatialLuma_le hY r x
    · exact hY
  · exact spatialLuma_le hY r x

theorem missingChroma_le (hC : p.fillC ≤ 1023) (r x : Nat) : p.missingChroma r x ≤ 1023 := by
  unfold Picture.missingChroma
  simp only
  split
  · split
    · exact chroma_le ..
    · exact blendSample_le (chroma_le ..) (spatialChroma_le hC r x) (blendWeight_le ..)
    · exact spatialChroma_le hC r x
    · exact hC
  · exact spatialChroma_le hC r x

theorem y_le (hY : p.fillY ≤ 1023) (x r : Nat) : p.y x r ≤ 1023 := by
  unfold Picture.y
  split
  · exact anchorLuma_le hY r x
  · exact missingLuma_le hY r x

theorem c_le (hC : p.fillC ≤ 1023) (x r : Nat) : p.c x r ≤ 1023 := by
  unfold Picture.c
  split
  · exact anchorChroma_le hC r x
  · exact missingChroma_le hC r x

end Samples

/-! ### The words that leave (R130) -/

/-- The responses that have left the system port with a step carry samples in range alone. -/
def RespondsInRange (s t : State) : Prop :=
  ∃ new : List Response, t.system.responses = s.system.responses ++ new ∧ ∀ x ∈ new, ∀ w ∈ x.words, sampleWordOk w

theorem RespondsInRange.refl (s : State) : RespondsInRange s s := ⟨[], (List.append_nil _).symm, fun _ hx => by cases hx⟩

theorem returnOutput_responds {words : List Word} (r : Request) (order : Nat) (o : OutputRead) (count : Nat) (s : State)
    (h : ∀ w ∈ words, sampleWordOk w) : RespondsInRange s (returnOutput r order o words count s) := by
  refine ⟨[responsePart r.tag .ok words o.returned count], ?_, fun x hx w hw => ?_⟩
  · rw [returnOutput]
    split <;> rfl
  · rw [List.mem_singleton.mp hx] at hw
    exact h w (List.mem_of_mem_drop (List.mem_of_mem_take hw))

theorem outputReadData_responds (count : Nat) {s : State} (h : s.outputOk) :
    EveryNext (exec (.outputReadData count) s) (RespondsInRange s) := by
  have stand : EveryNext (.next s) (RespondsInRange s) := EveryNext.next (RespondsInRange.refl s)
  refine EveryNext.ite (fun _ => ?_) (fun _ => stand)
  split
  case h_1 q hfirst =>
    split
    case h_1 order o ho =>
      have hread : o.inRange := h.2.2.2 q (leastBy_some hfirst).1 order o ho
      exact EveryNext.ite (fun _ => EveryNext.next (returnOutput_responds _ _ _ _ _ (produced_ok _ _ hread))) (fun _ => stand)
    all_goals exact stand
  case h_2 => exact stand

/-- Settles O39: a sample is a field of a word, a fill value, a mean or a blend; the words that leave are those of a read in range. -/
theorem samplesStayInRange : Obligations.SamplesStayInRange :=
  ⟨fun _ x r hY hC => ⟨y_le hY x r, c_le hC x r⟩, fun count _ t h hexec => outputReadData_responds count h t hexec⟩

end Sys2Proof.Machine
end

section
/-! The choice of a frame start (R68 to R74): its anchor, its method, its judgement and its snapshot. -/

namespace Sys2Proof.Machine

open Host (Outcome)

/-! ### The anchor (R68) -/

section Anchor

variable {h : History} {acq : Acquisition} {n a : FieldRecord}

theorem anchorChoice_none (hf : acq = .acquiring ∨ acq = .failed ∨ h.newestClosed = none) : h.anchorChoice acq = none := by
  by_cases hacq : acq = .acquiring ∨ acq = .failed
  · exact if_pos hacq
  · have hnone : h.newestClosed = none := (or_assoc.mpr hf).resolve_left hacq
    simp only [History.anchorChoice, hnone, ite_self]

/-- R68: the record before the newest closed one, and the method decision; with no such record the newest closed one, and SPATIAL. -/
theorem anchorChoice_some (h1 : acq ≠ .acquiring) (h2 : acq ≠ .failed) (hn : h.newestClosed = some n) :
    h.anchorChoice acq = some ((h.before n.number).getD n, (h.before n.number).isSome) := by
  have hacq : ¬ (acq = .acquiring ∨ acq = .failed) := not_or.mpr ⟨h1, h2⟩
  cases hb : h.before n.number <;> simp only [History.anchorChoice, if_neg hacq, hn, hb] <;> rfl

end Anchor

/-! ### The method (R70 to R73) -/

section Decide

variable {h : History} {a : FieldRecord} {o : Override}

theorem presentClosed_iff (h : History) (f : FieldNo) : h.presentClosed f = true ↔ ∃ r, h.find f = some r ∧ r.state ≠ .filling := by
  cases hf : h.find f <;> simp [History.presentClosed, hf, FieldRecord.closed_eq_true_iff]

theorem isContinuous_iff (h : History) (f : FieldNo) : h.isContinuous f = true ↔ ∃ r, h.find f = some r ∧ r.continuous = true := by
  cases hf : h.find f <;> simp [History.isContinuous, hf]

/-- R72: the blend test. -/
theorem blends_iff (h : History) (a : FieldRecord) : h.blends a = true ↔
    ∃ p, h.find (FieldNo.pred a.number) = some p ∧ a.continuous = true ∧ p.state ≠ .filling ∧ p.parity ≠ a.parity := by
  cases hf : h.find (FieldNo.pred a.number) <;>
    simp [History.blends, hf, FieldRecord.closed_eq_true_iff, Parity.eq_other_iff_ne, and_assoc]

/-- R72: a motion reference is the field of its number where that is present and closed and the field after it is CONTINUOUS. -/
theorem motionReference_iff (h : History) (n after f : FieldNo) :
    (if (h.presentClosed n && h.isContinuous after) = true then some n else none) = some f ↔
      f = n ∧ (∃ r, h.find f = some r ∧ r.state ≠ .filling) ∧ ∃ r, h.find after = some r ∧ r.continuous = true := by
  rw [Option.ite_none_right_eq_some, Bool.and_eq_true, presentClosed_iff, isContinuous_iff, Option.some.injEq]
  constructor
  · rintro ⟨hclosed, rfl⟩
    exact ⟨rfl, hclosed⟩
  · rintro ⟨rfl, hclosed⟩
    exact ⟨hclosed, rfl⟩

theorem decide_spatialOnly (ho : o = .spatialOnly) : h.decide a o = Decision.spatial := if_pos ho

theorem decide_weave {p : PartnerRole} (ho : o = .auto) (hw : h.weavePartner a = some p) :
    h.decide a o = { method := .weave, partner := some p, anchor2 := none, partner2 := none } := by
  subst ho
  simp only [History.decide, reduceCtorEq, if_false, if_true, hw]

theorem decide_other (ho : o ≠ .spatialOnly) (hw : ¬ (o = .auto ∧ (h.weavePartner a).isSome = true)) :
    h.decide a o = if h.blends a = true then h.blendDecision a else Decision.spatial := by
  have hnone : (if o = .auto then h.weavePartner a else none) = none := by
    split
    · next hauto => exact Option.not_isSome_iff_eq_none.mp fun hs => hw ⟨hauto, hs⟩
    · rfl
  simp only [History.decide, ho, if_false, hnone]

end Decide

/-! ### The judgement (R69) -/

section Judgement

variable {previous anchor : FieldNo}

theorem judgeAnchor_first (anchor : FieldNo) : judgeAnchor 0 anchor = (false, 0) := if_pos rfl

theorem judgeAnchor_later (h : previous ≠ 0) : judgeAnchor previous anchor =
    if admissionsFrom previous anchor = 0 then (true, 0) else if admissionsFrom previous anchor = 1 then (false, 0)
    else if admissionsFrom previous anchor < 2147483648 then (false, admissionsFrom previous anchor - 1) else (false, 0) := if_neg h

end Judgement

/-! ### The snapshot (R74, R101) -/

section Snapshots

variable {s : State} {g : OutputGroup}

theorem source_unknown (h : s.settings.ingest = none ∨ s.knownL = 0) : s.source = (0, 0) := by
  unfold State.source
  split
  · next gi hgi => exact if_pos (h.resolve_left (by rw [hgi]; exact nofun))
  · rfl

theorem source_known {gi : IngestGroup} (hgi : s.settings.ingest = some gi) (hl : s.knownL ≠ 0) : s.source = (gi.w, 2 * s.knownL) := by
  simp only [State.source, hgi, hl, if_false]

/-- R74: the snapshot of a frame with no source. -/
theorem snapshot_unknown (h : s.settings.ingest = none ∨ s.knownL = 0) : s.snapshot g = takeSnapshot 0 0 g s.settings.customRows := by
  rw [State.snapshot, source_unknown h]

theorem snapshot_known {gi : IngestGroup} (hgi : s.settings.ingest = some gi) (hw : 0 < gi.w) (hl : s.knownL ≠ 0) :
    s.snapshot g = { takeSnapshot 0 0 g s.settings.customRows with
      width := gi.w, rows := 2 * s.knownL
      vStep := axisStep (2 * s.knownL) g.hi, vOffset := axisOffset (2 * s.knownL) g.hi (axisStep (2 * s.knownL) g.hi)
      hStep := axisStep gi.w g.wi, lumaOffset := axisOffset gi.w g.wi (axisStep gi.w g.wi)
      chromaOffset := axisOffset (gi.w / 2) (g.wi / 2) (axisStep gi.w g.wi) } := by
  have hknown : (decide (gi.w ≠ 0) && decide (2 * s.knownL ≠ 0)) = true := by
    rw [Bool.and_eq_true, decide_eq_true_eq, decide_eq_true_eq]
    omega
  rw [State.snapshot, source_known hgi hl]
  simp only [takeSnapshot, hknown, if_true]

end Snapshots

/-! ### The choice -/

section Choice

variable {s : State} {g : OutputGroup}

theorem chooseFrame_none (h : s.history.anchorChoice s.monitor.acquisition = none) : s.chooseFrame g =
    { plan := fillPlan (s.snapshot g), previousAnchor := s.planner.previousAnchor, condition := none } := by
  simp only [State.chooseFrame, h]

/-- The method decision of a frame start with an anchor. -/
def State.decisionFor (s : State) (g : OutputGroup) (a : FieldRecord) (decided : Bool) : Decision :=
  if decided then s.history.decide a g.override else Decision.spatial

theorem chooseFrame_some {a : FieldRecord} {decided : Bool} (h : s.history.anchorChoice s.monitor.acquisition = some (a, decided)) :
    let d := s.decisionFor g a decided
    let j := judgeAnchor s.planner.previousAnchor a.number
    s.chooseFrame g =
      { plan :=
          { method := d.method, repeated := j.1, anchor := some { field := a.number, slot := a.slot, parity := a.parity }
            partner := d.partner, anchor2 := d.anchor2, partner2 := d.partner2, anchorLost := false, partnerLost := false
            motionLost := false, snapshot := s.snapshot g }
        previousAnchor := a.number
        condition := judgement a.number d.method j } := by
  simp only [State.chooseFrame, h]
  rfl

theorem chooseFrame_lost (s : State) (g : OutputGroup) : (s.chooseFrame g).plan.anchorLost = false ∧
    (s.chooseFrame g).plan.partnerLost = false ∧ (s.chooseFrame g).plan.motionLost = false := by
  unfold State.chooseFrame
  split <;> exact ⟨rfl, rfl, rfl⟩

section Decision

variable {s : State} {g : OutputGroup} {a : FieldRecord} {b : Bool}

theorem decisionFor_undecided (h : ¬ (b = true ∧ g.override ≠ .spatialOnly)) : s.decisionFor g a b = Decision.spatial := by
  unfold State.decisionFor
  split
  · next hb => exact decide_spatialOnly (Classical.not_not.mp fun ho => h ⟨hb, ho⟩)
  · rfl

theorem decisionFor_weave {p : PartnerRole} (hb : b = true) (ho : g.override = .auto) (hw : s.history.weavePartner a = some p) :
    s.decisionFor g a b = { method := .weave, partner := some p, anchor2 := none, partner2 := none } :=
  (if_pos hb).trans (decide_weave ho hw)

theorem decisionFor_other (hb : b = true) (ho : g.override ≠ .spatialOnly)
    (hw : ¬ (g.override = .auto ∧ (s.history.weavePartner a).isSome = true)) :
    s.decisionFor g a b = if s.history.blends a = true then s.history.blendDecision a else Decision.spatial :=
  (if_pos hb).trans (decide_other ho hw)

end Decision

end Choice

/-- Settles O33: the anchor by `anchorChoice_some`, its method by the `decisionFor` lemmas, its judgement by the count of admissions. -/
theorem frameStartChoosesAnchorAndMethod : Obligations.FrameStartChoosesAnchorAndMethod := by
  intro g s c
  obtain ⟨ha, hp, hm⟩ := chooseFrame_lost s g
  refine ⟨fun hf => ?none, fun n a h1 h2 hn hanchor => ?some, ha, hp, hm, fun gi hgi => ?length, fun hunknown => ?unknown,
    fun gi hgi hw hl => ?known⟩
  case none =>
    have hc : c = _ := chooseFrame_none (anchorChoice_none hf)
    rw [hc]
    exact ⟨rfl, rfl, rfl, rfl, rfl, rfl, rfl, rfl⟩
  case unknown =>
    exact (chooseFrame_snapshot s g).trans (snapshot_unknown hunknown)
  case known => exact (chooseFrame_snapshot s g).trans (snapshot_known hgi hw hl)
  case length => cases hacq : s.monitor.acquisition <;> simp only [State.knownL, hgi, hacq]
  case some =>
    have hc : c = _ := chooseFrame_some ((anchorChoice_some h1 h2 hn).trans (by rw [← hanchor]))
    intro d previous blends weaves decided
    have hother : decided → ¬ weaves → s.decisionFor g a (s.history.before n.number).isSome = _ :=
      fun hd hw => decisionFor_other hd.1 hd.2 hw
    have hblends : s.history.blends a = true ↔ blends := blends_iff s.history a
    rw [hc]
    refine ⟨rfl, rfl, fun h => ?spatial, fun hd hw => ?weave, fun hd hw hb => ?blend, fun hprev => ?first, fun hprev => ?later⟩
    case spatial =>
      have hspatial : s.decisionFor g a (s.history.before n.number).isSome = Decision.spatial := by
        by_cases hd : decided
        · obtain ⟨hw, hb⟩ := h.resolve_left (fun hnd => hnd hd)
          rw [hother hd hw, if_neg (mt hblends.mp hb)]
        · exact decisionFor_undecided hd
      rw [hspatial]
      exact ⟨rfl, rfl, rfl, rfl⟩
    case weave =>
      obtain ⟨p, hp⟩ := Option.isSome_iff_exists.mp hw.2
      simp only [decisionFor_weave hd.1 hw.1 hp, hp, and_self]
    case blend =>
      have hblend : s.decisionFor g a (s.history.before n.number).isSome = s.history.blendDecision a := by
        rw [hother hd hw, if_pos (hblends.mpr hb)]
      rw [hblend]
      exact ⟨rfl, rfl, fun f => motionReference_iff _ _ _ f, fun f => motionReference_iff _ _ _ f⟩
    case first =>
      rw [hprev, judgeAnchor_first]
      exact ⟨rfl, rfl⟩
    case later =>
      have hd : admissionsFrom s.planner.previousAnchor a.number = d := rfl
      rw [judgeAnchor_later hprev, hd]
      refine ⟨fun h0 => ?_, fun h1 => ?_, fun hlo hhi => ?_, fun hhi => ?_⟩
      · rw [if_pos h0]
        exact ⟨rfl, rfl⟩
      · rw [if_neg (by omega), if_pos h1]
        exact ⟨rfl, rfl⟩
      · rw [if_neg (by omega), if_neg (by omega), if_pos (by omega)]
        exact ⟨rfl, if_neg (by omega)⟩
      · rw [if_neg (by omega), if_neg (by omega), if_neg (by omega)]
        exact ⟨rfl, rfl⟩

end Sys2Proof.Machine
end

section
/-! The take of an output read (R64, R65, R75, R121 to R124): the frame it may start, its room in the line store, and the state it leaves. -/

namespace Sys2Proof.Machine

open Host (Outcome)

/-! ### The output load at a frame start (R65 step 1, R166) -/

section Load

variable {s : State}

theorem loadAtFrame_pending (hp : s.settings.outputPending = true) (hz : s.settings.at 0 = 0) : loadAtFrame s = loadOutput s :=
  if_pos ⟨hp, decide_eq_true hz⟩

theorem loadAtFrame_stands (h : s.settings.outputPending = false ∨ s.settings.at 0 ≠ 0) : loadAtFrame s = s := by
  refine if_neg fun ⟨hp, hz⟩ => ?_
  rcases h with h | h
  · exact Bool.false_ne_true (h.symm.trans hp)
  · exact h (of_decide_eq_true hz)

theorem loadAtFrame_frame (s : State) : loadAtFrame s = { s with settings := (loadAtFrame s).settings, cond := (loadAtFrame s).cond } := by
  unfold loadAtFrame
  split
  · rw [loadOutput_eq]
  · rfl

/-- R169: a refused output load leaves the working group, and a passed one makes another. -/
theorem loadOutput_works {g : OutputGroup} (hg : s.settings.output = some g) : ∃ g1, (loadOutput s).settings.output = some g1 := by
  unfold loadOutput
  simp only
  split
  · rw [raise_settings]
    exact ⟨g, hg⟩
  · rw [raiseAll_settings]
    exact ⟨_, rfl⟩

theorem loadAtFrame_works {g : OutputGroup} (hg : s.settings.output = some g) : ∃ g1, (loadAtFrame s).settings.output = some g1 := by
  unfold loadAtFrame
  split
  · exact loadOutput_works hg
  · exact ⟨g, hg⟩

end Load

/-! ### The frame start (R64, R65) -/

section Frame

variable {s : State} {offset : Nat} {g : OutputGroup}

/-- R64: a read starts a frame in row 0, where no plan stands or a later row was read. -/
theorem startsFrame_iff (s : State) (offset : Nat) : s.startsFrame offset = true ↔ ∃ g, s.settings.output = some g ∧
    offset / g.pitch = 0 ∧ (s.planner.plan = none ∨ s.planner.laterRow = true) := by
  cases hg : s.settings.output <;> simp [State.startsFrame, hg, pixelRow]

theorem markRow_none (h : s.planner.plan = none) : markRow offset s = s := by simp only [markRow, h]

/-- R65: the later-row flag is set by a read past row 0, and never cleared. -/
theorem markRow_some {p : Plan} (h : s.planner.plan = some p) : markRow offset s =
    { s with planner := { s.planner with laterRow := s.planner.laterRow || decide (1 ≤ offset / p.snapshot.pitch) } } := by
  by_cases hrow : 1 ≤ offset / p.snapshot.pitch
  · simp only [markRow, h, pixelRow, hrow, if_true, decide_true, Bool.or_true]
  · simp only [markRow, h, pixelRow, hrow, if_false, decide_false, Bool.or_false]
    rw [← h]

theorem enterFrame_continues (h : s.startsFrame offset = false) : enterFrame offset s = markRow offset s := by
  rw [enterFrame, if_neg (by rw [h]; exact Bool.false_ne_true)]

theorem enterFrame_starts (h : s.startsFrame offset = true) (hg : (loadAtFrame s).settings.output = some g) :
    enterFrame offset s = markRow offset (beginFrame g (loadAtFrame s)) := by
  rw [enterFrame, if_pos h]
  simp only [frameStart, hg]

/-- R65: what the planner holds after a frame start. -/
def framePlanner (g : OutputGroup) (v : State) (later : Bool) : Planner :=
  { plan := some (v.chooseFrame g).plan, frame := FieldNo.succ v.planner.frame, laterRow := later
    previousAnchor := (v.chooseFrame g).previousAnchor }

theorem beginFrame_planner (g : OutputGroup) (v : State) : (beginFrame g v).planner = framePlanner g v false := by
  simp only [beginFrame, scheduleStatus_planner, raiseAll_planner]
  rfl

/-- R74: the snapshot of a frame has the pitch of the group it starts under. -/
theorem chooseFrame_pitch (v : State) (g : OutputGroup) : (v.chooseFrame g).plan.snapshot.pitch = g.pitch := by
  rw [chooseFrame_snapshot]
  rfl

/-- A status write is scheduled where the STATUS window stands. -/
theorem scheduleStatus_congr {u v : State} (hc : u.cond = v.cond) (hs : u.statusStands = v.statusStands) :
    (scheduleStatus u).cond = (scheduleStatus v).cond := by
  simp only [scheduleStatus, hc, hs]

/-- R65: what a frame start writes, the later-row flag of its read with it. -/
theorem markRow_beginFrame (offset : Nat) (g : OutputGroup) (v : State) : markRow offset (beginFrame g v) = { v with
    planner := framePlanner g v (decide (1 ≤ offset / g.pitch))
    history := v.history.reference (some (v.chooseFrame g).plan)
    cond := (scheduleStatus (raiseAll (v.chooseFrame g).condition.toList
      { v with planner := framePlanner g v (decide (1 ≤ offset / g.pitch)) })).cond } := by
  have hplan : (beginFrame g v).planner.plan = some (v.chooseFrame g).plan := by rw [beginFrame_planner]; rfl
  have hcond : (beginFrame g v).cond = (scheduleStatus (raiseAll (v.chooseFrame g).condition.toList
      { v with planner := framePlanner g v (decide (1 ≤ offset / g.pitch)) })).cond := by
    refine scheduleStatus_congr (raiseAll_congr _ rfl rfl rfl rfl) ?_
    rw [raiseAll_eq, raiseAll_eq _ { v with planner := _ }]
    rfl
  rw [markRow_some hplan, hcond.symm, beginFrame_planner, chooseFrame_pitch]
  simp only [beginFrame]
  rw [raiseAll_eq]
  rfl

end Frame

/-! ### The take (R75, R122, R124) -/

section Take

variable {s : State} {q : QueuePosition} {before after : List QueuePosition}

/-- R123: in every state that keeps the laws there is room for the lines of a need set. -/
theorem room_of_deviceOk (h : s.deviceOk) (hm : s.mustHold = false) (offset count : Nat) :
    s.store.room ((enterFrame offset s).wantedLines offset count).length := by
  have hfew : s.counted < Config.outputLimit := by
    refine Nat.not_le.mp fun hmany => ?_
    obtain ⟨_, hhold⟩ := turn_at_limit hmany
    exact Bool.false_ne_true (hm.symm.trans hhold)
  obtain ⟨hroom, hlru⟩ := storeOk_room h.2 h.1.2.1.2.2.2.2.2.2 hfew
  exact ⟨Nat.le_trans (wantedLines_length _ _ _) hroom, hlru⟩

theorem outputReadTake_next (hp : s.phase = .running) (hq : s.system.queue = before ++ q :: after)
    (hb : ∀ p ∈ before, s.systemTurn p = false) (ht : s.systemTurn q = true) (hj : s.judge .system q.request = .toOutput)
    (hm : s.mustHold = false) : exec .outputReadTake s = takeOutputRead q.request s := by
  have hn : s.nextSystem = some q := by
    rw [State.nextSystem, hq]
    exact find_at hb ht
  have htakes : s.takesOutput q.request = true := by
    rw [State.takesOutput, hj, hm]
    rfl
  simp only [exec, execOutputReadTake, if_pos hp, hn, htakes, if_true]

theorem takeOutputRead_next {r : Request} {st : LineStore} {need : List NeedLine}
    (h : (enterFrame (s.outputOffset r) s).store.takeLines ((enterFrame (s.outputOffset r) s).wantedLines (s.outputOffset r) r.count) =
      some (st, need)) : takeOutputRead r s = .next (placeOutput s.systemTurn r
        ({ enterFrame (s.outputOffset r) s with store := st },
          { enterFrame (s.outputOffset r) s with store := st }.takenRead (s.outputOffset r) need)) := by
  simp only [takeOutputRead, takeOutput, h]

theorem anyFilling_iff (st : LineStore) (need : List NeedLine) :
    st.anyFilling need = true ↔ ∃ n ∈ need, (st.entry n.entry).state = .filling := by
  simp [LineStore.anyFilling]

/-- R64: the offset of a read from the OUTPUT window's base. -/
theorem outputOffset_window {r : Request} {w : WindowEntry} (h : s.window .output = some w) : s.outputOffset r = firstAddr r - w.base := by
  simp only [State.outputOffset, h]

/-- R122: the lines of a need set are taken one after another. -/
theorem takeLines_cons (st : LineStore) (w : WantedLine) (ws : List WantedLine) : st.takeLines (w :: ws) =
    (st.takeLine w).bind (fun a => (a.1.takeLines ws).map (fun b => (b.1, a.2 :: b.2))) := by
  rw [LineStore.takeLines]
  cases st.takeLine w with
  | none => rfl
  | some a =>
    simp only [Option.bind_some]
    cases a.1.takeLines ws <;> rfl

/-- R65: a read that starts no frame leaves the later-row flag of its row. -/
theorem enterFrame_continued {offset : Nat} (h : s.startsFrame offset = false) :
    (s.planner.plan = none → enterFrame offset s = s) ∧
    (∀ p, s.planner.plan = some p → enterFrame offset s =
      { s with planner := { s.planner with laterRow := s.planner.laterRow || decide (1 ≤ offset / p.snapshot.pitch) } }) := by
  rw [enterFrame_continues h]
  exact ⟨markRow_none, fun _ => markRow_some⟩

/-- R65: a read that starts a frame leaves the plan chosen after the load, and the conditions of its choice. -/
theorem enterFrame_started {offset : Nat} (h : s.startsFrame offset = true) : ∃ g, (loadAtFrame s).settings.output = some g ∧
    enterFrame offset s = { loadAtFrame s with
      planner := framePlanner g (loadAtFrame s) (decide (1 ≤ offset / g.pitch))
      history := (loadAtFrame s).history.reference (some ((loadAtFrame s).chooseFrame g).plan)
      cond := (scheduleStatus (raiseAll ((loadAtFrame s).chooseFrame g).condition.toList
        { loadAtFrame s with planner := framePlanner g (loadAtFrame s) (decide (1 ≤ offset / g.pitch)) })).cond } := by
  obtain ⟨g0, hg0, _⟩ := (startsFrame_iff s offset).mp h
  obtain ⟨g, hg⟩ := loadAtFrame_works hg0
  exact ⟨g, hg, (enterFrame_starts h hg).trans (markRow_beginFrame offset g _)⟩

end Take

end Sys2Proof.Machine
end

section
/-! The lines an output read wants (R84, R104, R110, R121, R125): their draws, their order, and where each lies. -/

namespace Sys2Proof.Machine

open Host (Outcome)

/-! ### The draws of the rows (R84) -/

theorem mem_rowDraws (us : SourceRole → Nat → Bool) (m : Method) (pA rows r : Nat) (d : SourceRole × Nat) :
    d ∈ rowDraws us m pA rows r ↔ (r % 2 = pA ∧ d ∈ (plannedSource us pA rows r).draws) ∨
      (r % 2 ≠ pA ∧ (d ∈ (plannedSource us pA rows (neighbourA r)).draws ∨ d ∈ (plannedSource us pA rows (neighbourB rows r)).draws ∨
        d ∈ methodDraws us m pA rows r)) := by
  by_cases h : r % 2 = pA
  · have hanchor : isAnchorRow pA r = true := decide_eq_true h
    rw [rowDraws, if_pos hanchor]
    simp [h]
  · have hmissing : ¬ isAnchorRow pA r = true := fun hc => h (of_decide_eq_true hc)
    rw [rowDraws, if_neg hmissing]
    simp [h]

theorem rowDraws_usable {us : SourceRole → Nat → Bool} {m : Method} {pA rows r : Nat} {d : SourceRole × Nat}
    (h : d ∈ rowDraws us m pA rows r) : us d.1 d.2 = true := by
  rcases (mem_rowDraws us m pA rows r d).mp h with ⟨_, hd⟩ | ⟨_, hd | hd | hd⟩
  · exact plannedSource_usable _ _ _ _ _ hd
  · exact plannedSource_usable _ _ _ _ _ hd
  · exact plannedSource_usable _ _ _ _ _ hd
  · exact methodDraws_usable _ _ _ _ _ _ hd

/-! ### The order of a need set (R121) -/

theorem ownLineOf_iff (pA rows : Nat) (taps : List Nat) (l : Nat) : ownLineOf pA rows taps l = true ↔
    ∃ r ∈ taps, ∃ n ∈ (if r % 2 = pA then [r] else [neighbourA r, neighbourB rows r]), lineAtRow pA n = l := by
  simp only [ownLineOf, anchorRowsOf, isAnchorRow, decide_eq_true_eq, List.any_flatMap, List.any_eq_true]

theorem missingLineOf_iff (pA : Nat) (taps : List Nat) (l : Nat) : missingLineOf pA taps l = true ↔
    ∃ r ∈ taps, r % 2 ≠ pA ∧ lineAtRow (1 - pA) r = l := by
  simp [missingLineOf, isAnchorRow]

/-- R121: of two lines of a need set the first is before the second by rank, by number, or as the anchor's. -/
theorem ordered_before {rank : SourceRole × Nat → Nat} (hr : tellsApart rank) {a b : SourceRole × Nat} (hne : a ≠ b)
    (h : drawBefore rank b a = false) : rank a < rank b ∨
      (rank a = rank b ∧ (a.2 < b.2 ∨ (a.2 = b.2 ∧ a.1 = .anchor ∧ b.1 ≠ .anchor))) := by
  rw [← Bool.not_eq_true, drawBefore_iff, not_or, Classical.not_and_iff_not_or_not, not_or, Classical.not_and_iff_not_or_not] at h
  obtain ⟨hrank, hsame⟩ := h
  rcases Nat.lt_or_ge (rank a) (rank b) with hlt | hge
  · exact .inl hlt
  · have heq : rank a = rank b := by omega
    refine .inr ⟨heq, ?_⟩
    obtain ⟨hline, hrole⟩ := hsame.resolve_left (fun hc => hc heq.symm)
    rcases Nat.lt_or_ge a.2 b.2 with hl | hl
    · exact .inl hl
    · have hlines : a.2 = b.2 := by omega
      have hb : b.1 ≠ .anchor := hrole.resolve_left (fun hc => hc hlines.symm)
      refine .inr ⟨hlines, ?_, hb⟩
      refine Classical.byContradiction fun ha => ?_
      exact hne (hr a b heq hlines ⟨fun hc => absurd hc ha, fun hc => absurd hc hb⟩)

/-! ### The wanted line of a draw (R125) -/

section Wanted

variable {h : History} {p : Plan} {g : Ring} {d : SourceRole × Nat} {w : WantedLine}

theorem entry_usable_iff (e : LineEntry) :
    e.usable = true ↔ ∃ f, e.final = some f ∧ (f = .held ∨ f = .overlong ∨ f = .good) := by
  cases hf : e.final <;> simp [LineEntry.usable, hf, LineState.usable_eq_true_iff]

theorem roleUsable_iff (h : History) (p : Plan) (role : SourceRole) (l : Nat) : h.roleUsable p role l = true ↔
    ∃ r f, h.recordOf p role = some r ∧ (r.lines.getD l LineEntry.fresh).final = some f ∧ (f = .held ∨ f = .overlong ∨ f = .good) := by
  rw [History.roleUsable, usableIn_iff]
  exact exists_congr fun r => by rw [exists_and_left, entry_usable_iff]

theorem wanted_some_iff (h : History) (p : Plan) (g : Ring) (d : SourceRole × Nat) (w : WantedLine) :
    h.wanted p g d = some w ↔ ∃ r, h.recordOf p d.1 = some r ∧
      w = { role := d.1, line := d.2, tag := { slot := r.slot, field := r.number, line := d.2 }
            held := (r.lines.getD d.2 LineEntry.fresh).heldExtent, base := g.lineBase r.slot d.2, width := g.width } := by
  cases hr : h.recordOf p d.1 with
  | none => simp [History.wanted, hr]
  | some r =>
    simp only [History.wanted, hr, Option.some.injEq, exists_eq_left']
    exact eq_comm

/-- The wanted line of a draw is of the draw's role and line. -/
theorem wanted_place (hw : h.wanted p g d = some w) : (w.role, w.line) = d := by
  obtain ⟨r, _, rfl⟩ := (wanted_some_iff h p g d w).mp hw
  rfl

theorem wanted_of_usable (hu : h.roleUsable p d.1 d.2 = true) : ∃ w, h.wanted p g d = some w := by
  obtain ⟨r, _, hr, _⟩ := (roleUsable_iff h p d.1 d.2).mp hu
  exact ⟨_, (wanted_some_iff h p g d _).mpr ⟨r, hr, rfl⟩⟩

end Wanted

/-! ### The lines of a read (R121) -/

/-- R82: the parity by which a plan's rows are its anchor's. -/
def Plan.anchorParity (p : Plan) : Nat :=
  match p.anchor with
  | some a => a.parity.toNat
  | none => 0

/-- R104: whether a read of count words from an offset has a picture word. -/
def Plan.pictured (p : Plan) (offset count : Nat) : Prop := p.method ≠ .fill ∧ ∃ i < count,
  pixelColumn p.snapshot.pitch (offset + 4 * i) < p.snapshot.wo ∧ pixelRow p.snapshot.pitch (offset + 4 * i) < p.snapshot.ho ∧
    p.snapshot.x0 ≤ pixelColumn p.snapshot.pitch (offset + 4 * i) ∧
    pixelColumn p.snapshot.pitch (offset + 4 * i) < p.snapshot.x0 + p.snapshot.wi ∧
    p.snapshot.y0 ≤ pixelRow p.snapshot.pitch (offset + 4 * i) ∧
    pixelRow p.snapshot.pitch (offset + 4 * i) < p.snapshot.y0 + p.snapshot.hi ∧
    pixelRow p.snapshot.pitch (offset + 4 * i) = pixelRow p.snapshot.pitch offset

theorem pictured_iff (p : Plan) (offset count : Nat) :
    (wordOffsets offset count).any (fun o => p.pictureAt offset o) = true ↔ p.pictured offset count := by
  simp only [wordOffsets, List.any_map, List.any_eq_true, Function.comp, List.mem_range, pictureAt_iff, Plan.pictured]
  constructor
  · rintro ⟨i, hi, hmethod, hbox⟩
    exact ⟨hmethod, i, hi, hbox⟩
  · rintro ⟨hmethod, i, hi, hbox⟩
    exact ⟨i, hi, hmethod, hbox⟩

theorem neededRows_pictured {p : Plan} {offset count : Nat} (h : p.pictured offset count) :
    p.neededRows offset count = p.snapshot.rowTaps (pixelRow p.snapshot.pitch offset) := if_pos ((pictured_iff p offset count).mpr h)

theorem neededRows_empty {p : Plan} {offset count : Nat} (h : ¬ p.pictured offset count) : p.neededRows offset count = [] :=
  if_neg (mt (pictured_iff p offset count).mp h)

section Lines

variable {s : State} {p : Plan} {g : Ring} {offset count : Nat}

theorem wantedLines_none (h : s.planner.plan = none ∨ s.ring = none) : s.wantedLines offset count = [] := by
  unfold State.wantedLines
  split
  · next hp hr => rcases h with h | h <;> simp_all
  · rfl

theorem wantedLines_some (hp : s.planner.plan = some p) (hg : s.ring = some g) : s.wantedLines offset count =
    (needDraws (s.history.roleUsable p) p.method p.anchorParity p.snapshot.rows (p.neededRows offset count)).filterMap
      (s.history.wanted p g) := by
  simp only [State.wantedLines, hp, hg]
  rfl

/-- R121: the wanted lines are those that the needed rows draw on. -/
theorem wantedLines_draws (hp : s.planner.plan = some p) (hg : s.ring = some g) (d : SourceRole × Nat) :
    (∃ w ∈ s.wantedLines offset count, (w.role, w.line) = d) ↔ ∃ r ∈ p.neededRows offset count,
      d ∈ rowDraws (s.history.roleUsable p) p.method p.anchorParity p.snapshot.rows r := by
  rw [wantedLines_some hp hg, ← (needDraws_spec _ _ _ _ _).2]
  constructor
  · rintro ⟨w, hw, rfl⟩
    obtain ⟨e, he, hwe⟩ := List.mem_filterMap.mp hw
    rw [wanted_place hwe]
    exact he
  · intro hd
    obtain ⟨r, _, hr⟩ := ((needDraws_spec _ _ _ _ _).2 d).mp hd
    obtain ⟨w, hw⟩ := wanted_of_usable (g := g) (rowDraws_usable hr)
    exact ⟨w, List.mem_filterMap.mpr ⟨d, hd, hw⟩, wanted_place hw⟩

/-- R121: the wanted lines stand in the order of a need set. -/
theorem wantedLines_ordered (hp : s.planner.plan = some p) (hg : s.ring = some g) :
    let rank := fun w : WantedLine => drawRank p.anchorParity p.snapshot.rows (p.neededRows offset count) (w.role, w.line)
    (s.wantedLines offset count).Pairwise (fun a b => rank a < rank b ∨
      (rank a = rank b ∧ (a.line < b.line ∨ (a.line = b.line ∧ a.role = .anchor ∧ b.role ≠ .anchor)))) := by
  intro rank
  rw [wantedLines_some hp hg, List.pairwise_filterMap]
  refine (needDraws_spec _ _ _ _ _).1.imp fun ⟨hne, hbefore⟩ a ha b hb => ?_
  have := ordered_before (drawRank_tellsApart _ _ _) hne hbefore
  rw [← wanted_place ha, ← wanted_place hb] at this
  exact this

theorem ring_window (h : s.ring = some g) : ∃ win gi, s.window .fieldRing = some win ∧ s.settings.ingest = some gi ∧
    g.base = win.base ∧ g.slotPitch = gi.slotPitch ∧ g.linePitch = gi.linePitch ∧ g.width = gi.w := by
  unfold State.ring at h
  split at h
  · next gi win hgi hwin =>
    split at h
    · cases h
      exact ⟨win, gi, hwin, hgi, rfl, rfl, rfl, rfl⟩
    · cases h
  · cases h

end Lines

/-- R110: the taps at a source index are the four about it, each clamped. -/
theorem taps_eq (src : Nat) (n : Int) : taps src n = ([-1, 0, 1, 2] : List Int).map (fun k => clampTap src (n + k)) := by
  simp only [taps, List.map_cons, List.map_nil, Int.add_zero, Int.sub_eq_add_neg]

/-- R137, R138: what the take of an output read leaves in its position. -/
theorem placeOutput_at {before after : List QueuePosition} {q : QueuePosition} {s u : State} (hsys : u.system = s.system)
    (htakes : u.takes = s.takes) (st : LineStore) (o : OutputRead) (hq : s.system.queue = before ++ q :: after)
    (hb : ∀ p ∈ before, s.systemTurn p = false) (ht : s.systemTurn q = true) :
    placeOutput s.systemTurn q.request ({ u with store := st }, o) = { u with
      takes := s.takes + 1, store := st
      system := { s.system with
        queue := before ++ { q with progress := .outputTaken s.takes o } :: after
        acks := s.system.acks ++ [{ tag := q.request.tag, body := .readClass o.deferred }] } } := by
  simp only [placeOutput, hsys, htakes, take_at _ _ _ hq hb ht, becomes, Option.toList_some, List.append_assoc, List.singleton_append]

/-- Settles O35: the take by the room that the laws leave (R123), the wanted lines by what the needed rows draw on and the need set's
order. -/
theorem outputReadTakeServesTheReadUnderItsPlan : Obligations.OutputReadTakeServesTheReadUnderItsPlan := by
  refine ⟨?take, fun st w ws => ⟨rfl, takeLines_cons st w ws⟩, fun s offset count => ⟨wantedLines_none, fun p gr hplan hring => ?lines⟩⟩
  case take =>
    intro before after q s hp hq hb ht hj hm offset u wanted hroom
    have hstore : u.store = s.store := enterFrame_store offset s
    have hbus : KeepsBus s u := enterFrame_keeps offset s
    obtain ⟨hmem, hmon, hprobe, hcad, hwin⟩ := enterFrame_fields offset s
    have hr : s.store.room wanted.length := hroom.elim (fun h => room_of_deviceOk h hm _ _) id
    obtain ⟨⟨st, need⟩, hlines, hneed⟩ := takeLines_room wanted hr
    have hexec := (outputReadTake_next hp hq hb ht hj hm).trans (takeOutputRead_next (by rw [enterFrame_store]; exact hlines))
    refine ⟨_, ({ u with store := st } : State).takenRead offset need, hexec, hlines, hneed, anyFilling_iff _ _, rfl, rfl, rfl, rfl, rfl, rfl,
      ?state, fun w => outputOffset_window, startsFrame_iff s offset, fun h => ?continues, fun h => ?starts, hbus.capture, hbus.dram,
      hmem, hmon, hprobe, hcad, hwin⟩
    case state => exact placeOutput_at hbus.system hbus.takes st _ hq hb ht
    case continues =>
      obtain ⟨hnone, hsome⟩ := enterFrame_continued h
      cases hplan : s.planner.plan with
      | none => exact (hnone hplan).trans (by rw [Bool.or_false])
      | some p => exact hsome p hplan
    case starts =>
      obtain ⟨g, hg, hu : u = _⟩ := enterFrame_started h
      have hplanner : u.planner = framePlanner g (loadAtFrame s) (decide (1 ≤ offset / g.pitch)) := by rw [hu]
      have hload : (loadAtFrame s).planner = s.planner := by rw [loadAtFrame_frame]
      refine ⟨loadAtFrame s, g, loadAtFrame_pending, loadAtFrame_stands, hg, ?_, by rw [hu], by rw [hplanner, hu], by rw [hu]⟩
      rw [hplanner, framePlanner, hload]
  case lines =>
    intro g row pictured taps named record usable pA own other above below up down nearest source moves draws rank
    have hpA : pA = p.anchorParity := rfl
    have hpictured : pictured ↔ p.pictured offset count := Iff.rfl
    have hrecord : ∀ role, record role = s.history.recordOf p role := fun role => by cases role <;> rfl
    have husable : usable = fun role l => s.history.roleUsable p role l = true := by
      funext role l
      exact propext (by rw [roleUsable_iff, ← hrecord])
    have htaps : taps = g.rowTaps row := (taps_eq _ _).symm
    have hdraws : ∀ r d, draws r d ↔ d ∈ rowDraws (s.history.roleUsable p) p.method pA g.rows r := by
      clear_value usable
      subst husable
      intro r d
      rw [mem_rowDraws, mem_plannedSource, mem_plannedSource, mem_plannedSource, mem_methodDraws]
      exact Iff.rfl
    refine ⟨fun d => ?member, ?order, ?place⟩
    case member =>
      rw [wantedLines_draws hplan hring, hpictured]
      by_cases h : p.pictured offset count
      · simp only [neededRows_pictured h, h, true_and, hdraws, htaps]
        exact Iff.rfl
      · simp only [neededRows_empty h, h, false_and, List.not_mem_nil, exists_false]
    case order =>
      have hrank : ∀ w, rank w = drawRank pA g.rows taps (w.role, w.line) := by
        rintro ⟨role, line, tag, held, base, width⟩
        cases role with
        | anchor => exact ite_congr (propext (ownLineOf_iff _ _ _ _).symm) (fun _ => rfl) fun _ => rfl
        | partner => exact ite_congr (propext (missingLineOf_iff _ _ _).symm) (fun _ => rfl) fun _ => rfl
        | partner2 => rfl
        | anchor2 => rfl
      by_cases h : p.pictured offset count
      · have hordered := wantedLines_ordered (offset := offset) (count := count) hplan hring
        rw [neededRows_pictured h] at hordered
        simp only [hrank, htaps]
        exact hordered
      · rw [wantedLines_some hplan hring, neededRows_empty h]
        exact List.Pairwise.nil
    case place =>
      obtain ⟨win, gi, hwin, hgi, hbase, hslot, hline, hwidth⟩ := ring_window hring
      refine ⟨win, gi, hwin, hgi, fun w hw => ?_⟩
      rw [wantedLines_some hplan hring] at hw
      obtain ⟨d, _, hd⟩ := List.mem_filterMap.mp hw
      obtain ⟨r, hr, rfl⟩ := (wanted_some_iff _ _ _ _ _).mp hd
      refine ⟨r, (hrecord _).trans hr, rfl, hwidth, ?_, rfl⟩
      rw [← hbase, ← hslot, ← hline]
      rfl

end Sys2Proof.Machine
end
